-- ==== Sys2Proof/Word.lean ====
section
/-! DEFINITION. Words, index types and the small shapes every other file uses (0.4, 0.5.4). -/

namespace Sys2Proof

/-- One byte of a frame, a record or the serial memory. -/
abbrev Byte := BitVec 8

/-- A 16-bit word: a link address, a sequence number, a request tag (0.6). -/
abbrev U16 := BitVec 16

/-- Feeders 0 to 7 (0.4). -/
abbrev Feeder := Fin 8

/-- The nine streams and the nine map entries: 0 to 7 are the feeders, 8 is the bus (0.4, R67). -/
abbrev EntryId := Fin 9

/-- Outstation slots 0 to 63; slot = feeder × 8 + position (6.1.1). -/
abbrev SlotId := Fin 64

/-- Profile slots and curve slots 0 to 3 (0.4). -/
abbrev BankSlot := Fin 4

/-- The bus among streams and map entries. -/
def busEntry : EntryId := 8

/-- A feeder as a stream or a map entry. -/
def Feeder.entry (f : Feeder) : EntryId := ⟨f.val, by omega⟩

/-- The feeder of a stream or a map entry, none for the bus. -/
def EntryId.feeder? (e : EntryId) : Option Feeder :=
  if h : e.val < 8 then some ⟨e.val, h⟩ else none

/-- The feeder a slot belongs to: s divided by 8, rounded down (6.1.1). -/
def SlotId.feeder (i : SlotId) : Feeder := ⟨i.val / 8, by omega⟩

/-- The position of a slot on its feeder: s mod 8 (6.1.1). -/
def SlotId.position (i : SlotId) : Nat := i.val % 8

/-- Slot = feeder × 8 + position (6.1.1). -/
def Feeder.slot (f : Feeder) (p : Fin 8) : SlotId := ⟨f.val * 8 + p.val, by omega⟩

/-- Position 0 of a feeder: its feeder head (6.1.1). -/
def Feeder.head (f : Feeder) : SlotId := f.slot 0

/-- The feeders in order of number. -/
def feeders : List Feeder := [0, 1, 2, 3, 4, 5, 6, 7]

/-- The map entries in order: feeder 0 to feeder 7, then the bus (R69, R72). -/
def entries : List EntryId := [0, 1, 2, 3, 4, 5, 6, 7, 8]

/-- The eight slots of a feeder, position 0 first. -/
def Feeder.slots (f : Feeder) : List SlotId := feeders.map fun p => f.slot p

/-- All slots in order of index. -/
def allSlots : List SlotId := feeders.flatMap Feeder.slots

/-- One value for each of the phases A, B and C. -/
structure Phases (α : Type) where
  a : α
  b : α
  c : α
  deriving DecidableEq, Repr

/-- The same operation on each phase. -/
def Phases.map {α β : Type} (g : α → β) (p : Phases α) : Phases β := ⟨g p.a, g p.b, g p.c⟩

/-- Whether a flag holds on any phase. -/
def Phases.any {α : Type} (g : α → Bool) (p : Phases α) : Bool := g p.a || g p.b || g p.c

/-- The same value on each phase. -/
def Phases.all3 {α : Type} (x : α) : Phases α := ⟨x, x, x⟩

end Sys2Proof
end

