-- ==== Sys2Proof/Syntax.lean ====
section
/-! DEFINITION. The commands of the engine: one constructor for each row of spec/opcode_table.json, with the operands the
row's rule names. Request rows carry the request's source, its tag and its parameters as the bytes of the frame, so that every
check of R158 to R163 is the machine's own. -/

namespace Sys2Proof

/-- The body and the source of a SAMPLE frame addressed to the engine (R5, R156): sequence number, quality byte (bit k set
when quantity k + 1 is invalid), four samples in two's complement. -/
structure SampleFrame where
  source  : U16
  seq     : U16
  quality : Byte
  x1 : U16
  x2 : U16
  x3 : U16
  x4 : U16
  deriving DecidableEq, Repr

/-- The position a STATUS_REPORT carries (6.5.1): NONE comes from an INDICATOR. -/
inductive ReportPosition where
  | none
  | opened
  | closed
  deriving DecidableEq, Repr

/-- The three answers of a RESPONSE (R112). -/
inductive AnswerKind where
  | done
  | refused
  | wait
  deriving DecidableEq, Repr

/-- A frame as it arrives at the port, before any check (R150): whether its check sequence is correct, its Ethernet type
field and its payload bytes. With 14 bytes of Ethernet header and 4 of check sequence the frame is 18 bytes longer. -/
structure RawFrame where
  checkOk   : Bool
  etherType : U16
  payload   : List Byte
  deriving DecidableEq, Repr

/-- The source link address and the 16-bit tag of a management request (9.1.1). -/
structure RequestId where
  source : U16
  tag    : U16
  deriving DecidableEq, Repr

/-- The commands: one constructor for each row of the table, in the table's order. -/
inductive Instr where
  /-- POWER_UP_RESET (R173). `written` is how many byte writes of a save in flight the memory had taken (R180). -/
  | powerUpReset (written : Nat)
  /-- RESET_RELEASE (R173). -/
  | resetRelease
  /-- IMAGE_RECORD_READ (R177). `accepted` says whether the memory accepted the read. -/
  | imageRecordRead (accepted : Bool)
  /-- START_UP (R178, R179). -/
  | startUp
  /-- SAMPLE (R5). -/
  | sample (frame : SampleFrame)
  /-- STATUS_REPORT (R119). -/
  | statusReport (source : U16) (position : ReportPosition) (flags : Byte)
  /-- RESPONSE (R112 to R116). -/
  | response (source : U16) (tag : Byte) (answer : AnswerKind) (value : U16)
  /-- MANAGEMENT_REQUEST (R159): the frame arrives; its serving is another command. -/
  | managementRequest (req : RequestId) (kind : Byte) (params : List Byte)
  /-- FRAME_REJECTED (R150): a frame as it stands on the wire. -/
  | frameRejected (frame : RawFrame)
  /-- TRANSMISSION_END (R155). -/
  | transmissionEnd
  /-- SILENCE_EXPIRY (R14). -/
  | silenceExpiry (stream : EntryId)
  /-- BUS_DELAY_EXPIRY (R52). -/
  | busDelayExpiry
  /-- HIGH_SET_DELAY_EXPIRY (R44): the sample set on which the elapsed count reaches 8 times the delay. -/
  | highSetDelayExpiry (frame : SampleFrame)
  /-- SEF_DELAY_EXPIRY (R47): the sample set on which the elapsed count reaches 160 times the delay. -/
  | sefDelayExpiry (frame : SampleFrame)
  /-- DEAD_TIMER_EXPIRY (R85). -/
  | deadTimerExpiry (feeder : Feeder)
  /-- RECLAIM_EXPIRY (R87). -/
  | reclaimExpiry (feeder : Feeder)
  /-- REFRESH_EXPIRY (R97). -/
  | refreshExpiry (slot : SlotId)
  /-- TIMEOUT (R115). -/
  | timeout (slot : SlotId)
  /-- TURNAROUND_GAP_END (R111). -/
  | turnaroundGapEnd (slot : SlotId)
  /-- SETTLE_EXPIRY (R138). -/
  | settleExpiry
  /-- SAVE_END (R180). `refusedAt` is none when the memory accepted every write, or the number of byte writes it had taken
  when it refused one. -/
  | saveEnd (refusedAt : Option Nat)
  /-- LOAD_FEEDER (R3, R4). -/
  | loadFeeder (req : RequestId) (index : Byte) (record : List Byte)
  /-- LOAD_BUS (R3, R4). -/
  | loadBus (req : RequestId) (index : Byte) (record : List Byte)
  /-- LOAD_OUTSTATION (R101, R102). -/
  | loadOutstation (req : RequestId) (index : Byte) (record : List Byte)
  /-- LOAD_PROFILE (R64, R65). -/
  | loadProfile (req : RequestId) (index : Byte) (record : List Byte)
  /-- LOAD_CURVE (R38). -/
  | loadCurve (req : RequestId) (index : Byte) (record : List Byte)
  /-- LOAD_HUNT_PLAN (R132). -/
  | loadHuntPlan (req : RequestId) (index : Byte) (record : List Byte)
  /-- LOAD_BUS_ORDER (R133). -/
  | loadBusOrder (req : RequestId) (index : Byte) (record : List Byte)
  /-- LOAD_LINK (R149). -/
  | loadLink (req : RequestId) (index : Byte) (record : List Byte)
  /-- READ_TABLE (R162). -/
  | readTable (req : RequestId) (table : Byte) (index : Byte)
  /-- SELECT_PROFILE (R68, R69). -/
  | selectProfile (req : RequestId) (slot : Byte) (entrySet : U16)
  /-- SET_BLOCK (R81). -/
  | setBlock (req : RequestId) (feeder : Byte) (member : Byte)
  /-- CLEAR_BLOCK (R81). -/
  | clearBlock (req : RequestId) (feeder : Byte) (member : Byte)
  /-- SET_MODE (R181). -/
  | setMode (req : RequestId) (feeder : Byte) (mode : Byte)
  /-- SET_SERVICE_ON (R103). -/
  | setServiceOn (req : RequestId) (slot : Byte)
  /-- SET_SERVICE_OFF (R105). -/
  | setServiceOff (req : RequestId) (slot : Byte)
  /-- OPERATE_OPEN (R164). -/
  | operateOpen (req : RequestId) (slot : Byte)
  /-- OPERATE_CLOSE (R164). -/
  | operateClose (req : RequestId) (slot : Byte)
  /-- RESET_LOCKOUT (R92). -/
  | resetLockout (req : RequestId) (feeder : Byte)
  /-- START_HUNT (R131). -/
  | startHunt (req : RequestId) (entry : Byte)
  /-- ABORT_HUNT (R143). -/
  | abortHunt (req : RequestId)
  /-- ACK_SEF (R49). -/
  | ackSef (req : RequestId) (feeder : Byte)
  /-- READ_STATE_FEEDER (R167). -/
  | readStateFeeder (req : RequestId) (feeder : Byte)
  /-- READ_STATE_BUS (R168). -/
  | readStateBus (req : RequestId)
  /-- READ_TRIPS (R58, R169). -/
  | readTrips (req : RequestId)
  /-- CLEAR_COUNTERS (R19, R153). -/
  | clearCounters (req : RequestId)
  /-- SAVE_IMAGE (R165, R180). -/
  | saveImage (req : RequestId)
  /-- RESTART (R166). -/
  | restart (req : RequestId)
  /-- UNKNOWN_REQUEST (R160): a request that no other row serves, by its kind code and parameters. -/
  | unknownRequest (req : RequestId) (kind : Byte) (params : List Byte)
  deriving DecidableEq, Repr

end Sys2Proof
end

