-- ==== Sys2Proof/Decode.lean ====
section
/-! DEFINITION. What a word spells, and the row that serves a management request. The opcode table gives no row any bits, so
no word spells a command. -/

namespace Sys2Proof

/-- The command a word spells by the table's bits: none, since spec/opcode_table.json gives no row a bit. -/
def decodeTableWord (_nbits _w : Nat) : Option Instr := none

/-- The row of the table whose command serves a request of this kind code and these parameters (8.5.3, R160, R162). A request
that no other row spells is UNKNOWN_REQUEST's: a kind code outside 01h to 11h, parameters of a wrong length, a table kind
outside 01h to 08h, a coded on/off or direction byte outside its codes. -/
def requestCommand (req : RequestId) (kind : Byte) (params : List Byte) : Instr :=
  match kind.toNat, params with
  | 0x01, table :: index :: record =>
    match table.toNat with
    | 1 => .loadFeeder req index record
    | 2 => .loadBus req index record
    | 3 => .loadOutstation req index record
    | 4 => .loadProfile req index record
    | 5 => .loadCurve req index record
    | 6 => .loadHuntPlan req index record
    | 7 => .loadBusOrder req index record
    | 8 => .loadLink req index record
    | _ => .unknownRequest req kind params
  | 0x02, [table, index] => .readTable req table index
  | 0x03, [slot, hi, lo] => .selectProfile req slot (hi ++ lo)
  | 0x04, [feeder, member] => .setBlock req feeder member
  | 0x05, [feeder, member] => .clearBlock req feeder member
  | 0x06, [feeder, mode] => .setMode req feeder mode
  | 0x07, [slot, on] =>
    if on = 0x01#8 then .setServiceOn req slot
    else if on = 0x00#8 then .setServiceOff req slot
    else .unknownRequest req kind params
  | 0x08, [slot, direction] =>
    if direction = 0x01#8 then .operateOpen req slot
    else if direction = 0x02#8 then .operateClose req slot
    else .unknownRequest req kind params
  | 0x09, [feeder] => .resetLockout req feeder
  | 0x0A, [entry] => .startHunt req entry
  | 0x0B, [] => .abortHunt req
  | 0x0C, [feeder] => .ackSef req feeder
  | 0x0D, [entry] => if entry = 0x08#8 then .readStateBus req else .readStateFeeder req entry
  | 0x0E, [] => .readTrips req
  | 0x0F, [] => .clearCounters req
  | 0x10, [] => .saveImage req
  | 0x11, [] => .restart req
  | _, _ => .unknownRequest req kind params

end Sys2Proof
end

