-- ==== Sys2Proof/Config.lean ====
section
/-! DEFINITION. The constants fixed in the part (0.4) and the capacities the rules give. Nothing here is open: no rule of the
spec leaves a value to the part, so there is no free value. -/

namespace Sys2Proof.Config

/-- A full window (R1, 0.4). -/
def windowSets : Nat := 32

/-- The value at which a counter of R7, R10 or R152 stays. -/
def counterTop : Nat := 65535

/-- The trip value of an inverse-time accumulator (R40). -/
def accumulatorTop : Nat := 16777216

/-- The limit of every phasor component (R25, R28). -/
def componentLimit : Int := 40000

/-- The trip record store (R57). -/
def tripRecords : Nat := 16

/-- The request queue (R159). -/
def requestEntries : Nat := 8

/-- At this many DEFERRED entries an OPERATE or a SAVE_IMAGE is refused (R164, R165). -/
def deferredLimit : Nat := 6

/-- The notice queue (R170). -/
def noticeEntries : Nat := 32

/-- The fifth WAIT fails a command (R114). -/
def waitLimit : Nat := 5

/-- The third consecutive TIMEOUT makes a slot UNREACHABLE (R115). -/
def failureLimit : Nat := 3

/-- Age up to which a passage report is recent (R135). -/
def passageAge : Nat := 30000

/-- Time the observed quantity must have stayed below the clear level (R138). -/
def clearTime : Nat := 100

/-- The engine link address after reset (R148). -/
def resetAddress : U16 := 0x7E00#16

/-- The Ethernet type marker of every frame (R150, R157). -/
def frameType : U16 := 0x9A50#16

/-- The image-present marker (R175). -/
def imageMarker : U16 := 0x4C31#16

/-- What a byte of the serial memory that nothing has written reads as. DESIGN CHOICE (log entry 2), unsafe. -/
def blankByte : Byte := 0xFF#8

end Sys2Proof.Config
end

