-- ==== Sys2Proof/Machine/State.lean ====
section
/-! DEFINITION. The state of the engine as plain data, one structure for each of the ten blocks of 0.3, and the state right
after the power-up reset. -/

namespace Sys2Proof.Machine

/-! ### Stream Intake (chapter 1) -/

/-- The stream states of 1.1.2. -/
inductive StreamState where
  | unconfigured
  | filling
  | live
  | lost
  deriving DecidableEq, Repr

/-- One set of the window (R1): sequence number, four samples in two's complement, held mark. -/
structure SampleSet where
  seq  : U16
  x1   : U16
  x2   : U16
  x3   : U16
  x4   : U16
  held : Bool
  deriving DecidableEq, Repr

/-- A stream record (1.1.1). The silence timer is its expiry in engine ms, none while stopped. -/
structure StreamRecord where
  state      : StreamState
  source     : Option U16
  silence    : Option Nat
  lastSeq    : Option U16
  window     : List SampleSet
  expiry     : Option Nat
  heldCount  : Nat
  staleCount : Nat
  deriving DecidableEq, Repr

/-- The values of R2. -/
def StreamRecord.reset : StreamRecord := ⟨.unconfigured, none, none, none, [], none, 0, 0⟩

/-- Stream Intake: nine stream records, the bus at index 8. -/
structure StreamIntake where
  streams : Vector StreamRecord 9
  deriving DecidableEq, Repr

/-! ### Phasor Unit (chapter 2) -/

/-- Re, Im and magnitude of one quantity (R21). -/
structure Phasor where
  re  : Int
  im  : Int
  mag : Nat
  deriving DecidableEq, Repr

/-- The measurement record of a feeder stream (R21). -/
structure FeederMeasurement where
  seq    : U16
  phase  : Phases Phasor
  inn    : Phasor
  second : Phases Phasor
  resid  : Phasor
  deriving DecidableEq, Repr

/-- The measurement record of the bus stream (R21). -/
structure BusMeasurement where
  seq   : U16
  phase : Phases Phasor
  vn    : Phasor
  deriving DecidableEq, Repr

/-- The Phasor Unit: the measurement records and the neutral displacement threshold (R31), none where absent. -/
structure PhasorUnit where
  feeders   : Vector (Option FeederMeasurement) 8
  bus       : Option BusMeasurement
  threshold : Option Nat
  deriving DecidableEq, Repr

/-! ### Element Bank (chapter 3) -/

/-- PICKED_UP or DROPPED. -/
inductive PickState where
  | pickedUp
  | dropped
  deriving DecidableEq, Repr

/-- The causes of 3.7.1. -/
inductive Cause where
  | phA
  | phB
  | phC
  | ef
  | highSet
  | sef
  | streamLoss
  deriving DecidableEq, Repr

/-- A set of causes, one flag for each (R53). -/
structure Causes where
  phA        : Bool := false
  phB        : Bool := false
  phC        : Bool := false
  ef         : Bool := false
  highSet    : Bool := false
  sef        : Bool := false
  streamLoss : Bool := false
  deriving DecidableEq, Repr

/-- The trip latch when set (3.1.1): its causes and the place of its record in the store, or none once that record has left
the store. -/
structure Latch where
  causes : Causes
  record : Option Nat
  deriving DecidableEq, Repr

/-- The element record of a feeder (3.1.1). A timer is none while stopped, or its elapsed sample sets. -/
structure ElementRecord where
  phAcc      : Phases Nat
  phPickup   : Phases Bool
  efAcc      : Nat
  efPickup   : Bool
  restraint  : Bool
  histories  : Phases (List Bool)
  hsCond     : Bool
  hsTimer    : Option Nat
  hsOperated : Bool
  sefC       : PickState
  sefR       : PickState
  sefArmed   : Bool
  sefTimer   : Option Nat
  sefOperated : Bool
  latch      : Option Latch
  deriving DecidableEq, Repr

/-- The values of R34. -/
def ElementRecord.reset : ElementRecord where
  phAcc := Phases.all3 0
  phPickup := Phases.all3 false
  efAcc := 0
  efPickup := false
  restraint := false
  histories := Phases.all3 []
  hsCond := false
  hsTimer := none
  hsOperated := false
  sefC := .dropped
  sefR := .dropped
  sefArmed := true
  sefTimer := none
  sefOperated := false
  latch := none

/-- The bus delay timer (3.6.1). -/
inductive NdTimer where
  | stopped
  | running (expiry : Nat)
  | held (remaining : Nat)
  deriving DecidableEq, Repr

/-- The neutral displacement detector (3.6.1). -/
structure NdDetector where
  pick     : PickState
  timer    : NdTimer
  operated : Bool
  deriving DecidableEq, Repr

/-- The values of R50. -/
def NdDetector.reset : NdDetector := ⟨.dropped, .stopped, false⟩

/-- The plant fields of a FEEDER entry that belong to the Element Bank (1.1.1). -/
structure FeederPlant where
  sefBase : Nat
  partner : Option Feeder
  deriving DecidableEq, Repr

/-- The plant fields of the BUS entry that belong to the Element Bank (1.1.1); the delay in seconds. -/
structure BusPlant where
  vnom  : Nat
  delay : Nat
  deriving DecidableEq, Repr

/-- How a command ends for its originator (R118), in the order R118 names them. `done` carries the value field of the answer,
if an answer brought one, and the test mark of a simulated completion (R106). -/
inductive Completion where
  | done (value : Option U16) (test : Bool)
  | refused (reason : U16)
  | timeout
  | superseded
  | cancelled
  | unreachable
  | waitLimit
  | unavailable
  | kind
  | notPermitted
  | busy
  deriving DecidableEq, Repr

/-- Whether a completion is DONE. -/
def Completion.isDone : Completion → Bool
  | .done _ _ => true
  | _ => false

/-- The magnitudes of a trip record (3.8.1). -/
structure TripMagnitudes where
  ia : Nat
  ib : Nat
  ic : Nat
  mr : Nat
  mn : Nat
  deriving DecidableEq, Repr

/-- The outcome of a trip record (3.8.1). -/
inductive TripOutcome where
  | opened
  | breakerFail (completion : Completion)
  deriving DecidableEq, Repr

/-- A trip record (3.8.1). `profile` is the active slot and its fire level. -/
structure TripRecord where
  feeder  : Feeder
  causes  : Causes
  mags    : Option TripMagnitudes
  profile : Option (BankSlot × Nat)
  shot    : Nat
  outcome : Option TripOutcome
  time    : Nat
  test    : Bool
  deriving DecidableEq, Repr

/-- The Element Bank: element records, plant fields, the detector, the trip record store oldest first. -/
structure ElementBank where
  records : Vector ElementRecord 8
  plants  : Vector (Option FeederPlant) 8
  bus     : Option BusPlant
  nd      : NdDetector
  trips   : List TripRecord
  deriving DecidableEq, Repr

/-! ### Profile Manager (chapter 4) -/

/-- The settings of PH_IT or EF_IT (4.1.1). `timed` is reset mode TIMED. -/
structure ItSettings where
  enable    : Bool
  ip        : Nat
  curve     : BankSlot
  tms       : Nat
  timed     : Bool
  resetTime : Nat
  deriving DecidableEq, Repr

/-- The SEF action of a profile (R48). -/
inductive SefAction where
  | alarm
  | hunt
  | trip
  deriving DecidableEq, Repr

/-- The contents of a LOADED profile slot (4.1.1), in the order of the table. -/
structure Profile where
  fireLevel : Nat
  ph : ItSettings
  ef : ItSettings
  hsEnable    : Bool
  hsThreshold : Nat
  hsDelay     : Nat
  rstEnable : Bool
  rstRatio  : Nat
  sefEnable : Bool
  sefPair   : Bool
  sefK      : Nat
  sefF      : Nat
  sefDelay  : Nat
  sefAction : SefAction
  sefLock   : Bool
  shots : Nat
  dead1 : Nat
  dead2 : Nat
  dead3 : Nat
  dead4 : Nat
  reclaim : Nat
  fireBlock : Bool
  lossTrip  : Bool
  huntPermitted    : Bool
  restorePermitted : Bool
  settle        : Nat
  exhaustedTrip : Bool
  ndStep  : Fin 8
  busHunt : Bool
  deriving DecidableEq, Repr

/-- A map entry (4.2.1). -/
structure MapEntry where
  active : Option BankSlot
  pend   : Option BankSlot
  deriving DecidableEq, Repr

/-- The Profile Manager: profile slots and curve slots, none where EMPTY, and the map. A LOADED curve is its 305 rates,
rate[16] first (R37). -/
structure ProfileManager where
  slots  : Vector (Option Profile) 4
  curves : Vector (Option (List Nat)) 4
  map    : Vector MapEntry 9
  deriving DecidableEq, Repr

/-! ### Reclose Controller (chapter 5) -/

/-- The final mark of TRIPPING (5.1.1). -/
inductive FinalMark where
  | switchOntoFault
  | finalTrip
  deriving DecidableEq, Repr

/-- The close mark of CLOSING (5.1.1). -/
inductive CloseMark where
  | blocked
  | profile
  deriving DecidableEq, Repr

/-- The lockout causes of 5.3.9, in its order. -/
inductive LockoutCause where
  | notPermitted
  | switchOntoFault
  | finalTrip
  | breakerFail
  | closeFail
  | blocked
  | profile
  | externalOpen
  | manualOpen
  | start
  deriving DecidableEq, Repr

/-- The reclose state with what R79 says holds in it alone: shots used and final mark in TRIPPING, the dead timer's expiry in
DEAD_TIME, the close mark in CLOSING, the reclaim timer's start in RECLAIM, the cause in LOCKOUT. -/
inductive RecloseState where
  | off
  | ready
  | tripping (used : Nat) (final : Option FinalMark)
  | deadTime (shot : Nat) (expiry : Nat)
  | closing (shot : Nat) (mark : Option CloseMark)
  | reclaim (shot : Nat) (start : Nat)
  | lockout (cause : LockoutCause)
  deriving DecidableEq, Repr

/-- The members of a block reason set (5.2.1). -/
inductive Reason where
  | fire
  | manual
  | hotLine
  | hunt
  | streamLost
  | sefLock
  deriving DecidableEq, Repr

/-- A block reason set, one flag for each member (R80). -/
structure Reasons where
  fire       : Bool := false
  manual     : Bool := false
  hotLine    : Bool := false
  hunt       : Bool := false
  streamLost : Bool := false
  sefLock    : Bool := false
  deriving DecidableEq, Repr

/-- The reclose record of a feeder (5.1.1). -/
structure RecloseRecord where
  state   : RecloseState
  reasons : Reasons
  deriving DecidableEq, Repr

/-- The values of R79. -/
def RecloseRecord.reset : RecloseRecord := ⟨.off, {}⟩

/-- The follower block states of 5.4.1. -/
inductive FollowerState where
  | none
  | blockPending
  | blocked
  | releasePending
  deriving DecidableEq, Repr

/-- A follower's block state and its refresh timer, the expiry or none while stopped (R95). -/
structure FollowerRecord where
  state   : FollowerState
  refresh : Option Nat
  deriving DecidableEq, Repr

/-- The values of R95. -/
def FollowerRecord.reset : FollowerRecord := ⟨.none, Option.none⟩

/-- The Reclose Controller. -/
structure RecloseController where
  records   : Vector RecloseRecord 8
  followers : Vector FollowerRecord 64
  deriving DecidableEq, Repr

/-! ### Outstation Exchange (chapter 6) -/

/-- The service states of 6.2.1. -/
inductive SlotState where
  | empty
  | outOfService
  | enrolling
  | inService
  | unreachable
  deriving DecidableEq, Repr

/-- The kinds of outstation, in the order of their codes 01h to 04h (8.5.2). -/
inductive OutKind where
  | breaker
  | recloser
  | sectionaliser
  | indicator
  deriving DecidableEq, Repr

/-- The loaded fields of an outstation record (6.1.1): ms for the wait and the gap, s for the refresh period. -/
structure Loaded where
  address     : U16
  kind        : OutKind
  wait        : Nat
  gap         : Nat
  follower    : Bool
  huntCapable : Bool
  refresh     : Nat
  deriving DecidableEq, Repr

/-- The known position (6.1.1). -/
inductive Position where
  | opened
  | closed
  | unknown
  deriving DecidableEq, Repr

/-- The latest flags (6.1.1). -/
structure OutFlags where
  lockout : Bool
  local_  : Bool
  deriving DecidableEq, Repr

/-- The latest passage report (R120). -/
structure Passage where
  phase : Bool
  earth : Bool
  time  : Nat
  deriving DecidableEq, Repr

/-- The command kinds of 6.3.1, in the order of their codes 01h to 06h. -/
inductive CmdKind where
  | trip
  | opn
  | close
  | block
  | release
  | enrol
  deriving DecidableEq, Repr

/-- Who is to receive a completion (R118). The ticket names the request queue entry of an OPERATE. -/
inductive Originator where
  | elementBank
  | reclose
  | hunt
  | management (ticket : Nat)
  | exchange
  deriving DecidableEq, Repr

/-- A command (6.3.1): its kind, its originator, the shot of a reclosing CLOSE (0 otherwise), the expected kind and hold time
of an ENROL, and the originators of the commands merged with it (R107, R109). The hunt mark is the originator being the Hunt
Controller. -/
structure Cmd where
  kind     : CmdKind
  origin   : Originator
  shot     : Nat := 0
  expected : Option OutKind := none
  hold     : Nat := 0
  merged   : List Originator := []
  deriving DecidableEq, Repr

/-- The in-flight command (R111, R114). -/
structure InFlight where
  cmd      : Cmd
  tag      : Byte
  deadline : Nat
  waits    : Nat
  deriving DecidableEq, Repr

/-- An outstation record (6.1.1). The history holds OPEN as true, CLOSED as false. -/
structure Outstation where
  state     : SlotState
  loaded    : Option Loaded
  known     : Position
  history   : List Bool
  flags     : Option OutFlags
  passage   : Option Passage
  tagCounter : Byte
  expiredTag : Option Byte
  failures  : Nat
  queue     : List Cmd
  inFlight  : Option InFlight
  lastDone  : Option Nat
  deriving DecidableEq, Repr

/-- The EMPTY values of R100. -/
def Outstation.reset : Outstation where
  state := .empty
  loaded := none
  known := .unknown
  history := []
  flags := none
  passage := none
  tagCounter := 0#8
  expiredTag := none
  failures := 0
  queue := []
  inFlight := none
  lastDone := none

/-- The Outstation Exchange: its slots and, the model's own, how many commands each slot has admitted so far. R111 makes its test
at the end of every event that admits a command; a count that has grown tells that one has (log entry 8). -/
structure OutstationExchange where
  slots    : Vector Outstation 64
  admitted : Vector Nat 64
  deriving DecidableEq, Repr

/-! ### Hunt Controller (chapter 7) -/

/-- The hunt states of 7.1.2. -/
inductive HuntState where
  | idle
  | opening
  | settling
  | restoring
  | concluded
  | aborting
  deriving DecidableEq, Repr

/-- BUS or FEEDER (7.1.1). -/
inductive HuntKind where
  | bus
  | feeder
  deriving DecidableEq, Repr

/-- BUS_STEP or FEEDER_STEP (7.1.1). -/
inductive HuntPhase where
  | busStep
  | feederStep
  deriving DecidableEq, Repr

/-- RESIDUAL or DISPLACEMENT (7.1.1). -/
inductive Observed where
  | residual
  | displacement
  deriving DecidableEq, Repr

/-- AUTO or MANUAL (7.1.1). -/
inductive HuntOrigin where
  | auto
  | manual
  deriving DecidableEq, Repr

/-- The abort causes of 7.6.1. -/
inductive AbortCause where
  | escalated
  | profile
  | stream
  | manual
  | restoreFailed
  deriving DecidableEq, Repr

/-- The step outcomes of 7.1.3. -/
inductive OutcomeValue where
  | skippedClear
  | skippedUnavailable
  | failedOpen
  | cleared
  | notCleared
  | interrupted
  deriving DecidableEq, Repr

/-- One entry of the result list (R125). -/
structure StepOutcome where
  phase     : HuntPhase
  feeder    : Feeder
  position  : Nat
  value     : OutcomeValue
  lastPoint : Bool
  deriving DecidableEq, Repr

/-- Which command of the hunt is outstanding (7.1.2). -/
inductive HuntCmd where
  | opn
  | close
  deriving DecidableEq, Repr

/-- The hunt context (7.1.1), with the outstanding command of 7.1.2 and the mark R144 needs: whether a restoring CLOSE has
been handed on for the abort in progress. The involved set lists its feeders in order of number. -/
structure HuntContext where
  state       : HuntState
  kind        : Option HuntKind
  phase       : Option HuntPhase
  involved    : List Feeder
  feeder      : Option Feeder
  busIndex    : Option Nat
  planIndex   : Option Nat
  observed    : Option Observed
  clearLevel  : Option Nat
  openPoint   : Option SlotId
  settle      : Option Nat
  lastAbove   : Option Nat
  origin      : Option HuntOrigin
  abortCause  : Option AbortCause
  results     : List StepOutcome
  outstanding : Option HuntCmd
  restoring   : Bool
  deriving DecidableEq, Repr

/-- The IDLE values of R123. -/
def HuntContext.reset : HuntContext where
  state := .idle
  kind := none
  phase := none
  involved := []
  feeder := none
  busIndex := none
  planIndex := none
  observed := none
  clearLevel := none
  openPoint := none
  settle := none
  lastAbove := none
  origin := none
  abortCause := none
  results := []
  outstanding := none
  restoring := false

/-- A step of a hunt plan (7.4.1): positions 1 to 7. -/
structure PlanStep where
  position  : Fin 8
  indicator : Option (Fin 8)
  deriving DecidableEq, Repr

/-- The Hunt Controller. -/
structure HuntController where
  ctx         : HuntContext
  pendingList : List EntryId
  plans       : Vector (List PlanStep) 8
  busOrder    : List Feeder
  deriving DecidableEq, Repr

/-! ### Notices (chapter 9) -/

/-- The reclose state and its shot as a notice carries them (R94). -/
inductive RecloseName where
  | off
  | ready
  | tripping
  | deadTime
  | closing
  | reclaim
  | lockout
  deriving DecidableEq, Repr

/-- The conditions R83 names when reclose is not permitted. -/
structure PermissionFailures where
  blockSet : Bool := false
  shots    : Bool := false
  cause    : Bool := false
  stream   : Bool := false
  deriving DecidableEq, Repr

/-- The reasons of a STREAM_STATE notice (R18). -/
inductive StreamReason where
  | load
  | removed
  | resumed
  | gap
  | full
  | silence
  deriving DecidableEq, Repr

/-- The origins of a takeover (R76). -/
inductive TakeoverOrigin where
  | select
  | pend
  | image
  deriving DecidableEq, Repr

/-- The results of an ND_OPERATE notice (R52). -/
inductive NdResult where
  | huntPlaced
  | huntWithheld
  | alarm
  deriving DecidableEq, Repr

/-- The results of a hunt (R146). FOUND_FIRST_SECTION says whether the exhausted action was TRIP. -/
inductive HuntResult where
  | foundBeyond (feeder : Feeder) (position : Nat)
  | foundFirstSection (feeder : Feeder) (trip : Bool)
  | foundFeeder (feeder : Feeder)
  | notFound
  | aborted (cause : AbortCause)
  deriving DecidableEq, Repr

/-- LEFT_OPEN or UNKNOWN (R146). -/
inductive PointOutcome where
  | leftOpen
  | unknown
  deriving DecidableEq, Repr

/-- The reasons of an OUTSTATION_STATE notice (R122). -/
inductive OutReason where
  | loaded
  | enrolling
  | enrolled
  | enrolMismatch
  | enrolFailed
  | serviceOff
  | unreachable
  | reached
  | switched
  | reported
  | flags
  deriving DecidableEq, Repr

/-- The reception error classes of 8.3.1, in its order. -/
inductive ErrorClass where
  | badCheck
  | unknownKind
  | badLength
  | unknownSource
  | staleSample
  | lateResponse
  | tagMismatch
  | requestOverflow
  deriving DecidableEq, Repr

/-- The reasons of an IMAGE notice (R177, R178, R179). -/
inductive ImageReason where
  | blank
  | readFailed
  | format
  | check
  | unknownKind
  | duplicate
  | refused
  | complete
  deriving DecidableEq, Repr

/-- The result codes of a reply, in the order of their codes 00h to 09h (8.5.3). -/
inductive Result where
  | ok
  | busy
  | inUse
  | invalid
  | empty
  | notPermitted
  | state
  | kind
  | unknown
  | failed
  deriving DecidableEq, Repr

/-- The notices of 9.4.1 with the content their owners' rules give. -/
inductive Notice where
  /-- R55, R56: the contents of the record, or what R57 states when the record has left the store. -/
  | trip (record : TripRecord)
  | tripLost (feeder : Feeder) (outcome : TripOutcome) (causes : Causes)
  /-- R94. -/
  | recloseState (feeder : Feeder) (prev : RecloseName) (prevShot : Nat) (now : RecloseName) (nowShot : Nat) (used : Nat)
      (cause : Option LockoutCause) (failures : PermissionFailures)
  /-- R80. -/
  | blockSet (feeder : Feeder) (member : Reason) (added : Bool) (set : Reasons)
  /-- R95. -/
  | followerState (slot : SlotId) (prev now : FollowerState) (completion : Option Completion)
  /-- R76. -/
  | profileTakeover (entry : EntryId) (prev : Option (BankSlot × Nat)) (now : BankSlot × Nat) (origin : TakeoverOrigin)
      (fire : Bool)
  /-- R49; the magnitude is absent when the measurement record is. -/
  | sefChange (feeder : Feeder) (c : PickState) (mn : Option Nat)
  /-- R48; `value` is T under LEVEL and Mp under PAIR. -/
  | sefOperate (feeder : Feeder) (mn : Option Nat) (pair : Bool) (value : Nat) (action : SefAction)
  /-- R52. -/
  | ndOperate (vn : Option Nat) (threshold : Option Nat) (result : NdResult)
  /-- R146. -/
  | huntResult (kind : Option HuntKind) (origin : Option HuntOrigin) (involved : List Feeder) (result : HuntResult)
      (point : Option (SlotId × PointOutcome)) (observed : Option Observed) (clearLevel : Option Nat)
      (results : List StepOutcome)
  /-- R122; `reported` with ENROL_MISMATCH, `completion` with ENROL_FAILED. -/
  | outstationState (slot : SlotId) (prev now : SlotState) (known : Position) (flags : Option OutFlags) (reason : OutReason)
      (reported : Option U16) (completion : Option Completion)
  /-- R18. -/
  | streamState (stream : EntryId) (prev now : StreamState) (reason : StreamReason)
  /-- R152. -/
  | linkError (cls : ErrorClass) (count : Nat)
  /-- R177, R178, R179: position, kind and index of the record where there is one; the result code of REFUSED. -/
  | image (reason : ImageReason) (position : Option Nat) (kind index : Option Byte) (result : Option Result)
  /-- R179 step 5. -/
  | imageComplete (kept applied discarded : Nat) (blank : Bool)
  deriving DecidableEq, Repr

/-- A notice and its test mark (R172). -/
structure NoticeItem where
  notice : Notice
  test   : Bool
  deriving DecidableEq, Repr

/-! ### Link Port (chapter 8) -/

/-- The mask and the severity of a class (8.1.1). -/
structure ClassSetting where
  masked : Bool
  major  : Bool
  deriving DecidableEq, Repr

/-- The counter and the seen flag of a class (R152). -/
structure ClassLog where
  count : Nat
  seen  : Bool
  deriving DecidableEq, Repr

/-- The link table (8.1.1); classes in the order of 8.3.1. -/
structure LinkTable where
  address : U16
  dest    : Option U16
  sources : List U16
  classes : Vector ClassSetting 8
  deriving DecidableEq, Repr

/-- The values of R148. -/
def LinkTable.reset : LinkTable := ⟨Config.resetAddress, none, [], Vector.replicate 8 ⟨false, false⟩⟩

/-- A frame the engine sends (8.5.2, 8.5.3, R157), with the addresses it was formed with. -/
inductive TxFrame where
  | command (dest source : U16) (kind : CmdKind) (tag : Byte) (huntMark : Bool) (enrol : Option (OutKind × Nat))
  | reply (ticket : Nat) (dest source tag : U16) (kind : Byte) (result : Result) (payload : List Byte)
  | notice (dest source : U16) (overflow : Bool) (item : NoticeItem)
  deriving DecidableEq, Repr

/-- The transmit queue: five classes, each oldest first (R154). -/
structure TxQueue where
  c1 : List TxFrame
  c2 : List TxFrame
  c3 : List TxFrame
  c4 : List TxFrame
  c5 : List TxFrame
  deriving DecidableEq, Repr

/-- Every list empty (R154). -/
def TxQueue.reset : TxQueue := ⟨[], [], [], [], []⟩

/-- The Link Port: link table, error log, transmit queue, and the frame in transmission, none while the path is idle. -/
structure LinkPort where
  table : LinkTable
  log   : Vector ClassLog 8
  tx    : TxQueue
  wire  : Option TxFrame
  deriving DecidableEq, Repr

/-! ### Management Responder (chapter 9) -/

/-- The state of a request queue entry (9.1.1), with the result of the reply once it is handed. -/
inductive EntryState where
  | waiting
  | deferred
  | replying (result : Result)
  deriving DecidableEq, Repr

/-- An entry of the request queue (9.1.1). -/
structure ReqEntry where
  ticket : Nat
  req    : RequestId
  kind   : Byte
  params : List Byte
  state  : EntryState
  deriving DecidableEq, Repr

/-- The Management Responder: request queue and notice queue oldest first, the overflow flag, and the next ticket. -/
structure Responder where
  requests   : List ReqEntry
  notices    : List NoticeItem
  overflow   : Bool
  nextTicket : Nat
  deriving DecidableEq, Repr

/-- The values of R159 and R170. -/
def Responder.reset : Responder := ⟨[], [], false, 0⟩

/-! ### Image Loader (chapter 10) -/

/-- A record of the image kept for application (R177): its position counted from 0, kind, index, contents. -/
structure KeptRecord where
  position : Nat
  kind     : Byte
  index    : Byte
  contents : List Byte
  deriving DecidableEq, Repr

/-- What READING does next: read the header, read one of the records left, or nothing. -/
inductive ReadStage where
  | header
  | records (left : Nat)
  | ended
  deriving DecidableEq, Repr

/-- The progress of READING (R177). -/
structure Reading where
  stage     : ReadStage
  address   : Nat
  position  : Nat
  kept      : List KeptRecord
  discarded : Nat
  blank     : Bool
  deriving DecidableEq, Repr

/-- Reading begins at the header (R173, R175). -/
def Reading.start : Reading := ⟨.header, 0, 0, [], 0, false⟩

/-- A save in flight (R180): the ticket of its request and the records fixed in the accepting event, as kind, index and
contents. -/
structure SaveJob where
  ticket  : Nat
  records : List (Byte × Byte × List Byte)
  deriving DecidableEq, Repr

/-- The state of the Image Loader (chapter 10). -/
inductive LoaderState where
  | reading (progress : Reading)
  | idle
  | saving (job : SaveJob)
  deriving DecidableEq, Repr

/-! ### The whole engine -/

/-- The feeder modes, in the order of their codes 00h to 02h (8.5.3). -/
inductive Mode where
  | inService
  | test
  | outOfService
  deriving DecidableEq, Repr

/-- The output pins (R183): eight feeder-healthy outputs and engine-ok. -/
structure Outputs where
  healthy  : Vector Bool 8
  engineOk : Bool
  deriving DecidableEq, Repr

/-- All outputs deasserted (R173). -/
def Outputs.reset : Outputs := ⟨Vector.replicate 8 false, false⟩

/-- The serial memory (R175): cells with strictly rising addresses, none equal to the blank byte. -/
abbrev SerialMemory := List Host.Cell

/-- The state of the engine: the ten blocks, the feeder modes, engine time, whether the reset input is asserted, the output
pins, the attached serial memory, and the queue of commands waiting, first in first out. -/
structure State where
  intake   : StreamIntake
  phasor   : PhasorUnit
  bank     : ElementBank
  profiles : ProfileManager
  reclose  : RecloseController
  exchange : OutstationExchange
  hunt     : HuntController
  link     : LinkPort
  mgmt     : Responder
  loader   : LoaderState
  modes    : Vector Mode 8
  time     : Nat
  held     : Bool
  outputs  : Outputs
  serial   : SerialMemory
  pending  : List Instr
  deriving DecidableEq, Repr

/-- The reasons a step could stop with a fault: none. No rule of the spec stops the engine: a wrong frame is counted (R150), a
wrong request is answered (R163), a failed command is completed (R118). -/
inductive Fault where
  deriving DecidableEq, Repr

/-- The reasons a command could be refused by the model. -/
inductive Refusal where
  /-- A command the model gives no meaning yet, by its mnemonic; raised by `exec` alone, and safe. -/
  | notModelled (mnemonic : String)
  deriving DecidableEq, Repr

/-- The machine right after the power-up reset, the reset input released (R173): every block at its power-up values, engine
time 0, every feeder OUT_OF_SERVICE, outputs deasserted, reading of the image about to begin. The serial memory is outside the
reset (R174); here nothing has ever been written to it (log entries 1 and 2). -/
def State.reset : State where
  intake := ⟨Vector.replicate 9 StreamRecord.reset⟩
  phasor := ⟨Vector.replicate 8 none, none, none⟩
  bank := ⟨Vector.replicate 8 ElementRecord.reset, Vector.replicate 8 none, none, NdDetector.reset, []⟩
  profiles := ⟨Vector.replicate 4 none, Vector.replicate 4 none, Vector.replicate 9 ⟨none, none⟩⟩
  reclose := ⟨Vector.replicate 8 RecloseRecord.reset, Vector.replicate 64 FollowerRecord.reset⟩
  exchange := ⟨Vector.replicate 64 Outstation.reset, Vector.replicate 64 0⟩
  hunt := ⟨HuntContext.reset, [], Vector.replicate 8 [], []⟩
  link := ⟨LinkTable.reset, Vector.replicate 8 ⟨0, false⟩, TxQueue.reset, none⟩
  mgmt := Responder.reset
  loader := .reading Reading.start
  modes := Vector.replicate 8 .outOfService
  time := 0
  held := false
  outputs := Outputs.reset
  serial := []
  pending := []

end Sys2Proof.Machine
end

