-- ==== Sys2Proof/Machine/Ops.lean ====
section
/-! DEFINITION. The named operations over State: reading and replacing one record of a block, and the reading of the settings
in force. Every other file changes the state through these. -/

namespace Sys2Proof.Machine

/-- The value at an index. -/
def look {α : Type} {n : Nat} (v : Vector α n) (i : Fin n) : α := v[i.val]

/-- The vector with one value replaced. -/
def put {α : Type} {n : Nat} (v : Vector α n) (i : Fin n) (x : α) : Vector α n := v.set i.val x i.isLt

/-! ### One update for each block -/

/-- Replace Stream Intake. -/
def State.setIntake (s : State) (x : StreamIntake) : State := { s with intake := x }
/-- Replace the Phasor Unit. -/
def State.setPhasor (s : State) (x : PhasorUnit) : State := { s with phasor := x }
/-- Replace the Element Bank. -/
def State.setBank (s : State) (x : ElementBank) : State := { s with bank := x }
/-- Replace the Profile Manager. -/
def State.setProfiles (s : State) (x : ProfileManager) : State := { s with profiles := x }
/-- Replace the Reclose Controller. -/
def State.setReclose (s : State) (x : RecloseController) : State := { s with reclose := x }
/-- Replace the Outstation Exchange. -/
def State.setExchange (s : State) (x : OutstationExchange) : State := { s with exchange := x }
/-- Replace the Hunt Controller. -/
def State.setHunt (s : State) (x : HuntController) : State := { s with hunt := x }
/-- Replace the Link Port. -/
def State.setLink (s : State) (x : LinkPort) : State := { s with link := x }
/-- Replace the Management Responder. -/
def State.setMgmt (s : State) (x : Responder) : State := { s with mgmt := x }
/-- Replace the Image Loader's state. -/
def State.setLoader (s : State) (x : LoaderState) : State := { s with loader := x }
/-- Replace the feeder modes. -/
def State.setModes (s : State) (x : Vector Mode 8) : State := { s with modes := x }
/-- Replace the output pins. -/
def State.setOutputs (s : State) (x : Outputs) : State := { s with outputs := x }
/-- Replace the serial memory. -/
def State.setSerial (s : State) (x : SerialMemory) : State := { s with serial := x }
/-- Replace engine time. -/
def State.setTime (s : State) (x : Nat) : State := { s with time := x }
/-- Assert or release the reset input. -/
def State.setHeld (s : State) (x : Bool) : State := { s with held := x }
/-- Replace the queue of commands waiting. -/
def State.setPending (s : State) (x : List Instr) : State := { s with pending := x }

/-! ### One record of a block -/

/-- The stream record of a stream. -/
def State.stream (s : State) (e : EntryId) : StreamRecord := look s.intake.streams e
/-- Replace one stream record. -/
def State.setStream (s : State) (e : EntryId) (r : StreamRecord) : State := s.setIntake ⟨put s.intake.streams e r⟩

/-- The measurement record of a feeder. -/
def State.meas (s : State) (f : Feeder) : Option FeederMeasurement := look s.phasor.feeders f
/-- Replace the measurement record of a feeder. -/
def State.setMeas (s : State) (f : Feeder) (m : Option FeederMeasurement) : State :=
  s.setPhasor { s.phasor with feeders := put s.phasor.feeders f m }
/-- Replace the measurement record of the bus. -/
def State.setBusMeas (s : State) (m : Option BusMeasurement) : State := s.setPhasor { s.phasor with bus := m }
/-- Replace the neutral displacement threshold. -/
def State.setThreshold (s : State) (t : Option Nat) : State := s.setPhasor { s.phasor with threshold := t }

/-- The element record of a feeder. -/
def State.element (s : State) (f : Feeder) : ElementRecord := look s.bank.records f
/-- Replace the element record of a feeder. -/
def State.setElement (s : State) (f : Feeder) (r : ElementRecord) : State :=
  s.setBank { s.bank with records := put s.bank.records f r }
/-- The plant fields of a FEEDER entry. -/
def State.plant (s : State) (f : Feeder) : Option FeederPlant := look s.bank.plants f
/-- Replace the plant fields of a FEEDER entry. -/
def State.setPlant (s : State) (f : Feeder) (p : Option FeederPlant) : State :=
  s.setBank { s.bank with plants := put s.bank.plants f p }
/-- Replace the plant fields of the BUS entry. -/
def State.setBusPlant (s : State) (p : Option BusPlant) : State := s.setBank { s.bank with bus := p }
/-- Replace the neutral displacement detector. -/
def State.setNd (s : State) (d : NdDetector) : State := s.setBank { s.bank with nd := d }
/-- Replace the trip record store. -/
def State.setTrips (s : State) (t : List TripRecord) : State := s.setBank { s.bank with trips := t }

/-- The contents of a profile slot, none while EMPTY. -/
def State.profile (s : State) (k : BankSlot) : Option Profile := look s.profiles.slots k
/-- Replace a profile slot. -/
def State.setProfile (s : State) (k : BankSlot) (p : Option Profile) : State :=
  s.setProfiles { s.profiles with slots := put s.profiles.slots k p }
/-- The rates of a curve slot, none while EMPTY. -/
def State.curve (s : State) (k : BankSlot) : Option (List Nat) := look s.profiles.curves k
/-- Replace a curve slot. -/
def State.setCurve (s : State) (k : BankSlot) (c : Option (List Nat)) : State :=
  s.setProfiles { s.profiles with curves := put s.profiles.curves k c }
/-- A map entry. -/
def State.entry (s : State) (e : EntryId) : MapEntry := look s.profiles.map e
/-- Replace a map entry. -/
def State.setEntry (s : State) (e : EntryId) (m : MapEntry) : State :=
  s.setProfiles { s.profiles with map := put s.profiles.map e m }

/-- The reclose record of a feeder. -/
def State.recl (s : State) (f : Feeder) : RecloseRecord := look s.reclose.records f
/-- Replace the reclose record of a feeder. -/
def State.setRecl (s : State) (f : Feeder) (r : RecloseRecord) : State :=
  s.setReclose { s.reclose with records := put s.reclose.records f r }
/-- The follower record of a slot. -/
def State.follower (s : State) (i : SlotId) : FollowerRecord := look s.reclose.followers i
/-- Replace the follower record of a slot. -/
def State.setFollower (s : State) (i : SlotId) (r : FollowerRecord) : State :=
  s.setReclose { s.reclose with followers := put s.reclose.followers i r }

/-- The outstation record of a slot. -/
def State.slot (s : State) (i : SlotId) : Outstation := look s.exchange.slots i
/-- Replace the outstation record of a slot. -/
def State.setSlot (s : State) (i : SlotId) (o : Outstation) : State :=
  s.setExchange { s.exchange with slots := put s.exchange.slots i o }
/-- The commands a slot has admitted so far (log entry 8). -/
def State.admissions (s : State) (i : SlotId) : Nat := look s.exchange.admitted i
/-- Count a command admitted to a slot. -/
def State.countAdmission (s : State) (i : SlotId) : State :=
  s.setExchange { s.exchange with admitted := put s.exchange.admitted i (s.admissions i + 1) }

/-- The hunt context. -/
def State.ctx (s : State) : HuntContext := s.hunt.ctx
/-- Replace the hunt context. -/
def State.setCtx (s : State) (c : HuntContext) : State := s.setHunt { s.hunt with ctx := c }
/-- Replace the pending hunt list. -/
def State.setHuntList (s : State) (l : List EntryId) : State := s.setHunt { s.hunt with pendingList := l }
/-- The hunt plan of a feeder. -/
def State.plan (s : State) (f : Feeder) : List PlanStep := look s.hunt.plans f
/-- Replace the hunt plan of a feeder. -/
def State.setPlan (s : State) (f : Feeder) (p : List PlanStep) : State :=
  s.setHunt { s.hunt with plans := put s.hunt.plans f p }
/-- Replace the bus hunt order. -/
def State.setBusOrder (s : State) (l : List Feeder) : State := s.setHunt { s.hunt with busOrder := l }

/-- The mode of a feeder. -/
def State.mode (s : State) (f : Feeder) : Mode := look s.modes f
/-- Set the mode of a feeder. -/
def State.setMode (s : State) (f : Feeder) (m : Mode) : State := s.setModes (put s.modes f m)

/-! ### The settings in force -/

/-- The profile active on a map entry, with its slot (R67); none without an active slot. -/
def State.active (s : State) (e : EntryId) : Option (BankSlot × Profile) :=
  match (s.entry e).active with
  | none => none
  | some k => (s.profile k).map fun p => (k, p)

/-- The active slot and its fire level, as records and notices carry them (R57, R76). -/
def State.activeLevel (s : State) (e : EntryId) : Option (BankSlot × Nat) :=
  (s.active e).map fun kp => (kp.1, kp.2.fireLevel)

/-- The profile that governs a feeder. -/
def State.feederProfile (s : State) (f : Feeder) : Option Profile := (s.active (Feeder.entry f)).map Prod.snd

/-- The test mark of a feeder's notices and records: the feeder is in TEST (R172). -/
def State.testMark (s : State) (f : Feeder) : Bool := s.mode f == .test

/-- Whether a hunt involves a feeder (7.2.1). -/
def State.involves (s : State) (f : Feeder) : Bool := s.ctx.state != .idle && s.ctx.involved.contains f

end Sys2Proof.Machine
end

