-- ==== Sys2Proof/Machine/Memory.lean ====
section
/-! DEFINITION. The serial memory: bytes by address in one canonical form (R175). -/

namespace Sys2Proof.Machine

/-- One byte of the serial memory. A byte that nothing has written reads as the blank byte (log entry 2). -/
def SerialMemory.read (m : SerialMemory) (a : Nat) : Byte :=
  match m with
  | [] => Config.blankByte
  | c :: rest => if c.1 = a then c.2 else SerialMemory.read rest a

/-- Write one byte: the cell is dropped when the byte is the blank byte, so that equal memories are equal lists. -/
def SerialMemory.write (m : SerialMemory) (a : Nat) (b : Byte) : SerialMemory :=
  match m with
  | [] => if b = Config.blankByte then [] else [(a, b)]
  | c :: rest =>
    if c.1 < a then c :: SerialMemory.write rest a b
    else if c.1 = a then (if b = Config.blankByte then rest else (a, b) :: rest)
    else if b = Config.blankByte then c :: rest else (a, b) :: c :: rest

/-- The bytes from an address on, `n` of them. -/
def SerialMemory.bytes (m : SerialMemory) (a : Nat) : Nat → List Byte
  | 0 => []
  | n + 1 => SerialMemory.read m a :: SerialMemory.bytes m (a + 1) n

/-- Write byte after byte, in the order given. -/
def SerialMemory.writeAll (m : SerialMemory) : List (Nat × Byte) → SerialMemory
  | [] => m
  | (a, b) :: rest => SerialMemory.writeAll (SerialMemory.write m a b) rest

/-- The canonical form: addresses strictly rising, no cell equal to what an unlisted address reads as. -/
def SerialMemory.wf (m : SerialMemory) : Bool :=
  match m with
  | [] => true
  | c :: rest => (c.2 != Config.blankByte && rest.all fun d => c.1 < d.1) && SerialMemory.wf rest

end Sys2Proof.Machine
end

