-- ==== Sys2Proof/Machine/Flags.lean ====
section
/-! DEFINITION. The conditions the rules read: whether a stream is LIVE, an entry quiet, a feeder eligible, a trigger holding or
permitted, an output asserted, and the levels formed from settings. -/

namespace Sys2Proof.Machine

/-- The stream is LIVE (1.1.2). -/
def State.live (s : State) (e : EntryId) : Bool := (s.stream e).state == .live

/-- The SEF base of a feeder; 0 once the FEEDER entry is removed (R4). -/
def State.sefBase (s : State) (f : Feeder) : Nat :=
  match s.plant f with
  | none => 0
  | some p => p.sefBase

/-- The SEF level-mode threshold T = floor(k × B / 16) (R45). -/
def sefLevel (k base : Nat) : Nat := k * base / 16

/-- The neutral displacement percentages of R30. -/
def ndPercent (step : Fin 8) : Nat := look #v[5, 8, 10, 15, 20, 25, 30, 40] step

/-- The neutral displacement threshold that R30 forms from Vnom and nd_step. -/
def ndThresholdOf (vnom : Nat) (step : Fin 8) : Nat := vnom * ndPercent step / 100

/-- The detector's drop-off level, and the clear level of a BUS hunt: floor(threshold × 3/4) (R32, R51, R134). -/
def threeQuarters (threshold : Nat) : Nat := threshold * 3 / 4

/-! ### Quiet (4.4.1) -/

/-- No element of the feeder is picked up and its SEF timer is stopped (R70). -/
def ElementRecord.idle (r : ElementRecord) : Bool :=
  !r.phPickup.any id && !r.efPickup && !r.hsCond && r.sefC == .dropped && r.sefTimer == none

/-- The reclose state is READY, LOCKOUT or OFF (R70). -/
def RecloseState.atRest : RecloseState → Bool
  | .off | .ready | .lockout _ => true
  | .tripping _ _ | .deadTime _ _ | .closing _ _ | .reclaim _ _ => false

/-- A hunt of kind BUS is in progress (R71). -/
def State.busHunting (s : State) : Bool := s.ctx.state != .idle && s.ctx.kind == some .bus

/-- A feeder entry is quiet (R70). -/
def State.quietFeeder (s : State) (f : Feeder) : Bool :=
  (s.element f).idle && (s.recl f).state.atRest && !s.involves f

/-- The bus entry is quiet (R71). -/
def State.quietBus (s : State) : Bool := s.bank.nd.pick == .dropped && !s.busHunting

/-- A map entry is quiet. -/
def State.quiet (s : State) (e : EntryId) : Bool :=
  match EntryId.feeder? e with
  | some f => s.quietFeeder f
  | none => s.quietBus

/-! ### Hunting (7.2, 7.3) -/

/-- The feeder is eligible for hunting (R126). -/
def State.eligible (s : State) (f : Feeder) : Bool :=
  let head := s.slot (Feeder.head f)
  s.mode f == .inService && ((s.feederProfile f).any fun p => p.huntPermitted)
    && head.state == .inService && head.known == .closed && (s.element f).latch == none

/-- Some feeder's SEF state C is PICKED_UP (R52, R128). -/
def State.anySefPicked (s : State) : Bool := feeders.any fun f => (s.element f).sefC == .pickedUp

/-- The trigger of a source still holds (R128). -/
def State.triggerHolds (s : State) (e : EntryId) : Bool :=
  match EntryId.feeder? e with
  | some f => (s.element f).sefC == .pickedUp
  | none => s.bank.nd.pick == .pickedUp && !s.anySefPicked

/-- At least one feeder of the bus hunt order is eligible (R128, R131). -/
def State.orderEligible (s : State) : Bool := s.hunt.busOrder.any fun f => s.eligible f

/-- The source of a hunt is permitted (R128). -/
def State.permitted (s : State) (e : EntryId) : Bool :=
  match EntryId.feeder? e with
  | some f => s.eligible f && s.live e
  | none => s.live busEntry && s.phasor.threshold != none && s.orderEligible

/-- The hunt involves a source: FEEDER(f) with f in the involved set, BUS while the context holds a BUS hunt (R129). -/
def State.involvesSource (s : State) (e : EntryId) : Bool :=
  match EntryId.feeder? e with
  | some f => s.involves f
  | none => s.busHunting

/-- The point is the open point of a hunt in progress (R105, R164). -/
def State.isOpenPoint (s : State) (i : SlotId) : Bool := s.ctx.state != .idle && s.ctx.openPoint == some i

/-! ### Outputs (R183) -/

/-- The conditions of a feeder-healthy output. -/
def State.healthy (s : State) (f : Feeder) : Bool :=
  s.mode f == .inService && s.live (Feeder.entry f) && (s.slot (Feeder.head f)).state == .inService

/-- Bring the feeder-healthy outputs into agreement with R183. -/
def State.refreshOutputs (s : State) : State :=
  s.setOutputs { s.outputs with healthy := Vector.ofFn fun f => s.healthy f }

/-! ### Block reason sets (5.2) -/

/-- Whether a member is present. -/
def Reasons.has (r : Reasons) : Reason → Bool
  | .fire => r.fire
  | .manual => r.manual
  | .hotLine => r.hotLine
  | .hunt => r.hunt
  | .streamLost => r.streamLost
  | .sefLock => r.sefLock

/-- The set with one member present or absent. -/
def Reasons.put (r : Reasons) (x : Bool) : Reason → Reasons
  | .fire => { r with fire := x }
  | .manual => { r with manual := x }
  | .hotLine => { r with hotLine := x }
  | .hunt => { r with hunt := x }
  | .streamLost => { r with streamLost := x }
  | .sefLock => { r with sefLock := x }

/-- The set holds no member. -/
def Reasons.isEmpty (r : Reasons) : Bool :=
  !(r.fire || r.manual || r.hotLine || r.hunt || r.streamLost || r.sefLock)

/-! ### Causes (3.7.1) -/

/-- The union of two sets of causes. -/
def Causes.union (a b : Causes) : Causes :=
  ⟨a.phA || b.phA, a.phB || b.phB, a.phC || b.phC, a.ef || b.ef, a.highSet || b.highSet, a.sef || b.sef,
    a.streamLoss || b.streamLoss⟩

/-- The set holds no cause. -/
def Causes.isEmpty (a : Causes) : Bool := !(a.phA || a.phB || a.phC || a.ef || a.highSet || a.sef || a.streamLoss)

end Sys2Proof.Machine
end

