-- ==== Sys2Proof/Machine/Link.lean ====
section
/-! DEFINITION. The Link Port's transmit side and error log, and the notice queue (8.3, 8.4, 9.4). -/

namespace Sys2Proof.Machine

/-! ### The transmit arbiter -/

/-- The oldest frame of the lowest-numbered class that is not empty, and the queue without it (R155). -/
def TxQueue.next (q : TxQueue) : Option (TxFrame × TxQueue) :=
  match q.c1 with
  | f :: r => some (f, { q with c1 := r })
  | [] => match q.c2 with
    | f :: r => some (f, { q with c2 := r })
    | [] => match q.c3 with
      | f :: r => some (f, { q with c3 := r })
      | [] => match q.c4 with
        | f :: r => some (f, { q with c4 := r })
        | [] => match q.c5 with
          | f :: r => some (f, { q with c5 := r })
          | [] => none

/-- The class a frame joins (R154). -/
def TxFrame.join (f : TxFrame) (q : TxQueue) : TxQueue :=
  match f with
  | .command _ _ kind _ _ _ =>
    match kind with
    | .trip => { q with c1 := q.c1 ++ [f] }
    | .opn | .close => { q with c2 := q.c2 ++ [f] }
    | .block | .release | .enrol => { q with c4 := q.c4 ++ [f] }
  | .reply .. => { q with c3 := q.c3 ++ [f] }
  | .notice .. => { q with c5 := q.c5 ++ [f] }

/-- Begin the next transmission if the path is idle and a frame waits (R155). -/
def State.beginTx (s : State) : State :=
  match s.link.wire with
  | some _ => s
  | none =>
    match s.link.tx.next with
    | none => s
    | some (f, q) => s.setLink { s.link with tx := q, wire := some f }

/-- Hand the Link Port a frame: it joins its class, and its transmission begins at once on an idle path (R154, R155). -/
def State.handFrame (s : State) (f : TxFrame) : State :=
  (s.setLink { s.link with tx := f.join s.link.tx }).beginTx

/-- Whether a frame is a NOTICE. -/
def TxFrame.isNotice : TxFrame → Bool
  | .notice .. => true
  | _ => false

/-- Transmit class 5 holds no frame, neither waiting nor in transmission (R154, R171; log entry 8). -/
def State.noticeClassFree (s : State) : Bool :=
  s.link.tx.c5.isEmpty && !(s.link.wire.any TxFrame.isNotice)

/-- The test of R171: hand on the oldest notice when class 5 holds no frame and the destination is present. The frame takes
the overflow flag, which is then cleared. -/
def State.feedNotice (s : State) : State :=
  if s.noticeClassFree then
    match s.link.table.dest, s.mgmt.notices with
    | some d, n :: rest =>
      (s.setMgmt { s.mgmt with notices := rest, overflow := false }).handFrame
        (.notice d s.link.table.address s.mgmt.overflow n)
    | _, _ => s
  else s

/-- Hand the Management Responder a notice: it joins the newest end and the test of R171 is made, or it is dropped and the
overflow flag set (R170). -/
def State.notify (s : State) (n : Notice) (test : Bool) : State :=
  if s.mgmt.notices.length < Config.noticeEntries then
    (s.setMgmt { s.mgmt with notices := s.mgmt.notices ++ [⟨n, test⟩] }).feedNotice
  else s.setMgmt { s.mgmt with overflow := true }

/-! ### The error log -/

/-- The place of a class in the table of 8.3.1. -/
def ErrorClass.index : ErrorClass → Fin 8
  | .badCheck => 0
  | .unknownKind => 1
  | .badLength => 2
  | .unknownSource => 3
  | .staleSample => 4
  | .lateResponse => 5
  | .tagMismatch => 6
  | .requestOverflow => 7

/-- A counter increased by one that stays at 65,535. -/
def bump (n : Nat) : Nat := if n < Config.counterTop then n + 1 else n

/-- An occurrence of a class (R152): the counter, the seen flag, and a LINK_ERROR on the first one if the class is unmasked
and MAJOR. -/
def State.occur (s : State) (c : ErrorClass) : State :=
  let l := look s.link.log c.index
  let k := look s.link.table.classes c.index
  let s' := s.setLink { s.link with log := put s.link.log c.index ⟨bump l.count, true⟩ }
  if !l.seen && !k.masked && k.major then s'.notify (.linkError c (bump l.count)) false else s'

/-! ### Replies -/

/-- Change the state of the request queue entry with a ticket. -/
def State.markEntry (s : State) (ticket : Nat) (st : EntryState) : State :=
  s.setMgmt { s.mgmt with
    requests := s.mgmt.requests.map fun e => if e.ticket = ticket then { e with state := st } else e }

/-- Form the reply of an entry, hand it to transmit class 3 and make the entry REPLYING (R160 step 4, R161). -/
def State.replyTo (s : State) (ticket : Nat) (r : Result) (payload : List Byte) : State :=
  match s.mgmt.requests.find? fun e => e.ticket == ticket with
  | none => s
  | some e =>
    (s.markEntry ticket (.replying r)).handFrame
      (.reply ticket e.req.source s.link.table.address e.req.tag e.kind r payload)

end Sys2Proof.Machine
end

