-- ==== Sys2Proof/Machine/Exchange.lean ====
section
/-! DEFINITION. The Outstation Exchange (chapter 6): admission of commands, sending, and the notices of a slot. What becomes of
a completion at its originator stands with the originators. -/

namespace Sys2Proof.Machine

/-! ### Groups (6.3.1) -/

/-- The SWITCH group: OPEN and CLOSE. -/
def CmdKind.isSwitch : CmdKind → Bool
  | .opn | .close => true
  | _ => false

/-- The BLOCKING group: BLOCK and RELEASE. -/
def CmdKind.isBlocking : CmdKind → Bool
  | .block | .release => true
  | _ => false

/-- A TRIP, OPEN or CLOSE: simulated on a TEST feeder (R106), and holding back reports while in flight (R119). -/
def CmdKind.isSwitching (k : CmdKind) : Bool := k == .trip || k.isSwitch

/-- Which command kinds an outstation kind permits (6.3.1). -/
def CmdKind.permittedFor (k : CmdKind) (o : OutKind) : Bool :=
  match k with
  | .trip => o == .breaker
  | .opn | .close => o == .breaker || o == .recloser || o == .sectionaliser
  | .block | .release => o == .recloser
  | .enrol => true

/-! ### Completions -/

/-- A completion on its way to one originator (R118). -/
structure Delivery where
  slot       : SlotId
  origin     : Originator
  cmd        : Cmd
  completion : Completion
  deriving DecidableEq, Repr

/-- The deliveries of a completed command: to its originator and to every command merged with it (R113, R118). -/
def deliveries (i : SlotId) (c : Cmd) (k : Completion) : List Delivery :=
  (c.origin :: c.merged).map fun o => ⟨i, o, c, k⟩

/-! ### Admission -/

/-- The slot's state admits the command (R106 check 1). -/
def Outstation.admits (o : Outstation) (k : CmdKind) : Bool :=
  o.state == .inService
    || (k == .enrol && o.state == .enrolling)
    || (k.isBlocking && o.state == .unreachable && o.loaded.any fun l => l.follower)

/-- A command is in flight with this property. -/
def Outstation.flying (o : Outstation) (p : CmdKind → Bool) : Bool := o.inFlight.any fun f => p f.cmd.kind

/-- A command with this property is queued. -/
def Outstation.queued (o : Outstation) (p : CmdKind → Bool) : Bool := o.queue.any fun c => p c.kind

/-- Merge an originator with the first queued command of a kind. -/
def mergeQueued (k : CmdKind) (o : Originator) : List Cmd → List Cmd
  | [] => []
  | c :: rest => if c.kind == k then { c with merged := c.merged ++ [o] } :: rest else c :: mergeQueued k o rest

/-- The queued commands of a group, completed SUPERSEDED (R107, R109). -/
def supersede (i : SlotId) (p : CmdKind → Bool) (q : List Cmd) : List Delivery :=
  (q.filter fun c => p c.kind).flatMap fun c => deliveries i c .superseded

/-- The queue without a group. -/
def withoutGroup (p : CmdKind → Bool) (q : List Cmd) : List Cmd := q.filter fun c => !p c.kind

/-- The rule of the TRIP group (R107). -/
def admitTrip (i : SlotId) (o : Outstation) (c : Cmd) : Outstation × List Delivery :=
  let q := withoutGroup CmdKind.isSwitch o.queue
  let gone := supersede i CmdKind.isSwitch o.queue
  if o.queued (· == .trip) then ({ o with queue := mergeQueued .trip c.origin q }, gone)
  else if o.flying (· == .trip) then
    ({ o with queue := q
              inFlight := o.inFlight.map fun f => { f with cmd := { f.cmd with merged := f.cmd.merged ++ [c.origin] } } },
      gone)
  else ({ o with queue := c :: q }, gone)

/-- The rule of the SWITCH group (R108). -/
def admitSwitch (i : SlotId) (o : Outstation) (c : Cmd) : Outstation × List Delivery :=
  if o.queued CmdKind.isSwitch then (o, deliveries i c .busy) else ({ o with queue := o.queue ++ [c] }, [])

/-- The rule of the BLOCKING group (R109), row by row. -/
def admitBlocking (i : SlotId) (o : Outstation) (c : Cmd) : Outstation × List Delivery :=
  if o.queued (· == c.kind) then ({ o with queue := mergeQueued c.kind c.origin o.queue }, [])
  else
    let q := withoutGroup CmdKind.isBlocking o.queue
    let gone := supersede i CmdKind.isBlocking o.queue
    if o.flying (· == c.kind) then ({ o with queue := q }, gone ++ deliveries i c (.done none false))
    else ({ o with queue := q ++ [c] }, gone)

/-- The checks of R106: the completion of the first that fails, none where the command is admitted. `test` says that the slot's
feeder is in TEST. -/
def Outstation.turnsAway (o : Outstation) (test : Bool) (c : Cmd) : Option Completion :=
  if !o.admits c.kind then some .unavailable
  else if !(o.loaded.any fun l => c.kind.permittedFor l.kind) then some .kind
  else if test && c.kind.isSwitching then
    match c.origin with
    | .management _ => some .notPermitted
    | _ => some (.done none true)
  else none

/-- The checks of R106 and, where they pass, the rule of the command's group. Answers the slot as the admission leaves it and the
completions it causes, in their order. -/
def admitCmd (test : Bool) (i : SlotId) (o : Outstation) (c : Cmd) : Outstation × List Delivery :=
  match o.turnsAway test c with
  | some k => (o, deliveries i c k)
  | none =>
    match c.kind with
    | .trip => admitTrip i o c
    | .opn | .close => admitSwitch i o c
    | .block | .release => admitBlocking i o c
    | .enrol => ({ o with queue := o.queue ++ [c] }, [])

/-- Hand the Outstation Exchange a command for a slot (R106 to R109). A command that passes the checks of R106 is admitted, and
counted so for the test of R111 at the end of the event, whatever the rule of its group then does with it (log entry 8). -/
def State.handCmd (s : State) (i : SlotId) (c : Cmd) : State × List Delivery :=
  let test := s.testMark (SlotId.feeder i)
  let r := admitCmd test i (s.slot i) c
  let s1 := s.setSlot i r.1
  (if ((s.slot i).turnsAway test c).isNone then s1.countAdmission i else s1, r.2)

/-- The completion a just-handed command received at admission, none when it waits: the deliveries after it carry other
commands only for a TRIP or a BLOCKING command, whose own completion stands last (R107, R109). -/
def ownCompletion (c : Cmd) (ds : List Delivery) : Option Completion :=
  match ds.getLast? with
  | none => none
  | some d => if d.cmd = c then some d.completion else none

/-! ### Sending (R111) -/

/-- The hunt mark is set on the commands of the Hunt Controller (6.3.1). -/
def Cmd.huntMark (c : Cmd) : Bool := c.origin == .hunt

/-- What an ENROL carries beside the common fields (8.5.2). -/
def Cmd.enrolFields (c : Cmd) : Option (OutKind × Nat) :=
  match c.kind with
  | .enrol => c.expected.map fun k => (k, c.hold)
  | _ => none

/-- The turnaround gap since the last completion has passed, or there has been none. -/
def Outstation.gapPassed (o : Outstation) (now : Nat) : Bool :=
  match o.lastDone, o.loaded with
  | some t, some l => t + l.gap ≤ now
  | _, _ => true

/-- The state of the slot lets it send. -/
def Outstation.sends (o : Outstation) : Bool :=
  o.state == .enrolling || o.state == .inService || o.state == .unreachable

/-- The conditions under which the head of the queue is sent. -/
def Outstation.canSend (o : Outstation) (now : Nat) : Bool :=
  match o.queue with
  | [] => false
  | c :: _ => o.inFlight == none && o.sends && o.loaded != none && (c.kind == .trip || o.gapPassed now)

/-- Send the head of a slot's queue, steps 1 to 4 of R111, if the conditions hold. -/
def State.trySend (s : State) (i : SlotId) : State :=
  let o := s.slot i
  if o.canSend s.time then
    match o.queue, o.loaded with
    | c :: rest, some l =>
      let tag := o.tagCounter + 1#8
      (s.setSlot i { o with queue := rest, tagCounter := tag, inFlight := some ⟨c, tag, s.time + l.wait, 0⟩ }).handFrame
        (.command l.address s.link.table.address c.kind tag c.huntMark c.enrolFields)
    | _, _ => s
  else s

/-- The event that began in `s0` has admitted a command to the slot, or completed the command that was in flight (R111). -/
def State.sendTestDue (s0 s : State) (i : SlotId) : Bool :=
  s.admissions i != s0.admissions i || ((s0.slot i).inFlight.isSome && (s.slot i).inFlight.isNone)

/-- The test of R111 at the end of an event that began in `s0`, slot by slot (log entry 8). -/
def State.sendChanged (s0 s : State) : State :=
  allSlots.foldl (fun s i => if State.sendTestDue s0 s i then s.trySend i else s) s

/-! ### Notices and changes of a slot (R122) -/

/-- Hand on an OUTSTATION_STATE notice for the slot as it now stands. -/
def State.notifySlot (s : State) (i : SlotId) (prev : SlotState) (reason : OutReason) (reported : Option U16 := none)
    (completion : Option Completion := none) : State :=
  let o := s.slot i
  s.notify (.outstationState i prev o.state o.known o.flags reason reported completion) (s.testMark (SlotId.feeder i))

/-- An UNREACHABLE slot becomes IN_SERVICE (R117); any other slot is as it was. -/
def State.reach (s : State) (i : SlotId) : State :=
  let o := s.slot i
  if o.state == .unreachable then
    (s.setSlot i { o with state := .inService, failures := 0 }).notifySlot i .unreachable .reached
  else s

/-- The slot that is not EMPTY and has this link address (R151). -/
def State.slotAt (s : State) (a : U16) : Option SlotId :=
  allSlots.find? fun i => (s.slot i).loaded.any fun l => l.address == a

end Sys2Proof.Machine
end

