-- ==== Sys2Proof/Machine/Reclose.lean ====
section
/-! DEFINITION. The Reclose Controller (chapter 5): follower blocking, the block reason sets, and the transitions of the reclose
state with their notices. -/

namespace Sys2Proof.Machine

/-! ### Follower block states (5.4) -/

/-- Change a follower's block state and timer; a change of the state sends a FOLLOWER_STATE notice (R95). -/
def State.moveFollower (s : State) (i : SlotId) (st : FollowerState) (refresh : Option Nat)
    (completion : Option Completion := none) : State :=
  let prev := (s.follower i).state
  let s' := s.setFollower i ⟨st, refresh⟩
  if prev == st then s'
  else s'.notify (.followerState i prev st completion) (s.testMark (SlotId.feeder i))

/-- The expiry of a refresh timer started now (R95). -/
def State.refreshExpiry (s : State) (i : SlotId) : Option Nat :=
  (s.slot i).loaded.map fun l => s.time + 1000 * l.refresh

/-- A BLOCK completes (R97). -/
def State.blockCompleted (s : State) (i : SlotId) (k : Completion) : State :=
  let fr := s.follower i
  match k with
  | .superseded => s
  | .done _ _ =>
    match fr.state with
    | .blockPending | .blocked => s.moveFollower i .blocked (s.refreshExpiry i) (some k)
    | .releasePending | .none => s
  | _ =>
    match fr.state with
    | .blockPending | .blocked => s.moveFollower i fr.state (s.refreshExpiry i) (some k)
    | .releasePending | .none => s

/-- A RELEASE completes (R98). -/
def State.releaseCompleted (s : State) (i : SlotId) (k : Completion) : State :=
  match k, (s.follower i).state with
  | .superseded, _ => s
  | _, .releasePending => s.moveFollower i .none none (some k)
  | _, _ => s

/-- The completion of a BLOCKING command of the Reclose Controller (R97, R98). -/
def State.blockingCompleted (s : State) (d : Delivery) : State :=
  match d.cmd.kind with
  | .block => s.blockCompleted d.slot d.completion
  | .release => s.releaseCompleted d.slot d.completion
  | _ => s

/-- Hand a BLOCK or RELEASE and take the completions its admission causes (R109). -/
def State.handBlocking (s : State) (i : SlotId) (k : CmdKind) : State :=
  let r := s.handCmd i { kind := k, origin := .reclose }
  r.2.foldl State.blockingCompleted r.1

/-- The outstation is a follower in a state that admits a BLOCKING command (R96). -/
def Outstation.takesBlocking (o : Outstation) : Bool :=
  (o.loaded.any fun l => l.follower) && (o.state == .inService || o.state == .unreachable)

/-- Block one follower of a feeder whose set is not empty (R96). -/
def State.blockFollower (s : State) (i : SlotId) : State :=
  match (s.follower i).state with
  | .none | .releasePending =>
    if (s.slot i).takesBlocking then (s.moveFollower i .blockPending none).handBlocking i .block else s
  | .blockPending | .blocked => s

/-- Release one follower of a feeder whose set has emptied (R98). -/
def State.releaseFollower (s : State) (i : SlotId) : State :=
  match (s.follower i).state with
  | .blockPending | .blocked => (s.moveFollower i .releasePending none).handBlocking i .release
  | .none | .releasePending => s

/-- The refresh timer of a follower expires: it is stopped, and a BLOCK is handed to a slot that takes it (R97). -/
def State.refreshExpired (s : State) (i : SlotId) : State :=
  let s1 := s.setFollower i { s.follower i with refresh := none }
  if (s.slot i).state == .inService || (s.slot i).state == .unreachable then s1.handBlocking i .block else s1

/-- A follower's outstation has left service or become EMPTY (R99). -/
def State.dropFollower (s : State) (i : SlotId) : State := s.moveFollower i .none none

/-! ### The reclose state (5.3) -/

/-- The name of a reclose state and its shot, as the notice of R94 and the snapshot carry them. That a state without a shot (OFF,
READY, TRIPPING, LOCKOUT) carries 00h in its shot byte is a DESIGN CHOICE (log entry 31). -/
def RecloseState.name : RecloseState → RecloseName × Nat
  | .off => (.off, 0)
  | .ready => (.ready, 0)
  | .tripping _ _ => (.tripping, 0)
  | .deadTime n _ => (.deadTime, n)
  | .closing n _ => (.closing, n)
  | .reclaim n _ => (.reclaim, n)
  | .lockout _ => (.lockout, 0)

/-- Shots used, held in TRIPPING alone (R79). -/
def RecloseState.used : RecloseState → Nat
  | .tripping n _ => n
  | _ => 0

/-- The lockout cause, held in LOCKOUT alone (R79). -/
def RecloseState.cause? : RecloseState → Option LockoutCause
  | .lockout c => some c
  | _ => none

/-- Replace the reclose state without a notice: a mark set in CLOSING is no change of state (R88, R89). -/
def State.markReclose (s : State) (f : Feeder) (st : RecloseState) : State :=
  s.setRecl f { s.recl f with state := st }

/-- A transition of the reclose state with its RECLOSE_STATE notice (R94). -/
def State.goReclose (s : State) (f : Feeder) (st : RecloseState) (failures : PermissionFailures := {}) : State :=
  let prev := (s.recl f).state.name
  (s.markReclose f st).notify
    (.recloseState f prev.1 prev.2 st.name.1 st.name.2 st.used st.cause? failures) (s.testMark f)

/-- The dead time of a shot, in units of 100 ms (4.1.1). -/
def Profile.deadTime (p : Profile) (shot : Nat) : Nat :=
  if shot ≤ 1 then p.dead1 else if shot = 2 then p.dead2 else if shot = 3 then p.dead3 else p.dead4

/-- The mark of a trip as a lockout cause (R83). -/
def FinalMark.cause : FinalMark → LockoutCause
  | .switchOntoFault => .switchOntoFault
  | .finalTrip => .finalTrip

/-- The close mark as a lockout cause (R86). -/
def CloseMark.cause : CloseMark → LockoutCause
  | .blocked => .blocked
  | .profile => .profile

/-- The state a trip decision leads to (R82), none where no decision arrives. -/
def RecloseState.afterDecision : RecloseState → Option RecloseState
  | .ready => some (.tripping 0 none)
  | .reclaim 0 _ => some (.tripping 0 (some .switchOntoFault))
  | .reclaim n _ => some (.tripping n none)
  | .closing n _ => some (.tripping n none)
  | .deadTime n _ => some (.tripping (n - 1) (some .finalTrip))
  | .lockout _ => some (.tripping 0 (some .finalTrip))
  | .tripping _ _ | .off => none

/-- The Reclose Controller is told of a trip decision (R82). -/
def State.tellDecision (s : State) (f : Feeder) : State :=
  match (s.recl f).state.afterDecision with
  | none => s
  | some st => s.goReclose f st

/-- The four conditions of R83, each with the failure it names. -/
def State.permissionFailures (s : State) (f : Feeder) (used : Nat) (causes : Causes) : PermissionFailures :=
  let p := s.feederProfile f
  { blockSet := !(s.recl f).reasons.isEmpty
    shots := !(used + 1 ≤ match p with | none => 0 | some q => q.shots)
    cause := causes.streamLoss || (causes.sef && p.any fun q => q.sefLock)
    stream := !s.live (Feeder.entry f) }

/-- No condition failed: reclose is permitted. -/
def PermissionFailures.isPermitted (x : PermissionFailures) : Bool := !(x.blockSet || x.shots || x.cause || x.stream)

/-- The Reclose Controller is told that the TRIP is done (R83). -/
def State.tellTripDone (s : State) (f : Feeder) (causes : Causes) : State :=
  match (s.recl f).state with
  | .tripping _ (some m) => s.goReclose f (.lockout m.cause)
  | .tripping used none =>
    let x := s.permissionFailures f used causes
    match x.isPermitted, s.feederProfile f with
    | true, some p => s.goReclose f (.deadTime (used + 1) (s.time + 100 * p.deadTime (used + 1)))
    | _, _ => s.goReclose f (.lockout .notPermitted) x
  | _ => s

/-- The Reclose Controller is told that the TRIP failed (R84). -/
def State.tellTripFailed (s : State) (f : Feeder) : State :=
  match (s.recl f).state with
  | .tripping _ _ => s.goReclose f (.lockout .breakerFail)
  | _ => s

/-- The CLOSE of a shot completes (R86). -/
def State.closeCompleted (s : State) (f : Feeder) (k : Completion) : State :=
  match (s.recl f).state with
  | .closing n mark =>
    match k with
    | .done _ _ =>
      match mark with
      | none => s.goReclose f (.reclaim n s.time)
      | some m => s.goReclose f (.lockout m.cause)
    | .superseded => s
    | _ => s.goReclose f (.lockout .closeFail)
  | _ => s

/-- The dead timer expires in DEAD_TIME(n) (R85): the notice of CLOSING(n), then the CLOSE, then a completion at admission. -/
def State.deadExpired (s : State) (f : Feeder) (n : Nat) : State :=
  let c : Cmd := { kind := .close, origin := .reclose, shot := n }
  let r := (s.goReclose f (.closing n none)).handCmd (Feeder.head f) c
  match ownCompletion c r.2 with
  | none => r.1
  | some k => r.1.closeCompleted f k

/-- The reclaim timer has expired, measured against the active profile as it stands (R87). -/
def State.reclaimDue (s : State) (f : Feeder) : Bool :=
  match (s.recl f).state, s.feederProfile f with
  | .reclaim _ start, some p => start + 100 * p.reclaim ≤ s.time
  | _, _ => false

/-- Reclaim expiry: READY (R87). -/
def State.reclaimExpired (s : State) (f : Feeder) : State := s.goReclose f .ready

/-- The reclose state responds to an added member (R88). -/
def State.reasonAdded (s : State) (f : Feeder) : State :=
  match (s.recl f).state with
  | .deadTime _ _ => s.goReclose f (.lockout .blocked)
  | .closing n none => s.markReclose f (.closing n (some .blocked))
  | _ => s

/-- The Reclose Controller is presented with a new profile (R89). -/
def State.presentReclose (s : State) (f : Feeder) (p : Profile) : State :=
  match (s.recl f).state with
  | .deadTime n _ => if n > p.shots then s.goReclose f (.lockout .profile) else s
  | .closing n none => if n > p.shots then s.markReclose f (.closing n (some .profile)) else s
  | .reclaim _ _ => if s.reclaimDue f then s.reclaimExpired f else s
  | _ => s

/-- EXTERNAL_OPEN is reported in READY (R90, R121). -/
def State.externalOpen (s : State) (f : Feeder) : State :=
  match (s.recl f).state with
  | .ready => s.goReclose f (.lockout .externalOpen)
  | _ => s

/-- The Reclose Controller is told of the completion of an OPERATE of slot 0 (R91). -/
def State.operateTold (s : State) (f : Feeder) (kind : CmdKind) (k : Completion) : State :=
  if k.isDone then
    match kind, (s.recl f).state with
    | .opn, .ready | .opn, .reclaim _ _ => s.goReclose f (.lockout .manualOpen)
    | .opn, .lockout c => if c == .manualOpen then s else s.goReclose f (.lockout .manualOpen)
    | .close, .lockout _ => s.goReclose f (.reclaim 0 s.time)
    | _, _ => s
  else s

/-- The Reclose Controller's checks of an OPERATE of slot 0 (R91); none passes. -/
def State.operateCheck (s : State) (f : Feeder) (kind : CmdKind) : Option Result :=
  match kind with
  | .close =>
    if (s.recl f).reasons.hotLine then some .notPermitted
    else match (s.recl f).state with
      | .lockout _ | .off => none
      | _ => some .state
  | _ =>
    match (s.recl f).state with
    | .tripping _ _ | .deadTime _ _ | .closing _ _ => some .state
    | _ => none

/-! ### The block reason set (5.2) -/

/-- Hand on a BLOCK_SET notice for the set as it now stands (R80 step 2). -/
def State.notifyReasons (s : State) (f : Feeder) (m : Reason) (added : Bool) : State :=
  s.notify (.blockSet f m added (s.recl f).reasons) (s.testMark f)

/-- The member joins or leaves the set, with its BLOCK_SET notice (R80 steps 1 and 2). -/
def State.changeReason (s : State) (f : Feeder) (m : Reason) (x : Bool) : State :=
  let r := s.recl f
  (s.setRecl f { r with reasons := r.reasons.put x m }).notifyReasons f m x

/-- Add a member (R80). That the followers of the feeder are blocked in order of slot position is a DESIGN CHOICE: R96 gives no order
(log entry 28). -/
def State.addReason (s : State) (f : Feeder) (m : Reason) : State :=
  let before := (s.recl f).reasons
  if before.has m then s
  else
    let s' := (s.changeReason f m true).reasonAdded f
    if before.isEmpty then (Feeder.slots f).foldl State.blockFollower s' else s'

/-- Remove a member (R80). That the followers of the feeder are released in order of slot position is a DESIGN CHOICE: R98 gives no
order (log entry 28). -/
def State.removeReason (s : State) (f : Feeder) (m : Reason) : State :=
  let before := (s.recl f).reasons
  if before.has m then
    let s' := s.changeReason f m false
    if (before.put false m).isEmpty then (Feeder.slots f).foldl State.releaseFollower s' else s'
  else s

/-- A follower has entered service from ENROLLING: it is blocked if the set is not empty (R96, R104). -/
def State.followerEntered (s : State) (i : SlotId) : State :=
  if (s.recl (SlotId.feeder i)).reasons.isEmpty then s
  else match (s.follower i).state with
    | .none => s.blockFollower i
    | _ => s

/-- RESET_LOCKOUT on a feeder (R92). -/
def State.resetLockout (s : State) (f : Feeder) : State × Result :=
  match (s.recl f).state with
  | .lockout _ =>
    if (s.slot (Feeder.head f)).known == .closed then ((s.removeReason f .sefLock).goReclose f .ready, .ok)
    else (s, .state)
  | .ready | .reclaim _ _ | .off => (s.removeReason f .sefLock, .ok)
  | .tripping _ _ | .deadTime _ _ | .closing _ _ => (s, .state)

end Sys2Proof.Machine
end

