-- ==== Sys2Proof/Machine/Abort.lean ====
section
/-! DEFINITION. The end of a hunt: step outcomes, the abort, the open point during an abort, the result notice (R125, R127,
R142 to R146). What goes on hunting stands in Hunt.lean. -/

namespace Sys2Proof.Machine

/-- Change the hunt context. -/
def State.mapCtx (s : State) (g : HuntContext → HuntContext) : State := s.setCtx (g s.ctx)

/-- OPENING, SETTLING or RESTORING: the states an abort leaves (R143). -/
def HuntContext.running (c : HuntContext) : Bool := c.state == .opening || c.state == .settling || c.state == .restoring

/-- The step in progress: phase, feeder, position and last-point mark (R125). -/
def State.currentStep (s : State) : Option (HuntPhase × Feeder × Nat × Bool) :=
  match s.ctx.phase with
  | none => none
  | some .busStep =>
    match s.ctx.busIndex with
    | none => none
    | some k => (s.hunt.busOrder[k]?).map fun f => (.busStep, f, 0, k + 1 == s.hunt.busOrder.length)
  | some .feederStep =>
    match s.ctx.feeder, s.ctx.planIndex with
    | some f, some k => ((s.plan f)[k]?).map fun x => (.feederStep, f, x.position.val, k + 1 == (s.plan f).length)
    | _, _ => none

/-- Append an outcome for the step in progress (R125). -/
def State.appendOutcome (s : State) (v : OutcomeValue) : State :=
  match s.currentStep with
  | none => s
  | some (ph, f, pos, last) => s.mapCtx fun c => { c with results := c.results ++ [⟨ph, f, pos, v, last⟩] }

/-- End a hunt: HUNT leaves each set of the involved set, the HUNT_RESULT notice is handed on, the context becomes IDLE
(R142 steps 3 to 5, R145). -/
def State.finishHunt (s : State) (r : HuntResult) (point : Option PointOutcome) : State :=
  let s1 := s.ctx.involved.foldl (fun s f => s.removeReason f .hunt) s
  let c := s1.ctx
  let p := match c.openPoint, point with
    | some i, some o => some (i, o)
    | _, _ => none
  (s1.notify (.huntResult c.kind c.origin c.involved r p c.observed c.clearLevel c.results) false).setCtx HuntContext.reset

/-- The end of an abort (R145), with the outcome of the open point if there is one. -/
def State.endAbort (s : State) (point : Option PointOutcome) : State :=
  s.finishHunt (.aborted (s.ctx.abortCause.getD .manual)) point

/-- The hunt's CLOSE completes in ABORTING (R144). -/
def State.abortCloseDone (s : State) (k : Completion) : State :=
  match k with
  | .done _ _ => (s.mapCtx fun c => { c with outstanding := none, openPoint := none }).endAbort none
  | .superseded => (s.mapCtx fun c => { c with outstanding := none }).endAbort (some .leftOpen)
  | _ => (s.mapCtx fun c => { c with outstanding := none }).endAbort (some .unknown)

/-- A hunt command for a point. -/
def huntCmd (k : CmdKind) : Cmd := { kind := k, origin := .hunt }

/-- Decide restoration (R144): a CLOSE of the open point where the profile active on its feeder permits it, or the point is
left open. -/
def State.decideRestoration (s : State) : State :=
  match s.ctx.openPoint with
  | none => s.endAbort none
  | some i =>
    if (s.feederProfile (SlotId.feeder i)).any fun p => p.restorePermitted then
      let c := huntCmd .close
      let r := (s.mapCtx fun x => { x with outstanding := some .close, restoring := true }).handCmd i c
      match ownCompletion c r.2 with
      | none => r.1
      | some k => r.1.abortCloseDone k
    else s.endAbort (some .leftOpen)

/-- Deal with the open point of an abort whose OPEN is not outstanding (the table of R144). -/
def State.settlePoint (s : State) : State :=
  match s.ctx.abortCause with
  | some .escalated | some .stream => s.endAbort (some .leftOpen)
  | some .restoreFailed => s.endAbort (some .unknown)
  | some .profile | some .manual => s.decideRestoration
  | none => s

/-- Abort a hunt in OPENING, SETTLING or RESTORING (R143, R144). -/
def State.abortHunt (s : State) (cause : AbortCause) : State :=
  let s1 := if s.ctx.state == .restoring then s else s.appendOutcome .interrupted
  let s2 := s1.mapCtx fun c => { c with state := .aborting, abortCause := some cause, settle := none }
  match s2.ctx.outstanding with
  | some _ => s2
  | none => s2.settlePoint

/-- An abort cause reaches the Hunt Controller (R143); in ABORTING it is not taken, but for the exception of R144. -/
def State.huntCause (s : State) (cause : AbortCause) : State :=
  if s.ctx.running then s.abortHunt cause
  else if s.ctx.state == .aborting && !s.ctx.restoring && (cause == .escalated || cause == .stream)
      && (s.ctx.abortCause == some .profile || s.ctx.abortCause == some .manual) then
    s.mapCtx fun c => { c with abortCause := some cause }
  else s

/-- The Hunt Controller is told of a trip decision (R53 step 5). -/
def State.escalateHunt (s : State) (f : Feeder) : State := if s.involves f then s.huntCause .escalated else s

/-- The stream the observed quantity is taken from (R137). -/
def State.observedStream (s : State) : Option EntryId :=
  if s.ctx.state == .idle then none
  else match s.ctx.observed with
    | some .displacement => some busEntry
    | some .residual => s.ctx.feeder.map Feeder.entry
    | none => none

/-- A stream is lost: a hunt that observes it is aborted (R14, R16). -/
def State.huntStreamLost (s : State) (e : EntryId) : State :=
  if s.observedStream == some e then s.huntCause .stream else s

/-- A command of the hunt completes in ABORTING (R144). -/
def State.huntAbortingDone (s : State) (kind : CmdKind) (k : Completion) : State :=
  match kind with
  | .opn =>
    let s1 := s.mapCtx fun c => { c with outstanding := none }
    if k.isDone then s1.settlePoint else (s1.mapCtx fun c => { c with openPoint := none }).endAbort none
  | _ => s.abortCloseDone k

/-- A command of the hunt completes SUPERSEDED (R136, R139, R144). -/
def State.huntSuperseded (s : State) (kind : CmdKind) : State :=
  match s.ctx.state with
  | .opening => (s.mapCtx fun c => { c with outstanding := none, openPoint := none }).abortHunt .escalated
  | .restoring => (s.mapCtx fun c => { c with outstanding := none }).abortHunt .escalated
  | .aborting => s.huntAbortingDone kind .superseded
  | _ => s

/-- ABORT_HUNT (R143). -/
def State.abortRequest (s : State) : State × Result :=
  if s.ctx.state == .idle then (s, .state) else (s.huntCause .manual, .ok)

end Sys2Proof.Machine
end

