-- ==== Sys2Proof/Machine/Operands.lean ====
section
/-! DEFINITION. Reading the bytes of frames, parameters and table records: the layouts of 8.5.2 and 8.5.4 and the ranges of
the load checks. A decoder answers none where a field is out of range (INVALID). -/

namespace Sys2Proof.Machine

/-! ### Bytes -/

/-- The byte at an offset; 0 beyond the end, where no caller reads. -/
def byteAt (r : List Byte) (i : Nat) : Nat := (r.getD i 0#8).toNat

/-- The 16-bit field at an offset, most significant byte first (R156). -/
def wordAt (r : List Byte) (i : Nat) : Nat := byteAt r i * 256 + byteAt r (i + 1)

/-- The same field as a word. -/
def u16At (r : List Byte) (i : Nat) : U16 := BitVec.ofNat 16 (wordAt r i)

/-- A flag byte holds 00h or 01h (R158). -/
def flagOk (r : List Byte) (i : Nat) : Bool := byteAt r i ≤ 1

/-- A flag byte, set or clear. -/
def flagAt (r : List Byte) (i : Nat) : Bool := byteAt r i == 1

/-- A value within its range. -/
def within (lo hi n : Nat) : Bool := lo ≤ n && n ≤ hi

/-- A link address lies in 0001h to FFFEh. -/
def addressOk (a : U16) : Bool := a != 0x0000#16 && a != 0xFFFF#16

/-- A byte as an index below a bound. -/
def indexOf (n : Nat) (b : Byte) : Option (Fin n) := if h : b.toNat < n then some ⟨b.toNat, h⟩ else none

/-- Slots 0 to 3 from two bits of a byte already checked. -/
def bankAt (r : List Byte) (i : Nat) : BankSlot := ⟨byteAt r i % 4, by omega⟩

/-! ### FEEDER and BUS records (1.2.1, R3 step 2, R158) -/

/-- The stream fields of a FEEDER or BUS record. -/
structure StreamFields where
  source  : U16
  silence : Nat
  deriving DecidableEq, Repr

/-- Source address and silence multiplier lie in their ranges. -/
def streamFieldsOk (r : List Byte) : Bool := addressOk (u16At r 1) && within 1 8 (byteAt r 3)

/-- The stream fields as loaded. -/
def streamFields (r : List Byte) : StreamFields := ⟨u16At r 1, byteAt r 3⟩

/-- The partner field: FFh none, 0 to 7 a feeder. -/
def partnerAt (r : List Byte) : Option Feeder :=
  if h : byteAt r 6 < 8 then some ⟨byteAt r 6, h⟩ else none

/-- A FEEDER record with present set, for feeder f. -/
def decodeFeeder (f : Feeder) (r : List Byte) : Option (StreamFields × FeederPlant) :=
  if flagOk r 0 && streamFieldsOk r && within 50 10000 (wordAt r 4)
      && (byteAt r 6 == 255 || (byteAt r 6 < 8 && byteAt r 6 != f.val)) then
    some (streamFields r, ⟨wordAt r 4, partnerAt r⟩)
  else none

/-- A BUS record with present set. -/
def decodeBus (r : List Byte) : Option (StreamFields × BusPlant) :=
  if flagOk r 0 && streamFieldsOk r && within 1000 20000 (wordAt r 4) && within 1 60 (byteAt r 6) then
    some (streamFields r, ⟨wordAt r 4, byteAt r 6⟩)
  else none

/-! ### OUTSTATION record (6.1.1, R101 steps 3 and 4, R158) -/

/-- The outstation kind with a code 01h to 04h (8.5.2). -/
def outKindOf (n : Nat) : Option OutKind :=
  match n with
  | 1 => some .breaker
  | 2 => some .recloser
  | 3 => some .sectionaliser
  | 4 => some .indicator
  | _ => none

/-- R101 step 4: the kind agrees with the position and the flags. -/
def kindAgrees (position : Nat) (k : OutKind) (follower huntCapable : Bool) : Bool :=
  ((position == 0) == (k == .breaker))
    && (!huntCapable || k == .recloser || k == .sectionaliser)
    && (!follower || k == .recloser)

/-- An OUTSTATION record with present set, for a slot at a position. The flag byte holds bits 0 and 1 only (log entry 12). -/
def decodeOutstation (position : Nat) (r : List Byte) : Option Loaded :=
  match outKindOf (byteAt r 3) with
  | none => none
  | some k =>
    let follower := byteAt r 8 % 2 == 1
    let huntCapable := byteAt r 8 / 2 % 2 == 1
    if flagOk r 0 && addressOk (u16At r 1) && within 20 5000 (wordAt r 4) && wordAt r 6 ≤ 1000 && byteAt r 8 ≤ 3
        && within 1 60 (byteAt r 9) && kindAgrees position k follower huntCapable then
      some ⟨u16At r 1, k, wordAt r 4, wordAt r 6, follower, huntCapable, byteAt r 9⟩
    else none

/-! ### CURVE record (R38, R158) -/

/-- The rates of a CURVE record, from an offset on. -/
def ratesFrom (r : List Byte) : List Nat := (List.range 305).map fun k => wordAt r (1 + 2 * k)

/-- Every rate is greater than or equal to the one before it (R38 step 2). -/
def nonDecreasing : List Nat → Bool
  | a :: b :: rest => a ≤ b && nonDecreasing (b :: rest)
  | _ => true

/-- A CURVE record with present set. -/
def decodeCurve (r : List Byte) : Option (List Nat) :=
  if flagOk r 0 && nonDecreasing (ratesFrom r) then some (ratesFrom r) else none

/-! ### PROFILE record (4.1.1, R64 step 2, R158) -/

/-- The seven bytes of PH_IT or EF_IT lie in their ranges; `top` is the greatest Ip, `low` the least. -/
def itOk (r : List Byte) (o low top : Nat) : Bool :=
  flagOk r o && within low top (wordAt r (o + 1)) && byteAt r (o + 3) ≤ 3 && within 5 150 (byteAt r (o + 4))
    && flagOk r (o + 5) && within 1 100 (byteAt r (o + 6))

/-- The seven bytes of PH_IT or EF_IT. -/
def itAt (r : List Byte) (o : Nat) : ItSettings :=
  ⟨flagAt r o, wordAt r (o + 1), bankAt r (o + 3), byteAt r (o + 4), flagAt r (o + 5), byteAt r (o + 6)⟩

/-- Every field of a PROFILE record with present set lies in its range, enabled or not. -/
def profileOk (r : List Byte) : Bool :=
  flagOk r 0 && byteAt r 1 ≤ 3 && itOk r 2 10 4000 && itOk r 9 5 2000
    && flagOk r 16 && within 50 40000 (wordAt r 17) && byteAt r 19 ≤ 200
    && flagOk r 20 && within 6 32 (byteAt r 21)
    && flagOk r 22 && flagOk r 23 && within 1 15 (byteAt r 24) && within 5 1000 (wordAt r 25)
    && within 1 600 (wordAt r 27) && byteAt r 29 ≤ 2 && flagOk r 30
    && byteAt r 31 ≤ 4 && within 1 1800 (wordAt r 32) && within 1 1800 (wordAt r 34) && within 1 1800 (wordAt r 36)
    && within 1 1800 (wordAt r 38) && within 10 3000 (wordAt r 40)
    && flagOk r 42 && flagOk r 43
    && flagOk r 44 && flagOk r 45 && within 2 50 (byteAt r 46) && flagOk r 47
    && byteAt r 48 ≤ 7 && flagOk r 49

/-- The SEF action with a code 00h to 02h. -/
def sefActionOf (n : Nat) : SefAction := if n = 0 then .alarm else if n = 1 then .hunt else .trip

/-- The fields of a PROFILE record. -/
def profileAt (r : List Byte) : Profile where
  fireLevel := byteAt r 1
  ph := itAt r 2
  ef := itAt r 9
  hsEnable := flagAt r 16
  hsThreshold := wordAt r 17
  hsDelay := byteAt r 19
  rstEnable := flagAt r 20
  rstRatio := byteAt r 21
  sefEnable := flagAt r 22
  sefPair := flagAt r 23
  sefK := byteAt r 24
  sefF := wordAt r 25
  sefDelay := wordAt r 27
  sefAction := sefActionOf (byteAt r 29)
  sefLock := flagAt r 30
  shots := byteAt r 31
  dead1 := wordAt r 32
  dead2 := wordAt r 34
  dead3 := wordAt r 36
  dead4 := wordAt r 38
  reclaim := wordAt r 40
  fireBlock := flagAt r 42
  lossTrip := flagAt r 43
  huntPermitted := flagAt r 44
  restorePermitted := flagAt r 45
  settle := byteAt r 46
  exhaustedTrip := flagAt r 47
  ndStep := ⟨byteAt r 48 % 8, by omega⟩
  busHunt := flagAt r 49

/-- A PROFILE record with present set. -/
def decodeProfile (r : List Byte) : Option Profile := if profileOk r then some (profileAt r) else none

/-! ### HUNT_PLAN, BUS_ORDER and LINK records (R132, R133, R149, R158) -/

/-- Groups of two bytes: position and indicator position. -/
def pairsOf : List Byte → List (Nat × Nat)
  | a :: b :: rest => (a.toNat, b.toNat) :: pairsOf rest
  | _ => []

/-- A plan step with positions in 1 to 7; indicator position 00h is none. -/
def planStepOf (p : Nat × Nat) : Option PlanStep :=
  if h : 1 ≤ p.1 ∧ p.1 ≤ 7 ∧ p.2 ≤ 7 then
    some ⟨⟨p.1, by omega⟩, if p.2 = 0 then none else some ⟨p.2, by omega⟩⟩
  else none

/-- No value stands twice in a list. -/
def distinct {α : Type} [DecidableEq α] : List α → Bool
  | [] => true
  | x :: rest => !rest.contains x && distinct rest

/-- All results, or none when one is missing. -/
def collect {α : Type} : List (Option α) → Option (List α)
  | [] => some []
  | none :: _ => none
  | some x :: rest => match collect rest with
    | none => none
    | some xs => some (x :: xs)

/-- A HUNT_PLAN record (R132 steps 3 and 4): a count up to 7, positions in range, no position twice. -/
def decodePlan (r : List Byte) : Option (List PlanStep) :=
  if byteAt r 0 ≤ 7 then
    match collect ((pairsOf (r.drop 1)).map planStepOf) with
    | none => none
    | some steps => if distinct (steps.map PlanStep.position) then some steps else none
  else none

/-- A BUS_ORDER record (R133): a count up to 8, feeders 0 to 7, none twice. -/
def decodeBusOrder (r : List Byte) : Option (List Feeder) :=
  if byteAt r 0 ≤ 8 then
    match collect ((r.drop 1).map (indexOf 8)) with
    | none => none
    | some fs => if distinct fs then some fs else none
  else none

/-- The source addresses of a LINK record, those beyond the count ignored. -/
def sourcesAt (r : List Byte) : List U16 := ((List.range 4).map fun k => u16At r (5 + 2 * k)).take (byteAt r 4)

/-- The class settings of a LINK record: bit 0 masked, bit 1 MAJOR. -/
def classesAt (r : List Byte) : Vector ClassSetting 8 :=
  let c (k : Nat) : ClassSetting := ⟨byteAt r (13 + k) % 2 == 1, byteAt r (13 + k) / 2 == 1⟩
  #v[c 0, c 1, c 2, c 3, c 4, c 5, c 6, c 7]

/-- A LINK record (R149 step 1). -/
def decodeLink (r : List Byte) : Option LinkTable :=
  if addressOk (u16At r 0) && u16At r 2 != 0xFFFF#16 && byteAt r 4 ≤ 4 && (sourcesAt r).all addressOk
      && distinct (sourcesAt r) && (List.range 8).all fun k => byteAt r (13 + k) ≤ 3 then
    some ⟨u16At r 0, if u16At r 2 = 0x0000#16 then none else some (u16At r 2), sourcesAt r, classesAt r⟩
  else none

/-! ### Codes of request parameters (8.5.3, R163) -/

/-- The block members 00h FIRE to 05h SEF_LOCK. -/
def memberOf (b : Byte) : Option Reason :=
  match b.toNat with
  | 0 => some .fire
  | 1 => some .manual
  | 2 => some .hotLine
  | 3 => some .hunt
  | 4 => some .streamLost
  | 5 => some .sefLock
  | _ => none

/-- The modes 00h IN_SERVICE, 01h TEST, 02h OUT_OF_SERVICE. -/
def modeOf (b : Byte) : Option Mode :=
  match b.toNat with
  | 0 => some .inService
  | 1 => some .test
  | 2 => some .outOfService
  | _ => none

/-- The entries an entry set names, in order of entry: bit n names feeder n, bit 8 the bus (log entry 12). -/
def entrySetOf (w : U16) : List EntryId := entries.filter fun e => w.getLsbD e.val

end Sys2Proof.Machine
end

