-- ==== Sys2Proof/Machine/Layout.lean ====
section
/-! DEFINITION. The bytes the engine sends: table records, trip records, snapshots, notices and whole frames (8.5). Where 8.5.3
gives a field type rather than a place, the fields stand in the order of their owner's rule. What 8.5.3 leaves open is the model's
choice: widths (log entry 13), codes (log entry 30), fields given in some cases only (log entry 31), unused places (log entry 32). -/

namespace Sys2Proof.Machine

/-! ### Field types (8.5.3) -/

/-- One byte. -/
def b8 (n : Nat) : List Byte := [BitVec.ofNat 8 n]
/-- Two bytes, most significant first. -/
def b16 (n : Nat) : List Byte := [BitVec.ofNat 8 (n / 256), BitVec.ofNat 8 n]
/-- A 16-bit word, most significant byte first. -/
def bWord (w : U16) : List Byte := b16 w.toNat
/-- Four bytes: an accumulator or the remaining time of a timer. -/
def b32 (n : Nat) : List Byte := b16 (n / 65536) ++ b16 n
/-- Six bytes: engine time. -/
def b48 (n : Nat) : List Byte := b16 (n / 4294967296) ++ b32 n
/-- A flag: 01h set, 00h clear. -/
def bFlag (x : Bool) : List Byte := b8 (if x then 1 else 0)
/-- An absent field of some bytes. -/
def absent (n : Nat) : List Byte := List.replicate n 0xFF#8
/-- A field that may be absent. -/
def bOpt {α : Type} (size : Nat) (f : α → List Byte) : Option α → List Byte
  | none => absent size
  | some x => f x
/-- A set, bit 0 for the first value listed. -/
def bSet (xs : List Bool) : List Byte := b8 (xs.foldr (fun x n => (if x then 1 else 0) + 2 * n) 0)
/-- A list: a count byte, then the members. -/
def bList {α : Type} (f : α → List Byte) (xs : List α) : List Byte := b8 xs.length ++ xs.flatMap f

/-! ### Codes, 00h upward in the order the values are listed -/

/-- Stream states (1.1.2). -/
def StreamState.code : StreamState → Nat
  | .unconfigured => 0 | .filling => 1 | .live => 2 | .lost => 3
/-- PICKED_UP and DROPPED. -/
def PickState.code : PickState → Nat
  | .pickedUp => 0 | .dropped => 1
/-- Completions. 8.5.3 gives them no field type and the rules list them in several orders; that they are coded 00h upward in the
order of R118 is a DESIGN CHOICE (log entry 30). -/
def Completion.code : Completion → Nat
  | .done _ _ => 0 | .refused _ => 1 | .timeout => 2 | .superseded => 3 | .cancelled => 4 | .unreachable => 5
  | .waitLimit => 6 | .unavailable => 7 | .kind => 8 | .notPermitted => 9 | .busy => 10
/-- SEF actions (8.5.4). -/
def SefAction.code : SefAction → Nat
  | .alarm => 0 | .hunt => 1 | .trip => 2
/-- Reclose states (5.1.1). -/
def RecloseName.code : RecloseName → Nat
  | .off => 0 | .ready => 1 | .tripping => 2 | .deadTime => 3 | .closing => 4 | .reclaim => 5 | .lockout => 6
/-- Lockout causes (5.3.9). -/
def LockoutCause.code : LockoutCause → Nat
  | .notPermitted => 0 | .switchOntoFault => 1 | .finalTrip => 2 | .breakerFail => 3 | .closeFail => 4 | .blocked => 5
  | .profile => 6 | .externalOpen => 7 | .manualOpen => 8 | .start => 9
/-- Block reasons (R163). -/
def Reason.code : Reason → Nat
  | .fire => 0 | .manual => 1 | .hotLine => 2 | .hunt => 3 | .streamLost => 4 | .sefLock => 5
/-- Follower block states (5.4.1). -/
def FollowerState.code : FollowerState → Nat
  | .none => 0 | .blockPending => 1 | .blocked => 2 | .releasePending => 3
/-- Service states (6.2.1). -/
def SlotState.code : SlotState → Nat
  | .empty => 0 | .outOfService => 1 | .enrolling => 2 | .inService => 3 | .unreachable => 4
/-- Outstation kinds, 01h upward (8.5.2). -/
def OutKind.code : OutKind → Nat
  | .breaker => 1 | .recloser => 2 | .sectionaliser => 3 | .indicator => 4
/-- Known positions (6.1.1). -/
def Position.code : Position → Nat
  | .opened => 0 | .closed => 1 | .unknown => 2
/-- Command kinds in a COMMAND frame, 01h upward (8.5.2). -/
def CmdKind.code : CmdKind → Nat
  | .trip => 1 | .opn => 2 | .close => 3 | .block => 4 | .release => 5 | .enrol => 6
/-- Command kinds in a READ_STATE payload: 00h upward in the order 6.3.1 lists them, as every kind there (8.5.3). -/
def CmdKind.listed : CmdKind → Nat
  | .trip => 0 | .opn => 1 | .close => 2 | .block => 3 | .release => 4 | .enrol => 5
/-- Hunt states (7.1.1). -/
def HuntState.code : HuntState → Nat
  | .idle => 0 | .opening => 1 | .settling => 2 | .restoring => 3 | .concluded => 4 | .aborting => 5
/-- Hunt kinds. -/
def HuntKind.code : HuntKind → Nat
  | .bus => 0 | .feeder => 1
/-- Hunt phases. -/
def HuntPhase.code : HuntPhase → Nat
  | .busStep => 0 | .feederStep => 1
/-- Observed quantities. -/
def Observed.code : Observed → Nat
  | .residual => 0 | .displacement => 1
/-- Hunt origins. -/
def HuntOrigin.code : HuntOrigin → Nat
  | .auto => 0 | .manual => 1
/-- Abort causes (7.1.1). -/
def AbortCause.code : AbortCause → Nat
  | .escalated => 0 | .profile => 1 | .stream => 2 | .manual => 3 | .restoreFailed => 4
/-- Step outcomes (R125). -/
def OutcomeValue.code : OutcomeValue → Nat
  | .skippedClear => 0 | .skippedUnavailable => 1 | .failedOpen => 2 | .cleared => 3 | .notCleared => 4 | .interrupted => 5
/-- Reasons of STREAM_STATE (R18). -/
def StreamReason.code : StreamReason → Nat
  | .load => 0 | .removed => 1 | .resumed => 2 | .gap => 3 | .full => 4 | .silence => 5
/-- Origins of a takeover (R76). -/
def TakeoverOrigin.code : TakeoverOrigin → Nat
  | .select => 0 | .pend => 1 | .image => 2
/-- Results of ND_OPERATE (R52). -/
def NdResult.code : NdResult → Nat
  | .huntPlaced => 0 | .huntWithheld => 1 | .alarm => 2
/-- LEFT_OPEN and UNKNOWN (R146). -/
def PointOutcome.code : PointOutcome → Nat
  | .leftOpen => 0 | .unknown => 1
/-- Reasons of OUTSTATION_STATE (R122). -/
def OutReason.code : OutReason → Nat
  | .loaded => 0 | .enrolling => 1 | .enrolled => 2 | .enrolMismatch => 3 | .enrolFailed => 4 | .serviceOff => 5
  | .unreachable => 6 | .reached => 7 | .switched => 8 | .reported => 9 | .flags => 10
/-- Reasons of IMAGE: the cases of R177 in order; that REFUSED and COMPLETE follow them is a DESIGN CHOICE (log entry 30). -/
def ImageReason.code : ImageReason → Nat
  | .blank => 0 | .readFailed => 1 | .format => 2 | .check => 3 | .unknownKind => 4 | .duplicate => 5 | .refused => 6
  | .complete => 7
/-- Result codes (8.5.3). -/
def Result.code : Result → Nat
  | .ok => 0 | .busy => 1 | .inUse => 2 | .invalid => 3 | .empty => 4 | .notPermitted => 5 | .state => 6 | .kind => 7
  | .unknown => 8 | .failed => 9
/-- Feeder modes (8.5.3). -/
def Mode.code : Mode → Nat
  | .inService => 0 | .test => 1 | .outOfService => 2

/-- The members of a block reason set. -/
def Reasons.bits (r : Reasons) : List Byte := bSet [r.fire, r.manual, r.hotLine, r.hunt, r.streamLost, r.sefLock]
/-- The members of a set of causes. -/
def Causes.bits (c : Causes) : List Byte := bSet [c.phA, c.phB, c.phC, c.ef, c.highSet, c.sef, c.streamLoss]
/-- The failed conditions of a permission test. -/
def PermissionFailures.bits (x : PermissionFailures) : List Byte := bSet [x.blockSet, x.shots, x.cause, x.stream]
/-- A set of feeders. -/
def feederBits (fs : List Feeder) : List Byte := bSet (feeders.map fun f => fs.contains f)

/-! ### Table records (R158) -/

/-- A record of a table that holds nothing: present 00h and every further byte 00h (R162). -/
def blankRecord (size : Nat) : List Byte := List.replicate size 0x00#8

/-- FEEDER, 7 bytes. -/
def encodeFeeder (x : StreamFields × FeederPlant) : List Byte :=
  b8 1 ++ bWord x.1.source ++ b8 x.1.silence ++ b16 x.2.sefBase
    ++ (match x.2.partner with | none => absent 1 | some g => b8 g.val)

/-- BUS, 7 bytes. -/
def encodeBus (x : StreamFields × BusPlant) : List Byte :=
  b8 1 ++ bWord x.1.source ++ b8 x.1.silence ++ b16 x.2.vnom ++ b8 x.2.delay

/-- OUTSTATION, 10 bytes. -/
def encodeOutstation (l : Loaded) : List Byte :=
  b8 1 ++ bWord l.address ++ b8 l.kind.code ++ b16 l.wait ++ b16 l.gap ++ bSet [l.follower, l.huntCapable] ++ b8 l.refresh

/-- PH_IT or EF_IT, 7 bytes. -/
def encodeIt (x : ItSettings) : List Byte :=
  bFlag x.enable ++ b16 x.ip ++ b8 x.curve.val ++ b8 x.tms ++ bFlag x.timed ++ b8 x.resetTime

/-- PROFILE, 50 bytes. -/
def encodeProfile (p : Profile) : List Byte :=
  b8 1 ++ b8 p.fireLevel ++ encodeIt p.ph ++ encodeIt p.ef
    ++ bFlag p.hsEnable ++ b16 p.hsThreshold ++ b8 p.hsDelay ++ bFlag p.rstEnable ++ b8 p.rstRatio
    ++ bFlag p.sefEnable ++ bFlag p.sefPair ++ b8 p.sefK ++ b16 p.sefF ++ b16 p.sefDelay ++ b8 p.sefAction.code
    ++ bFlag p.sefLock ++ b8 p.shots ++ b16 p.dead1 ++ b16 p.dead2 ++ b16 p.dead3 ++ b16 p.dead4 ++ b16 p.reclaim
    ++ bFlag p.fireBlock ++ bFlag p.lossTrip ++ bFlag p.huntPermitted ++ bFlag p.restorePermitted ++ b8 p.settle
    ++ bFlag p.exhaustedTrip ++ b8 p.ndStep.val ++ bFlag p.busHunt

/-- CURVE, 611 bytes. -/
def encodeCurve (rates : List Nat) : List Byte := b8 1 ++ rates.flatMap b16

/-- One step of a HUNT_PLAN. -/
def encodePlanStep (x : PlanStep) : List Byte :=
  b8 x.position.val ++ b8 (match x.indicator with | none => 0 | some p => p.val)

/-- HUNT_PLAN, 1 + 2 × count bytes. -/
def encodePlan (p : List PlanStep) : List Byte := bList encodePlanStep p

/-- BUS_ORDER, 1 + count bytes. -/
def encodeBusOrder (fs : List Feeder) : List Byte := bList (fun f => b8 f.val) fs

/-- The four source addresses of a LINK record. That those beyond the count are 0000h is a DESIGN CHOICE (log entry 32): a load
ignores them, and no rule says what READ_TABLE (R148, R162) or a saved record carries there. -/
def encodeSources (xs : List U16) : List Byte := (List.range 4).flatMap fun k => bWord (xs.getD k 0x0000#16)

/-- LINK, 21 bytes. -/
def encodeLink (t : LinkTable) : List Byte :=
  bWord t.address ++ bWord (t.dest.getD 0x0000#16) ++ b8 t.sources.length ++ encodeSources t.sources
    ++ t.classes.toList.flatMap fun c => bSet [c.masked, c.major]

/-- The stream fields of a configured stream. -/
def State.streamFieldsOf (s : State) (e : EntryId) : Option StreamFields :=
  match (s.stream e).source, (s.stream e).silence with
  | some a, some m => some ⟨a, m⟩
  | _, _ => none

/-- The FEEDER entry as loaded, none while it is not present. -/
def State.feederEntry (s : State) (f : Feeder) : Option (StreamFields × FeederPlant) :=
  match s.streamFieldsOf (Feeder.entry f), s.plant f with
  | some x, some p => some (x, p)
  | _, _ => none

/-- The BUS entry as loaded, none while it is not present. -/
def State.busEntryOf (s : State) : Option (StreamFields × BusPlant) :=
  match s.streamFieldsOf busEntry, s.bank.bus with
  | some x, some p => some (x, p)
  | _, _ => none

/-- What READ_TABLE returns for an entry that is loaded or not. -/
def recordOr {α : Type} (size : Nat) (f : α → List Byte) (x : Option α) : List Byte :=
  match x with
  | none => blankRecord size
  | some y => f y

/-- The payload of a READ_TABLE of a table kind code 01h to 08h and an index (R158, R162); none where the index lies outside
the table's range. -/
def State.tableRecord (s : State) (table index : Byte) : Option (List Byte) :=
  match table.toNat with
  | 1 => (indexOf 8 index).map fun f => recordOr 7 encodeFeeder (s.feederEntry f)
  | 2 => (indexOf 1 index).map fun _ => recordOr 7 encodeBus s.busEntryOf
  | 3 => (indexOf 64 index).map fun i => recordOr 10 encodeOutstation (s.slot i).loaded
  | 4 => (indexOf 4 index).map fun k => recordOr 50 encodeProfile (s.profile k)
  | 5 => (indexOf 4 index).map fun k => recordOr 611 encodeCurve (s.curve k)
  | 6 => (indexOf 8 index).map fun f => encodePlan (s.plan f)
  | 7 => (indexOf 1 index).map fun _ => encodeBusOrder s.hunt.busOrder
  | 8 => (indexOf 1 index).map fun _ => encodeLink s.link.table
  | _ => none

/-! ### Trip records (R169) -/

/-- A slot and its fire level. -/
def encodeSlotLevel (x : Option (BankSlot × Nat)) : List Byte := bOpt 2 (fun y => b8 y.1.val ++ b8 y.2) x

/-- The five magnitudes of a record. -/
def encodeMags (m : TripMagnitudes) : List Byte := b16 m.ia ++ b16 m.ib ++ b16 m.ic ++ b16 m.mr ++ b16 m.mn

/-- Outcome and completion bytes: FFh where absent (R169). The code of the completion is a DESIGN CHOICE (log entry 30). -/
def encodeOutcome : Option TripOutcome → List Byte
  | none => absent 2
  | some .opened => b8 0 ++ absent 1
  | some (.breakerFail k) => b8 1 ++ b8 k.code

/-- A trip record, 24 bytes. -/
def encodeTrip (r : TripRecord) : List Byte :=
  b8 r.feeder.val ++ r.causes.bits ++ bOpt 10 encodeMags r.mags ++ encodeSlotLevel r.profile ++ b8 r.shot
    ++ encodeOutcome r.outcome ++ b48 r.time ++ bFlag r.test

/-! ### Snapshots (R167, R168) -/

/-- Sequence and magnitudes of a feeder's measurement record (R33). -/
def encodeMeasurement (m : FeederMeasurement) : List Byte :=
  bWord m.seq ++ b16 m.phase.a.mag ++ b16 m.phase.b.mag ++ b16 m.phase.c.mag ++ b16 m.inn.mag
    ++ b16 m.second.a.mag ++ b16 m.second.b.mag ++ b16 m.second.c.mag ++ b16 m.resid.mag

/-- Sequence and magnitudes of the bus measurement record (R33). -/
def encodeBusMeasurement (m : BusMeasurement) : List Byte :=
  bWord m.seq ++ b16 m.phase.a.mag ++ b16 m.phase.b.mag ++ b16 m.phase.c.mag ++ b16 m.vn.mag

/-- The parts of an element record that R34 names; the order of its pickup flags is DEDUCED (log entry 31). -/
def encodeElement (r : ElementRecord) : List Byte :=
  bFlag r.phPickup.a ++ bFlag r.phPickup.b ++ bFlag r.phPickup.c ++ bFlag r.efPickup
    ++ b32 r.phAcc.a ++ b32 r.phAcc.b ++ b32 r.phAcc.c ++ b32 r.efAcc
    ++ bFlag r.restraint ++ bFlag r.hsCond ++ b8 r.sefC.code ++ b8 r.sefR.code ++ bFlag r.sefArmed
    ++ bFlag r.hsTimer.isSome ++ bFlag r.sefTimer.isSome ++ bFlag r.latch.isSome

/-- Active and pending slot of a map entry, each with its fire level (R67). -/
def State.encodeEntry (s : State) (e : EntryId) : List Byte :=
  encodeSlotLevel (s.activeLevel e)
    ++ encodeSlotLevel (match (s.entry e).pend with
      | none => none
      | some k => (s.profile k).map fun p => (k, p.fireLevel))

/-- Stream state and counts (R19). -/
def State.encodeStream (s : State) (e : EntryId) : List Byte :=
  b8 (s.stream e).state.code ++ b16 (s.stream e).heldCount ++ b16 (s.stream e).staleCount

/-- The remaining time of a dead timer and of a reclaim timer (R79). That a stopped timer is shown by an absent time, with no flag
byte, is a DESIGN CHOICE (log entry 31). -/
def State.recloseRemaining (s : State) (f : Feeder) : Option Nat × Option Nat :=
  match (s.recl f).state, s.feederProfile f with
  | .deadTime _ expiry, _ => (some (expiry - s.time), none)
  | .reclaim _ start, some p => (none, some (start + 100 * p.reclaim - s.time))
  | _, _ => (none, none)

/-- The reclose record, the block reason set and the block states of the feeder's followers (R79). That each follower is listed as
its slot and its state, and the form of the timers, are a DESIGN CHOICE (log entry 31). -/
def State.encodeReclose (s : State) (f : Feeder) : List Byte :=
  let r := s.recl f
  let rest := s.recloseRemaining f
  b8 r.state.name.1.code ++ b8 r.state.name.2 ++ b8 r.state.used ++ bOpt 1 (fun c => b8 (LockoutCause.code c)) r.state.cause?
    ++ bOpt 4 b32 rest.1 ++ bOpt 4 b32 rest.2 ++ r.reasons.bits
    ++ bList (fun i => b8 i.val ++ b8 (s.follower i).state.code)
        ((Feeder.slots f).filter fun i => (s.slot i).loaded.any fun l => l.follower)

/-- The two latest flags, one byte each: a DESIGN CHOICE (log entry 31). -/
def encodeFlags (x : OutFlags) : List Byte := bFlag x.lockout ++ bFlag x.local_

/-- One outstation slot (R100). The codes of the report history are DEDUCED (log entry 30); which fields are absent as a whole is a
DESIGN CHOICE (log entry 31). -/
def encodeSlot (o : Outstation) : List Byte :=
  b8 o.state.code ++ b8 o.known.code ++ bList (fun opn => b8 (if opn then 0 else 1)) o.history ++ bOpt 2 encodeFlags o.flags
    ++ bOpt 8 (fun (p : Passage) => bFlag p.phase ++ bFlag p.earth ++ b48 p.time) o.passage
    ++ b16 o.failures ++ b16 o.queue.length ++ bOpt 1 (fun (f : InFlight) => b8 f.cmd.kind.listed) o.inFlight

/-- The payload of READ_STATE for a feeder, its nine parts in order (R167). -/
def State.feederSnapshot (s : State) (f : Feeder) : List Byte :=
  b48 s.time ++ b8 f.val ++ b8 (s.mode f).code ++ s.encodeStream (Feeder.entry f)
    ++ bOpt 18 encodeMeasurement (s.meas f) ++ encodeElement (s.element f) ++ s.encodeEntry (Feeder.entry f)
    ++ s.encodeReclose f ++ (Feeder.slots f).flatMap (fun i => encodeSlot (s.slot i))
    ++ bFlag (s.involves f) ++ b16 (s.plan f).length

/-- The last-point mark and the fields of a step outcome (R125). -/
def encodeStepOutcome (x : StepOutcome) : List Byte :=
  b8 x.phase.code ++ b8 x.feeder.val ++ b8 x.position ++ b8 x.value.code ++ bFlag x.lastPoint

/-- The hunt context as it stands, its fields in the order of the table of 7.1.1. -/
def encodeContext (c : HuntContext) : List Byte :=
  b8 c.state.code ++ bOpt 1 (fun x => b8 (HuntKind.code x)) c.kind ++ bOpt 1 (fun x => b8 (HuntPhase.code x)) c.phase
    ++ feederBits c.involved ++ bOpt 1 (fun (f : Feeder) => b8 f.val) c.feeder ++ bOpt 1 b8 c.busIndex
    ++ bOpt 1 b8 c.planIndex ++ bOpt 1 (fun x => b8 (Observed.code x)) c.observed ++ bOpt 2 b16 c.clearLevel
    ++ bOpt 1 (fun (i : SlotId) => b8 i.val) c.openPoint ++ bOpt 6 b48 c.settle
    ++ bOpt 6 b48 c.lastAbove ++ bOpt 1 (fun x => b8 (HuntOrigin.code x)) c.origin
    ++ bOpt 1 (fun x => b8 (AbortCause.code x)) c.abortCause ++ bList encodeStepOutcome c.results

/-- The hunt parts of READ_STATE for the bus (R123): the context, the time remaining to its settle expiry, the pending hunt
list. -/
def State.encodeHunt (s : State) : List Byte :=
  encodeContext s.ctx ++ bOpt 4 (fun t => b32 (t - s.time)) s.ctx.settle
    ++ bList (fun (e : EntryId) => b8 e.val) s.hunt.pendingList

/-- The bus delay timer: its condition, and the time that remains while it runs or is held (R50). The codes of the condition are a
DESIGN CHOICE (log entry 30), as is the place of the time (log entry 13). -/
def State.encodeNdTimer (s : State) : List Byte :=
  match s.bank.nd.timer with
  | .stopped => b8 0 ++ absent 4
  | .running expiry => b8 1 ++ b32 (expiry - s.time)
  | .held remaining => b8 2 ++ b32 remaining

/-- Entries of the request queue in a state, with the entry being served counted as REPLYING (R168). -/
def State.countEntries (s : State) (serving : Nat) : Nat × Nat × Nat :=
  let st (e : ReqEntry) : EntryState := if e.ticket = serving then .replying .ok else e.state
  let n (p : EntryState → Bool) : Nat := (s.mgmt.requests.filter fun e => p (st e)).length
  (n (· == .waiting), n (· == .deferred), n fun x => x != .waiting && x != .deferred)

/-- The payload of READ_STATE for the bus, its ten parts in order (R168). -/
def State.busSnapshot (s : State) (serving : Nat) : List Byte :=
  let q := s.countEntries serving
  b48 s.time ++ b8 8 ++ s.encodeStream busEntry ++ bOpt 10 encodeBusMeasurement s.phasor.bus
    ++ bOpt 2 b16 s.phasor.threshold ++ b8 s.bank.nd.pick.code ++ s.encodeNdTimer ++ bFlag s.bank.nd.operated
    ++ s.encodeEntry busEntry ++ s.encodeHunt
    ++ s.link.log.toList.flatMap (fun l => b16 l.count ++ bFlag l.seen)
    ++ b16 q.1 ++ b16 q.2.1 ++ b16 q.2.2 ++ b16 s.mgmt.notices.length ++ bFlag s.mgmt.overflow

/-! ### Deferred replies of OPERATE (R164) -/

/-- The position or reason code an answer carried, its low byte (log entry 22). -/
def Completion.answerByte : Completion → List Byte
  | .done (some v) _ => b8 v.toNat
  | .refused v => b8 v.toNat
  | _ => absent 1

/-- Completion, known position after it, and what the answer carried (R164). The code of the completion is a DESIGN CHOICE (log
entry 30). -/
def operatePayload (k : Completion) (known : Position) : List Byte := b8 k.code ++ b8 known.code ++ k.answerByte

/-! ### Notices (9.4) -/

/-- The notice kind codes, 01h upward (8.5.3). -/
def Notice.code : Notice → Nat
  | .trip _ | .tripLost _ _ _ => 1
  | .recloseState _ _ _ _ _ _ _ _ => 2
  | .blockSet _ _ _ _ => 3
  | .followerState _ _ _ _ => 4
  | .profileTakeover _ _ _ _ _ => 5
  | .sefChange _ _ _ => 6
  | .sefOperate _ _ _ _ _ => 7
  | .ndOperate _ _ _ => 8
  | .huntResult _ _ _ _ _ _ _ _ => 9
  | .outstationState _ _ _ _ _ _ _ _ => 10
  | .streamState _ _ _ _ => 11
  | .linkError _ _ => 12
  | .image _ _ _ _ _ | .imageComplete _ _ _ _ => 13

/-- The result of a hunt (R146): its code and two bytes for what it names, a DESIGN CHOICE (log entry 13). -/
def HuntResult.bytes : HuntResult → List Byte
  | .foundBeyond f p => b8 0 ++ b8 f.val ++ b8 p
  | .foundFirstSection f trip => b8 1 ++ b8 f.val ++ bFlag trip
  | .foundFeeder f => b8 2 ++ b8 f.val ++ absent 1
  | .notFound => b8 3 ++ absent 2
  | .aborted c => b8 4 ++ b8 c.code ++ absent 1

/-- A completion in one byte, absent as FFh. Its code is a DESIGN CHOICE (log entry 30). -/
def completionByte (k : Option Completion) : List Byte := bOpt 1 (fun x => b8 (Completion.code x)) k

/-- The content of a notice: the fields of its owner's rule in the order given there. DESIGN CHOICES where the rules are silent (log
entry 31): the failed conditions of a RECLOSE_STATE notice that is not NOT_PERMITTED are 00h (R94); the kind reported and the
completion of OUTSTATION_STATE share its last byte, FFh with every other reason (R122); an IMAGE notice other than REFUSED ends with
an absent result code, FFh, and COMPLETE carries its counts alone (R177, R179), while the record position of an IMAGE notice takes two
bytes (log entry 13); a TRIP notice without its record carries the
completion behind the outcome (R57). Codes of completions, added and removed members, SEF modes and error classes: log entry 30. -/
def Notice.content : Notice → List Byte
  | .trip r => encodeTrip r
  | .tripLost f o c => b8 f.val ++ encodeOutcome (some o) ++ c.bits
  | .recloseState f p ps n ns used cause failures =>
    b8 f.val ++ b8 p.code ++ b8 ps ++ b8 n.code ++ b8 ns ++ b8 used ++ bOpt 1 (fun x => b8 (LockoutCause.code x)) cause
      ++ failures.bits
  | .blockSet f m added set => b8 f.val ++ b8 m.code ++ bFlag added ++ set.bits
  | .followerState i p n k => b8 i.val ++ b8 p.code ++ b8 n.code ++ completionByte k
  | .profileTakeover e p n o fire =>
    b8 e.val ++ encodeSlotLevel p ++ encodeSlotLevel (some n) ++ b8 o.code ++ bFlag fire
  | .sefChange f c mn => b8 f.val ++ b8 c.code ++ bOpt 2 b16 mn
  | .sefOperate f mn pair v a => b8 f.val ++ bOpt 2 b16 mn ++ bFlag pair ++ b16 v ++ b8 a.code
  | .ndOperate vn t r => bOpt 2 b16 vn ++ bOpt 2 b16 t ++ b8 r.code
  | .huntResult k o inv r point obs level results =>
    bOpt 1 (fun x => b8 (HuntKind.code x)) k ++ bOpt 1 (fun x => b8 (HuntOrigin.code x)) o ++ feederBits inv ++ r.bytes
      ++ bOpt 2 (fun (x : SlotId × PointOutcome) => b8 x.1.val ++ b8 x.2.code) point
      ++ bOpt 1 (fun x => b8 (Observed.code x)) obs ++ bOpt 2 b16 level ++ bList encodeStepOutcome results
  | .outstationState i p n known flags r reported k =>
    b8 i.val ++ b8 p.code ++ b8 n.code ++ b8 known.code ++ bOpt 2 encodeFlags flags ++ b8 r.code
      ++ (match reported with | some v => b8 v.toNat | none => completionByte k)
  | .streamState e p n r => b8 e.val ++ b8 p.code ++ b8 n.code ++ b8 r.code
  | .linkError c n => b8 c.index.val ++ b16 n
  | .image r p k i res =>
    b8 r.code ++ bOpt 2 b16 p ++ bOpt 1 (fun x => [x]) k ++ bOpt 1 (fun x => [x]) i ++ bOpt 1 (fun x => b8 (Result.code x)) res
  | .imageComplete kept applied discarded blank =>
    b8 ImageReason.complete.code ++ b16 kept ++ b16 applied ++ b16 discarded ++ bFlag blank

/-! ### Frames (R157, 8.5.2, 8.5.3) -/

/-- The kind code of a frame the engine sends. -/
def TxFrame.kindCode : TxFrame → Nat
  | .command _ _ _ _ _ _ => 4
  | .reply _ _ _ _ _ _ _ => 6
  | .notice _ _ _ _ => 7

/-- Destination and source link addresses. -/
def TxFrame.addresses : TxFrame → U16 × U16
  | .command d s _ _ _ _ => (d, s)
  | .reply _ d s _ _ _ _ => (d, s)
  | .notice d s _ _ => (d, s)

/-- The body of a frame. -/
def TxFrame.body : TxFrame → List Byte
  | .command _ _ k tag hunt enrol =>
    b8 k.code ++ [tag] ++ bFlag hunt
      ++ (match enrol with | none => [] | some (kind, hold) => b8 kind.code ++ b16 hold)
  | .reply _ _ _ tag kind r payload => bWord tag ++ [kind] ++ b8 r.code ++ payload
  | .notice _ _ overflow item => b8 item.notice.code ++ bSet [overflow, item.test] ++ item.notice.content

/-- Common header and body, padded with 00h to 46 bytes. -/
def TxFrame.payload (f : TxFrame) : List Byte :=
  let p := bWord f.addresses.1 ++ bWord f.addresses.2 ++ b8 f.kindCode ++ b16 f.body.length ++ f.body
  p ++ List.replicate (46 - p.length) 0x00#8

/-- The frame on the wire before its check sequence: broadcast destination, the engine's station address, the frame type
marker, the payload (R157). -/
def TxFrame.bytes (f : TxFrame) : List Byte :=
  absent 6 ++ [0x02#8, 0x4C#8, 0x4A#8, 0x00#8] ++ bWord f.addresses.2 ++ bWord Config.frameType ++ f.payload

end Sys2Proof.Machine
end

