-- ==== Sys2Proof/Machine/Trip.lean ====
section
/-! DEFINITION. The trip decision and the trip record store (3.7, 3.8), and what a TRIP's admission completes on the way. -/

namespace Sys2Proof.Machine

/-! ### The store (R57) -/

/-- A reference into the store after its oldest record has left. -/
def shiftRef : Option Nat → Option Nat
  | some (n + 1) => some n
  | _ => none

/-- The latches after the oldest record has left the store. -/
def shiftLatches (v : Vector ElementRecord 8) : Vector ElementRecord 8 :=
  v.map fun r => { r with latch := r.latch.map fun l => { l with record := shiftRef l.record } }

/-- Open a record at the newest end; the oldest leaves a full store (R57). -/
def State.openRecord (s : State) (t : TripRecord) : State :=
  if s.bank.trips.length < Config.tripRecords then s.setTrips (s.bank.trips ++ [t])
  else (s.setBank { s.bank with records := shiftLatches s.bank.records }).setTrips (s.bank.trips.drop 1 ++ [t])

/-- Change the record a latch refers to; nothing where it refers to none. -/
def State.mapRecord (s : State) (ref : Option Nat) (g : TripRecord → TripRecord) : State :=
  match ref with
  | none => s
  | some n => s.setTrips (s.bank.trips.modify n g)

/-- The record a latch refers to. -/
def State.recordAt (s : State) (ref : Option Nat) : Option TripRecord :=
  match ref with
  | none => none
  | some n => s.bank.trips[n]?

/-! ### TRIP completion (R55, R56) -/

/-- R55 step 3. -/
def ElementRecord.zeroed (r : ElementRecord) : ElementRecord :=
  { r with phAcc := Phases.all3 0, phPickup := Phases.all3 false, efAcc := 0, efPickup := false, restraint := false
           histories := Phases.all3 [], hsCond := false, hsTimer := none, hsOperated := false
           sefTimer := none, sefOperated := false }

/-- The TRIP notice: the contents of the record, or what R57 states when it has left the store. -/
def State.notifyTrip (s : State) (f : Feeder) (l : Latch) (o : TripOutcome) : State :=
  match s.recordAt l.record with
  | some t => s.notify (.trip t) (s.testMark f)
  | none => s.notify (.tripLost f o l.causes) (s.testMark f)

/-- Set the outcome of the record and clear the latch (R55 steps 1 and 2, R56). -/
def State.closeLatch (s : State) (f : Feeder) (l : Latch) (o : TripOutcome) : State :=
  let s1 := s.mapRecord l.record fun t => { t with outcome := some o }
  s1.setElement f { s1.element f with latch := none }

/-- The TRIP of a feeder completes (R55, R56). -/
def State.tripCompleted (s : State) (f : Feeder) (k : Completion) : State :=
  match (s.element f).latch with
  | none => s
  | some l =>
    if k.isDone then
      let s1 := s.closeLatch f l .opened
      let s2 := s1.setElement f (s1.element f).zeroed
      (s2.tellTripDone f l.causes).notifyTrip f l .opened
    else
      let o := TripOutcome.breakerFail k
      ((s.closeLatch f l o).tellTripFailed f).notifyTrip f l o

/-! ### What a TRIP's admission supersedes (R107) -/

/-- The deferred OPERATE of a ticket completes (R164): for slot 0 the Reclose Controller is told, then the reply is handed. That it is
handed here, before the UNREACHABLE notice of a third TIMEOUT and before what settles at the end of the event, is a DESIGN CHOICE
(R161, log entry 33). -/
def State.operateCompleted (s : State) (ticket : Nat) (i : SlotId) (kind : CmdKind) (k : Completion) : State :=
  let s1 := if SlotId.position i = 0 then s.operateTold (SlotId.feeder i) kind k else s
  s1.replyTo ticket (if k.isDone then .ok else .failed) (operatePayload k (s1.slot i).known)

/-- A SWITCH command completes SUPERSEDED to its originator. -/
def State.supersededSwitch (s : State) (d : Delivery) : State :=
  match d.origin with
  | .reclose => s.closeCompleted (SlotId.feeder d.slot) d.completion
  | .hunt => s.huntSuperseded d.cmd.kind
  | .management t => s.operateCompleted t d.slot d.cmd.kind d.completion
  | .elementBank | .exchange => s

/-! ### The decision (R53, R54) -/

/-- The TRIP of the Element Bank. -/
def tripCmd : Cmd := { kind := .trip, origin := .elementBank }

/-- The shot number of a record: n in RECLAIM(n), 0 otherwise (R53). -/
def RecloseState.shotNumber : RecloseState → Nat
  | .reclaim n _ => n
  | _ => 0

/-- The magnitudes of a measurement record (R53 step 1). -/
def magsOf (m : FeederMeasurement) : TripMagnitudes :=
  ⟨m.phase.a.mag, m.phase.b.mag, m.phase.c.mag, m.resid.mag, m.inn.mag⟩

/-- The record a decision opens (R53 step 1). -/
def State.newRecord (s : State) (f : Feeder) (causes : Causes) : TripRecord where
  feeder := f
  causes := causes
  mags := (s.meas f).map magsOf
  profile := s.activeLevel (Feeder.entry f)
  shot := (s.recl f).state.shotNumber
  outcome := none
  time := s.time
  test := s.testMark f

/-- Open the record and set the latch that refers to it (R53 steps 1 and 2). -/
def State.setLatch (s : State) (f : Feeder) (causes : Causes) : State :=
  let s1 := s.openRecord (s.newRecord f causes)
  s1.setElement f { s1.element f with latch := some ⟨causes, some (s1.bank.trips.length - 1)⟩ }

/-- Hand the TRIP and take the completions of the commands it supersedes (R53 step 3, R107); answers its own completion at
admission, if there is one. -/
def State.handTrip (s : State) (f : Feeder) : State × Option Completion :=
  let r := s.handCmd (Feeder.head f) tripCmd
  (r.2.foldl State.supersededSwitch r.1, ownCompletion tripCmd r.2)

/-- A decision with the latch clear (R53), then a completion that arrived at admission. -/
def State.tripDecision (s : State) (f : Feeder) (causes : Causes) : State :=
  let r := (s.setLatch f causes).handTrip f
  let s1 := (r.1.tellDecision f).escalateHunt f
  match r.2 with
  | none => s1
  | some k => s1.tripCompleted f k

/-- A further operation while latched (R54). -/
def State.addCauses (s : State) (f : Feeder) (l : Latch) (causes : Causes) : State :=
  let s1 := s.setElement f { s.element f with latch := some { l with causes := l.causes.union causes } }
  s1.mapRecord l.record fun t => { t with causes := t.causes.union causes }

/-- An operation with a set of causes reaches the trip decision (R53, R54). -/
def State.operation (s : State) (f : Feeder) (causes : Causes) : State :=
  match s.mode f with
  | .outOfService => s
  | .inService | .test =>
    match (s.element f).latch with
    | none => s.tripDecision f causes
    | some l => s.addCauses f l causes

end Sys2Proof.Machine
end

