-- ==== Sys2Proof/Machine/Hunt.lean ====
section
/-! DEFINITION. The Hunt Controller (chapter 7): steps, completions, the clear decision, conclusion, start, triggers and the
pending hunt list. -/

namespace Sys2Proof.Machine

/-! ### Conclusion (R142) -/

/-- The exhausted action of the profile active on a feeder is TRIP. -/
def State.exhaustedTrip (s : State) (f : Feeder) : Bool := (s.feederProfile f).any fun p => p.exhaustedTrip

/-- Conclude a hunt (R142): the exhausted action of FOUND_FIRST_SECTION, then the end of the hunt. -/
def State.conclude (s : State) (r : HuntResult) : State :=
  let s1 := s.mapCtx fun c => { c with state := .concluded }
  let s2 := match r with
    | .foundFirstSection f true => s1.operation f { sef := true }
    | _ => s1
  s2.finishHunt r (some .leftOpen)

/-! ### Steps (R135, R136, R140) -/

/-- The step's indicator shows a recent report without earth passage (R135 case 1). -/
def State.indicatorClear (s : State) (f : Feeder) (x : PlanStep) : Bool :=
  match x.indicator with
  | none => false
  | some p =>
    let o := s.slot (Feeder.slot f p)
    (o.loaded.any fun l => l.kind == .indicator)
      && o.passage.any fun r => decide (s.time ≤ r.time + Config.passageAge) && !r.earth

/-- The point of a feeder step can be used (R135 case 2). -/
def Outstation.huntPoint (o : Outstation) : Bool :=
  o.state == .inService && (o.loaded.any fun l => l.huntCapable) && o.known == .closed

/-- The hunt's OPEN is done: SETTLING (R136). -/
def State.openDone (s : State) : State :=
  let units := match s.ctx.openPoint with
    | none => 0
    | some i => match s.feederProfile (SlotId.feeder i) with
      | none => 0
      | some p => p.settle
  s.mapCtx fun c => { c with state := .settling, outstanding := none, settle := some (s.time + 100 * units)
                             lastAbove := some s.time }

/-- The hunt's OPEN has failed: no open point, FAILED_OPEN (R136). -/
def State.openFailed (s : State) : State :=
  (s.mapCtx fun c => { c with outstanding := none, openPoint := none }).appendOutcome .failedOpen

/-- Make a slot the open point and hand its OPEN (R135 case 3, R140); answers a completion at admission. -/
def State.openPointAt (s : State) (i : SlotId) : State × Option Completion :=
  let c := huntCmd .opn
  let r := (s.mapCtx fun x => { x with state := .opening, openPoint := some i, outstanding := some .opn }).handCmd i c
  (r.1, ownCompletion c r.2)

/-- Feeder steps from an index on, until one waits (R135, R139); an exhausted plan concludes FOUND_FIRST_SECTION. -/
def State.feederSteps (f : Feeder) : List PlanStep → Nat → State → State
  | [], _, s => s.conclude (.foundFirstSection f (s.exhaustedTrip f))
  | x :: rest, k, s =>
    let s1 := s.mapCtx fun c => { c with planIndex := some k }
    let i := Feeder.slot f x.position
    if s1.indicatorClear f x then State.feederSteps f rest (k + 1) (s1.appendOutcome .skippedClear)
    else if !(s1.slot i).huntPoint then State.feederSteps f rest (k + 1) (s1.appendOutcome .skippedUnavailable)
    else
      let r := s1.openPointAt i
      match r.2 with
      | none => r.1
      | some (.done _ _) => r.1.openDone
      | some _ => State.feederSteps f rest (k + 1) r.1.openFailed

/-- Bus steps from an index on, until one waits (R140); an exhausted order concludes NOT_FOUND. -/
def State.busSteps : List Feeder → Nat → State → State
  | [], _, s => s.conclude .notFound
  | f :: rest, k, s =>
    let s1 := s.mapCtx fun c => { c with busIndex := some k }
    let o := s1.slot (Feeder.head f)
    if !(s1.ctx.involved.contains f && o.state == .inService && o.known == .closed) then
      State.busSteps rest (k + 1) (s1.appendOutcome .skippedUnavailable)
    else
      let r := s1.openPointAt (Feeder.head f)
      match r.2 with
      | none => r.1
      | some (.done _ _) => r.1.openDone
      | some _ => State.busSteps rest (k + 1) r.1.openFailed

/-- The next step after the one in progress (R139, R140). -/
def State.nextStep (s : State) : State :=
  match s.ctx.phase, s.ctx.feeder, s.ctx.planIndex, s.ctx.busIndex with
  | some .feederStep, some f, some k, _ => State.feederSteps f ((s.plan f).drop (k + 1)) (k + 1) s
  | some .busStep, _, _, some k => State.busSteps (s.hunt.busOrder.drop (k + 1)) (k + 1) s
  | _, _, _, _ => s

/-- A CLEARED bus step has been restored: on to the sections of its feeder, or FOUND_FEEDER (R141). -/
def State.chain (s : State) (f : Feeder) : State :=
  match s.plan f with
  | [] => s.conclude (.foundFeeder f)
  | x :: rest =>
    State.feederSteps f (x :: rest) 0
      (s.mapCtx fun c => { c with phase := some .feederStep, feeder := some f, busIndex := none, planIndex := some 0 })

/-- The newest outcome is CLEARED. -/
def HuntContext.lastCleared (c : HuntContext) : Bool :=
  match c.results.getLast? with
  | some x => x.value == .cleared
  | none => false

/-- The hunt's CLOSE is done in RESTORING (R139, R141). -/
def State.restored (s : State) : State :=
  let s1 := s.mapCtx fun c => { c with outstanding := none, openPoint := none }
  match s1.ctx.phase, s1.ctx.busIndex with
  | some .busStep, some k =>
    match s1.ctx.lastCleared, s1.hunt.busOrder[k]? with
    | true, some f => s1.chain f
    | _, _ => s1.nextStep
  | _, _ => s1.nextStep

/-- The hunt's CLOSE completes in RESTORING (R139). -/
def State.closeInRestoring (s : State) (k : Completion) : State :=
  match k with
  | .done _ _ => s.restored
  | .superseded => s.huntSuperseded .close
  | _ => (s.mapCtx fun c => { c with outstanding := none }).abortHunt .restoreFailed

/-- Restore the open point after a decided step (R138). -/
def State.restore (s : State) : State :=
  match s.ctx.openPoint with
  | none => s
  | some i =>
    let c := huntCmd .close
    let r := (s.mapCtx fun x => { x with state := .restoring, outstanding := some .close }).handCmd i c
    match ownCompletion c r.2 with
    | none => r.1
    | some k => r.1.closeInRestoring k

/-- A command of the hunt completes (R136, R139, R144). -/
def State.huntCompleted (s : State) (kind : CmdKind) (k : Completion) : State :=
  match s.ctx.state with
  | .opening =>
    match k with
    | .done _ _ => s.openDone
    | .superseded => s.huntSuperseded kind
    | _ => s.openFailed.nextStep
  | .restoring => s.closeInRestoring k
  | .aborting => s.huntAbortingDone kind k
  | .idle | .settling | .concluded => s

/-! ### Settling (R137, R138) -/

/-- The observed magnitude as the measurement record stands, none while the record is absent (R29). -/
def State.observedMag (s : State) : Option Nat :=
  match s.ctx.observed with
  | some .displacement => s.phasor.bus.map fun m => m.vn.mag
  | some .residual => match s.ctx.feeder with
    | none => none
    | some f => (s.meas f).map fun m => m.inn.mag
  | none => none

/-- A set of a stream has been evaluated: SETTLING reads the observed magnitude (R137). -/
def State.settleOnSet (s : State) (e : EntryId) : State :=
  if s.ctx.state == .settling && s.observedStream == some e then
    match s.observedMag, s.ctx.clearLevel with
    | some m, some level => if m ≥ level then s.mapCtx fun c => { c with lastAbove := some s.time } else s
    | _, _ => s
  else s

/-- The observed stream leaves LIVE by a GAP set: last-above becomes the present time (R137). -/
def State.settleOnGap (s : State) (e : EntryId) : State :=
  if s.ctx.state == .settling && s.observedStream == some e then s.mapCtx fun c => { c with lastAbove := some s.time }
  else s

/-- The step is CLEARED (R138): the record is present and last-above is no later than the expiry less 100 ms. -/
def State.isCleared (s : State) (expiry : Nat) : Bool :=
  s.observedMag.isSome && (s.ctx.lastAbove.any fun t => t + Config.clearTime ≤ expiry)

/-- The settle expiry (R138). -/
def State.settleExpired (s : State) (expiry : Nat) : State :=
  let clear := s.isCleared expiry
  let s1 := s.mapCtx fun c => { c with settle := none }
  if clear then
    let s2 := s1.appendOutcome .cleared
    match s2.currentStep with
    | some (.feederStep, f, pos, _) => s2.conclude (.foundBeyond f pos)
    | _ => s2.restore
  else (s1.appendOutcome .notCleared).restore

/-! ### Start (R134) -/

/-- The involved set of a hunt (R126, 7.2.1), in order of feeder number. -/
def State.involvedFor (s : State) (e : EntryId) : List Feeder :=
  match EntryId.feeder? e with
  | some f => [f]
  | none => feeders.filter fun f => s.hunt.busOrder.contains f && s.eligible f

/-- The clear level of a hunt (R134 step 1). -/
def State.clearLevelFor (s : State) (e : EntryId) : Option Nat :=
  match EntryId.feeder? e with
  | some f => (s.feederProfile f).map fun p => sefLevel p.sefK (s.sefBase f) * 12 / 16
  | none => s.phasor.threshold.map threeQuarters

/-- The context a hunt starts with (R134 step 1). -/
def State.startContext (s : State) (e : EntryId) (origin : HuntOrigin) : HuntContext :=
  let base := { HuntContext.reset with
    state := .opening, involved := s.involvedFor e, clearLevel := s.clearLevelFor e, origin := some origin }
  match EntryId.feeder? e with
  | some f => { base with kind := some .feeder, phase := some .feederStep, feeder := some f, planIndex := some 0
                          observed := some .residual }
  | none => { base with kind := some .bus, phase := some .busStep, busIndex := some 0, observed := some .displacement }

/-- Start a hunt for a source (R134). -/
def State.startHunt (s : State) (e : EntryId) (origin : HuntOrigin) : State :=
  let s1 := s.setCtx (s.startContext e origin)
  let s2 := s1.setHuntList (s1.hunt.pendingList.filter fun x => !s1.involvesSource x)
  let s3 := s2.ctx.involved.foldl (fun s f => s.addReason f .hunt) s2
  match EntryId.feeder? e with
  | some f => State.feederSteps f (s3.plan f) 0 s3
  | none => State.busSteps s3.hunt.busOrder 0 s3

/-! ### The pending hunt list (R129, R130) -/

/-- Serve the list from its oldest entry (R130). -/
def State.serveFrom : List EntryId → State → State
  | [], s => s.setHuntList []
  | e :: rest, s =>
    let s1 := s.setHuntList rest
    if s1.triggerHolds e && s1.permitted e then s1.startHunt e .auto else State.serveFrom rest s1

/-- Serve the pending hunt list while the context is IDLE. -/
def State.servePendingHunts (s : State) : State :=
  if s.ctx.state == .idle then State.serveFrom s.hunt.pendingList s else s

/-- An automatic trigger is dropped (R129). -/
def State.dropsTrigger (s : State) (e : EntryId) : Bool :=
  (match EntryId.feeder? e with | some f => s.mode f != .inService | none => false)
    || s.hunt.pendingList.contains e || s.involvesSource e

/-- An automatic trigger joins the list, or is dropped (R129). -/
def State.offerTrigger (s : State) (e : EntryId) : State :=
  if s.dropsTrigger e then s else s.setHuntList (s.hunt.pendingList ++ [e])

/-- An automatic trigger arrives (R129): appended, it has the list served while the context is IDLE; dropped, it does nothing,
not even that (log entry 20). -/
def State.triggerArrives (s : State) (e : EntryId) : State :=
  if s.dropsTrigger e then s else (s.offerTrigger e).servePendingHunts

/-! ### Requests and takeovers (R131, R147) -/

/-- The checks 2 to 4 of START_HUNT (R131); none passes. -/
def State.startCheck (s : State) (e : EntryId) : Option Result :=
  if s.ctx.state != .idle then some .busy
  else match EntryId.feeder? e with
    | some f =>
      if !s.eligible f then some .notPermitted
      else if !s.live e then some .state else none
    | none =>
      if !s.orderEligible then some .notPermitted
      else if !s.live busEntry || s.phasor.threshold == none then some .state else none

/-- The Hunt Controller is presented with a new profile for a feeder (R147). -/
def State.presentHunt (s : State) (f : Feeder) (p : Profile) : State :=
  if s.involves f && !p.huntPermitted && s.ctx.running then s.huntCause .profile else s

end Sys2Proof.Machine
end

