-- ==== Sys2Proof/Machine/Phasor.lean ====
section
/-! DEFINITION. The Phasor Unit (chapter 2): exact sums, rounding, limiting and magnitudes, and the threshold of the bus. -/

namespace Sys2Proof.Machine

/-! ### Coefficients (R20) -/

/-- C1[k], the nearest integer to 16384 cos(2πk/32). -/
def coefC1 : List Int :=
  [16384, 16069, 15137, 13623, 11585, 9102, 6270, 3196, 0, -3196, -6270, -9102, -11585, -13623, -15137, -16069,
   -16384, -16069, -15137, -13623, -11585, -9102, -6270, -3196, 0, 3196, 6270, 9102, 11585, 13623, 15137, 16069]

/-- S1[k], the nearest integer to 16384 sin(2πk/32). -/
def coefS1 : List Int :=
  [0, 3196, 6270, 9102, 11585, 13623, 15137, 16069, 16384, 16069, 15137, 13623, 11585, 9102, 6270, 3196,
   0, -3196, -6270, -9102, -11585, -13623, -15137, -16069, -16384, -16069, -15137, -13623, -11585, -9102, -6270, -3196]

/-- Sixteen entries of C2; the table repeats after half a window. -/
def coefC2half : List Int :=
  [16384, 15137, 11585, 6270, 0, -6270, -11585, -15137, -16384, -15137, -11585, -6270, 0, 6270, 11585, 15137]

/-- Sixteen entries of S2. -/
def coefS2half : List Int :=
  [0, 6270, 11585, 15137, 16384, 15137, 11585, 6270, 0, -6270, -11585, -15137, -16384, -15137, -11585, -6270]

/-- C2[k], the nearest integer to 16384 cos(4πk/32). -/
def coefC2 : List Int := coefC2half ++ coefC2half

/-- S2[k], the nearest integer to 16384 sin(4πk/32). -/
def coefS2 : List Int := coefS2half ++ coefS2half

/-! ### One phasor (R23 to R27) -/

/-- The exact sum of samples times coefficients (R23). -/
def dot : List Int → List Int → Int
  | x :: xs, c :: cs => x * c + dot xs cs
  | _, _ => 0

/-- Division by 2^18 rounded to nearest, halves away from zero (R24). -/
def roundComponent (sum : Int) : Int :=
  if sum ≥ 0 then (sum + 131072) / 262144 else -((-sum + 131072) / 262144)

/-- The limit of R25 and R28. -/
def clampComponent (x : Int) : Int := max (-Config.componentLimit) (min Config.componentLimit x)

/-- The root of `n` bit by bit: `bits` bits are still open below the part `r` already found. -/
def rootBits (n : Nat) : Nat → Nat → Nat
  | 0, r => r
  | b + 1, r => if (r + 2 ^ b) * (r + 2 ^ b) ≤ n then rootBits n b (r + 2 ^ b) else rootBits n b r

/-- The greatest integer whose square does not exceed `n`, for n below 2^32 (R26). -/
def root (n : Nat) : Nat := rootBits n 16 0

/-- The magnitude of limited components (R26). -/
def magnitude (re im : Int) : Nat := root ((re * re + im * im).toNat / 2)

/-- A phasor from limited components. -/
def phasorOf (re im : Int) : Phasor := ⟨re, im, magnitude re im⟩

/-- The phasor of one quantity with a pair of coefficient tables (R23 to R27). -/
def phasor (c sn xs : List Int) : Phasor :=
  phasorOf (clampComponent (roundComponent (dot xs c))) (clampComponent (roundComponent (-(dot xs sn))))

/-- The fundamental phasor (R23 to R26). -/
def fundamental (xs : List Int) : Phasor := phasor coefC1 coefS1 xs

/-- The second-harmonic phasor (R27). -/
def secondHarmonic (xs : List Int) : Phasor := phasor coefC2 coefS2 xs

/-- The calculated residual of three phase phasors (R28). -/
def residual (p : Phases Phasor) : Phasor :=
  phasorOf (clampComponent (p.a.re + p.b.re + p.c.re)) (clampComponent (p.a.im + p.b.im + p.c.im))

/-! ### One set (R22) -/

/-- The samples of one quantity over a window, oldest first. -/
def samplesOf (w : List SampleSet) (q : SampleSet → U16) : List Int := w.map fun x => (q x).toInt

/-- The measurement record of a feeder's window (R22). -/
def measureFeeder (seq : U16) (w : List SampleSet) : FeederMeasurement :=
  let a := samplesOf w SampleSet.x1
  let b := samplesOf w SampleSet.x2
  let c := samplesOf w SampleSet.x3
  let ph : Phases Phasor := ⟨fundamental a, fundamental b, fundamental c⟩
  ⟨seq, ph, fundamental (samplesOf w SampleSet.x4), ⟨secondHarmonic a, secondHarmonic b, secondHarmonic c⟩, residual ph⟩

/-- The measurement record of the bus window (R22). -/
def measureBus (seq : U16) (w : List SampleSet) : BusMeasurement :=
  ⟨seq, ⟨fundamental (samplesOf w SampleSet.x1), fundamental (samplesOf w SampleSet.x2),
    fundamental (samplesOf w SampleSet.x3)⟩, fundamental (samplesOf w SampleSet.x4)⟩

/-- Drop the measurement record of a stream that leaves LIVE (R21). -/
def State.dropMeas (s : State) (e : EntryId) : State :=
  match EntryId.feeder? e with
  | some f => s.setMeas f none
  | none => s.setBusMeas none

/-- The threshold as the BUS entry and the profile active on the bus entry give it now (R30, R31). -/
def State.formThreshold (s : State) : State :=
  s.setThreshold <|
    match s.bank.bus, s.active busEntry with
    | some b, some (_, p) => some (ndThresholdOf b.vnom p.ndStep)
    | _, _ => none

end Sys2Proof.Machine
end

