-- ==== Sys2Proof/Machine/Elements.lean ====
section
/-! DEFINITION. The Element Bank (chapter 3): evaluation of a feeder set, the holding of element state, the response to a
takeover, and the neutral displacement detector. -/

namespace Sys2Proof.Machine

/-! ### Inverse time (R39 to R41) -/

/-- The ratio index r = floor(16 M / Ip), at most 320 (R39). -/
def ratioIndex (m ip : Nat) : Nat := min 320 (16 * m / ip)

/-- The increment floor(rate[r] × 100 / TMS) (R40). -/
def increment (rates : List Nat) (tms r : Nat) : Nat := rates.getD (r - 16) 0 * 100 / tms

/-- An accumulator below pickup (R41). -/
def resetAccumulator (x : ItSettings) (acc : Nat) : Nat :=
  if x.timed then acc - Config.accumulatorTop / (160 * x.resetTime) else 0

/-- An accumulator picked up (R40): the sum, at most 16,777,216. -/
def advance (x : ItSettings) (rates : List Nat) (m acc : Nat) : Nat :=
  min Config.accumulatorTop (acc + increment rates x.tms (ratioIndex m x.ip))

/-- One accumulator on one set: its value, its pickup flag, and whether it operates (R39 to R41). -/
def itStep (x : ItSettings) (rates : List Nat) (held : Bool) (m acc : Nat) : Nat × Bool × Bool :=
  if !x.enable then (0, false, false)
  else if m ≥ x.ip then
    if held then (acc, true, false)
    else
      let acc' := advance x rates m acc
      (acc', true, decide (acc < Config.accumulatorTop) && acc' == Config.accumulatorTop)
  else if held then (acc, false, false)
  else (resetAccumulator x acc, false, false)

/-- A phase restrains (R42). -/
def phaseRestrains (ratio : Nat) (h1 h2 : Nat) : Bool := decide (h1 ≥ 32) && decide (64 * h2 ≥ ratio * h1)

/-- Restraint is in force for the set (R42). -/
def restrains (p : Profile) (m : FeederMeasurement) : Bool :=
  p.rstEnable && (phaseRestrains p.rstRatio m.phase.a.mag m.second.a.mag
    || phaseRestrains p.rstRatio m.phase.b.mag m.second.b.mag || phaseRestrains p.rstRatio m.phase.c.mag m.second.c.mag)

/-- The rates of the curve slot an element names; a missing rate is 0, where no active profile can point (R37, R66). -/
def State.ratesOf (s : State) (x : ItSettings) : List Nat := (s.curve x.curve).getD []

/-- Restraint, PH_IT and EF_IT on one set (steps 1 and 2 of R35), with the causes found. -/
def stepInverse (s : State) (p : Profile) (m : FeederMeasurement) (r : ElementRecord) : ElementRecord × Causes :=
  let rst := restrains p m
  let rates := s.ratesOf p.ph
  let a := itStep p.ph rates rst m.phase.a.mag r.phAcc.a
  let b := itStep p.ph rates rst m.phase.b.mag r.phAcc.b
  let c := itStep p.ph rates rst m.phase.c.mag r.phAcc.c
  let e := itStep p.ef (s.ratesOf p.ef) false m.resid.mag r.efAcc
  ({ r with restraint := rst, phAcc := ⟨a.1, b.1, c.1⟩, phPickup := ⟨a.2.1, b.2.1, c.2.1⟩, efAcc := e.1, efPickup := e.2.1 },
   { phA := a.2.2, phB := b.2.2, phC := c.2.2, ef := e.2.2 })

/-! ### HIGH_SET (R43, R44) -/

/-- A history with a new result at its newest end, at most 3 long. -/
def pushResult (h : List Bool) (x : Bool) : List Bool := if h.length < 3 then h ++ [x] else h.drop 1 ++ [x]

/-- A history confirms: at least 2 results are true. -/
def confirms (h : List Bool) : Bool := decide (2 ≤ (h.filter id).length)

/-- Histories, condition and timer of a disabled HIGH_SET (R43, R59). -/
def ElementRecord.clearHighSet (r : ElementRecord) : ElementRecord :=
  { r with histories := Phases.all3 [], hsCond := false, hsTimer := none, hsOperated := false }

/-- The timer of HIGH_SET once the condition is set (R44); the flag says whether it operates. -/
def stepHighSetTimer (d : Nat) (r : ElementRecord) : ElementRecord × Bool :=
  if r.hsOperated then (r, false)
  else if d = 0 then ({ r with hsTimer := none, hsOperated := true }, true)
  else match r.hsTimer with
    | none => ({ r with hsTimer := some 0 }, false)
    | some e => if e + 1 ≥ 8 * d then ({ r with hsTimer := none, hsOperated := true }, true)
                else ({ r with hsTimer := some (e + 1) }, false)

/-- HIGH_SET on one set (step 3 of R35). -/
def stepHighSet (p : Profile) (m : FeederMeasurement) (r : ElementRecord) : ElementRecord × Bool :=
  if !p.hsEnable then (r.clearHighSet, false)
  else
    let h : Phases (List Bool) := ⟨pushResult r.histories.a (decide (m.phase.a.mag ≥ p.hsThreshold)),
      pushResult r.histories.b (decide (m.phase.b.mag ≥ p.hsThreshold)),
      pushResult r.histories.c (decide (m.phase.c.mag ≥ p.hsThreshold))⟩
    let r1 := { r with histories := h, hsCond := h.any confirms }
    if r1.hsCond then stepHighSetTimer p.hsDelay r1 else ({ r1 with hsTimer := none, hsOperated := false }, false)

/-! ### SEF (R45 to R49) -/

/-- The partner's Mn when pair mode applies (R46). -/
def State.pairMagnitude (s : State) (f : Feeder) (p : Profile) : Option Nat :=
  match p.sefPair, s.plant f with
  | true, some x =>
    match x.partner with
    | none => none
    | some g => if s.live (Feeder.entry g) then (s.meas g).map fun m => m.inn.mag else none
  | _, _ => none

/-- C on one set in level mode (R45). -/
def levelState (t mn : Nat) (c : PickState) : PickState :=
  match c with
  | .dropped => if mn ≥ t then .pickedUp else .dropped
  | .pickedUp => if mn < t * 15 / 16 then .dropped else .pickedUp

/-- C on one set in pair mode (R46). -/
def pairState (k floor mn mp : Nat) : PickState :=
  if 16 * mn ≥ (16 + k) * mp ∧ mn ≥ floor then .pickedUp else .dropped

/-- The SEF level-mode threshold of a feeder under a profile (R45). -/
def State.sefT (s : State) (f : Feeder) (p : Profile) : Nat := sefLevel p.sefK (s.sefBase f)

/-- The SEF timer after C has been formed (R47); the flag says whether the element operates. -/
def stepSefTimer (delay : Nat) (r : ElementRecord) : ElementRecord × Bool :=
  match r.sefC with
  | .dropped => ({ r with sefTimer := none, sefOperated := false }, false)
  | .pickedUp =>
    match r.sefTimer with
    | none => if r.sefOperated then (r, false) else ({ r with sefTimer := some 0 }, false)
    | some e => if e + 1 ≥ 160 * delay then ({ r with sefTimer := none, sefOperated := true }, true)
                else ({ r with sefTimer := some (e + 1) }, false)

/-- SEF on one set (R45 to R47). -/
def stepSef (s : State) (f : Feeder) (p : Profile) (mn : Nat) (r : ElementRecord) : ElementRecord × Bool :=
  let c := if !p.sefEnable then PickState.dropped
    else match s.pairMagnitude f p with
      | some mp => pairState p.sefK p.sefF mn mp
      | none => levelState (s.sefT f p) mn r.sefC
  stepSefTimer p.sefDelay { r with sefC := c }

/-- The magnitude Mn of the measurement record as it stands. -/
def State.mn (s : State) (f : Feeder) : Option Nat := (s.meas f).map fun m => m.inn.mag

/-- The SEF_OPERATE notice (R48). -/
def State.notifySef (s : State) (f : Feeder) (p : Profile) : State :=
  match s.pairMagnitude f p with
  | some mp => s.notify (.sefOperate f (s.mn f) true mp p.sefAction) (s.testMark f)
  | none => s.notify (.sefOperate f (s.mn f) false (s.sefT f p) p.sefAction) (s.testMark f)

/-- An SEF operation: its notice and the action of the profile (R48). The cause SEF of action TRIP joins the caller's causes. -/
def State.sefOperate (s : State) (f : Feeder) (p : Profile) : State :=
  let s1 := s.notifySef f p
  match p.sefAction with
  | .alarm => s1
  | .hunt => s1.triggerArrives (Feeder.entry f)
  | .trip => if p.sefLock then s1.addReason f .sefLock else s1

/-- SEF change reporting (R49). -/
def State.sefReport (s : State) (f : Feeder) : State :=
  let r := s.element f
  if r.sefC != r.sefR && r.sefArmed then
    (s.setElement f { r with sefR := r.sefC, sefArmed := false }).notify (.sefChange f r.sefC (s.mn f)) (s.testMark f)
  else s

/-- ACK_SEF (R49). -/
def State.ackSef (s : State) (f : Feeder) : State :=
  (s.setElement f { s.element f with sefArmed := true }).sefReport f

/-! ### Evaluation (R35) -/

/-- Hand the trip decision an operation if there is a cause (R35 step 5, R60 step 4). -/
def State.operateIf (s : State) (f : Feeder) (causes : Causes) : State :=
  if causes.isEmpty then s else s.operation f causes

/-- Steps 1 to 4 of R35 on the element record: the new record, the causes of steps 2 and 3, whether SEF operates. -/
def stepElements (s : State) (f : Feeder) (p : Profile) (m : FeederMeasurement) (r : ElementRecord) :
    ElementRecord × Causes × Bool :=
  let inv := stepInverse s p m r
  let hs := stepHighSet p m inv.1
  let sef := stepSef s f p m.inn.mag hs.1
  (sef.1, { inv.2 with highSet := hs.2 }, sef.2)

/-- Evaluate a feeder under a profile (R35). -/
def State.evaluateWith (s : State) (f : Feeder) (p : Profile) (m : FeederMeasurement) : State :=
  let x := stepElements s f p m (s.element f)
  let s1 := s.setElement f x.1
  let s2 := if x.2.2 then s1.sefOperate f p else s1
  (s2.operateIf f { x.2.1 with sef := x.2.2 && p.sefAction == .trip }).sefReport f

/-- Evaluate a feeder if its mode and its map entry call for it (R35). -/
def State.evaluate (s : State) (f : Feeder) (m : FeederMeasurement) : State :=
  match s.mode f, s.feederProfile f with
  | .outOfService, _ | _, none => s
  | _, some p => s.evaluateWith f p m

/-- The feeder stream has left LIVE: element state is held (R36). -/
def ElementRecord.held (r : ElementRecord) : ElementRecord := { r.clearHighSet with restraint := false }

/-! ### Takeover (R59, R60) -/

/-- Accumulators and pickups at a takeover (R59). -/
def ElementRecord.keepInverse (r : ElementRecord) (p : Profile) : ElementRecord :=
  let r1 := if p.ph.enable then r else { r with phAcc := Phases.all3 0, phPickup := Phases.all3 false }
  let r2 := if p.ef.enable then r1 else { r1 with efAcc := 0, efPickup := false }
  let r3 := if p.rstEnable then r2 else { r2 with restraint := false }
  if p.hsEnable then r3 else r3.clearHighSet

/-- HIGH_SET against a new delay (R60 step 1). -/
def takeoverHighSet (p : Profile) (r : ElementRecord) : ElementRecord × Bool :=
  if !p.hsEnable then (r, false)
  else match r.hsTimer with
    | some e => if e ≥ 8 * p.hsDelay then ({ r with hsTimer := none, hsOperated := true }, true) else (r, false)
    | none =>
      if r.hsCond && !r.hsOperated then
        if p.hsDelay = 0 then ({ r with hsOperated := true }, true) else ({ r with hsTimer := some 0 }, false)
      else (r, false)

/-- SEF against a new delay (R60 steps 2 and 3). -/
def takeoverSef (p : Profile) (r : ElementRecord) : ElementRecord × Bool :=
  if !p.sefEnable then ({ r with sefC := .dropped, sefTimer := none, sefOperated := false }, false)
  else match r.sefTimer with
    | some e => if e ≥ 160 * p.sefDelay then ({ r with sefTimer := none, sefOperated := true }, true) else (r, false)
    | none => (r, false)

/-- The Element Bank is presented with a new profile for a feeder (R59, R60). -/
def State.presentElements (s : State) (f : Feeder) (p : Profile) : State :=
  match s.mode f with
  | .outOfService => s
  | .inService | .test =>
    let hs := takeoverHighSet p ((s.element f).keepInverse p)
    let sef := takeoverSef p hs.1
    let s1 := s.setElement f sef.1
    let s2 := if sef.2 then s1.sefOperate f p else s1
    let s3 := s2.operateIf f { highSet := hs.2, sef := sef.2 && p.sefAction == .trip }
    s3.setElement f { s3.element f with sefR := (s3.element f).sefC }

/-! ### Neutral displacement detector (R50 to R52) -/

/-- A held timer runs again (R50). -/
def NdDetector.resumed (d : NdDetector) (now : Nat) : NdDetector :=
  match d.timer with
  | .held remaining => { d with timer := .running (now + remaining) }
  | _ => d

/-- The bus stream has left LIVE: a running timer becomes held (R50). -/
def NdDetector.holding (d : NdDetector) (now : Nat) : NdDetector :=
  match d.timer with
  | .running expiry => { d with timer := .held (expiry - now) }
  | _ => d

/-- Pickup and drop-off on one bus set (R51); the bus delay in seconds. -/
def NdDetector.onSet (d : NdDetector) (now threshold delay vn : Nat) : NdDetector :=
  match d.pick with
  | .dropped => if vn ≥ threshold then ⟨.pickedUp, .running (now + 1000 * delay), false⟩ else d
  | .pickedUp => if vn < threeQuarters threshold then ⟨.dropped, .stopped, false⟩ else d

/-- Evaluate the detector on a bus set (R50, R51). -/
def State.evaluateBus (s : State) (vn : Nat) : State :=
  match s.phasor.threshold, s.bank.bus with
  | some t, some b => s.setNd ((s.bank.nd.resumed s.time).onSet s.time t b.delay vn)
  | _, _ => s

/-- What the detector's operation does (R52): its result, and whether a trigger is handed. -/
def State.ndResult (s : State) : NdResult :=
  match s.active busEntry with
  | some (_, p) => if p.busHunt then (if s.anySefPicked then .huntWithheld else .huntPlaced) else .alarm
  | none => .alarm

/-- The bus delay timer expires (R52): the trigger is offered, the notice handed on, and the pending hunt list served if the
trigger was appended (R129, log entry 20). -/
def State.ndExpired (s : State) : State :=
  let s1 := s.setNd { s.bank.nd with timer := .stopped, operated := true }
  let r := s1.ndResult
  let s2 := if r == .huntPlaced then s1.offerTrigger busEntry else s1
  let s3 := s2.notify (.ndOperate (s2.phasor.bus.map fun m => m.vn.mag) s2.phasor.threshold r) false
  if r == .huntPlaced && !s1.dropsTrigger busEntry then s3.servePendingHunts else s3

end Sys2Proof.Machine
end

