-- ==== Sys2Proof/Machine/Takeover.lean ====
section
/-! DEFINITION. The Profile Manager's takeovers, selections, and what the end of an event settles: pending takeovers and the
pending hunt list (4.3 to 4.6, R130). -/

namespace Sys2Proof.Machine

/-! ### The takeover (R73 to R76) -/

/-- Bring FIRE into agreement with the new profile (R74). -/
def State.agreeFire (s : State) (f : Feeder) (p : Profile) : State :=
  if p.fireBlock then s.addReason f .fire else s.removeReason f .fire

/-- Steps 1 to 3 of R73: the slot becomes active, the pending slot is cleared, FIRE is brought into agreement. -/
def State.activate (s : State) (e : EntryId) (k : BankSlot) (p : Profile) : State :=
  let s1 := s.setEntry e ⟨some k, none⟩
  match EntryId.feeder? e with
  | some f => s1.agreeFire f p
  | none => s1

/-- Whether FIRE is a member of the entry's block reason set; always clear for the bus (R76). -/
def State.fireAt (s : State) (e : EntryId) : Bool :=
  match EntryId.feeder? e with
  | some f => (s.recl f).reasons.fire
  | none => false

/-- The test mark of an entry's or a stream's notices (R172). -/
def State.entryMark (s : State) (e : EntryId) : Bool :=
  match EntryId.feeder? e with
  | some f => s.testMark f
  | none => false

/-- Present the new profile to the owners in the order of R75. -/
def State.present (s : State) (e : EntryId) (p : Profile) : State :=
  match EntryId.feeder? e with
  | some f => ((s.presentElements f p).presentReclose f p).presentHunt f p
  | none => s.formThreshold

/-- A takeover of a slot on an entry (R73). A slot that is EMPTY, which no rule lets take over, takes nothing over. -/
def State.takeover (s : State) (e : EntryId) (k : BankSlot) (o : TakeoverOrigin) : State :=
  match s.profile k with
  | none => s
  | some p =>
    let s1 := s.activate e k p
    let s2 := s1.notify (.profileTakeover e (s.activeLevel e) (k, p.fireLevel) o (s1.fireAt e)) (s1.entryMark e)
    s2.present e p

/-! ### The end of an event (R72, R130) -/

/-- The entry has a pending slot and is quiet. -/
def State.takesOver (s : State) (e : EntryId) : Bool := (s.entry e).pend.isSome && s.quiet e

/-- The pending slot of an entry takes over. -/
def State.takeoverPending (s : State) (e : EntryId) : State :=
  match (s.entry e).pend with
  | none => s
  | some k => s.takeover e k .pend

/-- Pending takeovers in order of entry, then the pending hunt list while the context is IDLE, until neither is left. Each
round takes away a pending slot or a list entry; at most nine of each, and one trigger for each takeover, bound the rounds. -/
def State.settleRounds : Nat → State → State
  | 0, s => s
  | n + 1, s =>
    match entries.find? fun e => s.takesOver e with
    | some e => State.settleRounds n (s.takeoverPending e)
    | none =>
      if s.ctx.state == .idle && !s.hunt.pendingList.isEmpty then State.settleRounds n s.servePendingHunts else s

/-- What the end of an event settles (R72, R130). -/
def State.settle (s : State) : State := State.settleRounds 28 s

/-! ### SELECT_PROFILE (R68, R69) -/

/-- The outcomes of R69, in the order of R163. -/
inductive SelectOutcome where
  | taken
  | kept
  | pended
  deriving DecidableEq, Repr

/-- The code of an outcome, 00h upward. -/
def SelectOutcome.code : SelectOutcome → Nat
  | .taken => 0
  | .kept => 1
  | .pended => 2

/-- The fire level of a slot. -/
def State.levelOf (s : State) (k : BankSlot) : Nat :=
  match s.profile k with
  | none => 0
  | some p => p.fireLevel

/-- Apply a selection to one entry (R69), case by case. -/
def State.selectEntry (s : State) (k : BankSlot) (e : EntryId) : State × SelectOutcome :=
  match (s.entry e).active with
  | none => (s.takeover e k .select, .taken)
  | some a =>
    if k = a then (s.setEntry e ⟨some a, none⟩, .kept)
    else if s.levelOf k ≥ s.levelOf a || s.quiet e then (s.takeover e k .select, .taken)
    else (s.setEntry e ⟨some a, some k⟩, .pended)

/-- Apply a selection to the named entries in order, gathering entry and outcome of each. -/
def State.selectAll (k : BankSlot) : List EntryId → State → State × List (EntryId × SelectOutcome)
  | [], s => (s, [])
  | e :: rest, s =>
    let r := s.selectEntry k e
    let t := State.selectAll k rest r.1
    (t.1, (e, r.2) :: t.2)

/-- An enabled inverse-time element names a curve slot that is EMPTY (R64 check 3, R68 check 3, R77). -/
def State.curveMissing (s : State) (p : Profile) : Bool :=
  (p.ph.enable && s.curve p.ph.curve == none) || (p.ef.enable && s.curve p.ef.curve == none)

/-- The checks of SELECT_PROFILE (R68): the slot, or the result of the first failed check. -/
def State.selectCheck (s : State) (slot : Byte) (es : List EntryId) : Except Result BankSlot :=
  match indexOf 4 slot with
  | none => .error .invalid
  | some k =>
    if es.isEmpty then .error .invalid
    else match s.profile k with
      | none => .error .empty
      | some p => if (es.any fun e => e != busEntry) && s.curveMissing p then .error .empty else .ok k

/-! ### Slots in use (R66) -/

/-- A profile slot is in use: active or pending on a map entry. -/
def State.slotInUse (s : State) (k : BankSlot) : Bool :=
  entries.any fun e => (s.entry e).active == some k || (s.entry e).pend == some k

/-- A curve slot is in use: named by a profile slot in use, enabled or not. -/
def State.curveInUse (s : State) (c : BankSlot) : Bool :=
  ([0, 1, 2, 3] : List BankSlot).any fun k =>
    s.slotInUse k && (s.profile k).any fun p => p.ph.curve == c || p.ef.curve == c

/-! ### Start-up takeovers (R77) -/

/-- The slot recorded for an entry takes over if it is usable. -/
def State.imageTakeover (s : State) (e : EntryId) (recorded : Option BankSlot) : State :=
  match recorded with
  | none => s
  | some k =>
    match s.profile k with
    | none => s
    | some p => if e != busEntry && s.curveMissing p then s else s.takeover e k .image

end Sys2Proof.Machine
end

