-- ==== Sys2Proof/Machine/Streams.lean ====
section
/-! DEFINITION. Stream Intake (chapter 1): classification of a sample set, entry into the window, silence. -/

namespace Sys2Proof.Machine

/-! ### Classification (R6) -/

/-- The classes of R6. -/
inductive SetClass where
  | stale
  | missing
  | first
  | inOrder
  | oneMissing
  | gap
  deriving DecidableEq, Repr

/-- The sequence distance d = (seq − last) mod 65,536 (R6). -/
def seqDistance (seq last : U16) : Nat := (seq - last).toNat

/-- A quantity is flagged invalid; bits 4 to 7 of the quality byte are ignored (R156). -/
def flaggedInvalid (quality : Byte) : Bool := quality.toNat % 16 != 0

/-- Classify a set against the last sequence (R6). -/
def classify (last : Option U16) (seq : U16) (invalid : Bool) : SetClass :=
  match last with
  | none => if invalid then .missing else .first
  | some l =>
    let d := seqDistance seq l
    if d = 0 ∨ d ≥ 32768 then .stale
    else if invalid then .missing
    else if d = 1 then .inOrder
    else if d = 2 then .oneMissing
    else .gap

/-! ### The window (R1, R12, R13) -/

/-- A window with a set at its newest end, at most 32 long. -/
def pushSet (w : List SampleSet) (x : SampleSet) : List SampleSet :=
  if w.length < Config.windowSets then w ++ [x] else w.drop 1 ++ [x]

/-- The silence expiry of a timer restarted now (R13). -/
def StreamRecord.restarted (r : StreamRecord) (now : Nat) : Option Nat := some (now + 5 * r.silence.getD 0)

/-- Replace a stream record; a change of state hands on its STREAM_STATE notice (R18). -/
def State.moveStream (s : State) (e : EntryId) (r : StreamRecord) (reason : StreamReason) : State :=
  let prev := (s.stream e).state
  let s1 := s.setStream e r
  if prev == r.state then s1 else s1.notify (.streamState e prev r.state reason) (s.entryMark e)

/-- After an append: a FILLING window of 32 goes LIVE, and STREAM_LOST leaves the feeder's set (R12, R17). -/
def State.checkFull (s : State) (e : EntryId) : State :=
  let r := s.stream e
  if r.state == .filling && r.window.length == Config.windowSets then
    let s1 := s.moveStream e { r with state := .live } .full
    match EntryId.feeder? e with
    | some f => s1.removeReason f .streamLost
    | none => s1
  else s

/-- An appended set on a LIVE stream: the measurement record, the evaluation, and a settling hunt (R12, R22, R35, R137). -/
def State.evaluateSet (s : State) (e : EntryId) (seq : U16) : State :=
  let w := (s.stream e).window
  match EntryId.feeder? e with
  | some f =>
    let m := measureFeeder seq w
    ((s.setMeas f (some m)).evaluate f m).settleOnSet e
  | none =>
    let m := measureBus seq w
    ((s.setBusMeas (some m)).evaluateBus m.vn.mag).settleOnSet e

/-- Append a set whose held mark is clear and do what R12 says. -/
def State.takeSet (s : State) (e : EntryId) (x : SampleSet) : State :=
  let r := s.stream e
  let st := if r.state == .lost then StreamState.filling else r.state
  let r1 := { r with state := st, window := pushSet r.window x, lastSeq := some x.seq, expiry := r.restarted s.time }
  let s2 := (s.moveStream e r1 .resumed).checkFull e
  if s2.live e then s2.evaluateSet e x.seq else s2

/-- Append the held repeat of a missing set (R10). -/
def State.holdRepeat (s : State) (e : EntryId) : State :=
  let r := s.stream e
  match r.window.getLast?, r.lastSeq with
  | some y, some l =>
    (s.setStream e { r with window := pushSet r.window { y with seq := l + 1#16, held := true }
                            lastSeq := some (l + 1#16), heldCount := bump r.heldCount }).checkFull e
  | _, _ => s

/-- The Element Bank holds what a stream that is not LIVE leaves (R36, R50), and its measurement record goes (R21). -/
def State.holdElements (s : State) (e : EntryId) : State :=
  let s1 := s.dropMeas e
  match EntryId.feeder? e with
  | some f => s1.setElement f (s1.element f).held
  | none => s1.setNd (s1.bank.nd.holding s1.time)

/-- A GAP set: the window begins anew with it (R11). -/
def State.refill (s : State) (e : EntryId) (x : SampleSet) : State :=
  let r := s.stream e
  let r1 := { r with state := .filling, window := [x], lastSeq := some x.seq, expiry := r.restarted s.time }
  let s1 := (s.moveStream e r1 .gap).holdElements e
  if r.state == .live then s1.settleOnGap e else s1

/-- A STALE set is counted twice over: by the stream and under STALE_SAMPLE (R7). -/
def State.countStale (s : State) (e : EntryId) : State :=
  let r := s.stream e
  (s.setStream e { r with staleCount := bump r.staleCount }).occur .staleSample

/-! ### The frame (R5) -/

/-- The set a frame carries. -/
def setOf (x : SampleFrame) : SampleSet := ⟨x.seq, x.x1, x.x2, x.x3, x.x4, false⟩

/-- The class of a frame on a stream. -/
def State.classOf (s : State) (e : EntryId) (x : SampleFrame) : SetClass :=
  classify (s.stream e).lastSeq x.seq (flaggedInvalid x.quality)

/-- Take a frame that belongs to a stream, as its class directs. -/
def State.takeFrame (s : State) (e : EntryId) (x : SampleFrame) : State :=
  match s.classOf e x with
  | .stale => s.countStale e
  | .missing => s
  | .first | .inOrder => s.takeSet e (setOf x)
  | .oneMissing => (s.holdRepeat e).takeSet e (setOf x)
  | .gap => s.refill e (setOf x)

/-- Addresses that are never known as a source (R151). -/
def State.neverKnown (s : State) (a : U16) : Bool := !addressOk a || a == s.link.table.address

/-- The configured stream with this source address (R5, R151). -/
def State.streamAt (s : State) (a : U16) : Option EntryId :=
  if s.neverKnown a then none else entries.find? fun e => (s.stream e).source == some a

/-- A SAMPLE frame that has passed the checks of R150 (R5, R151). -/
def State.takeSample (s : State) (x : SampleFrame) : State :=
  match s.streamAt x.source with
  | none => s.occur .unknownSource
  | some e => s.takeFrame e x

/-! ### Silence (R14 to R16) -/

/-- The loss action of a feeder: TRIP, or BLOCK where no slot is active (R15). -/
def State.lossTrips (s : State) (f : Feeder) : Bool := (s.feederProfile f).any fun p => p.lossTrip

/-- The loss action of a feeder stream (R15). -/
def State.lossAction (s : State) (f : Feeder) : State :=
  let trips := s.lossTrips f
  let s1 := s.addReason f .streamLost
  if trips then s1.operation f { streamLoss := true } else s1

/-- A stream is lost (R14): its notice, the Element Bank, the Hunt Controller, then the loss action. For a feeder R18 fixes that the
STREAM_STATE notice comes before every change of the block reason set; for the bus, where no rule fixes its place among the notices
of the hunt abort, that it comes first is a DESIGN CHOICE (log entry 29). -/
def State.loseStream (s : State) (e : EntryId) : State :=
  let r := s.stream e
  let r1 := { r with state := .lost, window := [], lastSeq := none, expiry := none }
  let s1 := ((s.moveStream e r1 .silence).holdElements e).huntStreamLost e
  match EntryId.feeder? e with
  | some f => s1.lossAction f
  | none => s1

end Sys2Proof.Machine
end

