-- ==== Sys2Proof/Machine/Answers.lean ====
section
/-! DEFINITION. What comes back from the outstations: responses, deadlines, status reports, and the delivery of completions
(6.2, 6.4, 6.5). -/

namespace Sys2Proof.Machine

/-! ### Enrolment (R104) -/

/-- The slot's ENROL ends with the slot in a state, with its notice. -/
def State.endEnrol (s : State) (i : SlotId) (o : Outstation) (reason : OutReason) (reported : Option U16)
    (completion : Option Completion) : State :=
  (s.setSlot i o).notifySlot i .enrolling reason reported completion

/-- An ENROL completes (R104). -/
def State.enrolCompleted (s : State) (d : Delivery) : State :=
  let i := d.slot
  let o := s.slot i
  if o.state == .enrolling then
    match d.completion with
    | .done v _ =>
      if (v.any fun w => d.cmd.expected.any fun k => w == BitVec.ofNat 16 k.code) then
        let s1 := s.endEnrol i { o with state := .inService, failures := 0 } .enrolled none none
        if o.loaded.any fun l => l.follower then s1.followerEntered i else s1
      else s.endEnrol i { o with state := .outOfService } .enrolMismatch v none
    | k => s.endEnrol i { o with state := .outOfService } .enrolFailed none (some k)
  else s

/-! ### Delivery (R118) -/

/-- Deliver a completion to its originator. -/
def State.deliver (s : State) (d : Delivery) : State :=
  match d.origin with
  | .elementBank => s.tripCompleted (SlotId.feeder d.slot) d.completion
  | .reclose =>
    match d.cmd.kind with
    | .close => s.closeCompleted (SlotId.feeder d.slot) d.completion
    | _ => s.blockingCompleted d
  | .hunt => s.huntCompleted d.cmd.kind d.completion
  | .management t => s.operateCompleted t d.slot d.cmd.kind d.completion
  | .exchange => s.enrolCompleted d

/-- Deliver completions in order. -/
def State.deliverAll (s : State) (ds : List Delivery) : State := ds.foldl State.deliver s

/-! ### Answers (R112 to R117) -/

/-- The position a DONE of a command sets, none for a command that sets none (R113 step 3). -/
def CmdKind.sets : CmdKind → Option Position
  | .trip | .opn => some .opened
  | .close => some .closed
  | .block | .release | .enrol => none

/-- A DONE of a switching command: known position and history, with the SWITCHED notice of a change (R113 step 3, R122). -/
def State.switched (s : State) (i : SlotId) (k : CmdKind) : State :=
  match k.sets with
  | none => s
  | some p =>
    let o := s.slot i
    let s1 := s.setSlot i { o with known := p, history := [] }
    if o.known == p then s1 else s1.notifySlot i o.state .switched

/-- The in-flight command is over: it becomes absent, the last completion time is now (R113 step 1, R115). -/
def Outstation.landed (o : Outstation) (now : Nat) : Outstation := { o with inFlight := none, lastDone := some now }

/-- A matching DONE or REFUSED (R113), steps 1 to 4. -/
def State.answered (s : State) (i : SlotId) (fl : InFlight) (k : Completion) : State :=
  let s1 := (s.setSlot i { (s.slot i).landed s.time with failures := 0 }).reach i
  let s2 := if k.isDone then s1.switched i fl.cmd.kind else s1
  s2.deliverAll (deliveries i fl.cmd k)

/-- The further time a WAIT asks for, 1 to 10,000 ms (R114). -/
def waitTime (w : U16) : Nat := max 1 (min 10000 w.toNat)

/-- A matching WAIT (R114). -/
def State.waited (s : State) (i : SlotId) (fl : InFlight) (w : U16) : State :=
  let o := s.slot i
  if fl.waits + 1 < Config.waitLimit then
    let fl' := { fl with waits := fl.waits + 1, deadline := max fl.deadline (s.time + waitTime w) }
    (s.setSlot i { o with inFlight := some fl', failures := 0 }).reach i
  else
    let s1 := (s.setSlot i { o.landed s.time with failures := 0, expiredTag := some fl.tag }).reach i
    s1.deliverAll (deliveries i fl.cmd .waitLimit)

/-- A response that matches nothing (R116). -/
def State.unmatched (s : State) (i : SlotId) (tag : Byte) : State :=
  s.occur (if (s.slot i).expiredTag == some tag then .lateResponse else .tagMismatch)

/-- The slot a STATUS_REPORT or RESPONSE is dispatched to (R151). -/
def State.knownSlot (s : State) (a : U16) : Option SlotId := if s.neverKnown a then none else s.slotAt a

/-- A RESPONSE frame that has passed steps 1 to 7 of R150. -/
def State.takeResponse (s : State) (source : U16) (tag : Byte) (a : AnswerKind) (v : U16) : State :=
  match s.knownSlot source with
  | none => s.occur .unknownSource
  | some i =>
    match (s.slot i).inFlight with
    | none => s.unmatched i tag
    | some fl =>
      if fl.tag == tag then
        match a with
        | .done => s.answered i fl (.done (some v) false)
        | .refused => s.answered i fl (.refused v)
        | .wait => s.waited i fl v
      else s.unmatched i tag

/-! ### The deadline (R115) -/

/-- The slot becomes UNREACHABLE: its notice, then every queued command that is not BLOCKING completes (R115; the place of the
notice is DEDUCED, log entry 16). -/
def State.becomeUnreachable (s : State) (i : SlotId) : State :=
  let o := s.slot i
  let s1 := (s.setSlot i { o with state := .unreachable, failures := Config.failureLimit
                                  queue := o.queue.filter fun c => c.kind.isBlocking }).notifySlot i o.state .unreachable
  s1.deliverAll ((o.queue.filter fun c => !c.kind.isBlocking).flatMap fun c => deliveries i c .unreachable)

/-- One more failure of an IN_SERVICE slot (R115). -/
def State.countFailure (s : State) (i : SlotId) : State :=
  let o := s.slot i
  if o.failures + 1 < Config.failureLimit then s.setSlot i { o with failures := o.failures + 1 }
  else s.becomeUnreachable i

/-- The deadline of an in-flight command is reached (R115). The completion is delivered before the failure is counted (log entry 16);
that the reply of a deferred OPERATE, handed in that delivery, comes before the UNREACHABLE notice is a DESIGN CHOICE (R161, log
entry 33). -/
def State.timedOut (s : State) (i : SlotId) (fl : InFlight) : State :=
  let o := s.slot i
  let s1 := (s.setSlot i { o.landed s.time with expiredTag := some fl.tag }).deliverAll (deliveries i fl.cmd .timeout)
  if o.state == .inService then s1.countFailure i else s1

/-! ### Status reports (R119 to R121) -/

/-- A report history with a new position, at most 3 long. -/
def pushReport (h : List Bool) (x : Bool) : List Bool := if h.length < 3 then h ++ [x] else h.drop 1 ++ [x]

/-- The position on which at least two reports agree. -/
def agreed (h : List Bool) : Option Position :=
  if 2 ≤ (h.filter id).length then some .opened
  else if 2 ≤ (h.filter not).length then some .closed
  else none

/-- The flag byte of a report (8.5.2). -/
def reportFlags (b : Byte) : OutFlags := ⟨b.getLsbD 0, b.getLsbD 1⟩

/-- The passage report of a flag byte that arrives now (R120). -/
def reportPassage (b : Byte) (now : Nat) : Passage := ⟨b.getLsbD 2, b.getLsbD 3, now⟩

/-- Latest flags and passage report are replaced; a change of the flags is reported (R119 step 1, R120). -/
def State.takeFlags (s : State) (i : SlotId) (b : Byte) : State :=
  let o := s.slot i
  let s1 := s.setSlot i { o with flags := some (reportFlags b), passage := some (reportPassage b s.time) }
  if o.flags == some (reportFlags b) then s1 else s1.notifySlot i o.state .flags

/-- Filter a reported position into the known position (R119 steps 3 and 4, R121). -/
def State.filterReport (s : State) (i : SlotId) (opn : Bool) : State :=
  let o := s.slot i
  let h := pushReport o.history opn
  match agreed h with
  | none => s.setSlot i { o with history := h }
  | some p =>
    if o.known == p then s.setSlot i { o with history := h }
    else
      let s1 := (s.setSlot i { o with history := h, known := p }).notifySlot i o.state .reported
      if SlotId.position i = 0 ∧ p = .opened then s1.externalOpen (SlotId.feeder i) else s1

/-- A report from a slot that is IN_SERVICE (R119). -/
def State.handleReport (s : State) (i : SlotId) (pos : ReportPosition) (b : Byte) : State :=
  let s1 := s.takeFlags i b
  if (s.slot i).flying CmdKind.isSwitching then s1
  else match pos with
    | .none => s1
    | .opened => s1.filterReport i true
    | .closed => s1.filterReport i false

/-- A STATUS_REPORT frame that has passed steps 1 to 7 of R150 (R117, R119, R151). -/
def State.takeReport (s : State) (source : U16) (pos : ReportPosition) (b : Byte) : State :=
  match s.knownSlot source with
  | none => s.occur .unknownSource
  | some i =>
    match (s.slot i).state with
    | .inService | .unreachable => (s.reach i).handleReport i pos b
    | .empty | .outOfService | .enrolling => s

end Sys2Proof.Machine
end

