-- ==== Sys2Proof/Machine/Loads.lean ====
section
/-! DEFINITION. The load of each table by its owner: the length and index of R158, the owner's checks in their order, and the
effect of an accepted load. -/

namespace Sys2Proof.Machine

/-- The present field of a record that has one is clear. -/
def presentClear (r : List Byte) : Bool := byteAt r 0 == 0

/-- The length a record's table kind and count require (R158), by table kind code. -/
def lengthOk (table : Nat) (r : List Byte) : Bool :=
  match table with
  | 1 | 2 => r.length == 7
  | 3 => r.length == 10
  | 4 => r.length == 50
  | 5 => r.length == 611
  | 6 => r.length != 0 && r.length == 1 + 2 * byteAt r 0
  | 7 => r.length != 0 && r.length == 1 + byteAt r 0
  | 8 => r.length == 21
  | _ => false

/-! ### FEEDER and BUS (R3, R4) -/

/-- A slot other than `but` that is not EMPTY has this link address. -/
def State.slotHas (s : State) (but : Option SlotId) (a : U16) : Bool :=
  allSlots.any fun i => some i != but && (s.slot i).loaded.any fun l => l.address == a

/-- A configured stream other than `but` has this source address. -/
def State.streamHas (s : State) (but : Option EntryId) (a : U16) : Bool :=
  entries.any fun e => some e != but && (s.stream e).source == some a

/-- The source address of a stream is taken (R3 step 3). -/
def State.sourceTaken (s : State) (e : EntryId) (a : U16) : Bool :=
  s.streamHas (some e) a || s.slotHas none a || a == s.link.table.address

/-- Change a stream's configuration (R4): the window is emptied, the timer stopped, and a change of state out of LIVE made
known to the Element Bank. The counts are kept. -/
def State.restartStream (s : State) (e : EntryId) (st : StreamState) (x : Option StreamFields) (reason : StreamReason) :
    State :=
  let r := s.stream e
  let r1 := { StreamRecord.reset with state := st, source := x.map StreamFields.source, silence := x.map StreamFields.silence
                                      heldCount := r.heldCount, staleCount := r.staleCount }
  let s1 := s.moveStream e r1 reason
  if r.state == .live then s1.holdElements e else s1

/-- Present set (R4): configure, re-address, or store a new multiplier. -/
def State.configureStream (s : State) (e : EntryId) (x : StreamFields) : State :=
  let r := s.stream e
  if r.state != .unconfigured && r.source == some x.source then s.setStream e { r with silence := some x.silence }
  else s.restartStream e .filling (some x) .load

/-- Present clear (R4). -/
def State.removeStream (s : State) (e : EntryId) : State :=
  if (s.stream e).state == .unconfigured then s else s.restartStream e .unconfigured none .removed

/-- A FEEDER load for feeder f (R3, R4). -/
def State.loadFeederAt (s : State) (f : Feeder) (r : List Byte) : State × Result :=
  if s.mode f != .outOfService || s.involves f then (s, .inUse)
  else if presentClear r then ((s.removeStream (Feeder.entry f)).setPlant f none, .ok)
  else match decodeFeeder f r with
    | none => (s, .invalid)
    | some x =>
      if s.sourceTaken (Feeder.entry f) x.1.source then (s, .invalid)
      else ((s.configureStream (Feeder.entry f) x.1).setPlant f (some x.2), .ok)

/-- A hunt in progress observes DISPLACEMENT (R3 step 1). -/
def State.observesBus (s : State) : Bool := s.ctx.state != .idle && s.ctx.observed == some .displacement

/-- The BUS entry is removed: the detector returns to its reset values and the threshold becomes absent (R31, R50). -/
def State.removeBus (s : State) : State :=
  if (s.stream busEntry).state == .unconfigured then s
  else (((s.removeStream busEntry).setBusPlant none).setNd NdDetector.reset).formThreshold

/-- A BUS load (R3, R4, R31). -/
def State.loadBusAt (s : State) (r : List Byte) : State × Result :=
  if s.observesBus then (s, .inUse)
  else if presentClear r then (s.removeBus, .ok)
  else match decodeBus r with
    | none => (s, .invalid)
    | some x =>
      if s.sourceTaken busEntry x.1.source then (s, .invalid)
      else (((s.configureStream busEntry x.1).setBusPlant (some x.2)).formThreshold, .ok)

/-! ### OUTSTATION (R101, R102) -/

/-- An accepted present-set load (R102). -/
def Outstation.reloaded (o : Outstation) (l : Loaded) : Outstation :=
  match o.loaded with
  | none => { Outstation.reset with state := .outOfService, loaded := some l }
  | some l0 =>
    if l0.address = l.address then { o with loaded := some l }
    else { o with loaded := some l, known := .unknown, history := [], flags := none, passage := none, expiredTag := none }

/-- Replace a slot by a load; a change of its state sends the notice with reason LOADED (R102, R122). -/
def State.placeSlot (s : State) (i : SlotId) (o : Outstation) : State :=
  let prev := (s.slot i).state
  let s1 := s.setSlot i o
  if prev == o.state then s1 else s1.notifySlot i prev .loaded

/-- An OUTSTATION load for a slot (R101, R102). -/
def State.loadSlotAt (s : State) (i : SlotId) (r : List Byte) : State × Result :=
  let o := s.slot i
  if o.sends || (SlotId.position i == 0 && s.mode (SlotId.feeder i) != .outOfService) then (s, .inUse)
  else if presentClear r then ((s.placeSlot i Outstation.reset).dropFollower i, .ok)
  else match decodeOutstation (SlotId.position i) r with
    | none => (s, .invalid)
    | some l =>
      if s.slotHas (some i) l.address || s.streamHas none l.address || l.address == s.link.table.address then (s, .invalid)
      else (s.placeSlot i (o.reloaded l), .ok)

/-! ### PROFILE and CURVE (R38, R64, R65) -/

/-- A PROFILE load for a slot (R64, R65). -/
def State.loadProfileAt (s : State) (k : BankSlot) (r : List Byte) : State × Result :=
  if s.slotInUse k then (s, .inUse)
  else if presentClear r then (s.setProfile k none, .ok)
  else match decodeProfile r with
    | none => (s, .invalid)
    | some p => if s.curveMissing p then (s, .empty) else (s.setProfile k (some p), .ok)

/-- A CURVE load for a slot (R38). -/
def State.loadCurveAt (s : State) (k : BankSlot) (r : List Byte) : State × Result :=
  if s.curveInUse k then (s, .inUse)
  else if presentClear r then (s.setCurve k none, .ok)
  else match decodeCurve r with
    | none => (s, .invalid)
    | some rates => (s.setCurve k (some rates), .ok)

/-! ### HUNT_PLAN, BUS_ORDER and LINK (R132, R133, R149) -/

/-- The indicator of a step names an INDICATOR slot of the feeder (R132 check 5). -/
def State.indicatorOk (s : State) (f : Feeder) (x : PlanStep) : Bool :=
  match x.indicator with
  | none => true
  | some p => (s.slot (Feeder.slot f p)).loaded.any fun l => l.kind == .indicator

/-- A HUNT_PLAN load for feeder f (R132). -/
def State.loadPlanAt (s : State) (f : Feeder) (r : List Byte) : State × Result :=
  if s.involves f then (s, .inUse)
  else match decodePlan r with
    | none => (s, .invalid)
    | some p => if p.all fun x => s.indicatorOk f x then (s.setPlan f p, .ok) else (s, .invalid)

/-- A BUS_ORDER load (R133). -/
def State.loadOrderAt (s : State) (r : List Byte) : State × Result :=
  if s.busHunting then (s, .inUse)
  else match decodeBusOrder r with
    | none => (s, .invalid)
    | some fs => (s.setBusOrder fs, .ok)

/-- Replace the link table; a destination that becomes present is offered the oldest notice (R149, R171). -/
def State.placeLink (s : State) (t : LinkTable) : State :=
  let s1 := s.setLink { s.link with table := t }
  if s.link.table.dest == none then s1.feedNotice else s1

/-- A LINK load (R149). -/
def State.loadLinkAt (s : State) (r : List Byte) : State × Result :=
  match decodeLink r with
  | none => (s, .invalid)
  | some t =>
    if s.streamHas none t.address || s.slotHas none t.address then (s, .invalid) else (s.placeLink t, .ok)

/-! ### A load by table kind code (R158, R162) -/

/-- A load whose index lies in the range of its table, or INVALID. -/
def loadWithin (n : Nat) (s : State) (index : Byte) (g : Fin n → State × Result) : State × Result :=
  match indexOf n index with
  | none => (s, .invalid)
  | some i => g i

/-- The load of a table by its owner. -/
def State.ownerLoad (s : State) (table : Nat) (index : Byte) (r : List Byte) : State × Result :=
  match table with
  | 1 => loadWithin 8 s index fun f => s.loadFeederAt f r
  | 2 => loadWithin 1 s index fun _ => s.loadBusAt r
  | 3 => loadWithin 64 s index fun i => s.loadSlotAt i r
  | 4 => loadWithin 4 s index fun k => s.loadProfileAt k r
  | 5 => loadWithin 4 s index fun k => s.loadCurveAt k r
  | 6 => loadWithin 8 s index fun f => s.loadPlanAt f r
  | 7 => loadWithin 1 s index fun _ => s.loadOrderAt r
  | 8 => loadWithin 1 s index fun _ => s.loadLinkAt r
  | _ => (s, .invalid)

/-- The load of a record: its length first (R158), then its owner. -/
def State.applyLoad (s : State) (table : Nat) (index : Byte) (r : List Byte) : State × Result :=
  if lengthOk table r then s.ownerLoad table index r else (s, .invalid)

end Sys2Proof.Machine
end

