-- ==== Sys2Proof/Machine/Service.lean ====
section
/-! DEFINITION. Service and modes as requests and the start-up event change them: SET_SERVICE (R103, R105), SET_MODE (R181), and
the counters (R19, R153). -/

namespace Sys2Proof.Machine

/-! ### SET_SERVICE -/

/-- The slot as enrolment begins (R103). -/
def Outstation.enrolling (o : Outstation) : Outstation :=
  { o with state := .enrolling, known := .unknown, history := [], flags := none, passage := none, expiredTag := none
           failures := 0 }

/-- The ENROL of a slot (R103): expected kind, and hold time 3 × the refresh period. -/
def enrolCmd (l : Loaded) : Cmd := { kind := .enrol, origin := .exchange, expected := some l.kind, hold := 3 * l.refresh }

/-- Bring an OUT_OF_SERVICE slot into service (R103). -/
def State.beginEnrol (s : State) (i : SlotId) (l : Loaded) : State :=
  ((((s.setSlot i (s.slot i).enrolling).notifySlot i .outOfService .enrolling)).handCmd i (enrolCmd l)).1

/-- SET_SERVICE with on (R103). -/
def State.serviceOn (s : State) (i : SlotId) : State × Result :=
  match (s.slot i).state, (s.slot i).loaded with
  | .empty, _ => (s, .empty)
  | .outOfService, some l => (s.beginEnrol i l, .ok)
  | _, _ => (s, .ok)

/-- The slot as it leaves service (R105). -/
def Outstation.leftService (o : Outstation) : Outstation :=
  { o with state := .outOfService, known := .unknown, history := [], flags := none, passage := none, queue := [] }

/-- Take a slot out of service (R105, R99): the change and its notice, the follower, then the CANCELLED completions in queue
order (log entry 11). -/
def State.leaveService (s : State) (i : SlotId) : State :=
  let o := s.slot i
  let s1 := ((s.setSlot i o.leftService).notifySlot i o.state .serviceOff).dropFollower i
  s1.deliverAll (o.queue.flatMap fun c => deliveries i c .cancelled)

/-- SET_SERVICE with off (R105), its checks in the order listed. -/
def State.serviceOff (s : State) (i : SlotId) : State × Result :=
  let o := s.slot i
  match o.state with
  | .empty => (s, .empty)
  | .outOfService => (s, .ok)
  | .enrolling | .inService | .unreachable =>
    if o.inFlight.isSome then (s, .busy)
    else if SlotId.position i == 0 && s.mode (SlotId.feeder i) != .outOfService then (s, .notPermitted)
    else if s.isOpenPoint i then (s, .notPermitted)
    else (s.leaveService i, .ok)

/-! ### Modes (R62, R93, R181) -/

/-- The reclose state goes to OFF (R93). -/
def State.recloseOff (s : State) (f : Feeder) : State :=
  match (s.recl f).state with
  | .off => s
  | _ => s.goReclose f .off

/-- The reclose state leaves OFF by the known position of slot 0 (R93). -/
def State.recloseOn (s : State) (f : Feeder) : State :=
  s.goReclose f (if (s.slot (Feeder.head f)).known == .closed then .ready else .lockout .start)

/-- The effects of a change of mode (R181). -/
def State.changeMode (s : State) (f : Feeder) (m : Mode) : State :=
  let prev := s.mode f
  let s1 := s.setMode f m
  match prev, m with
  | _, .outOfService => (s1.setElement f ElementRecord.reset).recloseOff f
  | .outOfService, _ => s1.recloseOn f
  | _, _ => s1

/-- The reclose state refuses SET_MODE: TRIPPING, DEAD_TIME or CLOSING (R181 check 2). -/
def RecloseState.cycling : RecloseState → Bool
  | .tripping _ _ | .deadTime _ _ | .closing _ _ => true
  | .off | .ready | .reclaim _ _ | .lockout _ => false

/-- A feeder may leave OUT_OF_SERVICE: FEEDER entry present, slot 0 not EMPTY, an active slot (R181 check 3). -/
def State.mayServe (s : State) (f : Feeder) : Bool :=
  (s.plant f).isSome && (s.slot (Feeder.head f)).state != .empty && (s.entry (Feeder.entry f)).active.isSome

/-- SET_MODE on a feeder (R181). -/
def State.setModeRequest (s : State) (f : Feeder) (m : Mode) : State × Result :=
  if s.mode f == m then (s, .ok)
  else if (s.recl f).state.cycling || s.involves f then (s, .busy)
  else if s.mode f == .outOfService && !s.mayServe f then (s, .state)
  else (s.changeMode f m, .ok)

/-! ### CLEAR_COUNTERS (R19, R153) -/

/-- Both counts of every stream, every class counter and every seen flag are cleared. -/
def State.clearCounts (s : State) : State :=
  let s1 := s.setIntake ⟨s.intake.streams.map fun r => { r with heldCount := 0, staleCount := 0 }⟩
  s1.setLink { s1.link with log := Vector.replicate 8 ⟨0, false⟩ }

end Sys2Proof.Machine
end

