-- ==== Sys2Proof/Machine/Loader.lean ====
section
/-! DEFINITION. The Image Loader (chapter 10): the image's records and their checks, reading, the start-up event, the save, and
the two resets. -/

namespace Sys2Proof.Machine

/-! ### Records (R175, R176) -/

/-- The sum of bytes taken as unsigned numbers. -/
def byteSum (r : List Byte) : Nat := (r.map BitVec.toNat).sum

/-- The check of a record: the two's complement, modulo 65,536, of the sum of its other bytes (R176). -/
def checkOf (r : List Byte) : Nat := (65536 - byteSum r % 65536) % 65536

/-- The bytes of a record: kind, index, length, contents, check (R175). -/
def recordBytes (kind index : Byte) (contents : List Byte) : List Byte :=
  let body := [kind, index] ++ b16 contents.length ++ contents
  body ++ b16 (checkOf body)

/-- The bytes of the header: marker and record count (R175). -/
def headerBytes (count : Nat) : List Byte := bWord Config.imageMarker ++ b16 count

/-! ### Reading (R177) -/

/-- Replace the progress of READING. -/
def State.setReading (s : State) (p : Reading) : State := s.setLoader (.reading p)

/-- Reading has ended. -/
def Reading.ended (p : Reading) : Reading := { p with stage := .ended }

/-- Hand on an IMAGE notice. -/
def State.notifyImage (s : State) (reason : ImageReason) (position : Option Nat) (kind index : Option Byte)
    (result : Option Result := none) : State :=
  s.notify (.image reason position kind index result) false

/-- The stage after a record of which `left` were still to be read, itself among them. -/
def stageAfter (left : Nat) : ReadStage := if left ≤ 1 then .ended else .records (left - 1)

/-- On to the next record, after one of a stated length. -/
def Reading.advance (p : Reading) (left len : Nat) : Reading :=
  { p with stage := stageAfter left, address := p.address + 6 + len, position := p.position + 1 }

/-- The header is read (R175, R177). That a BLANK notice and the READ_FAILED notice of the header carry no position, kind or index is a
DESIGN CHOICE (log entry 18). -/
def State.readHeader (s : State) (p : Reading) (accepted : Bool) : State :=
  let h := SerialMemory.bytes s.serial 0 4
  if !accepted then (s.setReading p.ended).notifyImage .readFailed none none none
  else if u16At h 0 ≠ Config.imageMarker then
    (s.setReading { p.ended with blank := true }).notifyImage .blank none none none
  else
    let n := wordAt h 2
    s.setReading { p with stage := if n = 0 then .ended else .records n, address := 4 }

/-- Discard the record under its own case and go on after its stated length. -/
def State.discard (s : State) (p : Reading) (left len : Nat) (kind index : Byte) (reason : ImageReason) : State :=
  (s.setReading { p.advance left len with discarded := p.discarded + 1 }).notifyImage reason (some p.position) (some kind)
    (some index)

/-- A record is read and judged, the first case of R177 that applies. R177 does not say what the READ_FAILED notice of a record carries:
its position, with kind and index absent, is a DESIGN CHOICE (log entry 18). -/
def State.readRecord (s : State) (p : Reading) (left : Nat) (accepted : Bool) : State :=
  let h := SerialMemory.bytes s.serial p.address 4
  let kind := h.getD 0 0#8
  let index := h.getD 1 0#8
  let len := wordAt h 2
  let contents := SerialMemory.bytes s.serial (p.address + 4) len
  let check := wordAt (SerialMemory.bytes s.serial (p.address + 4 + len) 2) 0
  if !accepted then (s.setReading p.ended).notifyImage .readFailed (some p.position) none none
  else if len > 611 then
    (s.setReading { p.ended with discarded := p.discarded + left }).notifyImage .format (some p.position) (some kind)
      (some index)
  else if (byteSum (h ++ contents) + check) % 65536 ≠ 0 then s.discard p left len kind index .check
  else if !within 1 9 kind.toNat then s.discard p left len kind index .unknownKind
  else if p.kept.any fun k => k.kind == kind && k.index == index then s.discard p left len kind index .duplicate
  else s.setReading { p.advance left len with kept := p.kept ++ [⟨p.position, kind, index, contents⟩] }

/-- The next read of the image. -/
def State.readImage (s : State) (accepted : Bool) : State :=
  match s.loader with
  | .reading p =>
    match p.stage with
    | .header => s.readHeader p accepted
    | .records left => s.readRecord p left accepted
    | .ended => s
  | .idle | .saving _ => s

/-! ### The start-up event (R178, R179) -/

/-- Insert a record in order of index. -/
def insertRecord (x : KeptRecord) : List KeptRecord → List KeptRecord
  | [] => [x]
  | y :: rest => if x.index.toNat ≤ y.index.toNat then x :: y :: rest else y :: insertRecord x rest

/-- The kept records of one kind in order of index. -/
def recordsOf (kind : Nat) (kept : List KeptRecord) : List KeptRecord :=
  (kept.filter fun x => x.kind.toNat == kind).foldr insertRecord []

/-- The table kind codes in the order of application: LINK, FEEDER, BUS, OUTSTATION, CURVE, PROFILE, HUNT_PLAN, BUS_ORDER. -/
def applicationOrder : List Nat := [8, 1, 2, 3, 5, 4, 6, 7]

/-- The state and the number of records applied so far. -/
abbrev Applied := State × Nat

/-- Apply a table record as a load; a record the owner refuses is discarded with its notice (R178). -/
def applyRecord (a : Applied) (x : KeptRecord) : Applied :=
  let r := a.1.applyLoad x.kind.toNat x.index x.contents
  if r.2 == .ok then (r.1, a.2 + 1)
  else (r.1.notifyImage .refused (some x.position) (some x.kind) (some x.index) (some r.2), a.2)

/-- What a STATE record records; a missing one wishes nothing (R179). -/
structure Wishes where
  modes  : List Byte
  slots  : List Byte
  active : List Byte
  deriving DecidableEq, Repr

/-- Nothing wished: every mode OUT_OF_SERVICE, no slot in service, no active slot. -/
def Wishes.nothing : Wishes := ⟨[], [], []⟩

/-- The contents of a STATE record (R175). -/
def wishesOf (r : List Byte) : Wishes := ⟨r.take 8, (r.drop 8).take 8, (r.drop 16).take 9⟩

/-- The recorded mode of a feeder; a byte outside its codes is OUT_OF_SERVICE. -/
def Wishes.mode (w : Wishes) (f : Feeder) : Mode := (modeOf (w.modes.getD f.val 0x02#8)).getD .outOfService

/-- A slot is wished in service: bit n of byte m is slot 8 × m + n. -/
def Wishes.slot (w : Wishes) (i : SlotId) : Bool := (w.slots.getD (i.val / 8) 0#8).getLsbD (i.val % 8)

/-- The recorded active slot of an entry; a byte outside 00h to 03h is none. -/
def Wishes.entry (w : Wishes) (e : EntryId) : Option BankSlot := indexOf 4 (w.active.getD e.val 0xFF#8)

/-- A kept STATE record is taken, or discarded with its notice (R179). -/
def takeStateRecord (a : Applied × Wishes) (x : KeptRecord) : Applied × Wishes :=
  if x.index = 0x00#8 ∧ x.contents.length = 25 then ((a.1.1, a.1.2 + 1), wishesOf x.contents)
  else ((a.1.1.notifyImage .refused (some x.position) (some x.kind) (some x.index) (some .invalid), a.1.2), a.2)

/-- Step 1 of R179 for one slot. -/
def State.wishSlot (w : Wishes) (s : State) (i : SlotId) : State :=
  if w.slot i && (s.slot i).state == .outOfService then (s.serviceOn i).1 else s

/-- Step 3 of R179 for one feeder. -/
def State.wishMode (w : Wishes) (s : State) (f : Feeder) : State :=
  if w.mode f != .outOfService && s.mayServe f && w.slot (Feeder.head f) then s.changeMode f (w.mode f) else s

/-- Steps 1 to 3 of R179. That step 1 takes the wished slots in order of slot index is a DESIGN CHOICE (log entry 34). -/
def State.restoreWishes (s : State) (w : Wishes) : State :=
  let s1 := allSlots.foldl (State.wishSlot w) s
  let s2 := entries.foldl (fun s e => s.imageTakeover e (w.entry e)) s1
  feeders.foldl (State.wishMode w) s2

/-- Table records, then STATE records: the state, how many were applied, and the wishes (R178, R179). That several STATE records are
taken in order of index is a DESIGN CHOICE (log entry 34): R178 gives that order for table records alone. -/
def State.applyKept (s : State) (kept : List KeptRecord) : Applied × Wishes :=
  let tables := (applicationOrder.flatMap fun k => recordsOf k kept).foldl applyRecord (s, 0)
  (recordsOf 9 kept).foldl takeStateRecord (tables, Wishes.nothing)

/-- The start-up event (R178, R179), once reading has ended. -/
def State.startUp (s : State) (p : Reading) : State :=
  let a := s.applyKept p.kept
  let s1 := a.1.1.restoreWishes a.2
  let s2 := (s1.setOutputs { s1.outputs with engineOk := true }).refreshOutputs
  let refused := p.kept.length - a.1.2
  (s2.notify (.imageComplete p.kept.length a.1.2 (p.discarded + refused) p.blank) false).setLoader .idle

/-! ### The save (R180) -/

/-- A record of the image from a table entry that is held. -/
def imageRecord (kind index : Nat) (contents : Option (List Byte)) : List (Byte × Byte × List Byte) :=
  match contents with
  | none => []
  | some r => [(BitVec.ofNat 8 kind, BitVec.ofNat 8 index, r)]

/-- A list that is not empty. -/
def nonEmpty {α : Type} (xs : List α) : Option (List α) := if xs.isEmpty then none else some xs

/-- The STATE record's contents (R175, R180). -/
def State.stateContents (s : State) : List Byte :=
  feeders.flatMap (fun f => b8 (s.mode f).code)
    ++ feeders.flatMap (fun f => bSet ((Feeder.slots f).map fun i => (s.slot i).sends))
    ++ entries.flatMap fun e => bOpt 1 (fun (k : BankSlot) => b8 k.val) (s.entry e).active

/-- The four slots of a bank. -/
def bankSlots : List BankSlot := [0, 1, 2, 3]

/-- The records of a save, fixed in the accepting event, in the order R180 lists them (that order in the memory: log entry 2; the
unused source places of LINK: log entry 32). -/
def State.imageRecords (s : State) : List (Byte × Byte × List Byte) :=
  (feeders.flatMap fun f => imageRecord 1 f.val ((s.feederEntry f).map encodeFeeder))
    ++ imageRecord 2 0 (s.busEntryOf.map encodeBus)
    ++ (allSlots.flatMap fun i => imageRecord 3 i.val ((s.slot i).loaded.map encodeOutstation))
    ++ (bankSlots.flatMap fun k => imageRecord 5 k.val ((s.curve k).map encodeCurve))
    ++ (bankSlots.flatMap fun k => imageRecord 4 k.val ((s.profile k).map encodeProfile))
    ++ (feeders.flatMap fun f => imageRecord 6 f.val ((nonEmpty (s.plan f)).map encodePlan))
    ++ imageRecord 7 0 ((nonEmpty s.hunt.busOrder).map encodeBusOrder)
    ++ imageRecord 8 0 (some (encodeLink s.link.table))
    ++ imageRecord 9 0 (some s.stateContents)

/-- Bytes with their addresses, from an address on. -/
def addressed (a : Nat) : List Byte → List (Nat × Byte)
  | [] => []
  | b :: rest => (a, b) :: addressed (a + 1) rest

/-- The byte writes of a save in order: the records from address 4 on, the header last (R180). -/
def saveWrites (records : List (Byte × Byte × List Byte)) : List (Nat × Byte) :=
  addressed 4 (records.flatMap fun x => recordBytes x.1 x.2.1 x.2.2) ++ addressed 0 (headerBytes records.length)

/-- A save that the memory has taken wholly, or up to a number of byte writes. -/
def State.writeSave (s : State) (job : SaveJob) (taken : Option Nat) : State :=
  let w := saveWrites job.records
  s.setSerial (SerialMemory.writeAll s.serial (match taken with | none => w | some n => w.take n))

/-- The save ends (R180): the writes the memory took, IDLE, and the deferred reply. -/
def State.endSave (s : State) (refusedAt : Option Nat) : State :=
  match s.loader with
  | .saving job =>
    ((s.writeSave job refusedAt).setLoader .idle).replyTo job.ticket (if refusedAt.isNone then .ok else .failed) []
  | .reading _ | .idle => s

/-! ### The resets (R173, R174) -/

/-- The reset input is asserted (R173): outputs deasserted, nothing sent, a transmission cut short, a save left unfinished after
a number of byte writes. -/
def State.assertReset (s : State) (written : Nat) : State :=
  let s1 := match s.loader with
    | .saving job => (s.writeSave job (some written)).setLoader (.reading Reading.start)
    | .reading _ | .idle => s
  ((s1.setLink { s1.link with tx := TxQueue.reset, wire := none }).setOutputs Outputs.reset).setHeld true

/-- Every block at its power-up values; the serial memory is not affected (R173, R174). -/
def State.powerUp (s : State) : State := { State.reset with serial := s.serial, pending := s.pending }

/-- A RESTART (R174): as power-up, keeping the trip records and the counters and seen flags of the error log. -/
def State.restarted (s : State) : State :=
  let t := s.powerUp
  (t.setTrips s.bank.trips).setLink { t.link with log := s.link.log }

end Sys2Proof.Machine
end

