-- ==== Sys2Proof/Machine/Requests.lean ====
section
/-! DEFINITION. The Management Responder (chapter 9): the request queue, the serving of one request, and what each request's
owner does within the serving event. -/

namespace Sys2Proof.Machine

/-! ### Events -/

/-- While the reset input is asserted the engine takes nothing (R173). -/
def State.unlessHeld (s : State) (t : State) : State := if s.held then s else t

/-- The end of an event that began in `s0`: the test of R111 for the slots it concerns, and the outputs of R183. -/
def State.finish (s0 s : State) : State := (State.sendChanged s0 s).refreshOutputs

/-- The end of an event that can make an entry quiet or the hunt context IDLE (R72, R130), then as above. -/
def State.conclude72 (s0 s : State) : State := State.finish s0 s.settle

/-! ### The queue (R159, R160) -/

/-- The oldest WAITING entry. -/
def State.oldestWaiting (s : State) : Option ReqEntry := s.mgmt.requests.find? fun e => e.state == .waiting

/-- The Image Loader is READING (R177). -/
def State.isReading (s : State) : Bool :=
  match s.loader with
  | .reading _ => true
  | .idle | .saving _ => false

/-- A save is in flight (R180). -/
def State.isSaving (s : State) : Bool :=
  match s.loader with
  | .saving _ => true
  | .idle | .reading _ => false

/-- A RESTART has been answered OK and its reply has not left (R166). -/
def State.restarting (s : State) : Bool :=
  s.mgmt.requests.any fun e => e.kind == 0x11#8 && e.state == .replying .ok

/-- Entries may be served (R160). -/
def State.serving (s : State) : Bool := !s.isReading && !s.restarting

/-- The source of a request is known (R151). -/
def State.managementKnown (s : State) (a : U16) : Bool :=
  !s.neverKnown a && (s.link.table.sources.isEmpty || s.link.table.sources.contains a)

/-- The entry a request makes as it arrives. -/
def State.newEntry (s : State) (req : RequestId) (kind : Byte) (params : List Byte) : ReqEntry :=
  ⟨s.mgmt.nextTicket, req, kind, params, .waiting⟩

/-- A MANAGEMENT_REQUEST frame that has passed steps 1 to 7 of R150 arrives (R151, R159). -/
def State.arrive (s : State) (req : RequestId) (kind : Byte) (params : List Byte) : State :=
  if !s.managementKnown req.source then s.occur .unknownSource
  else if s.mgmt.requests.length < Config.requestEntries then
    s.setMgmt { s.mgmt with requests := s.mgmt.requests ++ [s.newEntry req kind params]
                            nextTicket := s.mgmt.nextTicket + 1 }
  else s.occur .requestOverflow

/-! ### Serving (R160, R161) -/

/-- What an owner answers: the state, and the result with its payload, or none when the reply is deferred. -/
abbrev Served := State × Option (Result × List Byte)

/-- An answer without a payload. -/
def answer (x : State × Result) : Served := (x.1, some (x.2, []))

/-- A refusal that leaves every block as it was. -/
def State.refuse (s : State) (r : Result) : Served := (s, some (r, []))

/-- The reply of an entry, if it is answered at once (R160 step 4). -/
def State.giveReply (s : State) (ticket : Nat) (a : Option (Result × List Byte)) : State :=
  match a with
  | some (r, payload) => s.replyTo ticket r payload
  | none => s

/-- Serve one entry as one event that began in `s0`; `settles` says that the request can make an entry quiet or the hunt
context IDLE. -/
def State.serveEntry (s0 s : State) (ticket : Nat) (settles : Bool) (owner : Nat → State → Served) : State :=
  let r := owner ticket s
  let s1 := if settles then r.1.settle else r.1
  State.finish s0 (s1.giveReply ticket r.2)

/-- An entry holds this request. -/
def ReqEntry.isFor (e : ReqEntry) (req : RequestId) (kind : Byte) (params : List Byte) : Bool :=
  e.req == req && e.kind == kind && e.params == params

/-- Serve the oldest WAITING entry if it holds this request and serving is allowed. -/
def State.serveIfOldest (s0 s : State) (req : RequestId) (kind : Byte) (params : List Byte) (settles : Bool)
    (owner : Nat → State → Served) : State :=
  match s.oldestWaiting with
  | none => s
  | some e =>
    if s.serving && e.isFor req kind params then State.serveEntry s0 s e.ticket settles owner else s

/-- The command of a request (log entry 5): it is the serving of the oldest WAITING entry when that entry holds the request and
may be served; otherwise the request arrives, and is served at once if nothing older waits. -/
def State.requestEvent (s : State) (req : RequestId) (kind : Byte) (params : List Byte) (settles : Bool)
    (owner : Nat → State → Served) : State :=
  s.unlessHeld <|
    if s.serving && s.oldestWaiting.any fun e => e.isFor req kind params then
      State.serveIfOldest s s req kind params settles owner
    else if s.oldestWaiting.isSome then s.arrive req kind params
    else State.serveIfOldest s (s.arrive req kind params) req kind params settles owner

/-! ### Owners -/

/-- A feeder parameter, or INVALID (R163). -/
def withFeeder (s : State) (b : Byte) (g : Feeder → Served) : Served :=
  match indexOf 8 b with
  | none => s.refuse .invalid
  | some f => g f

/-- A slot parameter, or INVALID (R103, R164). -/
def withSlot (s : State) (b : Byte) (g : SlotId → Served) : Served :=
  match indexOf 64 b with
  | none => s.refuse .invalid
  | some i => g i

/-- LOAD_TABLE of a table kind code (R158, R162): BUSY during a save (R180, log entry 10). -/
def serveLoad (table : Nat) (index : Byte) (record : List Byte) (_ticket : Nat) (s : State) : Served :=
  if s.isSaving then s.refuse .busy else answer (s.applyLoad table index record)

/-- READ_TABLE (R162). -/
def serveRead (table index : Byte) (_ticket : Nat) (s : State) : Served :=
  match s.tableRecord table index with
  | none => s.refuse .invalid
  | some r => (s, some (.ok, r))

/-- SELECT_PROFILE (R68, R69): the payload names each entry and its outcome (R163); that no count stands before them is a DESIGN
CHOICE (log entry 31). -/
def serveSelect (slot : Byte) (entrySet : U16) (_ticket : Nat) (s : State) : Served :=
  let es := entrySetOf entrySet
  match s.selectCheck slot es with
  | .error r => s.refuse r
  | .ok k =>
    let r := State.selectAll k es s
    (r.1, some (.ok, r.2.flatMap fun x => b8 x.1.val ++ b8 x.2.code))

/-- A member that SET_BLOCK and CLEAR_BLOCK may name (R81). -/
def Reason.operator : Reason → Bool
  | .manual | .hotLine => true
  | .fire | .hunt | .streamLost | .sefLock => false

/-- SET_BLOCK (`add`) or CLEAR_BLOCK (R81, R163). -/
def serveBlock (add : Bool) (feeder member : Byte) (_ticket : Nat) (s : State) : Served :=
  withFeeder s feeder fun f =>
    match memberOf member with
    | none => s.refuse .invalid
    | some m =>
      if m.operator then answer (if add then s.addReason f m else s.removeReason f m, .ok) else s.refuse .notPermitted

/-- SET_MODE (R163, R181). -/
def serveMode (feeder mode : Byte) (_ticket : Nat) (s : State) : Served :=
  withFeeder s feeder fun f =>
    match modeOf mode with
    | none => s.refuse .invalid
    | some m => answer (s.setModeRequest f m)

/-- SET_SERVICE with on (R103). -/
def serveServiceOn (slot : Byte) (_ticket : Nat) (s : State) : Served := withSlot s slot fun i => answer (s.serviceOn i)

/-- SET_SERVICE with off (R105). -/
def serveServiceOff (slot : Byte) (_ticket : Nat) (s : State) : Served := withSlot s slot fun i => answer (s.serviceOff i)

/-- The number of DEFERRED entries. -/
def State.deferredCount (s : State) : Nat := (s.mgmt.requests.filter fun e => e.state == .deferred).length

/-- Checks 2 to 5 of OPERATE (R164, R182); none passes. -/
def State.operateRefusal (s : State) (i : SlotId) (kind : CmdKind) : Option Result :=
  if s.isOpenPoint i then some .notPermitted
  else if s.mode (SlotId.feeder i) == .test then some .notPermitted
  else match (if SlotId.position i = 0 then s.operateCheck (SlotId.feeder i) kind else none) with
    | some r => some r
    | none => if s.deferredCount ≥ Config.deferredLimit then some .busy else none

/-- The immediate result of a completion at admission (R164). -/
def admissionResult : Completion → Result
  | .unavailable => .state
  | .kind => .kind
  | .notPermitted => .notPermitted
  | .busy => .busy
  | .done _ _ => .ok
  | _ => .failed

/-- The command of an OPERATE. -/
def operateCmd (kind : CmdKind) (ticket : Nat) : Cmd := { kind := kind, origin := .management ticket }

/-- OPERATE (R164). -/
def serveOperate (kind : CmdKind) (slot : Byte) (ticket : Nat) (s : State) : Served :=
  withSlot s slot fun i =>
    match s.operateRefusal i kind with
    | some r => s.refuse r
    | none =>
      let c := operateCmd kind ticket
      let r := s.handCmd i c
      match ownCompletion c r.2 with
      | some k => (r.1, some (admissionResult k, []))
      | none => (r.1.markEntry ticket .deferred, none)

/-- RESET_LOCKOUT (R92). -/
def serveResetLockout (feeder : Byte) (_ticket : Nat) (s : State) : Served :=
  withFeeder s feeder fun f => answer (s.resetLockout f)

/-- START_HUNT (R131). -/
def serveStartHunt (entry : Byte) (_ticket : Nat) (s : State) : Served :=
  match indexOf 9 entry with
  | none => s.refuse .invalid
  | some e =>
    match s.startCheck e with
    | some r => s.refuse r
    | none => answer (s.startHunt e .manual, .ok)

/-- ABORT_HUNT (R143). -/
def serveAbortHunt (_ticket : Nat) (s : State) : Served := answer s.abortRequest

/-- ACK_SEF (R49). -/
def serveAckSef (feeder : Byte) (_ticket : Nat) (s : State) : Served :=
  withFeeder s feeder fun f => answer (s.ackSef f, .ok)

/-- READ_STATE for a feeder (R167). -/
def serveReadFeeder (feeder : Byte) (_ticket : Nat) (s : State) : Served :=
  withFeeder s feeder fun f => (s, some (.ok, s.feederSnapshot f))

/-- READ_STATE for the bus (R168). -/
def serveReadBus (ticket : Nat) (s : State) : Served := (s, some (.ok, s.busSnapshot ticket))

/-- READ_TRIPS (R58, R169). -/
def serveReadTrips (_ticket : Nat) (s : State) : Served := (s, some (.ok, bList encodeTrip s.bank.trips))

/-- CLEAR_COUNTERS (R19, R153). -/
def serveClear (_ticket : Nat) (s : State) : Served := answer (s.clearCounts, .ok)

/-- SAVE_IMAGE (R165, R180): the content is fixed in this event. -/
def serveSave (ticket : Nat) (s : State) : Served :=
  if s.deferredCount ≥ Config.deferredLimit || s.isSaving then s.refuse .busy
  else ((s.setLoader (.saving ⟨ticket, s.imageRecords⟩)).markEntry ticket .deferred, none)

/-- RESTART (R166): its effect comes when its reply has left. -/
def serveRestart (_ticket : Nat) (s : State) : Served := if s.isSaving then s.refuse .busy else (s, some (.ok, []))

/-- A request no other row serves: an unknown kind code is UNKNOWN; a LOAD_TABLE that names a table during a save is BUSY;
everything else is INVALID (R160, R162, R163, R180). -/
def serveUnknown (kind : Byte) (params : List Byte) (_ticket : Nat) (s : State) : Served :=
  if !within 0x01 0x11 kind.toNat then s.refuse .unknown
  else if kind == 0x01#8 && decide (2 ≤ params.length) && s.isSaving then s.refuse .busy
  else s.refuse .invalid

end Sys2Proof.Machine
end

