-- ==== Sys2Proof/Machine/Reception.lean ====
section
/-! DEFINITION. The Link Port's reception (R150, R151, R156) and the end of a transmission (R155, R166, R171). -/

namespace Sys2Proof.Machine

/-! ### Received frames -/

/-- The body of a frame's payload (8.5.2): the bytes its length field counts after the common header. -/
def bodyOf (p : List Byte) : List Byte := (p.drop 7).take (wordAt p 5)

/-- The body length is what the kind requires (R156). -/
def bodyLengthOk (kind n : Nat) : Bool :=
  match kind with
  | 1 => n == 11
  | 2 => n == 2
  | 3 => n == 4
  | 5 => decide (3 ≤ n)
  | _ => false

/-- The coded fields of the body hold defined codes (R156). -/
def bodyCodesOk (kind : Nat) (b : List Byte) : Bool :=
  match kind with
  | 2 => byteAt b 0 ≤ 2
  | 3 => within 1 3 (byteAt b 1)
  | _ => true

/-- A received kind (R150 step 5). -/
def receivedKind (k : Nat) : Bool := k == 1 || k == 2 || k == 3 || k == 5

/-- What becomes of a frame (R150). -/
inductive Verdict where
  | dropped (c : ErrorClass)
  | ignored
  | passed (kind : Nat) (source : U16) (body : List Byte)
  deriving DecidableEq, Repr

/-- Steps 1 to 7 of R150, the first that fails. The frame is 18 bytes longer than its payload. -/
def State.check150 (s : State) (x : RawFrame) : Verdict :=
  let p := x.payload
  if !x.checkOk || decide (p.length + 18 < 64) then .dropped .badCheck
  else if x.etherType ≠ Config.frameType then .ignored
  else if p.length < 7 then .dropped .badLength
  else if u16At p 0 ≠ s.link.table.address then .ignored
  else if !receivedKind (byteAt p 4) then .dropped .unknownKind
  else if wordAt p 5 > p.length - 7 || !bodyLengthOk (byteAt p 4) (wordAt p 5) then .dropped .badLength
  else if !bodyCodesOk (byteAt p 4) (bodyOf p) then .dropped .badLength
  else .passed (byteAt p 4) (u16At p 2) (bodyOf p)

/-- The SAMPLE frame of a body (8.5.2). -/
def sampleOf (source : U16) (b : List Byte) : SampleFrame :=
  ⟨source, u16At b 0, b.getD 2 0#8, u16At b 3, u16At b 5, u16At b 7, u16At b 9⟩

/-- A report's position code. -/
def positionOf (n : Nat) : ReportPosition := if n = 0 then .none else if n = 1 then .opened else .closed

/-- A response's answer code. -/
def answerOf (n : Nat) : AnswerKind := if n = 1 then .done else if n = 2 then .refused else .wait

/-- Dispatch a frame that has passed steps 1 to 7 (R151). -/
def State.dispatch (s : State) (kind : Nat) (source : U16) (b : List Byte) : State :=
  match kind with
  | 1 => s.takeSample (sampleOf source b)
  | 2 => s.takeReport source (positionOf (byteAt b 0)) (b.getD 1 0#8)
  | 3 => s.takeResponse source (b.getD 0 0#8) (answerOf (byteAt b 1)) (u16At b 2)
  | _ => s.arrive ⟨source, u16At b 0⟩ (b.getD 2 0#8) (b.drop 3)

/-- A frame as it stands on the wire (R150): dropped, ignored, counted, or dispatched. -/
def State.receive (s : State) (x : RawFrame) : State :=
  match s.check150 x with
  | .dropped c => s.occur c
  | .ignored => s
  | .passed kind source b => s.dispatch kind source b

/-! ### The end of a transmission -/

/-- The entry of a reply that has left the port leaves the queue (R159). -/
def State.dropEntry (s : State) (ticket : Nat) : State :=
  s.setMgmt { s.mgmt with requests := s.mgmt.requests.filter fun e => e.ticket != ticket }

/-- The entry of a ticket is a RESTART answered OK. -/
def State.isRestart (s : State) (ticket : Nat) : Bool :=
  s.mgmt.requests.any fun e => e.ticket == ticket && e.kind == 0x11#8 && e.state == .replying .ok

/-- The frame has left: the path is idle, and the Management Responder is told of a reply (R155, R159). -/
def State.frameLeft (s : State) (f : TxFrame) : State :=
  let s1 := s.setLink { s.link with wire := none }
  match f with
  | .reply ticket _ _ _ _ _ _ => s1.dropEntry ticket
  | .command _ _ _ _ _ _ | .notice _ _ _ _ => s1

/-- The transmission of a frame ends (R155): the restart its reply waited for (R166), or the arbiter's next frame and the test
of R171. -/
def State.endTransmission (s : State) : State :=
  match s.link.wire with
  | none => s
  | some f =>
    let restarts := match f with
      | .reply ticket _ _ _ _ _ _ => s.isRestart ticket
      | _ => false
    if restarts then s.restarted
    else
      let s1 := (s.frameLeft f).beginTx
      if f.isNotice then s1.feedNotice else s1

end Sys2Proof.Machine
end

