-- ==== Sys2Proof/Machine/Due.lean ====
section
/-! DEFINITION. What is due: the expiry of each timer as its rule states it (log entry 4), and the commands the engine's own
clock and queues call for when nothing else waits (log entry 3). -/

namespace Sys2Proof.Machine

/-- The silence timer of a stream has expired (R13). -/
def State.silenceDue (s : State) (e : EntryId) : Bool :=
  match (s.stream e).expiry with
  | none => false
  | some t => decide (t ≤ s.time)

/-- The bus delay timer has expired (R52); a held timer does not expire (R50). -/
def State.ndDue (s : State) : Bool :=
  match s.bank.nd.timer with
  | .running t => decide (t ≤ s.time)
  | .stopped | .held _ => false

/-- The shot whose dead timer has expired (R85). -/
def State.deadDue (s : State) (f : Feeder) : Option Nat :=
  match (s.recl f).state with
  | .deadTime n t => if t ≤ s.time then some n else none
  | _ => none

/-- The refresh timer of a follower has expired (R97). -/
def State.refreshDue (s : State) (i : SlotId) : Bool :=
  match (s.follower i).state, (s.follower i).refresh with
  | .blockPending, some t | .blocked, some t => decide (t ≤ s.time)
  | _, _ => false

/-- The in-flight command whose deadline is reached (R115). -/
def State.deadlineDue (s : State) (i : SlotId) : Option InFlight :=
  match (s.slot i).inFlight with
  | none => none
  | some fl => if fl.deadline ≤ s.time then some fl else none

/-- The settle expiry that is reached (R138). -/
def State.settleDue (s : State) : Option Nat :=
  match s.ctx.state, s.ctx.settle with
  | .settling, some t => if t ≤ s.time then some t else none
  | _, _ => none

/-- Reading of the image has ended and the start-up event follows (R177). -/
def State.readingEnded (s : State) : Option Reading :=
  match s.loader with
  | .reading p => if p.stage = .ended then some p else none
  | .idle | .saving _ => none

/-- A command, if it is due. -/
def dueIf (b : Bool) (c : Instr) : List Instr := if b then [c] else []

/-- The request to be served next, as its command (R160). -/
def State.nextServing (s : State) : List Instr :=
  match s.oldestWaiting with
  | none => []
  | some e => dueIf s.serving (requestCommand e.req e.kind e.params)

/-- Everything that is due now, in a fixed order (log entry 3). Reads and writes of the serial memory end when the memory says
so, and are not among them. -/
def State.due (s : State) : List Instr :=
  dueIf s.readingEnded.isSome .startUp ++ dueIf s.link.wire.isSome .transmissionEnd ++ s.nextServing
    ++ (entries.flatMap fun e => dueIf (s.silenceDue e) (.silenceExpiry e)) ++ dueIf s.ndDue .busDelayExpiry
    ++ (feeders.flatMap fun f => dueIf (s.deadDue f).isSome (.deadTimerExpiry f))
    ++ (feeders.flatMap fun f => dueIf (s.reclaimDue f) (.reclaimExpiry f))
    ++ (allSlots.flatMap fun i => dueIf (s.refreshDue i) (.refreshExpiry i))
    ++ (allSlots.flatMap fun i => dueIf (s.deadlineDue i).isSome (.timeout i))
    ++ (allSlots.flatMap fun i => dueIf ((s.slot i).canSend s.time) (.turnaroundGapEnd i))
    ++ dueIf s.settleDue.isSome .settleExpiry

/-- What a step does on an empty queue (log entry 3): nothing while held at reset; otherwise what is due joins the queue, and
where nothing is due one millisecond of engine time passes. -/
def State.idle (s : State) : State :=
  s.unlessHeld <|
    match s.due with
    | [] => s.setTime (s.time + 1)
    | c :: rest => s.setPending (c :: rest)

end Sys2Proof.Machine
end

