-- ==== Sys2Proof/Machine/FrameCommands.lean ====
section
/-! DEFINITION. Frames that arrive, and the end of a transmission (chapters 1, 6, 8). -/

namespace Sys2Proof.Machine

/-- SAMPLE: a frame that has passed reception is classified and taken (R5 to R12). -/
def execSample (frame : SampleFrame) (s : State) : Host.Outcome State Fault Refusal :=
  .next (s.unlessHeld (State.conclude72 s (s.takeSample frame)))

/-- STATUS_REPORT: flags, passage report and filtered position (R117, R119 to R121). -/
def execStatusReport (source : U16) (position : ReportPosition) (flags : Byte) (s : State) : Host.Outcome State Fault Refusal :=
  .next (s.unlessHeld (State.conclude72 s (s.takeReport source position flags)))

/-- RESPONSE: a matching answer completes or extends the in-flight command (R112 to R117). -/
def execResponse (source : U16) (tag : Byte) (answer : AnswerKind) (value : U16) (s : State) : Host.Outcome State Fault Refusal :=
  .next (s.unlessHeld (State.conclude72 s (s.takeResponse source tag answer value)))

/-- MANAGEMENT_REQUEST: the request joins the queue, or is discarded (R151, R159). -/
def execManagementRequest (req : RequestId) (kind : Byte) (params : List Byte) (s : State) : Host.Outcome State Fault Refusal :=
  .next (s.unlessHeld (s.arrive req kind params))

/-- FRAME_REJECTED: the checks of R150 on a frame as it stands on the wire. -/
def execFrameRejected (frame : RawFrame) (s : State) : Host.Outcome State Fault Refusal :=
  .next (s.unlessHeld (State.conclude72 s (s.receive frame)))

/-- TRANSMISSION_END: the arbiter's next frame, the reply's entry, the next notice, a RESTART (R155, R166, R171, R174). -/
def execTransmissionEnd (s : State) : Host.Outcome State Fault Refusal :=
  .next (s.unlessHeld s.endTransmission)

end Sys2Proof.Machine
end

