-- ==== Sys2Proof/Machine/LoaderCommands.lean ====
section
/-! DEFINITION. The resets and the Image Loader's events (chapter 10). -/

namespace Sys2Proof.Machine

/-- POWER_UP_RESET: the reset input is asserted and the engine is held at reset (R173, R154, R180). -/
def execPowerUpReset (written : Nat) (s : State) : Host.Outcome State Fault Refusal :=
  .next (s.assertReset written)

/-- RESET_RELEASE: every block at its power-up values, reading of the image begins (R173). -/
def execResetRelease (s : State) : Host.Outcome State Fault Refusal :=
  .next (if s.held then s.powerUp else s)

/-- IMAGE_RECORD_READ: the header or a record of the image is read and judged (R177). -/
def execImageRecordRead (accepted : Bool) (s : State) : Host.Outcome State Fault Refusal :=
  .next (s.unlessHeld (s.readImage accepted))

/-- START_UP: the kept records, the wishes, engine-ok, the COMPLETE notice (R178, R179). -/
def execStartUp (s : State) : Host.Outcome State Fault Refusal :=
  .next (s.unlessHeld (match s.readingEnded with
    | none => s
    | some p => State.finish s (s.startUp p)))

/-- SAVE_END: the save in flight ends, and its deferred reply is handed (R165, R180). -/
def execSaveEnd (refusedAt : Option Nat) (s : State) : Host.Outcome State Fault Refusal :=
  .next (s.unlessHeld (s.endSave refusedAt))

end Sys2Proof.Machine
end

