-- ==== Sys2Proof/Machine/RequestCommands.lean ====
section
/-! DEFINITION. The requests answered at once, OPERATE, SAVE_IMAGE and RESTART (9.2.2 to 9.2.4). -/

namespace Sys2Proof.Machine

/-- SELECT_PROFILE (R68, R69). -/
def execSelectProfile (req : RequestId) (slot : Byte) (entrySet : U16) (s : State) : Host.Outcome State Fault Refusal :=
  .next (s.requestEvent req 0x03#8 (slot :: bWord entrySet) true (serveSelect slot entrySet))

/-- SET_BLOCK (R81). -/
def execSetBlock (req : RequestId) (feeder : Byte) (member : Byte) (s : State) : Host.Outcome State Fault Refusal :=
  .next (s.requestEvent req 0x04#8 [feeder, member] true (serveBlock true feeder member))

/-- CLEAR_BLOCK (R81). -/
def execClearBlock (req : RequestId) (feeder : Byte) (member : Byte) (s : State) : Host.Outcome State Fault Refusal :=
  .next (s.requestEvent req 0x05#8 [feeder, member] false (serveBlock false feeder member))

/-- SET_MODE (R181). -/
def execSetMode (req : RequestId) (feeder : Byte) (mode : Byte) (s : State) : Host.Outcome State Fault Refusal :=
  .next (s.requestEvent req 0x06#8 [feeder, mode] true (serveMode feeder mode))

/-- SET_SERVICE with on (R103). -/
def execSetServiceOn (req : RequestId) (slot : Byte) (s : State) : Host.Outcome State Fault Refusal :=
  .next (s.requestEvent req 0x07#8 [slot, 0x01#8] false (serveServiceOn slot))

/-- SET_SERVICE with off (R105). -/
def execSetServiceOff (req : RequestId) (slot : Byte) (s : State) : Host.Outcome State Fault Refusal :=
  .next (s.requestEvent req 0x07#8 [slot, 0x00#8] true (serveServiceOff slot))

/-- OPERATE open (R164). -/
def execOperateOpen (req : RequestId) (slot : Byte) (s : State) : Host.Outcome State Fault Refusal :=
  .next (s.requestEvent req 0x08#8 [slot, 0x01#8] false (serveOperate .opn slot))

/-- OPERATE close (R164). -/
def execOperateClose (req : RequestId) (slot : Byte) (s : State) : Host.Outcome State Fault Refusal :=
  .next (s.requestEvent req 0x08#8 [slot, 0x02#8] false (serveOperate .close slot))

/-- RESET_LOCKOUT (R92). -/
def execResetLockout (req : RequestId) (feeder : Byte) (s : State) : Host.Outcome State Fault Refusal :=
  .next (s.requestEvent req 0x09#8 [feeder] true (serveResetLockout feeder))

/-- START_HUNT (R131, R134). -/
def execStartHunt (req : RequestId) (entry : Byte) (s : State) : Host.Outcome State Fault Refusal :=
  .next (s.requestEvent req 0x0A#8 [entry] true (serveStartHunt entry))

/-- ABORT_HUNT (R143). -/
def execAbortHunt (req : RequestId) (s : State) : Host.Outcome State Fault Refusal :=
  .next (s.requestEvent req 0x0B#8 [] true serveAbortHunt)

/-- ACK_SEF (R49). -/
def execAckSef (req : RequestId) (feeder : Byte) (s : State) : Host.Outcome State Fault Refusal :=
  .next (s.requestEvent req 0x0C#8 [feeder] false (serveAckSef feeder))

/-- READ_STATE for a feeder (R167). -/
def execReadStateFeeder (req : RequestId) (feeder : Byte) (s : State) : Host.Outcome State Fault Refusal :=
  .next (s.requestEvent req 0x0D#8 [feeder] false (serveReadFeeder feeder))

/-- READ_STATE for the bus entry (R168). -/
def execReadStateBus (req : RequestId) (s : State) : Host.Outcome State Fault Refusal :=
  .next (s.requestEvent req 0x0D#8 [0x08#8] false serveReadBus)

/-- READ_TRIPS (R58, R169). -/
def execReadTrips (req : RequestId) (s : State) : Host.Outcome State Fault Refusal :=
  .next (s.requestEvent req 0x0E#8 [] false serveReadTrips)

/-- CLEAR_COUNTERS (R19, R153). -/
def execClearCounters (req : RequestId) (s : State) : Host.Outcome State Fault Refusal :=
  .next (s.requestEvent req 0x0F#8 [] false serveClear)

/-- SAVE_IMAGE (R165, R180). -/
def execSaveImage (req : RequestId) (s : State) : Host.Outcome State Fault Refusal :=
  .next (s.requestEvent req 0x10#8 [] false serveSave)

/-- RESTART (R166). -/
def execRestart (req : RequestId) (s : State) : Host.Outcome State Fault Refusal :=
  .next (s.requestEvent req 0x11#8 [] false serveRestart)

/-- A request no other row serves (R160, R162, R163). -/
def execUnknownRequest (req : RequestId) (kind : Byte) (params : List Byte) (s : State) : Host.Outcome State Fault Refusal :=
  .next (s.requestEvent req kind params false (serveUnknown kind params))

end Sys2Proof.Machine
end

