-- ==== Sys2Proof/Machine/TableCommands.lean ====
section
/-! DEFINITION. The table requests (9.2.1). -/

namespace Sys2Proof.Machine

/-- LOAD_TABLE of kind FEEDER (R3, R4, R158). -/
def execLoadFeeder (req : RequestId) (index : Byte) (record : List Byte) (s : State) : Host.Outcome State Fault Refusal :=
  .next (s.requestEvent req 0x01#8 (0x01#8 :: index :: record) false (serveLoad 1 index record))

/-- LOAD_TABLE of kind BUS (R3, R4, R31, R158). -/
def execLoadBus (req : RequestId) (index : Byte) (record : List Byte) (s : State) : Host.Outcome State Fault Refusal :=
  .next (s.requestEvent req 0x01#8 (0x02#8 :: index :: record) true (serveLoad 2 index record))

/-- LOAD_TABLE of kind OUTSTATION (R101, R102, R158). -/
def execLoadOutstation (req : RequestId) (index : Byte) (record : List Byte) (s : State) : Host.Outcome State Fault Refusal :=
  .next (s.requestEvent req 0x01#8 (0x03#8 :: index :: record) false (serveLoad 3 index record))

/-- LOAD_TABLE of kind PROFILE (R64, R65, R158). -/
def execLoadProfile (req : RequestId) (index : Byte) (record : List Byte) (s : State) : Host.Outcome State Fault Refusal :=
  .next (s.requestEvent req 0x01#8 (0x04#8 :: index :: record) false (serveLoad 4 index record))

/-- LOAD_TABLE of kind CURVE (R38, R158). -/
def execLoadCurve (req : RequestId) (index : Byte) (record : List Byte) (s : State) : Host.Outcome State Fault Refusal :=
  .next (s.requestEvent req 0x01#8 (0x05#8 :: index :: record) false (serveLoad 5 index record))

/-- LOAD_TABLE of kind HUNT_PLAN (R132, R158). -/
def execLoadHuntPlan (req : RequestId) (index : Byte) (record : List Byte) (s : State) : Host.Outcome State Fault Refusal :=
  .next (s.requestEvent req 0x01#8 (0x06#8 :: index :: record) false (serveLoad 6 index record))

/-- LOAD_TABLE of kind BUS_ORDER (R133, R158). -/
def execLoadBusOrder (req : RequestId) (index : Byte) (record : List Byte) (s : State) : Host.Outcome State Fault Refusal :=
  .next (s.requestEvent req 0x01#8 (0x07#8 :: index :: record) false (serveLoad 7 index record))

/-- LOAD_TABLE of kind LINK (R149, R158). -/
def execLoadLink (req : RequestId) (index : Byte) (record : List Byte) (s : State) : Host.Outcome State Fault Refusal :=
  .next (s.requestEvent req 0x01#8 (0x08#8 :: index :: record) false (serveLoad 8 index record))

/-- READ_TABLE: the record as it stands (R162). -/
def execReadTable (req : RequestId) (table : Byte) (index : Byte) (s : State) : Host.Outcome State Fault Refusal :=
  .next (s.requestEvent req 0x02#8 [table, index] false (serveRead table index))

end Sys2Proof.Machine
end

