-- ==== Sys2Proof/Machine/TimerCommands.lean ====
section
/-! DEFINITION. Timers that reach their expiry. A command whose timer has not expired is no event (log entry 4). -/

namespace Sys2Proof.Machine

/-- SILENCE_EXPIRY: the stream is lost (R14 to R16). -/
def execSilenceExpiry (stream : EntryId) (s : State) : Host.Outcome State Fault Refusal :=
  .next (s.unlessHeld (if s.silenceDue stream then State.conclude72 s (s.loseStream stream) else s))

/-- BUS_DELAY_EXPIRY: the neutral displacement detector operates (R52). -/
def execBusDelayExpiry (s : State) : Host.Outcome State Fault Refusal :=
  .next (s.unlessHeld (if s.ndDue then State.conclude72 s s.ndExpired else s))

/-- HIGH_SET_DELAY_EXPIRY: the sample set on which the high-set count reaches 8 × the delay (R44, log entry 7). -/
def execHighSetDelayExpiry (frame : SampleFrame) (s : State) : Host.Outcome State Fault Refusal :=
  .next (s.unlessHeld (State.conclude72 s (s.takeSample frame)))

/-- SEF_DELAY_EXPIRY: the sample set on which the SEF count reaches 160 × the delay (R47, log entry 7). -/
def execSefDelayExpiry (frame : SampleFrame) (s : State) : Host.Outcome State Fault Refusal :=
  .next (s.unlessHeld (State.conclude72 s (s.takeSample frame)))

/-- DEAD_TIMER_EXPIRY: CLOSING, and the CLOSE of the shot (R85). -/
def execDeadTimerExpiry (feeder : Feeder) (s : State) : Host.Outcome State Fault Refusal :=
  .next (s.unlessHeld (match s.deadDue feeder with
    | none => s
    | some n => State.conclude72 s (s.deadExpired feeder n)))

/-- RECLAIM_EXPIRY: READY (R87). -/
def execReclaimExpiry (feeder : Feeder) (s : State) : Host.Outcome State Fault Refusal :=
  .next (s.unlessHeld (if s.reclaimDue feeder then State.conclude72 s (s.reclaimExpired feeder) else s))

/-- REFRESH_EXPIRY: the timer stops and a BLOCK is handed (R97). -/
def execRefreshExpiry (slot : SlotId) (s : State) : Host.Outcome State Fault Refusal :=
  .next (s.unlessHeld (if s.refreshDue slot then State.finish s (s.refreshExpired slot) else s))

/-- TIMEOUT: the deadline of the in-flight command is reached (R115). -/
def execTimeout (slot : SlotId) (s : State) : Host.Outcome State Fault Refusal :=
  .next (s.unlessHeld (match s.deadlineDue slot with
    | none => s
    | some fl => State.conclude72 s (s.timedOut slot fl)))

/-- TURNAROUND_GAP_END: the head of the queue is sent if the conditions hold (R111). -/
def execTurnaroundGapEnd (slot : SlotId) (s : State) : Host.Outcome State Fault Refusal :=
  .next (s.unlessHeld (s.trySend slot))

/-- SETTLE_EXPIRY: the step is decided (R138). -/
def execSettleExpiry (s : State) : Host.Outcome State Fault Refusal :=
  .next (s.unlessHeld (match s.settleDue with
    | none => s
    | some t => State.conclude72 s (s.settleExpired t)))

end Sys2Proof.Machine
end

