-- ==== Sys2Proof/Machine/Dispatch.lean ====
section
/-! DEFINITION. One arm for each command: the direct call of its meaning. -/

namespace Sys2Proof.Machine

def exec (i : Instr) (s : State) : Host.Outcome State Fault Refusal :=
  match i with
  | .powerUpReset written => Sys2Proof.Machine.execPowerUpReset written s
  | .resetRelease => Sys2Proof.Machine.execResetRelease s
  | .imageRecordRead accepted => Sys2Proof.Machine.execImageRecordRead accepted s
  | .startUp => Sys2Proof.Machine.execStartUp s
  | .sample frame => Sys2Proof.Machine.execSample frame s
  | .statusReport source position flags => Sys2Proof.Machine.execStatusReport source position flags s
  | .response source tag answer value => Sys2Proof.Machine.execResponse source tag answer value s
  | .managementRequest req kind params => Sys2Proof.Machine.execManagementRequest req kind params s
  | .frameRejected frame => Sys2Proof.Machine.execFrameRejected frame s
  | .transmissionEnd => Sys2Proof.Machine.execTransmissionEnd s
  | .silenceExpiry stream => Sys2Proof.Machine.execSilenceExpiry stream s
  | .busDelayExpiry => Sys2Proof.Machine.execBusDelayExpiry s
  | .highSetDelayExpiry frame => Sys2Proof.Machine.execHighSetDelayExpiry frame s
  | .sefDelayExpiry frame => Sys2Proof.Machine.execSefDelayExpiry frame s
  | .deadTimerExpiry feeder => Sys2Proof.Machine.execDeadTimerExpiry feeder s
  | .reclaimExpiry feeder => Sys2Proof.Machine.execReclaimExpiry feeder s
  | .refreshExpiry slot => Sys2Proof.Machine.execRefreshExpiry slot s
  | .timeout slot => Sys2Proof.Machine.execTimeout slot s
  | .turnaroundGapEnd slot => Sys2Proof.Machine.execTurnaroundGapEnd slot s
  | .settleExpiry => Sys2Proof.Machine.execSettleExpiry s
  | .saveEnd refusedAt => Sys2Proof.Machine.execSaveEnd refusedAt s
  | .loadFeeder req index record => Sys2Proof.Machine.execLoadFeeder req index record s
  | .loadBus req index record => Sys2Proof.Machine.execLoadBus req index record s
  | .loadOutstation req index record => Sys2Proof.Machine.execLoadOutstation req index record s
  | .loadProfile req index record => Sys2Proof.Machine.execLoadProfile req index record s
  | .loadCurve req index record => Sys2Proof.Machine.execLoadCurve req index record s
  | .loadHuntPlan req index record => Sys2Proof.Machine.execLoadHuntPlan req index record s
  | .loadBusOrder req index record => Sys2Proof.Machine.execLoadBusOrder req index record s
  | .loadLink req index record => Sys2Proof.Machine.execLoadLink req index record s
  | .readTable req table index => Sys2Proof.Machine.execReadTable req table index s
  | .selectProfile req slot entrySet => Sys2Proof.Machine.execSelectProfile req slot entrySet s
  | .setBlock req feeder member => Sys2Proof.Machine.execSetBlock req feeder member s
  | .clearBlock req feeder member => Sys2Proof.Machine.execClearBlock req feeder member s
  | .setMode req feeder mode => Sys2Proof.Machine.execSetMode req feeder mode s
  | .setServiceOn req slot => Sys2Proof.Machine.execSetServiceOn req slot s
  | .setServiceOff req slot => Sys2Proof.Machine.execSetServiceOff req slot s
  | .operateOpen req slot => Sys2Proof.Machine.execOperateOpen req slot s
  | .operateClose req slot => Sys2Proof.Machine.execOperateClose req slot s
  | .resetLockout req feeder => Sys2Proof.Machine.execResetLockout req feeder s
  | .startHunt req entry => Sys2Proof.Machine.execStartHunt req entry s
  | .abortHunt req => Sys2Proof.Machine.execAbortHunt req s
  | .ackSef req feeder => Sys2Proof.Machine.execAckSef req feeder s
  | .readStateFeeder req feeder => Sys2Proof.Machine.execReadStateFeeder req feeder s
  | .readStateBus req => Sys2Proof.Machine.execReadStateBus req s
  | .readTrips req => Sys2Proof.Machine.execReadTrips req s
  | .clearCounters req => Sys2Proof.Machine.execClearCounters req s
  | .saveImage req => Sys2Proof.Machine.execSaveImage req s
  | .restart req => Sys2Proof.Machine.execRestart req s
  | .unknownRequest req kind params => Sys2Proof.Machine.execUnknownRequest req kind params s

end Sys2Proof.Machine
end

