-- ==== Sys2Proof/Safety.lean ====
section
/-! DEFINITION. What a sound state of the engine is, in the terms the claims use: one predicate for each promise that the rules
make about every moment, and what one event of the engine leaves alone. -/

namespace Sys2Proof.Machine

/-! ### What the working of an event leaves alone -/

/-- An outstation record without its command queue, its in-flight command and its tag counter: what admission and sending do
not change. -/
def Outstation.still (o : Outstation) : Outstation := { o with queue := [], inFlight := none, tagCounter := 0#8 }

/-- A request queue entry without its state. -/
def ReqEntry.request (e : ReqEntry) : ReqEntry := { e with state := .waiting }

/-- The operator's members and STREAM_LOST of a block reason set. -/
def Reasons.outside (r : Reasons) : Bool × Bool × Bool := (r.manual, r.hotLine, r.streamLost)

/-- The parts of the state that decisions, takeovers, hunts, admissions and sendings leave alone: what only loads, arrivals,
answers, resets and requests of their own change. -/
structure Fixed where
  intake   : StreamIntake
  meas     : Vector (Option FeederMeasurement) 8
  busMeas  : Option BusMeasurement
  plants   : Vector (Option FeederPlant) 8
  busPlant : Option BusPlant
  nd       : NdDetector
  slots    : Vector (Option Profile) 4
  curves   : Vector (Option (List Nat)) 4
  still    : Vector Outstation 64
  outside  : Vector (Bool × Bool × Bool) 8
  plans    : Vector (List PlanStep) 8
  busOrder : List Feeder
  table    : LinkTable
  log      : Vector ClassLog 8
  requests : List ReqEntry
  tickets  : Nat
  loader   : LoaderState
  modes    : Vector Mode 8
  time     : Nat
  held     : Bool
  engineOk : Bool
  serial   : SerialMemory
  pending  : List Instr
  deriving DecidableEq, Repr

/-- Those parts of a state. -/
def State.fixed (s : State) : Fixed where
  intake := s.intake
  meas := s.phasor.feeders
  busMeas := s.phasor.bus
  plants := s.bank.plants
  busPlant := s.bank.bus
  nd := s.bank.nd
  slots := s.profiles.slots
  curves := s.profiles.curves
  still := s.exchange.slots.map Outstation.still
  outside := s.reclose.records.map fun r => r.reasons.outside
  plans := s.hunt.plans
  busOrder := s.hunt.busOrder
  table := s.link.table
  log := s.link.log
  requests := s.mgmt.requests.map ReqEntry.request
  tickets := s.mgmt.nextTicket
  loader := s.loader
  modes := s.modes
  time := s.time
  held := s.held
  engineOk := s.outputs.engineOk
  serial := s.serial
  pending := s.pending

/-! ### Stream records (R1, 1.1.2) -/

/-- Each set's sequence number follows the one before it, modulo 65,536. -/
def consecutive : List SampleSet → Prop
  | a :: b :: rest => b.seq = a.seq + 1#16 ∧ consecutive (b :: rest)
  | _ => True

/-- A stream record is as R1 and the table of 1.1.2 say. -/
structure StreamRecord.Ok (r : StreamRecord) : Prop where
  /-- The last sequence is that of the newest set, absent while the window is empty. -/
  last : r.lastSeq = r.window.getLast?.map SampleSet.seq
  /-- The timer runs exactly while the window is not empty. -/
  timer : r.expiry.isSome = !r.window.isEmpty
  /-- The sets follow one another, so no two carry the same sequence number. -/
  sets : consecutive r.window
  /-- 32 sets while LIVE, fewer while FILLING, none while LOST or UNCONFIGURED. -/
  size : match r.state with
    | .live => r.window.length = 32
    | .filling => r.window.length < 32
    | .lost | .unconfigured => r.window = []
  /-- Source address and multiplier are held exactly while the stream is configured. -/
  source : r.source.isSome = (r.state != .unconfigured)
  silence : match r.silence with
    | none => r.state = .unconfigured
    | some m => r.state ≠ .unconfigured ∧ 1 ≤ m ∧ m ≤ 8
  /-- The counts saturate. -/
  counts : r.heldCount ≤ 65535 ∧ r.staleCount ≤ 65535

/-- Every stream record is sound. -/
def State.StreamsOk (s : State) : Prop := ∀ e, (s.stream e).Ok

/-! ### Element records (3.1.1, R40, R43) -/

/-- Accumulators lie within 0 to 16,777,216, and a history holds at most 3 results. -/
structure ElementRecord.Ok (r : ElementRecord) : Prop where
  phase : r.phAcc.a ≤ 16777216 ∧ r.phAcc.b ≤ 16777216 ∧ r.phAcc.c ≤ 16777216
  earth : r.efAcc ≤ 16777216
  histories : r.histories.a.length ≤ 3 ∧ r.histories.b.length ≤ 3 ∧ r.histories.c.length ≤ 3

/-- Every element record is sound. -/
def State.ElementsOk (s : State) : Prop := ∀ f, (s.element f).Ok

/-- The trip record store holds at most 16 records (R57). -/
def State.TripsOk (s : State) : Prop := s.bank.trips.length ≤ 16

/-! ### The map (R67) -/

/-- An active slot is LOADED, and a pending slot is LOADED with a strictly lower fire level than the active one. -/
def State.EntryOk (s : State) (m : MapEntry) : Prop :=
  (∀ a, m.active = some a → (s.profile a).isSome) ∧
    ∀ k, m.pend = some k → ∃ a p q, m.active = some a ∧ s.profile a = some p ∧ s.profile k = some q ∧ q.fireLevel < p.fireLevel

/-- Every map entry is as R67 says. -/
def State.MapOk (s : State) : Prop := ∀ e, s.EntryOk (s.entry e)

/-! ### Reclosing (R88, R93, R127) -/

/-- A feeder's reclose state is OFF exactly while its mode is OUT_OF_SERVICE (R93). -/
def State.OffOk (s : State) : Prop := ∀ f, (s.recl f).state = .off ↔ s.mode f = .outOfService

/-- DEAD_TIME holds only while the set is empty and the shot is within the active profile's count (R88). -/
def State.DeadTimeOk (s : State) : Prop :=
  ∀ f n t, (s.recl f).state = .deadTime n t →
    (s.recl f).reasons.isEmpty = true ∧ ∃ p, s.feederProfile f = some p ∧ n ≤ p.shots

/-- HUNT is a member exactly while the hunt context is not IDLE and involves the feeder (R127). -/
def State.HuntReasonOk (s : State) : Prop := ∀ f, (s.recl f).reasons.hunt = s.involves f

/-- The pending hunt list holds no source twice (R129). -/
def State.HuntListOk (s : State) : Prop := s.hunt.pendingList.Nodup

/-! ### Outstation slots (R110, 6.2.1) -/

/-- How many queued commands have a property. -/
def Outstation.queuedCount (o : Outstation) (p : CmdKind → Bool) : Nat := (o.queue.filter fun c => p c.kind).length

/-- A slot's queue is as R110 and the table of 6.2.1 say. -/
structure Outstation.Ok (o : Outstation) : Prop where
  /-- No two queued commands of one group. -/
  groups : o.queuedCount (· == .trip) ≤ 1 ∧ o.queuedCount CmdKind.isSwitch ≤ 1 ∧ o.queuedCount CmdKind.isBlocking ≤ 1
  /-- A TRIP stands at the front. -/
  front : ∀ c ∈ o.queue.drop 1, c.kind ≠ .trip
  /-- What the slot's state lets the queue hold, and whether a command may be in flight. -/
  state : match o.state with
    | .empty | .outOfService => o.queue = [] ∧ o.inFlight = none
    | .enrolling => (∀ c ∈ o.queue, c.kind = .enrol) ∧ o.queue.length + o.inFlight.toList.length ≤ 1
        ∧ ∀ f ∈ o.inFlight, f.cmd.kind = .enrol
    | .inService => ∀ c ∈ o.queue, c.kind ≠ .enrol
    | .unreachable => ∀ c ∈ o.queue, c.kind.isBlocking = true
  /-- The loaded fields are held exactly while the slot is not EMPTY. -/
  loaded : o.loaded.isSome = (o.state != .empty)

/-- Every outstation slot is sound. -/
def State.SlotsOk (s : State) : Prop := ∀ i, (s.slot i).Ok

/-! ### The port and the queues (R154, R155, R159, R170) -/

/-- Every list of the transmit queue is empty. -/
def TxQueue.isEmpty (q : TxQueue) : Bool :=
  q.c1.isEmpty && q.c2.isEmpty && q.c3.isEmpty && q.c4.isEmpty && q.c5.isEmpty

/-- The transmit class of a frame (R154). -/
def TxFrame.cls : TxFrame → Nat
  | .command _ _ .trip _ _ _ => 1
  | .command _ _ .opn _ _ _ | .command _ _ .close _ _ _ => 2
  | .reply _ _ _ _ _ _ _ => 3
  | .command _ _ .block _ _ _ | .command _ _ .release _ _ _ | .command _ _ .enrol _ _ _ => 4
  | .notice _ _ _ _ => 5

/-- Every waiting frame stands in its class (R154). -/
def TxQueue.Classed (q : TxQueue) : Prop :=
  (∀ f ∈ q.c1, f.cls = 1) ∧ (∀ f ∈ q.c2, f.cls = 2) ∧ (∀ f ∈ q.c3, f.cls = 3) ∧ (∀ f ∈ q.c4, f.cls = 4)
    ∧ ∀ f ∈ q.c5, f.cls = 5

/-- The Link Port is sound: every waiting frame stands in its class (R154), the transmit path is idle only while no frame waits
(R155), and class 5 holds at most one frame, the one on the wire counted (R154). -/
structure LinkPort.Ok (l : LinkPort) : Prop where
  classed : l.tx.Classed
  idle : l.wire = none → l.tx.isEmpty = true
  notices : l.tx.c5.length + (if l.wire.any TxFrame.isNotice then 1 else 0) ≤ 1

/-- The Link Port is sound. -/
def State.PortOk (s : State) : Prop := s.link.Ok

/-- The request queue holds at most 8 entries and the notice queue at most 32 notices (R159, R170). -/
def State.QueuesOk (s : State) : Prop := s.mgmt.requests.length ≤ 8 ∧ s.mgmt.notices.length ≤ 32

/-- The serial memory is in its canonical form. -/
def State.SerialOk (s : State) : Prop := SerialMemory.wf s.serial = true

/-- While the reset input is asserted every output is deasserted (R173); otherwise each feeder-healthy output is as R183 says. -/
def State.OutputsOk (s : State) : Prop :=
  if s.held then s.outputs = Outputs.reset else ∀ f, look s.outputs.healthy f = s.healthy f

/-! ### All of it -/

/-- A sound state. -/
structure State.Safe (s : State) : Prop where
  streams : s.StreamsOk
  elements : s.ElementsOk
  trips : s.TripsOk
  map : s.MapOk
  off : s.OffOk
  deadTime : s.DeadTimeOk
  huntReason : s.HuntReasonOk
  huntList : s.HuntListOk
  slots : s.SlotsOk
  port : s.PortOk
  queues : s.QueuesOk
  serial : s.SerialOk
  outputs : s.OutputsOk

/-! ### Conditions under which commands complete -/

/-- Nothing waits for the end of an event: the reset input is released, no map entry has a pending slot, and the pending hunt
list is empty. -/
structure State.Still (s : State) : Prop where
  released : s.held = false
  noPending : ∀ e, (s.entry e).pend = none
  noTrigger : s.hunt.pendingList = []

/-- Nothing waits, and no hunt is in progress. -/
structure State.Calm (s : State) : Prop extends s.Still where
  noHunt : s.ctx.state = .idle

/-- A request is served as it arrives and answered: the reset input is released, the Image Loader is IDLE, the request queue is
empty, and the source of the request is known (R151, R160). -/
structure State.Ready (s : State) (req : RequestId) : Prop where
  released : s.held = false
  idle : s.loader = .idle
  noRequest : s.mgmt.requests = []
  known : s.managementKnown req.source = true

/-! ### What an event leaves at the port -/

/-- A frame is at the port: on the wire, or waiting in a class. -/
def LinkPort.Holds (l : LinkPort) (f : TxFrame) : Prop :=
  l.wire = some f ∨ f ∈ l.tx.c1 ∨ f ∈ l.tx.c2 ∨ f ∈ l.tx.c3 ∨ f ∈ l.tx.c4 ∨ f ∈ l.tx.c5

/-- A request that found no other has been served: it is the only entry, in a state, and its ticket is used. -/
structure State.Served (s t : State) (req : RequestId) (kind : Byte) (params : List Byte) (st : EntryState) : Prop where
  entry : t.mgmt.requests = [⟨s.mgmt.nextTicket, req, kind, params, st⟩]
  ticket : t.mgmt.nextTicket = s.mgmt.nextTicket + 1

/-- A request that found no other has been answered: its entry is REPLYING, and its reply is at the port (R161). -/
structure State.Answered (s t : State) (req : RequestId) (kind : Byte) (params : List Byte) (r : Result)
    (payload : List Byte) : Prop where
  served : s.Served t req kind params (.replying r)
  reply : t.link.Holds (.reply s.mgmt.nextTicket req.source t.link.table.address req.tag kind r payload)

/-- An event that changes neither the link table nor the error log nor engine-ok, and takes no frame from the port. -/
structure State.PortKept (s t : State) : Prop where
  table : t.link.table = s.link.table
  log : t.link.log = s.link.log
  frames : ∀ f, s.link.Holds f → t.link.Holds f
  engineOk : t.outputs.engineOk = s.outputs.engineOk

/-- An event that hands on no notice. -/
def State.NoNotice (s t : State) : Prop := t.mgmt.notices = s.mgmt.notices ∧ t.mgmt.overflow = s.mgmt.overflow

/-- The state but for the port, the requests, the notices and the outputs: what an answer that changes nothing leaves. -/
def State.SameBut (s t : State) : Prop := t = { s with link := t.link, mgmt := t.mgmt, outputs := t.outputs }

/-- A command waits in a slot's queue or is in flight. -/
def Outstation.Has (o : Outstation) (c : Cmd) : Prop := c ∈ o.queue ∨ o.inFlight.map InFlight.cmd = some c

/-- An event that only answers a request: the reply carries a result and no payload, no notice is handed on, and nothing else
changes. -/
def State.AnswersAlone (s : State) (c : Instr) (req : RequestId) (kind : Byte) (params : List Byte) (r : Result) : Prop :=
  ∃ t, exec c s = .next t ∧ s.Answered t req kind params r [] ∧ s.NoNotice t ∧ s.PortKept t ∧ s.SameBut t

/-- The slot once its command in flight is gone and its turnaround gap has begun, after the test of R111: a TRIP at the head is
sent at once, any other command only where the gap is 0. -/
def Outstation.nextSent (o : Outstation) (l : Loaded) (now : Nat) : Outstation :=
  match o.queue with
  | [] => o
  | c :: rest =>
    if o.sends = true ∧ (c.kind = .trip ∨ l.gap = 0) then
      { o with queue := rest, tagCounter := o.tagCounter + 1#8, inFlight := some ⟨c, o.tagCounter + 1#8, now + l.wait, 0⟩ }
    else o

/-- The command in flight of a slot is over, and `o` is the slot as the answer or the deadline leaves it (R113, R114, R115). -/
structure State.Over (s t : State) (i : SlotId) (o : Outstation) : Prop where
  kept : (t.slot i).still = o.still
  /-- Nothing is in flight, or the command sent next, under the next tag, with a deadline of its own. -/
  gone : ((t.slot i).inFlight = none ∧ (t.slot i).tagCounter = o.tagCounter)
    ∨ ∃ l c, o.loaded = some l ∧ (t.slot i).inFlight = some ⟨c, o.tagCounter + 1#8, s.time + l.wait, 0⟩
      ∧ (t.slot i).tagCounter = o.tagCounter + 1#8
  others : ∀ j, j ≠ i → (t.slot j).still = (s.slot j).still
  rest : t.fixed = { s.fixed with still := t.fixed.still }

/-- The order in which START_UP applies two kept table records: LINK, FEEDER, BUS, OUTSTATION, CURVE, PROFILE, HUNT_PLAN, BUS_ORDER,
and within a kind by index (R178). -/
def KeptRecord.Before (x y : KeptRecord) : Prop :=
  let rank (k : KeptRecord) : Nat := [8, 1, 2, 3, 5, 4, 6, 7].idxOf k.kind.toNat
  rank x < rank y ∨ (rank x = rank y ∧ x.index.toNat < y.index.toNat)

/-! ### Contents that a load accepts (1.2.1, 4.1.1, 6.1.1, 7.4.1, 8.1.1) -/

/-- Source address 0001h to FFFEh, multiplier 1 to 8. -/
def StreamFields.Valid (x : StreamFields) : Prop := x.source ≠ 0x0000#16 ∧ x.source ≠ 0xFFFF#16 ∧ 1 ≤ x.silence ∧ x.silence ≤ 8

/-- SEF base 50 to 10,000, a partner other than the feeder itself. -/
def FeederPlant.Valid (f : Feeder) (x : FeederPlant) : Prop := 50 ≤ x.sefBase ∧ x.sefBase ≤ 10000 ∧ x.partner ≠ some f

/-- Vnom 1,000 to 20,000, delay 1 to 60 s. -/
def BusPlant.Valid (x : BusPlant) : Prop := 1000 ≤ x.vnom ∧ x.vnom ≤ 20000 ∧ 1 ≤ x.delay ∧ x.delay ≤ 60

/-- The fields of an outstation record within their ranges, its kind agreeing with the position and the flags (R101). -/
def Loaded.Valid (position : Nat) (l : Loaded) : Prop :=
  l.address ≠ 0x0000#16 ∧ l.address ≠ 0xFFFF#16 ∧ 20 ≤ l.wait ∧ l.wait ≤ 5000 ∧ l.gap ≤ 1000 ∧ 1 ≤ l.refresh ∧ l.refresh ≤ 60
    ∧ (position = 0 ↔ l.kind = .breaker) ∧ (l.huntCapable = true → l.kind = .recloser ∨ l.kind = .sectionaliser)
    ∧ (l.follower = true → l.kind = .recloser)

/-- The settings of an inverse-time element within their ranges; Ip from `low` to `top`. -/
def ItSettings.Valid (low top : Nat) (x : ItSettings) : Prop :=
  low ≤ x.ip ∧ x.ip ≤ top ∧ 5 ≤ x.tms ∧ x.tms ≤ 150 ∧ 1 ≤ x.resetTime ∧ x.resetTime ≤ 100

/-- Every field of a profile within its range. -/
def Profile.Valid (p : Profile) : Prop :=
  p.fireLevel ≤ 3 ∧ p.ph.Valid 10 4000 ∧ p.ef.Valid 5 2000
    ∧ (50 ≤ p.hsThreshold ∧ p.hsThreshold ≤ 40000 ∧ p.hsDelay ≤ 200) ∧ (6 ≤ p.rstRatio ∧ p.rstRatio ≤ 32)
    ∧ (1 ≤ p.sefK ∧ p.sefK ≤ 15 ∧ 5 ≤ p.sefF ∧ p.sefF ≤ 1000 ∧ 1 ≤ p.sefDelay ∧ p.sefDelay ≤ 600)
    ∧ (p.shots ≤ 4 ∧ 1 ≤ p.dead1 ∧ p.dead1 ≤ 1800 ∧ 1 ≤ p.dead2 ∧ p.dead2 ≤ 1800 ∧ 1 ≤ p.dead3 ∧ p.dead3 ≤ 1800
      ∧ 1 ≤ p.dead4 ∧ p.dead4 ≤ 1800 ∧ 10 ≤ p.reclaim ∧ p.reclaim ≤ 3000)
    ∧ 2 ≤ p.settle ∧ p.settle ≤ 50

/-- 305 rates of 16 bits, none below the one before it (R38). -/
def curveValid (c : List Nat) : Prop := c.length = 305 ∧ (∀ x ∈ c, x < 65536) ∧ c.Pairwise (· ≤ ·)

/-- Up to 7 steps at positions 1 to 7, none twice, an indicator position at 1 to 7 (R132). -/
def planValid (p : List PlanStep) : Prop :=
  (p.map PlanStep.position).Nodup ∧ ∀ x ∈ p, x.position.val ≠ 0 ∧ ∀ q, x.indicator = some q → q.val ≠ 0

/-- Addresses within their ranges, up to four sources, none twice (R149). -/
def LinkTable.Valid (t : LinkTable) : Prop :=
  (t.address ≠ 0x0000#16 ∧ t.address ≠ 0xFFFF#16) ∧ (∀ d, t.dest = some d → d ≠ 0x0000#16 ∧ d ≠ 0xFFFF#16)
    ∧ t.sources.length ≤ 4 ∧ t.sources.Nodup ∧ ∀ a ∈ t.sources, a ≠ 0x0000#16 ∧ a ≠ 0xFFFF#16

end Sys2Proof.Machine
end

