-- ==== Sys2Proof/Certificates/Slice0/Obligations.lean ====
section
/-! DEFINITION. The statements about the engine. Each docstring names the rules a statement comes from; where a clause is the
model's own choice it names the log entry. -/

section Statements

open Sys2Proof Sys2Proof.Machine

/-! ### Steps and resets -/

/-- A step takes the command at the front of the queue and runs it on the state with the queue's rest (0.5: events are
indivisible and taken in order). -/
def Obligations.StepRunsTheCommand : Prop :=
  ∀ (s : State) (c : Instr) (rest : List Instr), s.pending = c :: rest → step s = exec c (s.setPending rest)

/-- A step on an empty queue is the model's choice (log entry 3): held at reset it does nothing; otherwise what is due joins the
queue, and where nothing is due one millisecond of engine time passes. -/
def Obligations.IdleStep : Prop :=
  ∀ s : State, s.pending = [] →
    (s.held = true → step s = .next s)
      ∧ (s.held = false → s.due = [] → step s = .next { s with time := s.time + 1 })
      ∧ (s.held = false → s.due ≠ [] → step s = .next { s with pending := s.due })

/-- No command stops the engine, none changes the queue of commands waiting, and engine time stands still in an event but for a
release from reset and a restart (R173, R174; 0.5.5). While the reset input is asserted the engine takes nothing: every command
but the two of the reset input leaves the state as it is (R173). -/
def Obligations.EveryCommandAnswers : Prop :=
  (∀ (c : Instr) (s : State), ∃ t, exec c s = .next t ∧ t.pending = s.pending
      ∧ (t.time = s.time ∨ c = .resetRelease ∨ c = .transmissionEnd)
      ∧ (t.held = s.held ∨ c = .resetRelease ∨ ∃ n, c = .powerUpReset n))
  ∧ (∀ (c : Instr) (s : State), s.held = true → (∀ n, c ≠ .powerUpReset n) → c ≠ .resetRelease → exec c s = .next s)

/-- The power-up values of the stream, measurement, element, plant, profile, map, reclose, follower and outstation records, of the
plans, lists and queues, of the link table, its counters and the transmit queue, of the modes and the outputs (R2, R21, R31, R34,
R37, R50, R57, R63, R67, R79, R95, R100, R123, R148, R153, R159, R170, R173). Of the hunt context it states the state alone, and of
the Image Loader nothing: StartUpRestores states both whole. -/
def Obligations.ResetValues : Prop :=
  (∀ e, State.reset.stream e = ⟨.unconfigured, none, none, none, [], none, 0, 0⟩)
    ∧ (∀ f, State.reset.meas f = none) ∧ State.reset.phasor.bus = none ∧ State.reset.phasor.threshold = none
    ∧ (∀ f, State.reset.element f = ⟨⟨0, 0, 0⟩, ⟨false, false, false⟩, 0, false, false, ⟨[], [], []⟩, false, none, false,
        .dropped, .dropped, true, none, false, none⟩)
    ∧ (∀ f, State.reset.plant f = none) ∧ State.reset.bank.bus = none ∧ State.reset.bank.nd = ⟨.dropped, .stopped, false⟩
    ∧ State.reset.bank.trips = []
    ∧ (∀ k, State.reset.profile k = none ∧ State.reset.curve k = none) ∧ (∀ e, State.reset.entry e = ⟨none, none⟩)
    ∧ (∀ f, State.reset.recl f = ⟨.off, ⟨false, false, false, false, false, false⟩⟩)
    ∧ (∀ i, State.reset.follower i = ⟨.none, none⟩)
    ∧ (∀ i, State.reset.slot i = ⟨.empty, none, .unknown, [], none, none, 0#8, none, 0, [], none, none⟩)
    ∧ State.reset.ctx.state = .idle ∧ State.reset.hunt.pendingList = [] ∧ (∀ f, State.reset.plan f = [])
    ∧ State.reset.hunt.busOrder = []
    ∧ State.reset.link.table = ⟨0x7E00#16, none, [], Vector.replicate 8 ⟨false, false⟩⟩
    ∧ (∀ c, look State.reset.link.log c = ⟨0, false⟩) ∧ State.reset.link.tx = ⟨[], [], [], [], []⟩
    ∧ State.reset.link.wire = none
    ∧ State.reset.mgmt.requests = [] ∧ State.reset.mgmt.notices = [] ∧ State.reset.mgmt.overflow = false
    ∧ (∀ f, State.reset.mode f = .outOfService) ∧ State.reset.time = 0
    ∧ State.reset.outputs = ⟨Vector.replicate 8 false, false⟩

/-- The reset state is sound. -/
def Obligations.ResetIsSound : Prop := State.reset.Safe

/-! ### What every step keeps -/

/-- The window, the last sequence, the silence timer and the configuration of every stream agree with its state (R1, 1.1.2, R13,
R4), and the two counts stay within 65,535 (R7, R10). -/
def Obligations.StreamsStaySound : Prop := ∀ s t : State, s.StreamsOk → step s = .next t → t.StreamsOk

/-- Every accumulator stays within 0 to 16,777,216 and every high-set history within 3 results (R40, R43); the store keeps at
most 16 trip records (R57). At most 8 requests and 32 notices wait, and no source stands twice in the pending hunt list (R129,
R159, R170). -/
def Obligations.CapacitiesStayKept : Prop :=
  (∀ s t : State, s.ElementsOk → s.TripsOk → step s = .next t → t.ElementsOk ∧ t.TripsOk)
  ∧ (∀ s t : State, s.QueuesOk → s.HuntListOk → step s = .next t → t.QueuesOk ∧ t.HuntListOk)

/-- An active slot stays LOADED, and a pending slot stays LOADED with a fire level below the active one's (R67). -/
def Obligations.MapStaysSound : Prop := ∀ s t : State, s.MapOk → step s = .next t → t.MapOk

/-- A feeder's reclose state is OFF exactly while its mode is OUT_OF_SERVICE (R93). -/
def Obligations.OffWhileOutOfService : Prop := ∀ s t : State, s.OffOk → step s = .next t → t.OffOk

/-- DEAD_TIME(n) holds only while the block reason set is empty and n is within the active profile's shots (R83, R88, R89). -/
def Obligations.DeadTimeUnblocked : Prop := ∀ s t : State, s.DeadTimeOk → step s = .next t → t.DeadTimeOk

/-- HUNT is a member of a feeder's set exactly while a hunt in progress involves the feeder (R127). -/
def Obligations.HuntMemberWhileInvolved : Prop := ∀ s t : State, s.HuntReasonOk → step s = .next t → t.HuntReasonOk

/-- A slot's queue holds at most one command of each group with a TRIP at its front, and what its service state lets it hold
(R106 to R110, 6.2.1). -/
def Obligations.SlotsStaySound : Prop := ∀ s t : State, s.SlotsOk → step s = .next t → t.SlotsOk

/-- Every waiting frame stands in its class, the path is idle only while no frame waits (R154, R155), and class 5 holds at most one
frame, a NOTICE on the wire counted with those that wait: that it counts is the model's reading (log entry 8) of R154 and R171. -/
def Obligations.PortStaysSound : Prop := ∀ s t : State, s.PortOk → step s = .next t → t.PortOk

/-- The serial memory keeps its canonical form: addresses strictly rising, no cell equal to the blank byte. -/
def Obligations.SerialStaysCanonical : Prop := ∀ s t : State, s.SerialOk → step s = .next t → t.SerialOk

/-- The outputs stay as R183 and R173 say. -/
def Obligations.OutputsFollow : Prop := ∀ s t : State, s.OutputsOk → step s = .next t → t.OutputsOk

/-- What the timers of the Reclose Controller, the Exchange and the Hunt Controller leave alone, and the requests that only set
decisions, selections and hunts going: everything in `Fixed`, but for the arrival of the request itself and, for SET_BLOCK and
CLEAR_BLOCK, the operator's members. -/
def Obligations.WorkingLeavesTheRest : Prop :=
  ∀ s t : State,
    (∀ c : Instr, ((∃ f, c = .deadTimerExpiry f) ∨ (∃ f, c = .reclaimExpiry f) ∨ (∃ i, c = .refreshExpiry i)
        ∨ (∃ i, c = .turnaroundGapEnd i) ∨ c = .settleExpiry) → exec c s = .next t → t.fixed = s.fixed)
      ∧ (∀ c : Instr, ((∃ r k w, c = .selectProfile r k w) ∨ (∃ r f, c = .resetLockout r f) ∨ (∃ r e, c = .startHunt r e)
          ∨ (∃ r, c = .abortHunt r) ∨ (∃ r f, c = .ackSef r f) ∨ (∃ r i, c = .operateOpen r i) ∨ ∃ r i, c = .operateClose r i) →
        exec c s = .next t →
        t.fixed = { s.fixed with requests := t.fixed.requests, tickets := t.fixed.tickets, log := t.fixed.log })
      ∧ ∀ c : Instr, ((∃ r f m, c = .setBlock r f m) ∨ ∃ r f m, c = .clearBlock r f m) → exec c s = .next t →
        t.fixed = { s.fixed with requests := t.fixed.requests, tickets := t.fixed.tickets, log := t.fixed.log
                                 outside := t.fixed.outside }

/-! ### The reset input and the Image Loader -/

/-- POWER_UP_RESET: outputs deasserted, no frame waiting or on the wire (R173, R154); of a save in flight the memory has taken an
initial part of single byte writes in rising order of address, the header last: R180 says that old and new bytes stand mixed, the
order of the writes is the model's choice (log entry 2). RESET_RELEASE: every block takes its power-up values, engine time 0,
reading begins; the serial memory is kept (R173, R174). An input that is not asserted is not released (log entry 4). -/
def Obligations.ResetInputHoldsAndReleases : Prop :=
  (∀ (s : State) (n : Nat), ∃ t, exec (.powerUpReset n) s = .next t ∧ t.held = true
      ∧ t.outputs = ⟨Vector.replicate 8 false, false⟩ ∧ t.link = { s.link with tx := ⟨[], [], [], [], []⟩, wire := none }
      ∧ t = { s with held := t.held, outputs := t.outputs, link := t.link, serial := t.serial, loader := t.loader }
      ∧ (∀ job, s.loader = .saving job → t.serial = SerialMemory.writeAll s.serial ((saveWrites job.records).take n))
      ∧ ((∀ job, s.loader ≠ .saving job) → t.serial = s.serial ∧ t.loader = s.loader))
  ∧ (∀ s : State,
      (s.held = true → exec .resetRelease s = .next { State.reset with serial := s.serial, pending := s.pending })
        ∧ (s.held = false → exec .resetRelease s = .next s))

/-- IMAGE_RECORD_READ: the header gives the number of records; a correct record with a known kind, not kept before, is kept; a
read the memory refuses ends reading with one IMAGE notice of READ_FAILED (R175, R176, R177). That a record no read reached is
counted neither as kept nor as discarded, and that the notice carries the position of a record and nothing else, and none of it for
the header, is the model's choice (log entry 18). -/
def Obligations.ImageRecordIsKept : Prop :=
  ∀ (s : State) (p : Reading), s.held = false → s.loader = .reading p →
    (∀ n, p.stage = .header → n < 65536 → SerialMemory.bytes s.serial 0 4 = headerBytes n →
      exec (.imageRecordRead true) s
        = .next { s with loader := .reading { p with stage := if n = 0 then .ended else .records n, address := 4 } })
      ∧ (∀ left kind index contents, p.stage = .records left → contents.length ≤ 611 → 1 ≤ kind.toNat → kind.toNat ≤ 9 →
        (∀ k ∈ p.kept, ¬ (k.kind = kind ∧ k.index = index)) →
        SerialMemory.bytes s.serial p.address (6 + contents.length) = recordBytes kind index contents →
        exec (.imageRecordRead true) s
          = .next { s with loader := .reading { p with
              stage := if left ≤ 1 then .ended else .records (left - 1), address := p.address + 6 + contents.length
              position := p.position + 1, kept := p.kept ++ [⟨p.position, kind, index, contents⟩] } })
      ∧ (p.stage ≠ .ended → ∀ u, u = s.notify (.image .readFailed (if p.stage = .header then none else some p.position)
          none none none) false →
        ∃ t, exec (.imageRecordRead false) s = .next t
          ∧ t.loader = .reading { p with stage := .ended }
          ∧ t = { s with loader := t.loader, link := u.link, mgmt := u.mgmt })

/-- START_UP: the Image Loader becomes IDLE and engine-ok is asserted; with no record kept nothing else changes but the outputs
and the IMAGE notice of COMPLETE (R178, R179, R183). -/
def Obligations.StartUpEnds : Prop :=
  ∀ (s : State) (p : Reading), s.held = false → s.loader = .reading p → p.stage = .ended →
    ∃ t, exec .startUp s = .next t ∧ t.loader = .idle ∧ t.outputs.engineOk = true ∧ t.serial = s.serial ∧ t.time = s.time
      ∧ (∀ f, look t.outputs.healthy f = t.healthy f)
      ∧ (p.kept = [] →
        t = { s with loader := t.loader, outputs := t.outputs
                     link := (s.notify (.imageComplete 0 0 p.discarded p.blank) false).link
                     mgmt := (s.notify (.imageComplete 0 0 p.discarded p.blank) false).mgmt })

/-- After a reset the Image Loader is READING at the header (R173) and the hunt context is IDLE, its sets and lists empty and every
other field absent (R123). START_UP at power-up values applies the kept table records as loads in the order LINK, FEEDER, BUS,
OUTSTATION, CURVE, PROFILE, HUNT_PLAN, BUS_ORDER and by index, whatever their order in the image (R178). The STATE record then wishes
(R175, R179): a slot wished in service and OUT_OF_SERVICE is ENROLLING with its ENROL; an entry whose recorded slot is LOADED with the
curves it needs takes it over (R77); a feeder whose recorded mode is IN_SERVICE or TEST takes it where its entry is present, its slot
0 is wished and not EMPTY and its map entry is active, in LOCKOUT with cause START, and stays OUT_OF_SERVICE and OFF otherwise. With no
STATE record kept nothing is wished. The order of the wished slots, and of STATE records of several indexes, is the model's (log
entry 34). -/
def Obligations.StartUpRestores : Prop :=
  (State.reset.loader = .reading ⟨.header, 0, 0, [], 0, false⟩
      ∧ State.reset.ctx = { state := .idle, kind := none, phase := none, involved := [], feeder := none, busIndex := none
                            planIndex := none, observed := none, clearLevel := none, openPoint := none, settle := none
                            lastAbove := none, origin := none, abortCause := none, results := [], outstanding := none
                            restoring := false })
  ∧ (∀ (s u : State) (p : Reading) (l : List KeptRecord), s.held = false → s.loader = .reading p → p.stage = .ended →
      s.intake = State.reset.intake → s.phasor = State.reset.phasor → s.profiles = State.reset.profiles →
      s.reclose = State.reset.reclose → s.exchange.slots = State.reset.exchange.slots → s.hunt = State.reset.hunt →
      s.modes = State.reset.modes → s.bank = { State.reset.bank with trips := s.bank.trips } →
      l.Perm (p.kept.filter fun x => 1 ≤ x.kind.toNat && x.kind.toNat ≤ 8) → l.Pairwise KeptRecord.Before →
      u = l.foldl (fun v x => (v.applyLoad x.kind.toNat x.index x.contents).1) s →
      ∃ t, exec .startUp s = .next t ∧ t.link.table = u.link.table ∧ t.intake = u.intake ∧ t.bank.plants = u.bank.plants
        ∧ t.bank.bus = u.bank.bus ∧ t.profiles.slots = u.profiles.slots ∧ t.profiles.curves = u.profiles.curves
        ∧ t.hunt = u.hunt
        ∧ (p.kept.filter (fun x => x.kind == 0x09#8) = [] → (∀ i, t.slot i = u.slot i) ∧ (∀ e, t.entry e = ⟨none, none⟩)
          ∧ ∀ f, t.mode f = .outOfService ∧ (t.recl f).state = .off)
        ∧ ∀ x, p.kept.filter (fun x => x.kind == 0x09#8) = [x] → x.index = 0x00#8 → x.contents.length = 25 →
          ∀ wished : SlotId → Prop, (∀ i, wished i ↔ (x.contents.getD (8 + i.val / 8) 0x00#8).getLsbD (i.val % 8) = true) →
            (∀ i, (wished i ∧ (u.slot i).state = .outOfService →
                (t.slot i).still = { (u.slot i).still with state := .enrolling }
                  ∧ ∃ m, (u.slot i).loaded = some m ∧ (t.slot i).Has
                    { kind := .enrol, origin := .exchange, expected := some m.kind, hold := 3 * m.refresh })
              ∧ (¬ (wished i ∧ (u.slot i).state = .outOfService) → t.slot i = u.slot i))
              ∧ (∀ e : EntryId, ∀ n, n = byteAt x.contents (16 + e.val) →
                (∀ k q, n = k.val → u.profile k = some q → (e = busEntry ∨ u.curveMissing q = false) →
                  t.entry e = ⟨some k, none⟩)
                  ∧ ((∀ (k : BankSlot) q, n = k.val → u.profile k = some q → e ≠ busEntry ∧ u.curveMissing q = true) →
                    t.entry e = ⟨none, none⟩))
              ∧ ∀ f : Feeder, ∀ n, n = byteAt x.contents f.val →
                let may := (u.plant f).isSome = true ∧ (u.slot (Feeder.head f)).state ≠ .empty ∧ wished (Feeder.head f)
                  ∧ (t.entry (Feeder.entry f)).active.isSome = true
                (n ≤ 1 → may → t.mode f = (if n = 0 then .inService else .test) ∧ (t.recl f).state = .lockout .start)
                  ∧ (2 ≤ n ∨ ¬ may → t.mode f = .outOfService ∧ (t.recl f).state = .off))

/-- SAVE_END: the records and then the header are written, or, where the memory refused a write, the single byte writes it took
before that one, in rising order of address (the order is the model's choice: log entry 2); the Image Loader is IDLE and the
deferred reply is handed, OK or FAILED (R165, R180). -/
def Obligations.SaveEndReplies : Prop :=
  ∀ (s : State) (job : SaveJob) (e : ReqEntry) (at_ : Option Nat), s.held = false → s.loader = .saving job →
    (s.mgmt.requests.find? fun x => x.ticket == job.ticket) = some e →
    ∃ t, exec (.saveEnd at_) s = .next t ∧ t.loader = .idle
      ∧ (at_ = none → t.serial = SerialMemory.writeAll s.serial (saveWrites job.records))
      ∧ (∀ n, at_ = some n → t.serial = SerialMemory.writeAll s.serial ((saveWrites job.records).take n))
      ∧ (∀ x ∈ t.mgmt.requests, x.ticket = job.ticket → x.state = .replying (if at_ = none then .ok else .failed))
      ∧ t.link.Holds (.reply e.ticket e.req.source s.link.table.address e.req.tag e.kind
          (if at_ = none then .ok else .failed) [])
      ∧ s.NoNotice t ∧ s.PortKept t
      ∧ t = { s with loader := t.loader, serial := t.serial, link := t.link, mgmt := t.mgmt }

/-- What a save wrote reads back: the header with the number of records, then every record whole (R175, R176, R180). -/
def Obligations.SavedImageReadsBack : Prop :=
  ∀ (s t : State) (job : SaveJob), s.held = false → s.SerialOk → s.loader = .saving job →
    exec (.saveEnd none) s = .next t →
    SerialMemory.bytes t.serial 0 4 = headerBytes job.records.length
      ∧ SerialMemory.bytes t.serial 4 (job.records.flatMap fun x => recordBytes x.1 x.2.1 x.2.2).length
        = job.records.flatMap fun x => recordBytes x.1 x.2.1 x.2.2

/-! ### Sample streams -/

/-- SAMPLE, and the sets on which a delay is reached (log entry 7): a FIRST or IN_ORDER set is appended, the last sequence is
its own, the timer restarts, a window of 32 makes the stream LIVE, and a set on a LIVE stream is measured (R9, R12, R13, R22).
-/
def Obligations.SampleAppends : Prop :=
  ∀ (s : State) (e : EntryId) (x : SampleFrame), s.held = false → s.streamAt x.source = some e → (s.stream e).Ok →
    (s.classOf e x = .first ∨ s.classOf e x = .inOrder) →
    ∀ c ∈ [Instr.sample x, .highSetDelayExpiry x, .sefDelayExpiry x], ∃ t, exec c s = .next t
      ∧ t.stream e = { s.stream e with
          state := if ((s.stream e).window ++ [setOf x]).length < 32 then .filling else .live
          window := ((s.stream e).window ++ [setOf x]).drop (((s.stream e).window ++ [setOf x]).length - 32)
          lastSeq := some x.seq, expiry := some (s.time + 5 * (s.stream e).silence.getD 0) }
      ∧ (∀ g, t.meas g = if Feeder.entry g = e ∧ (t.stream e).state = .live
          then some (measureFeeder x.seq (t.stream e).window) else s.meas g)
      ∧ t.phasor.bus = (if busEntry = e ∧ (t.stream e).state = .live then some (measureBus x.seq (t.stream e).window)
          else s.phasor.bus)
      ∧ (∀ j, j ≠ e → t.stream j = s.stream j)
      ∧ t.fixed = { s.fixed with intake := t.fixed.intake, meas := t.fixed.meas, busMeas := t.fixed.busMeas
                                 nd := t.fixed.nd, outside := t.fixed.outside }

/-- A frame of no stream is counted UNKNOWN_SOURCE (R152). ONE_MISSING appends the held repeat and then the set and counts the
repeat (R10); the stream's state and its expiry after it are not stated here. GAP begins the window anew, and the measurement record
goes (R11); STALE is counted twice over (R7); MISSING changes nothing (R8). HIGH_SET_DELAY_EXPIRY and SEF_DELAY_EXPIRY are the same
event as SAMPLE (log entry 7). -/
def Obligations.SampleOtherwise : Prop :=
  ∀ (s : State) (x : SampleFrame), s.held = false →
    ∀ c ∈ [Instr.sample x, .highSetDelayExpiry x, .sefDelayExpiry x], ∃ t, exec c s = .next t
      ∧ (s.streamAt x.source = none →
        t.fixed = { s.fixed with log := put s.link.log 3 ⟨bump (look s.link.log 3).count, true⟩ })
      ∧ ∀ e, s.streamAt x.source = some e → (s.stream e).Ok →
        (s.classOf e x = .oneMissing → ∀ y, (s.stream e).window.getLast? = some y →
          (t.stream e).window = pushSet (pushSet (s.stream e).window { y with seq := x.seq - 1#16, held := true }) (setOf x)
            ∧ (t.stream e).lastSeq = some x.seq ∧ (t.stream e).heldCount = bump (s.stream e).heldCount
            ∧ (t.stream e).staleCount = (s.stream e).staleCount)
          ∧ (s.classOf e x = .gap →
            t.stream e = { s.stream e with state := .filling, window := [setOf x], lastSeq := some x.seq
                                           expiry := some (s.time + 5 * (s.stream e).silence.getD 0) }
            ∧ (∀ f, Feeder.entry f = e → t.meas f = none) ∧ (busEntry = e → t.phasor.bus = none))
          ∧ (s.classOf e x = .stale →
            t.stream e = { s.stream e with staleCount := bump (s.stream e).staleCount }
            ∧ t.fixed = { s.fixed with intake := t.fixed.intake, log := put s.link.log 4 ⟨bump (look s.link.log 4).count, true⟩ })
          ∧ (s.classOf e x = .missing → t.fixed = s.fixed)
          ∧ ∀ j, j ≠ e → t.stream j = s.stream j

/-- Every component lies within ±40,000, and every magnitude is the greatest integer whose square does not exceed half the squared
length of its components, so it lies within 40,000, for the fundamental, the second harmonic and the residual alike (R25, R26, R27,
R28). HIGH_SET_DELAY_EXPIRY: on the set on which the high-set condition is set and the elapsed count reaches 8 times the delay,
HIGH_SET operates: the timer stops, the operated flag is set, and with the latch clear a record is opened, the latch refers to it
by its place in the store (log entry 19), a TRIP is with the breaker, and the reclose state goes to TRIPPING with the shots used and
the final mark of the state it leaves, every other feeder's reclose record as it was (R43, R44, R53, R82). SAMPLE and the two sets on which a delay is
reached (log entry 7): a set that takes a FILLING feeder stream to LIVE removes STREAM_LOST and no other set touches it (R17); a set
of the bus stream in LIVE picks the neutral displacement detector up at the threshold, drops it below three quarters of it, and lets
a held timer run again, while a set that leaves the stream FILLING changes nothing of it (R50, R51). -/
def Obligations.SetsMeasuredAndTaken : Prop :=
  ((∀ re im : Int, -40000 ≤ re → re ≤ 40000 → -40000 ≤ im → im ≤ 40000 → ∀ q : Nat, (q : Int) = re * re + im * im →
        magnitude re im * magnitude re im ≤ q / 2 ∧ q / 2 < (magnitude re im + 1) * (magnitude re im + 1)
          ∧ magnitude re im ≤ 40000)
      ∧ (∀ (xs : List Int) (p : Phasor), p = fundamental xs ∨ p = secondHarmonic xs →
        -40000 ≤ p.re ∧ p.re ≤ 40000 ∧ -40000 ≤ p.im ∧ p.im ≤ 40000 ∧ p.mag = magnitude p.re p.im)
      ∧ ∀ p : Phases Phasor, (residual p).re = max (-40000) (min 40000 (p.a.re + p.b.re + p.c.re))
        ∧ (residual p).im = max (-40000) (min 40000 (p.a.im + p.b.im + p.c.im))
        ∧ (residual p).mag = magnitude (residual p).re (residual p).im)
  ∧ (∀ (s : State) (f : Feeder) (x : SampleFrame) (p : Profile) (m : FeederMeasurement), s.Calm →
      s.streamAt x.source = some (Feeder.entry f) → (s.stream (Feeder.entry f)).state = .live →
      s.classOf (Feeder.entry f) x = .inOrder → s.mode f = .inService → s.feederProfile f = some p → p.hsEnable = true →
      p.sefEnable = false → (s.element f).latch = none → (s.element f).hsOperated = false →
      (p.hsDelay = 0 ∨ ∃ n, (s.element f).hsTimer = some n ∧ 8 * p.hsDelay ≤ n + 1) →
      m = measureFeeder x.seq (pushSet (s.stream (Feeder.entry f)).window (setOf x)) →
      (confirms (pushResult (s.element f).histories.a (decide (p.hsThreshold ≤ m.phase.a.mag))) = true
        ∨ confirms (pushResult (s.element f).histories.b (decide (p.hsThreshold ≤ m.phase.b.mag))) = true
        ∨ confirms (pushResult (s.element f).histories.c (decide (p.hsThreshold ≤ m.phase.c.mag))) = true) →
      (s.slot (Feeder.head f)).state = .inService → ((s.slot (Feeder.head f)).loaded.any fun l => l.kind == .breaker) = true →
      ∃ t, exec (.highSetDelayExpiry x) s = .next t ∧ (t.element f).hsOperated = true ∧ (t.element f).hsTimer = none
        ∧ (∃ l r, (t.element f).latch = some l ∧ l.causes.highSet = true ∧ l.record = some (t.bank.trips.length - 1)
          ∧ t.bank.trips.getLast? = some r ∧ r.feeder = f ∧ r.causes = l.causes ∧ r.outcome = none ∧ r.time = s.time)
        ∧ (∃ c, c.kind = .trip ∧ (t.slot (Feeder.head f)).Has c)
        ∧ ((s.recl f).state = .ready → t.recl f = { s.recl f with state := .tripping 0 none })
        ∧ (∀ n start, (s.recl f).state = .reclaim n start →
          t.recl f = { s.recl f with state := .tripping n (if n = 0 then some .switchOntoFault else none) })
        ∧ (∀ n mark, (s.recl f).state = .closing n mark → t.recl f = { s.recl f with state := .tripping n none })
        ∧ (∀ n expiry, (s.recl f).state = .deadTime n expiry →
          t.recl f = { s.recl f with state := .tripping (n - 1) (some .finalTrip) })
        ∧ (∀ cause, (s.recl f).state = .lockout cause → t.recl f = { s.recl f with state := .tripping 0 (some .finalTrip) })
        ∧ ∀ g, g ≠ f → t.recl g = s.recl g)
  ∧ (∀ (s : State) (e : EntryId) (x : SampleFrame), s.held = false → s.streamAt x.source = some e → (s.stream e).Ok →
      (s.classOf e x = .first ∨ s.classOf e x = .inOrder ∨ s.classOf e x = .oneMissing) →
      ∀ c ∈ [Instr.sample x, .highSetDelayExpiry x, .sefDelayExpiry x], ∃ t, exec c s = .next t
        ∧ (∀ g, (t.recl g).reasons.outside
          = if Feeder.entry g = e ∧ (s.stream e).state ≠ .live ∧ (t.stream e).state = .live
            then ((s.recl g).reasons.manual, (s.recl g).reasons.hotLine, false) else (s.recl g).reasons.outside)
        ∧ (e ≠ busEntry ∨ (t.stream e).state ≠ .live → t.bank.nd = s.bank.nd)
        ∧ ∀ T b vn, e = busEntry → (t.stream e).state = .live → s.phasor.threshold = some T → s.bank.bus = some b →
          vn = (measureBus x.seq (t.stream e).window).vn.mag →
          (s.bank.nd.pick = .dropped → T ≤ vn → t.bank.nd = ⟨.pickedUp, .running (s.time + 1000 * b.delay), false⟩)
            ∧ (s.bank.nd.pick = .pickedUp → vn < T * 3 / 4 → t.bank.nd = ⟨.dropped, .stopped, false⟩)
            ∧ ((s.bank.nd.pick = .dropped ∧ vn < T ∨ s.bank.nd.pick = .pickedUp ∧ T * 3 / 4 ≤ vn) →
              t.bank.nd = { s.bank.nd with timer := match s.bank.nd.timer with
                | .held remaining => .running (s.time + remaining)
                | timer => timer }))

/-- SEF_DELAY_EXPIRY: on the set on which the elapsed count reaches 160 times the delay, SEF operates: the timer stops and the
operated flag is set; with action TRIP and the latch clear the latch holds the cause SEF (R45, R47, R48, R53). -/
def Obligations.SefDelayOperates : Prop :=
  ∀ (s : State) (f : Feeder) (x : SampleFrame) (p : Profile) (n : Nat), s.Calm →
    s.streamAt x.source = some (Feeder.entry f) → (s.stream (Feeder.entry f)).state = .live →
    s.classOf (Feeder.entry f) x = .inOrder → s.mode f = .inService → s.feederProfile f = some p → p.sefEnable = true →
    p.sefPair = false → p.sefAction ≠ .hunt → (s.element f).latch = none → (s.element f).sefC = .pickedUp →
    sefLevel p.sefK (s.sefBase f) * 15 / 16
      ≤ (measureFeeder x.seq (pushSet (s.stream (Feeder.entry f)).window (setOf x))).inn.mag →
    (s.element f).sefTimer = some n → 160 * p.sefDelay ≤ n + 1 →
    (s.slot (Feeder.head f)).state = .inService → ((s.slot (Feeder.head f)).loaded.any fun l => l.kind == .breaker) = true →
    ∃ t, exec (.sefDelayExpiry x) s = .next t ∧ (t.element f).sefOperated = true ∧ (t.element f).sefTimer = none
      ∧ (p.sefAction = .trip → ∃ l, (t.element f).latch = some l ∧ l.causes.sef = true
        ∧ (p.sefLock = true → (t.recl f).reasons.sefLock = true))

/-- SILENCE_EXPIRY: the stream becomes LOST with an empty window, its measurement record goes, and a feeder's block reason set
gains STREAM_LOST (R14, R15, R16, R21). A timer that has not expired is no event (log entry 4). -/
def Obligations.SilenceLosesStream : Prop :=
  ∀ (s : State) (e : EntryId), s.held = false →
    (s.silenceDue e = false → exec (.silenceExpiry e) s = .next s)
      ∧ (s.silenceDue e = true → ∃ t, exec (.silenceExpiry e) s = .next t
        ∧ t.stream e = { s.stream e with state := .lost, window := [], lastSeq := none, expiry := none }
        ∧ (∀ j, j ≠ e → t.stream j = s.stream j)
        ∧ (∀ f, if Feeder.entry f = e then t.meas f = none ∧ (t.recl f).reasons.streamLost = true
            else t.meas f = s.meas f ∧ (t.recl f).reasons.outside = (s.recl f).reasons.outside)
        ∧ t.phasor.bus = (if busEntry = e then none else s.phasor.bus)
        ∧ t.fixed = { s.fixed with intake := t.fixed.intake, meas := t.fixed.meas, busMeas := t.fixed.busMeas
                                   nd := t.fixed.nd, outside := t.fixed.outside })

/-- BUS_DELAY_EXPIRY: the detector's timer stops and its operated flag is set (R52); a running timer that has not expired, and a
held one, is no event (R50, log entry 4). -/
def Obligations.BusDelayOperates : Prop :=
  ∀ s : State, s.held = false →
    (∀ n, s.bank.nd.timer = .running n → n ≤ s.time → ∃ t, exec .busDelayExpiry s = .next t
      ∧ t.fixed = { s.fixed with nd := ⟨s.bank.nd.pick, .stopped, true⟩ })
      ∧ ((∀ n, s.bank.nd.timer = .running n → s.time < n) → exec .busDelayExpiry s = .next s)

/-! ### Outstations -/

/-- STATUS_REPORT from a slot IN_SERVICE or UNREACHABLE: the slot is IN_SERVICE, latest flags and passage report are replaced,
and a position is filtered into the known position unless a switching command is in flight (R117, R119, R120). With no takeover and
no hunt waiting: where slot 0 becomes known OPEN so, in READY, its feeder goes to LOCKOUT with cause EXTERNAL_OPEN, and no other
reclose record, and none in another state, changes (R90, R121). -/
def Obligations.StatusReportTaken : Prop :=
  ∀ (s : State) (i : SlotId) (source : U16) (pos : ReportPosition) (b : Byte), s.held = false →
    s.knownSlot source = some i → ∃ t, exec (.statusReport source pos b) s = .next t
      ∧ (∀ j, j ≠ i → (t.slot j).still = (s.slot j).still) ∧ t.fixed = { s.fixed with still := t.fixed.still }
      ∧ ((s.slot i).state = .inService ∨ (s.slot i).state = .unreachable →
        ((s.slot i).flying CmdKind.isSwitching = true ∨ pos = .none →
          (t.slot i).still = { (s.slot i).still with
            state := .inService
            failures := if (s.slot i).state = .unreachable then 0 else (s.slot i).failures
            flags := some ⟨b.getLsbD 0, b.getLsbD 1⟩, passage := some ⟨b.getLsbD 2, b.getLsbD 3, s.time⟩ })
          ∧ ((s.slot i).flying CmdKind.isSwitching = false → pos ≠ .none →
            (t.slot i).still = { (s.slot i).still with
              state := .inService
              failures := if (s.slot i).state = .unreachable then 0 else (s.slot i).failures
              flags := some ⟨b.getLsbD 0, b.getLsbD 1⟩, passage := some ⟨b.getLsbD 2, b.getLsbD 3, s.time⟩
              history := pushReport (s.slot i).history (pos == .opened)
              known := (agreed (pushReport (s.slot i).history (pos == .opened))).getD (s.slot i).known }))
      ∧ ((s.slot i).state ≠ .inService → (s.slot i).state ≠ .unreachable → t.fixed = s.fixed)
      ∧ (s.Calm → ∀ g, t.recl g =
        if i = Feeder.head g ∧ ((s.slot i).state = .inService ∨ (s.slot i).state = .unreachable)
            ∧ (s.slot i).flying CmdKind.isSwitching = false ∧ pos ≠ .none ∧ (s.slot i).known ≠ .opened
            ∧ agreed (pushReport (s.slot i).history (pos == .opened)) = some .opened ∧ (s.recl g).state = .ready
        then { s.recl g with state := .lockout .externalOpen } else s.recl g)

/-- A command in flight is over when a matching RESPONSE says DONE or REFUSED or is the fifth WAIT (R113, R114), or at its deadline
(R115): it has left the slot, the slot is as the rule leaves it, and only a command sent next is in flight, in a calm state exactly
the one that R111 sends. An ENROL that is over takes its slot IN_SERVICE on DONE with the expected kind and OUT_OF_SERVICE otherwise,
and a follower that enters service under a set that is not empty is blocked (R104). Before the deadline TIMEOUT is no event
(log entry 4). TURNAROUND_GAP_END: the head of a slot's queue is sent with the next tag and a deadline one response wait away, where
nothing is in flight, the slot's state sends, and the gap has passed or the head is a TRIP; in every other case, a gap that has not
passed among them, nothing happens (R111). A RESPONSE that matches nothing leaves every slot whole (R116). -/
def Obligations.CommandsInFlightEnd : Prop :=
  (∀ (s : State) (i : SlotId) (source : U16) (fl : InFlight) (l : Loaded) (v : U16) (ended : Outstation), s.held = false →
      s.knownSlot source = some i → (s.slot i).inFlight = some fl → (s.slot i).loaded = some l →
      ended = { s.slot i with failures := 0, inFlight := none, lastDone := some s.time } →
      ((s.slot i).state ≠ .enrolling → ∀ st, st = (if (s.slot i).state = .unreachable then .inService else (s.slot i).state) →
        (∃ t o, exec (.response source fl.tag .done v) s = .next t
          ∧ o = { ended with
              state := st
              known := match fl.cmd.kind with
                | .trip | .opn => .opened
                | .close => .closed
                | _ => (s.slot i).known
              history := if fl.cmd.kind.isSwitching then [] else (s.slot i).history }
          ∧ s.Over t i o ∧ (s.Calm → t.slot i = o.nextSent l s.time))
          ∧ (∃ t o, exec (.response source fl.tag .refused v) s = .next t ∧ o = { ended with state := st } ∧ s.Over t i o
            ∧ (s.Calm → t.slot i = o.nextSent l s.time))
          ∧ (5 ≤ fl.waits + 1 → ∃ t o, exec (.response source fl.tag .wait v) s = .next t
            ∧ o = { ended with state := st, expiredTag := some fl.tag } ∧ s.Over t i o
            ∧ (s.Calm → t.slot i = o.nextSent l s.time)))
        ∧ (∀ k, (s.slot i).state = .enrolling → fl.cmd.kind = .enrol → fl.cmd.origin = .exchange → fl.cmd.merged = [] →
          fl.cmd.expected = some k →
          (∃ t, exec (.response source fl.tag .done v) s = .next t
            ∧ s.Over t i { ended with state := if v = BitVec.ofNat 16 k.code then .inService else .outOfService }
            ∧ (v = BitVec.ofNat 16 k.code → s.Calm → l.follower = true → l.kind = .recloser → (s.slot i).queue = [] →
              (s.follower i).state = .none → (s.recl (SlotId.feeder i)).reasons.isEmpty = false →
              (t.follower i).state = .blockPending ∧ (t.slot i).Has { kind := .block, origin := .reclose }))
            ∧ (∃ t, exec (.response source fl.tag .refused v) s = .next t ∧ s.Over t i { ended with state := .outOfService })
            ∧ (5 ≤ fl.waits + 1 → ∃ t, exec (.response source fl.tag .wait v) s = .next t
              ∧ s.Over t i { ended with state := .outOfService, expiredTag := some fl.tag })))
  ∧ (∀ (s : State) (i : SlotId), s.held = false →
      ((∀ fl, (s.slot i).inFlight = some fl → s.time < fl.deadline) → exec (.timeout i) s = .next s)
        ∧ ∀ fl, (s.slot i).inFlight = some fl → fl.deadline ≤ s.time →
          ((s.slot i).state ≠ .enrolling → ∃ t o, exec (.timeout i) s = .next t
            ∧ o = { s.slot i with
                state := if (s.slot i).state = .inService ∧ 3 ≤ (s.slot i).failures + 1 then .unreachable else (s.slot i).state
                failures := if (s.slot i).state = .inService then min 3 ((s.slot i).failures + 1) else (s.slot i).failures
                queue := if (s.slot i).state = .inService ∧ 3 ≤ (s.slot i).failures + 1
                  then (s.slot i).queue.filter fun c => c.kind.isBlocking else (s.slot i).queue
                inFlight := none, lastDone := some s.time, expiredTag := some fl.tag }
            ∧ s.Over t i o ∧ ∀ l, (s.slot i).loaded = some l → s.Calm → t.slot i = o.nextSent l s.time)
            ∧ ((s.slot i).state = .enrolling → fl.cmd.origin = .exchange → ∃ t, exec (.timeout i) s = .next t
              ∧ s.Over t i { s.slot i with
                  state := .outOfService, inFlight := none, lastDone := some s.time, expiredTag := some fl.tag }))
  ∧ (∀ (s : State) (i : SlotId), s.held = false →
      (∀ c rest l, (s.slot i).queue = c :: rest → (s.slot i).inFlight = none → (s.slot i).loaded = some l →
        ((s.slot i).state = .enrolling ∨ (s.slot i).state = .inService ∨ (s.slot i).state = .unreachable) →
        (c.kind = .trip ∨ ∀ d, (s.slot i).lastDone = some d → d + l.gap ≤ s.time) →
        ∃ t, exec (.turnaroundGapEnd i) s = .next t
          ∧ t.slot i = { s.slot i with queue := rest, tagCounter := (s.slot i).tagCounter + 1#8
                                       inFlight := some ⟨c, (s.slot i).tagCounter + 1#8, s.time + l.wait, 0⟩ }
          ∧ t.link.Holds (.command l.address s.link.table.address c.kind ((s.slot i).tagCounter + 1#8) c.huntMark c.enrolFields)
          ∧ (∀ j, j ≠ i → t.slot j = s.slot j) ∧ s.PortKept t
          ∧ t = { s with exchange := t.exchange, link := t.link })
        ∧ (((s.slot i).queue = [] ∨ (s.slot i).inFlight ≠ none ∨ (s.slot i).state = .empty ∨ (s.slot i).state = .outOfService) →
          exec (.turnaroundGapEnd i) s = .next s)
        ∧ (∀ c rest l d, (s.slot i).queue = c :: rest → c.kind ≠ .trip → (s.slot i).loaded = some l →
          (s.slot i).lastDone = some d → s.time < d + l.gap → exec (.turnaroundGapEnd i) s = .next s))
  ∧ (∀ (s : State) (i : SlotId) (source : U16) (tag : Byte) (a : AnswerKind) (v : U16), s.Still → s.knownSlot source = some i →
      (∀ fl, (s.slot i).inFlight = some fl → fl.tag ≠ tag) →
      ∃ t, exec (.response source tag a v) s = .next t ∧ (∀ j, t.slot j = s.slot j)
        ∧ t = { s with link := t.link, mgmt := t.mgmt, outputs := t.outputs })

/-- RESPONSE otherwise: one of the first four WAITs counts and never shortens the deadline (R114); a response that matches
nothing is counted LATE_RESPONSE or TAG_MISMATCH (R116); an unknown source is counted (R151). -/
def Obligations.ResponseWaitsOrMismatches : Prop :=
  ∀ (s : State) (source : U16) (tag : Byte) (a : AnswerKind) (v : U16), s.held = false →
    (∀ i fl, s.Calm → s.knownSlot source = some i → (s.slot i).inFlight = some fl → fl.waits + 1 < 5 →
      ∃ t, exec (.response source fl.tag .wait v) s = .next t
        ∧ t.slot i = { s.slot i with
            state := if (s.slot i).state = .unreachable then .inService else (s.slot i).state
            failures := 0
            inFlight := some { fl with waits := fl.waits + 1, deadline := max fl.deadline (s.time + max 1 (min 10000 v.toNat)) } }
        ∧ (∀ j, j ≠ i → t.slot j = s.slot j)
        ∧ t = { s with exchange := t.exchange, link := t.link, mgmt := t.mgmt, outputs := t.outputs })
      ∧ (∀ i, s.knownSlot source = some i → (∀ fl, (s.slot i).inFlight = some fl → fl.tag ≠ tag) →
        ∃ t, exec (.response source tag a v) s = .next t ∧ t.fixed = { s.fixed with
          log := if (s.slot i).expiredTag = some tag then put s.link.log 5 ⟨bump (look s.link.log 5).count, true⟩
                 else put s.link.log 6 ⟨bump (look s.link.log 6).count, true⟩ })
      ∧ (s.knownSlot source = none → ∃ t, exec (.response source tag a v) s = .next t
        ∧ t.fixed = { s.fixed with log := put s.link.log 3 ⟨bump (look s.link.log 3).count, true⟩ })

/-! ### Reclosing -/

/-- DEAD_TIMER_EXPIRY in DEAD_TIME(n): CLOSING(n), and a CLOSE of shot n is with a breaker that can take it (R85); a breaker
that is not IN_SERVICE refuses it, and the state goes to LOCKOUT with cause CLOSE_FAIL (R86, R106). RECLAIM_EXPIRY: at the
active profile's reclaim time the state goes from RECLAIM to READY (R87); before it nothing happens (log entry 4). -/
def Obligations.RecloseTimersExpire : Prop :=
  (∀ (s : State) (f : Feeder) (n d : Nat), s.Calm → (s.recl f).state = .deadTime n d → d ≤ s.time →
      ((s.slot (Feeder.head f)).state = .inService → s.mode f ≠ .test →
        (∀ c ∈ (s.slot (Feeder.head f)).queue, c.kind.isSwitch = false) →
        ((s.slot (Feeder.head f)).loaded.any fun l => l.kind == .breaker) = true →
        ∃ t, exec (.deadTimerExpiry f) s = .next t ∧ t.recl f = { s.recl f with state := .closing n none }
          ∧ (t.slot (Feeder.head f)).Has { kind := .close, origin := .reclose, shot := n }
          ∧ (∀ g, g ≠ f → t.recl g = s.recl g) ∧ (∀ j, j ≠ Feeder.head f → t.slot j = s.slot j)
          ∧ t = { s with reclose := t.reclose, exchange := t.exchange, link := t.link, mgmt := t.mgmt, outputs := t.outputs })
        ∧ ((s.slot (Feeder.head f)).state ≠ .inService →
          ∃ t, exec (.deadTimerExpiry f) s = .next t ∧ t.recl f = { s.recl f with state := .lockout .closeFail }
            ∧ (∀ g, g ≠ f → t.recl g = s.recl g)
            ∧ t = { s with reclose := t.reclose, link := t.link, mgmt := t.mgmt, outputs := t.outputs }))
  ∧ (∀ (s : State) (f : Feeder) (n start : Nat) (p : Profile), s.Calm → (s.recl f).state = .reclaim n start →
      s.feederProfile f = some p →
      (start + 100 * p.reclaim ≤ s.time → ∃ t, exec (.reclaimExpiry f) s = .next t
        ∧ t.recl f = { s.recl f with state := .ready } ∧ (∀ g, g ≠ f → t.recl g = s.recl g)
        ∧ t = { s with reclose := t.reclose, link := t.link, mgmt := t.mgmt, outputs := t.outputs })
        ∧ (s.time < start + 100 * p.reclaim → exec (.reclaimExpiry f) s = .next s))

/-- REFRESH_EXPIRY: the refresh timer stops, and a BLOCK is with a follower that is IN_SERVICE or UNREACHABLE and has none
queued or in flight (R97); the block state stays. -/
def Obligations.RefreshBlocksAgain : Prop :=
  ∀ (s : State) (i : SlotId) (n : Nat) (l : Loaded), s.held = false → (s.follower i).refresh = some n → n ≤ s.time →
    ((s.follower i).state = .blockPending ∨ (s.follower i).state = .blocked) → (s.slot i).loaded = some l →
    l.follower = true → l.kind = .recloser → ((s.slot i).state = .inService ∨ (s.slot i).state = .unreachable) →
    (s.slot i).queued (· == .block) = false → (s.slot i).flying (· == .block) = false →
    ∃ t, exec (.refreshExpiry i) s = .next t ∧ t.follower i = ⟨(s.follower i).state, none⟩
      ∧ (t.slot i).Has { kind := .block, origin := .reclose } ∧ (∀ j, j ≠ i → t.follower j = s.follower j)
      ∧ (∀ j, j ≠ i → t.slot j = s.slot j)
      ∧ t = { s with reclose := t.reclose, exchange := t.exchange, link := t.link, mgmt := t.mgmt, outputs := t.outputs }

/-! ### Hunts -/

/-- SETTLE_EXPIRY: a cleared FEEDER step ends the hunt, HUNT leaving each set of the involved set (R138, R142); a step of either
phase that has not cleared has its outcome NOT_CLEARED and its point is closed again, the CLOSE being with a point that can take it
(R125, R138). The cleared bus step stands in AnswersLeadOn. -/
def Obligations.SettleDecides : Prop :=
  ∀ (s : State) (d : Nat), s.Still → s.ctx.state = .settling → s.ctx.settle = some d → d ≤ s.time →
    (∀ f k x, s.ctx.phase = some .feederStep → s.ctx.feeder = some f → s.ctx.planIndex = some k → (s.plan f)[k]? = some x →
      s.observedMag.isSome = true → (∃ a, s.ctx.lastAbove = some a ∧ a + 100 ≤ d) →
      ∃ t, exec .settleExpiry s = .next t ∧ t.ctx.state = .idle ∧ t.ctx.results = [] ∧ t.ctx.openPoint = none
        ∧ (∀ g ∈ s.ctx.involved, (t.recl g).reasons.hunt = false)
        ∧ (∀ g, g ∉ s.ctx.involved → t.recl g = s.recl g))
      ∧ (∀ i ph f pos last, (s.observedMag = none ∨ ∀ a, s.ctx.lastAbove = some a → d < a + 100) →
        s.currentStep = some (ph, f, pos, last) → s.ctx.openPoint = some i → (s.slot i).state = .inService →
        ((s.slot i).loaded.any fun l => l.kind == .breaker || l.kind == .recloser || l.kind == .sectionaliser) = true →
        s.mode (SlotId.feeder i) ≠ .test → (∀ c ∈ (s.slot i).queue, c.kind.isSwitch = false) →
        ∃ t, exec .settleExpiry s = .next t ∧ t.ctx.state = .restoring ∧ t.ctx.openPoint = some i ∧ t.ctx.settle = none
          ∧ t.ctx.results = s.ctx.results ++ [⟨ph, f, pos, .notCleared, last⟩]
          ∧ (t.slot i).Has { kind := .close, origin := .hunt }
          ∧ t = { s with hunt := t.hunt, exchange := t.exchange, link := t.link, mgmt := t.mgmt, outputs := t.outputs })

/-- START_HUNT for a feeder whose first step can be made: the context holds a FEEDER hunt of origin MANUAL in OPENING, HUNT
joins the feeder's set, and an OPEN is with the step's point (R126, R131, R134, R135). ABORT_HUNT, arriving and served at once
(log entry 5): an IDLE context answers STATE and nothing changes; an ABORTING one answers OK and nothing changes; while a command of
the hunt is outstanding the context becomes ABORTING with cause MANUAL; from SETTLING, with its open point (R124), the step in
progress is INTERRUPTED, and where restore_permitted is clear the hunt ends with the point LEFT_OPEN, where it is set a CLOSE is with
the point and the context ABORTING (R143, R144, R145). -/
def Obligations.HuntRequests : Prop :=
  (∀ (s : State) (req : RequestId) (f : Feeder) (x : PlanStep) (rest : List PlanStep), s.Calm → s.Ready req →
      s.eligible f = true → s.live (Feeder.entry f) = true → s.plan f = x :: rest → s.indicatorClear f x = false →
      (s.slot (Feeder.slot f x.position)).huntPoint = true →
      ((s.slot (Feeder.slot f x.position)).loaded.any fun l => l.kind == .recloser || l.kind == .sectionaliser) = true →
      (∀ c ∈ (s.slot (Feeder.slot f x.position)).queue, c.kind.isSwitch = false) →
      ∃ t, exec (.startHunt req (BitVec.ofNat 8 f.val)) s = .next t
        ∧ s.Answered t req 0x0A#8 [BitVec.ofNat 8 f.val] .ok []
        ∧ t.ctx.state = .opening ∧ t.ctx.kind = some .feeder ∧ t.ctx.feeder = some f ∧ t.ctx.involved = [f]
        ∧ t.ctx.origin = some .manual ∧ t.ctx.planIndex = some 0 ∧ t.ctx.observed = some .residual
        ∧ t.ctx.openPoint = some (Feeder.slot f x.position)
        ∧ (t.recl f).reasons.hunt = true ∧ (∀ g, g ≠ f → t.recl g = s.recl g)
        ∧ (t.slot (Feeder.slot f x.position)).Has { kind := .opn, origin := .hunt }
        ∧ t = { s with hunt := t.hunt, reclose := t.reclose, exchange := t.exchange, link := t.link, mgmt := t.mgmt
                       outputs := t.outputs })
  ∧ (∀ (s : State) (req : RequestId), s.Ready req → s.Still →
      (s.ctx.state = .idle → ∃ t, exec (.abortHunt req) s = .next t ∧ s.Answered t req 0x0B#8 [] .state [] ∧ s.NoNotice t
        ∧ s.PortKept t ∧ s.SameBut t)
        ∧ (s.ctx.state = .aborting → ∃ t, exec (.abortHunt req) s = .next t ∧ s.Answered t req 0x0B#8 [] .ok [] ∧ s.NoNotice t
          ∧ s.PortKept t ∧ s.SameBut t)
        ∧ ((s.ctx.state = .opening ∨ s.ctx.state = .restoring) → s.ctx.outstanding ≠ none →
          ∃ t, exec (.abortHunt req) s = .next t ∧ s.Answered t req 0x0B#8 [] .ok [] ∧ t.ctx.state = .aborting
            ∧ t.ctx.abortCause = some .manual ∧ t.ctx.openPoint = s.ctx.openPoint ∧ s.NoNotice t
            ∧ t = { s with hunt := t.hunt, link := t.link, mgmt := t.mgmt, outputs := t.outputs })
        ∧ (∀ i p ph f pos last, s.ctx.state = .settling → s.ctx.outstanding = none → s.ctx.openPoint = some i →
          s.currentStep = some (ph, f, pos, last) → s.feederProfile (SlotId.feeder i) = some p →
          (p.restorePermitted = false → ∃ t, exec (.abortHunt req) s = .next t ∧ s.Answered t req 0x0B#8 [] .ok []
            ∧ t.ctx = HuntContext.reset ∧ (∀ g ∈ s.ctx.involved, (t.recl g).reasons.hunt = false)
            ∧ (∀ g, g ∉ s.ctx.involved → t.recl g = s.recl g)
            ∧ (s.link.table.dest = none → s.mgmt.notices.length + 17 * s.ctx.involved.length < 32 →
              t.mgmt.notices.getLast? = some ⟨.huntResult s.ctx.kind s.ctx.origin s.ctx.involved (.aborted .manual)
                (some (i, .leftOpen)) s.ctx.observed s.ctx.clearLevel
                (s.ctx.results ++ [⟨ph, f, pos, .interrupted, last⟩]), false⟩))
            ∧ (p.restorePermitted = true → (s.slot i).state = .inService → s.mode (SlotId.feeder i) ≠ .test →
              ((s.slot i).loaded.any fun l => l.kind == .breaker || l.kind == .recloser || l.kind == .sectionaliser) = true →
              (∀ c ∈ (s.slot i).queue, c.kind.isSwitch = false) →
              ∃ t, exec (.abortHunt req) s = .next t ∧ s.Answered t req 0x0B#8 [] .ok []
                ∧ t.ctx.state = .aborting ∧ t.ctx.abortCause = some .manual ∧ t.ctx.openPoint = some i ∧ t.ctx.settle = none
                ∧ t.ctx.results = s.ctx.results ++ [⟨ph, f, pos, .interrupted, last⟩]
                ∧ (t.slot i).Has { kind := .close, origin := .hunt } ∧ (∀ j, j ≠ i → t.slot j = s.slot j) ∧ s.NoNotice t
                ∧ t = { s with hunt := t.hunt, exchange := t.exchange, link := t.link, mgmt := t.mgmt, outputs := t.outputs })))

/-- DONE of the TRIP of a latched feeder: the record's outcome is OPENED, the latch is clear, the element record is zeroed but for C,
R and the armed flag (R55); in TRIPPING the reclose state goes to LOCKOUT with the final mark's cause, to DEAD_TIME where all four
conditions hold, and to LOCKOUT with cause NOT_PERMITTED where one fails (R83); in any other state it stays. The CLOSE of a
shot completes in CLOSING(n): DONE gives RECLAIM(n) from now with the close mark clear and LOCKOUT with the mark's cause with it set;
REFUSED, the fifth WAIT and TIMEOUT give LOCKOUT with cause CLOSE_FAIL; in any other state nothing changes (R86), but for a TIMEOUT
that makes slot 0 UNREACHABLE in TRIPPING with the latched TRIP still queued behind the CLOSE: that TRIP fails, and the state goes to
LOCKOUT with cause BREAKER_FAIL (R84, R115). The bus step that has
CLEARED: at the settle expiry its outcome is appended and a CLOSE is with the head of the feeder found, in RESTORING (R125, R138).
DONE of that CLOSE: a feeder with a plan is sectioned next, an OPEN being with the point of its first step, while quantity and clear
level stay those of the bus; a feeder without a plan is the result, FOUND_FEEDER, and HUNT leaves each set (R139, R141, R142). REFUSED
of a restoring CLOSE aborts the hunt with cause RESTORE_FAILED, the point UNKNOWN, and ends it (R139, R144, R145). -/
def Obligations.AnswersLeadOn : Prop :=
  (∀ (s : State) (f : Feeder) (source : U16) (fl : InFlight) (v : U16) (la : Latch), s.Calm →
      s.knownSlot source = some (Feeder.head f) → (s.slot (Feeder.head f)).inFlight = some fl → fl.cmd.kind = .trip →
      fl.cmd.origin = .elementBank → (s.slot (Feeder.head f)).state ≠ .enrolling → (s.element f).latch = some la →
      ∃ t, exec (.response source fl.tag .done v) s = .next t
        ∧ t.bank.trips = (match la.record with
          | none => s.bank.trips
          | some n => s.bank.trips.modify n fun r => { r with outcome := some .opened })
        ∧ t.element f = { s.element f with
            latch := none, phAcc := ⟨0, 0, 0⟩, phPickup := ⟨false, false, false⟩, efAcc := 0, efPickup := false
            restraint := false, histories := ⟨[], [], []⟩, hsCond := false, hsTimer := none, hsOperated := false
            sefTimer := none, sefOperated := false }
        ∧ (∀ g, g ≠ f → t.element g = s.element g)
        ∧ (∀ used m, (s.recl f).state = .tripping used (some m) → t.recl f = { s.recl f with state := .lockout (match m with
          | .switchOntoFault => .switchOntoFault
          | .finalTrip => .finalTrip) })
        ∧ (∀ used p, (s.recl f).state = .tripping used none → s.feederProfile f = some p →
          (((s.recl f).reasons.isEmpty = true ∧ used + 1 ≤ p.shots ∧ la.causes.streamLoss = false
              ∧ ¬ (la.causes.sef = true ∧ p.sefLock = true) ∧ (s.stream (Feeder.entry f)).state = .live) →
            t.recl f = { s.recl f with state := .deadTime (used + 1) (s.time + 100 *
              (if used = 0 then p.dead1 else if used = 1 then p.dead2 else if used = 2 then p.dead3 else p.dead4)) })
            ∧ (((s.recl f).reasons.isEmpty = false ∨ p.shots < used + 1 ∨ la.causes.streamLoss = true
                ∨ (la.causes.sef = true ∧ p.sefLock = true) ∨ (s.stream (Feeder.entry f)).state ≠ .live) →
              t.recl f = { s.recl f with state := .lockout .notPermitted }))
        ∧ ((∀ used m, (s.recl f).state ≠ .tripping used m) → t.recl f = s.recl f)
        ∧ ∀ g, g ≠ f → t.recl g = s.recl g)
  ∧ (∀ (s : State) (f : Feeder) (source : U16) (fl : InFlight) (v : U16) (failed : RecloseRecord), s.Calm →
      s.knownSlot source = some (Feeder.head f) → (s.slot (Feeder.head f)).inFlight = some fl → fl.cmd.kind = .close →
      fl.cmd.origin = .reclose → fl.cmd.merged = [] →
      failed = { s.recl f with state := match (s.recl f).state with
        | .closing _ _ => .lockout .closeFail
        | st => st } →
      (∃ t, exec (.response source fl.tag .done v) s = .next t ∧ (t.slot (Feeder.head f)).known = .closed
        ∧ t.recl f = { s.recl f with state := match (s.recl f).state with
          | .closing n none => .reclaim n s.time
          | .closing _ (some .blocked) => .lockout .blocked
          | .closing _ (some .profile) => .lockout .profile
          | st => st }
        ∧ (∀ g, g ≠ f → t.recl g = s.recl g)
        ∧ t = { s with reclose := t.reclose, exchange := t.exchange, link := t.link, mgmt := t.mgmt, outputs := t.outputs })
        ∧ (∃ t, exec (.response source fl.tag .refused v) s = .next t ∧ t.recl f = failed ∧ (∀ g, g ≠ f → t.recl g = s.recl g)
          ∧ (t.slot (Feeder.head f)).known = (s.slot (Feeder.head f)).known)
        ∧ (5 ≤ fl.waits + 1 → ∃ t, exec (.response source fl.tag .wait v) s = .next t ∧ t.recl f = failed
          ∧ ∀ g, g ≠ f → t.recl g = s.recl g)
        ∧ (fl.deadline ≤ s.time → ∃ t, exec (.timeout (Feeder.head f)) s = .next t
          ∧ ((s.slot (Feeder.head f)).state ≠ .inService ∨ (s.slot (Feeder.head f)).failures + 1 < 3
              ∨ (∀ used m, (s.recl f).state ≠ .tripping used m) ∨ (s.element f).latch = none
              ∨ (∀ c ∈ (s.slot (Feeder.head f)).queue, c.origin ≠ .elementBank ∧ .elementBank ∉ c.merged) →
            t.recl f = failed)
          ∧ (∀ used m c, (s.slot (Feeder.head f)).state = .inService → 3 ≤ (s.slot (Feeder.head f)).failures + 1 →
            (s.recl f).state = .tripping used m → (s.element f).latch ≠ none → c ∈ (s.slot (Feeder.head f)).queue →
            c.kind = .trip → c.origin = .elementBank → t.recl f = { s.recl f with state := .lockout .breakerFail })
          ∧ ∀ g, g ≠ f → t.recl g = s.recl g))
  ∧ (∀ (s : State) (d k : Nat) (f : Feeder) (a : Nat), s.Still → s.ctx.state = .settling → s.ctx.settle = some d → d ≤ s.time →
      s.ctx.phase = some .busStep → s.ctx.busIndex = some k → s.hunt.busOrder[k]? = some f → s.observedMag.isSome = true →
      s.ctx.lastAbove = some a → a + 100 ≤ d → s.ctx.openPoint = some (Feeder.head f) →
      (s.slot (Feeder.head f)).state = .inService → s.mode f ≠ .test →
      ((s.slot (Feeder.head f)).loaded.any fun l => l.kind == .breaker) = true →
      (∀ c ∈ (s.slot (Feeder.head f)).queue, c.kind.isSwitch = false) →
      ∃ t, exec .settleExpiry s = .next t
        ∧ t.ctx = { s.ctx with
            state := .restoring, settle := none, outstanding := some .close
            results := s.ctx.results ++ [⟨.busStep, f, 0, .cleared, k + 1 == s.hunt.busOrder.length⟩] }
        ∧ (t.slot (Feeder.head f)).Has { kind := .close, origin := .hunt } ∧ (∀ j, j ≠ Feeder.head f → t.slot j = s.slot j)
        ∧ t = { s with hunt := t.hunt, exchange := t.exchange, link := t.link, mgmt := t.mgmt, outputs := t.outputs })
  ∧ (∀ (s : State) (source : U16) (fl : InFlight) (v : U16) (i : SlotId), s.Still → s.knownSlot source = some i →
      (s.slot i).inFlight = some fl → fl.cmd.kind = .close → fl.cmd.origin = .hunt → fl.cmd.merged = [] →
      ((s.slot i).state = .inService ∨ (s.slot i).state = .unreachable) → s.ctx.state = .restoring →
      s.ctx.openPoint = some i →
      (∀ k f x, s.ctx.phase = some .busStep → s.ctx.busIndex = some k → s.hunt.busOrder[k]? = some f → i = Feeder.head f →
        s.ctx.results.getLast? = some x → x.value = .cleared →
        (∀ y rest, s.plan f = y :: rest → y.position.val ≠ 0 → s.indicatorClear f y = false → s.mode f ≠ .test →
          (s.slot (Feeder.slot f y.position)).huntPoint = true →
          ((s.slot (Feeder.slot f y.position)).loaded.any fun l => l.kind == .recloser || l.kind == .sectionaliser) = true →
          (∀ c ∈ (s.slot (Feeder.slot f y.position)).queue, c.kind.isSwitch = false) →
          ∃ t, exec (.response source fl.tag .done v) s = .next t
            ∧ t.ctx = { s.ctx with
                state := .opening, phase := some .feederStep, feeder := some f, busIndex := none, planIndex := some 0
                openPoint := some (Feeder.slot f y.position), outstanding := some .opn }
            ∧ (t.slot (Feeder.slot f y.position)).Has { kind := .opn, origin := .hunt } ∧ (t.slot i).known = .closed
            ∧ t.reclose = s.reclose)
          ∧ (s.plan f = [] → ∃ t, exec (.response source fl.tag .done v) s = .next t ∧ t.ctx = HuntContext.reset
            ∧ (t.slot i).known = .closed ∧ (∀ g ∈ s.ctx.involved, (t.recl g).reasons.hunt = false)
            ∧ (∀ g, g ∉ s.ctx.involved → t.recl g = s.recl g)
            ∧ (s.link.table.dest = none → s.mgmt.notices.length + 17 * s.ctx.involved.length + 2 < 32 →
              t.mgmt.notices.getLast? = some ⟨.huntResult s.ctx.kind s.ctx.origin s.ctx.involved (.foundFeeder f) none
                s.ctx.observed s.ctx.clearLevel s.ctx.results, false⟩)))
        ∧ ∃ t, exec (.response source fl.tag .refused v) s = .next t ∧ t.ctx = HuntContext.reset
          ∧ (∀ g ∈ s.ctx.involved, (t.recl g).reasons.hunt = false) ∧ (∀ g, g ∉ s.ctx.involved → t.recl g = s.recl g)
          ∧ (s.link.table.dest = none → s.mgmt.notices.length + 17 * s.ctx.involved.length + 2 < 32 →
            t.mgmt.notices.getLast? = some ⟨.huntResult s.ctx.kind s.ctx.origin s.ctx.involved (.aborted .restoreFailed)
              (some (i, .unknown)) s.ctx.observed s.ctx.clearLevel s.ctx.results, false⟩))

/-! ### Frames and the port -/

/-- MANAGEMENT_REQUEST: a request from a known source joins the newest end of the queue while it holds fewer than 8 entries, and
is otherwise counted REQUEST_OVERFLOW; an unknown source is counted (R151, R159). The ticket is the model's own (log entry 14).
FRAME_REJECTED runs every check of R150 in its order (log entry 15): a wrong check sequence or a frame below 64 bytes is counted
BAD_CHECK; another type field, or another destination, leaves no trace; a kind the engine does not receive is counted UNKNOWN_KIND;
a body beyond the payload, or of a length its kind does not allow, is counted BAD_LENGTH, and so is a position or an answer outside
its codes; a source that is not known for its kind is counted UNKNOWN_SOURCE (R152, R156). A frame that fails no check is taken as
the command of its kind. -/
def Obligations.ArrivalsAreJudged : Prop :=
  (∀ (s : State) (req : RequestId) (kind : Byte) (params : List Byte), s.held = false →
      (s.managementKnown req.source = true → s.mgmt.requests.length < 8 →
        exec (.managementRequest req kind params) s = .next { s with mgmt := { s.mgmt with
          requests := s.mgmt.requests ++ [⟨s.mgmt.nextTicket, req, kind, params, .waiting⟩]
          nextTicket := s.mgmt.nextTicket + 1 } })
        ∧ (s.managementKnown req.source = true → 8 ≤ s.mgmt.requests.length →
          ∃ t, exec (.managementRequest req kind params) s = .next t ∧ t.mgmt.requests = s.mgmt.requests
            ∧ t.fixed = { s.fixed with log := put s.link.log 7 ⟨bump (look s.link.log 7).count, true⟩ })
        ∧ (s.managementKnown req.source = false → ∃ t, exec (.managementRequest req kind params) s = .next t
          ∧ t.mgmt.requests = s.mgmt.requests
          ∧ t.fixed = { s.fixed with log := put s.link.log 3 ⟨bump (look s.link.log 3).count, true⟩ }))
  ∧ (∀ (s : State) (x : RawFrame) (counted : Fin 8 → State → Prop), s.held = false →
      (∀ c t, counted c t ↔ t.fixed = { s.fixed with log := put s.link.log c ⟨bump (look s.link.log c).count, true⟩ }) →
      ∃ t, exec (.frameRejected x) s = .next t
      ∧ (x.checkOk = false ∨ x.payload.length + 18 < 64 → counted 0 t)
      ∧ (x.checkOk = true → 64 ≤ x.payload.length + 18 →
        (x.etherType ≠ 0x9A50#16 → t.fixed = s.fixed)
          ∧ (x.etherType = 0x9A50#16 →
            (u16At x.payload 0 ≠ s.link.table.address → t.fixed = s.fixed)
              ∧ (u16At x.payload 0 = s.link.table.address →
                ∀ kind n source body, kind = byteAt x.payload 4 → n = wordAt x.payload 5 → source = u16At x.payload 2 →
                  body = (x.payload.drop 7).take n →
                  (kind ∉ [1, 2, 3, 5] → counted 1 t)
                    ∧ (kind ∈ [1, 2, 3, 5] →
                      (x.payload.length < 7 + n ∨ (kind = 1 ∧ n ≠ 11) ∨ (kind = 2 ∧ n ≠ 2) ∨ (kind = 3 ∧ n ≠ 4)
                        ∨ (kind = 5 ∧ n < 3) → counted 2 t)
                        ∧ (7 + n ≤ x.payload.length →
                          (kind = 1 → n = 11 → exec (.sample ⟨source, u16At body 0, body.getD 2 0#8, u16At body 3, u16At body 5,
                              u16At body 7, u16At body 9⟩) s = .next t ∧ (s.streamAt source = none → counted 3 t))
                            ∧ (kind = 2 → n = 2 → (2 < byteAt body 0 → counted 2 t)
                              ∧ (byteAt body 0 ≤ 2 → s.knownSlot source = none → counted 3 t)
                              ∧ ∀ p, (byteAt body 0 = 0 ∧ p = .none ∨ byteAt body 0 = 1 ∧ p = .opened
                                  ∨ byteAt body 0 = 2 ∧ p = .closed) →
                                exec (.statusReport source p (body.getD 1 0#8)) s = .next t)
                            ∧ (kind = 3 → n = 4 → ((byteAt body 1 = 0 ∨ 3 < byteAt body 1) → counted 2 t)
                              ∧ (1 ≤ byteAt body 1 → byteAt body 1 ≤ 3 → s.knownSlot source = none → counted 3 t)
                              ∧ ∀ a, (byteAt body 1 = 1 ∧ a = .done ∨ byteAt body 1 = 2 ∧ a = .refused
                                  ∨ byteAt body 1 = 3 ∧ a = .wait) →
                                exec (.response source (body.getD 0 0#8) a (u16At body 2)) s = .next t)
                            ∧ (kind = 5 → 3 ≤ n → (s.managementKnown source = false → counted 3 t)
                              ∧ (s.Still → exec (.managementRequest ⟨source, u16At body 0⟩ (body.getD 2 0#8) (body.drop 3)) s
                                = .next { t with outputs := s.outputs }))))))))

/-- TRANSMISSION_END: the oldest frame of the lowest-numbered class takes the wire, every other frame still waits, and the entry
of a reply leaves the request queue (R155, R159); an idle path has nothing to end (log entry 4). TRANSMISSION_END of the reply
OK to a RESTART: every block takes its power-up values, but the trip records and the counters and seen flags of the error log
are kept, and the serial memory is not affected (R166, R174). -/
def Obligations.TransmissionEnds : Prop :=
  (∀ s : State, s.held = false →
      (s.link.wire = none → exec .transmissionEnd s = .next s)
        ∧ ∀ f, s.link.wire = some f →
          (∀ k d a g b r q, f = .reply k d a g b r q → s.isRestart k = false) →
          ∃ t, exec .transmissionEnd s = .next t
            ∧ (∀ g rest, s.link.tx.c1 ++ s.link.tx.c2 ++ s.link.tx.c3 ++ s.link.tx.c4 ++ s.link.tx.c5 = g :: rest →
              t.link.wire = some g ∧ ∀ h ∈ rest, t.link.Holds h)
            ∧ t.mgmt.requests = (match f with
              | .reply k _ _ _ _ _ _ => s.mgmt.requests.filter fun e => e.ticket != k
              | _ => s.mgmt.requests)
            ∧ t.link.table = s.link.table ∧ t.link.log = s.link.log ∧ t = { s with link := t.link, mgmt := t.mgmt })
  ∧ (∀ (s : State) (k : Nat) (d a g : U16) (b : Byte) (r : Result) (q : List Byte), s.held = false →
      s.link.wire = some (.reply k d a g b r q) → s.isRestart k = true →
      exec .transmissionEnd s = .next { State.reset with
        bank := { State.reset.bank with trips := s.bank.trips }
        link := { State.reset.link with log := s.link.log }
        serial := s.serial
        pending := s.pending })

/-- A notice handed to the Management Responder: it joins the newest end of a queue of fewer than 32, or is dropped and the
overflow flag set; while the destination is present and class 5 holds no frame, the oldest notice leaves as a frame with the
overflow flag, which is then clear (R170, R171). That class 5 counts the wire is the model's reading (log entry 8). -/
def Obligations.NoticesQueueOrDrop : Prop :=
  ∀ (s : State) (n : Notice) (b : Bool), ∃ t, s.notify n b = t ∧ t = { s with mgmt := t.mgmt, link := t.link }
    ∧ t.link.table = s.link.table ∧ t.link.log = s.link.log ∧ t.mgmt.requests = s.mgmt.requests
    ∧ (s.mgmt.notices.length < 32 → (s.link.table.dest = none ∨ s.noticeClassFree = false) →
      t.mgmt = { s.mgmt with notices := s.mgmt.notices ++ [⟨n, b⟩] } ∧ t.link = s.link)
    ∧ (s.mgmt.notices.length < 32 → ∀ d, s.link.table.dest = some d → s.noticeClassFree = true →
      ∃ m rest, s.mgmt.notices ++ [⟨n, b⟩] = m :: rest ∧ t.mgmt = { s.mgmt with notices := rest, overflow := false }
        ∧ t.link.Holds (.notice d s.link.table.address s.mgmt.overflow m) ∧ ∀ f, s.link.Holds f → t.link.Holds f)
    ∧ (32 ≤ s.mgmt.notices.length → t.mgmt = { s.mgmt with overflow := true } ∧ t.link = s.link)

/-! ### Table requests -/

/-- LOAD_FEEDER and LOAD_BUS, arriving and served at once (log entry 5), of a present entry with fields in range and a source nobody
has: OK. The stream is FILLING and empty, with source and multiplier stored and its counts kept, or keeps its window, state, last
sequence and timer where the source address is unchanged; a stream that leaves LIVE loses its measurement record, the element
record is held, and a running bus delay timer is held; the plant fields are stored (R3, R4, R21, R36, R50), and for the bus the
neutral displacement threshold is formed anew (R30, R31). A present-clear load makes the stream UNCONFIGURED, its counts kept, and
clears the plant fields; for the bus the detector returns to its reset values and the threshold goes. Of an UNCONFIGURED stream it
changes neither the stream nor the detector. -/
def Obligations.LoadStreamsStore : Prop :=
  (∀ (s : State) (req : RequestId) (f : Feeder) (e : EntryId), s.Ready req → s.mode f = .outOfService → s.involves f = false →
      e = Feeder.entry f →
      (∀ (x : StreamFields) (p : FeederPlant) (same : Prop), x.Valid → p.Valid f → s.sourceTaken e x.source = false →
        (same ↔ (s.stream e).state ≠ .unconfigured ∧ (s.stream e).source = some x.source) →
        ∃ t, exec (.loadFeeder req (BitVec.ofNat 8 f.val) (encodeFeeder (x, p))) s = .next t
          ∧ s.Answered t req 0x01#8 (0x01#8 :: BitVec.ofNat 8 f.val :: encodeFeeder (x, p)) .ok []
          ∧ t.plant f = some p
          ∧ (same → t.stream e = { s.stream e with silence := some x.silence })
          ∧ (¬ same → t.stream e = ⟨.filling, some x.source, some x.silence, none, [], none,
              (s.stream e).heldCount, (s.stream e).staleCount⟩)
          ∧ ((¬ same ∧ (s.stream e).state = .live) → t.meas f = none ∧ t.element f = (s.element f).held)
          ∧ ((same ∨ (s.stream e).state ≠ .live) → t.meas f = s.meas f ∧ t.element f = s.element f)
          ∧ (∀ j, j ≠ e → t.stream j = s.stream j) ∧ (∀ g, g ≠ f → t.meas g = s.meas g ∧ t.element g = s.element g)
          ∧ (∀ g, g ≠ f → t.plant g = s.plant g) ∧ s.PortKept t
          ∧ t = { s with
              intake := t.intake, phasor := { s.phasor with feeders := t.phasor.feeders }
              bank := { s.bank with records := t.bank.records, plants := t.bank.plants }
              link := t.link, mgmt := t.mgmt, outputs := t.outputs })
        ∧ ∀ r : List Byte, r.length = 7 → byteAt r 0 = 0 →
          ∃ t, exec (.loadFeeder req (BitVec.ofNat 8 f.val) r) s = .next t
            ∧ s.Answered t req 0x01#8 (0x01#8 :: BitVec.ofNat 8 f.val :: r) .ok [] ∧ t.plant f = none
            ∧ t.stream e = (if (s.stream e).state = .unconfigured then s.stream e
              else ⟨.unconfigured, none, none, none, [], none, (s.stream e).heldCount, (s.stream e).staleCount⟩)
            ∧ (∀ j, j ≠ e → t.stream j = s.stream j) ∧ (∀ g, g ≠ f → t.plant g = s.plant g) ∧ s.PortKept t)
  ∧ (∀ (s : State) (req : RequestId), s.Ready req → s.Calm →
      (∀ (x : StreamFields) (p : BusPlant) (same : Prop), x.Valid → p.Valid → s.sourceTaken busEntry x.source = false →
        (same ↔ (s.stream busEntry).state ≠ .unconfigured ∧ (s.stream busEntry).source = some x.source) →
        ∃ t, exec (.loadBus req 0x00#8 (encodeBus (x, p))) s = .next t
          ∧ s.Answered t req 0x01#8 (0x02#8 :: 0x00#8 :: encodeBus (x, p)) .ok []
          ∧ t.bank.bus = some p
          ∧ (same → t.stream busEntry = { s.stream busEntry with silence := some x.silence })
          ∧ (¬ same → t.stream busEntry = ⟨.filling, some x.source, some x.silence, none, [], none,
              (s.stream busEntry).heldCount, (s.stream busEntry).staleCount⟩)
          ∧ ((¬ same ∧ (s.stream busEntry).state = .live) → t.phasor.bus = none ∧ t.bank.nd = { s.bank.nd with
              timer := match s.bank.nd.timer with
                | .running expiry => .held (expiry - s.time)
                | timer => timer })
          ∧ ((same ∨ (s.stream busEntry).state ≠ .live) → t.phasor.bus = s.phasor.bus ∧ t.bank.nd = s.bank.nd)
          ∧ (∀ k q, s.active busEntry = some (k, q) → t.phasor.threshold = some (p.vnom * ndPercent q.ndStep / 100))
          ∧ (s.active busEntry = none → t.phasor.threshold = none)
          ∧ (∀ e, e ≠ busEntry → t.stream e = s.stream e) ∧ s.PortKept t
          ∧ t = { s with
              intake := t.intake, phasor := { s.phasor with bus := t.phasor.bus, threshold := t.phasor.threshold }
              bank := { s.bank with bus := t.bank.bus, nd := t.bank.nd }
              link := t.link, mgmt := t.mgmt, outputs := t.outputs })
        ∧ ∀ r : List Byte, r.length = 7 → byteAt r 0 = 0 →
          ∃ t, exec (.loadBus req 0x00#8 r) s = .next t ∧ s.Answered t req 0x01#8 (0x02#8 :: 0x00#8 :: r) .ok []
            ∧ ((s.stream busEntry).state = .unconfigured → t.intake = s.intake ∧ t.bank = s.bank ∧ t.phasor = s.phasor)
            ∧ ((s.stream busEntry).state ≠ .unconfigured → t.bank.bus = none ∧ t.bank.nd = ⟨.dropped, .stopped, false⟩
              ∧ t.phasor.threshold = none
              ∧ t.stream busEntry = ⟨.unconfigured, none, none, none, [], none, (s.stream busEntry).heldCount,
                (s.stream busEntry).staleCount⟩)
            ∧ (∀ e, e ≠ busEntry → t.stream e = s.stream e) ∧ s.PortKept t)

/-- A LOAD_TABLE, arriving and served at once (log entry 5), that its owner refuses is answered with the result of the first check
that fails, and changes nothing: IN_USE, INVALID for a wrong length or index, for a field out of its range and for an address
somebody has, EMPTY for a profile whose curve is not LOADED (R3, R38, R64, R101, R132, R133, R149, R158). A present-clear load of an
OUTSTATION, PROFILE or CURVE slot that is not in use empties it (R38, R65, R102). READ_TABLE returns each table's record as it is
held, or its EMPTY state, and READ_STATE the parts that R167 and R168 list, in their order (R162). That bits 2 to 7 of an OUTSTATION
flag byte make a record INVALID is the model's reading (log entry 12). The widths of the fields that 8.5.3 gives no type, the codes
it does not fix, the form of fields given in some cases only and the unused places of LINK are the model's (log entries 13, 30, 31,
32). -/
def Obligations.LoadsRefusedTablesRead : Prop :=
  (∀ (s : State) (req : RequestId) (r : List Byte), s.Ready req → s.Still →
      (∀ index : Byte,
        (r.length ≠ 7 ∨ 8 ≤ index.toNat → s.AnswersAlone (.loadFeeder req index r) req 0x01#8 (0x01#8 :: index :: r) .invalid)
          ∧ (r.length ≠ 7 ∨ 1 ≤ index.toNat → s.AnswersAlone (.loadBus req index r) req 0x01#8 (0x02#8 :: index :: r) .invalid)
          ∧ (r.length ≠ 10 ∨ 64 ≤ index.toNat →
            s.AnswersAlone (.loadOutstation req index r) req 0x01#8 (0x03#8 :: index :: r) .invalid)
          ∧ (r.length ≠ 50 ∨ 4 ≤ index.toNat →
            s.AnswersAlone (.loadProfile req index r) req 0x01#8 (0x04#8 :: index :: r) .invalid)
          ∧ (r.length ≠ 611 ∨ 4 ≤ index.toNat →
            s.AnswersAlone (.loadCurve req index r) req 0x01#8 (0x05#8 :: index :: r) .invalid)
          ∧ (r.length ≠ 1 + 2 * byteAt r 0 ∨ 8 ≤ index.toNat →
            s.AnswersAlone (.loadHuntPlan req index r) req 0x01#8 (0x06#8 :: index :: r) .invalid)
          ∧ (r.length ≠ 1 + byteAt r 0 ∨ 1 ≤ index.toNat →
            s.AnswersAlone (.loadBusOrder req index r) req 0x01#8 (0x07#8 :: index :: r) .invalid)
          ∧ (r.length ≠ 21 ∨ 1 ≤ index.toNat →
            s.AnswersAlone (.loadLink req index r) req 0x01#8 (0x08#8 :: index :: r) .invalid))
        ∧ (∀ f : Feeder, r.length = 7 →
          let alone := s.AnswersAlone (.loadFeeder req (BitVec.ofNat 8 f.val) r) req 0x01#8 (0x01#8 :: BitVec.ofNat 8 f.val :: r)
          (s.mode f ≠ .outOfService ∨ s.involves f = true → alone .inUse)
            ∧ (s.mode f = .outOfService → s.involves f = false → byteAt r 0 ≠ 0 →
              ((∀ x p, x.Valid → p.Valid f → encodeFeeder (x, p) ≠ r)
                ∨ (∃ e, e ≠ Feeder.entry f ∧ (s.stream e).source = some (u16At r 1))
                ∨ (∃ i l, (s.slot i).loaded = some l ∧ l.address = u16At r 1) ∨ u16At r 1 = s.link.table.address) →
              alone .invalid))
        ∧ (r.length = 7 →
          let alone := s.AnswersAlone (.loadBus req 0x00#8 r) req 0x01#8 (0x02#8 :: 0x00#8 :: r)
          (s.ctx.state ≠ .idle ∧ s.ctx.observed = some .displacement → alone .inUse)
            ∧ (¬ (s.ctx.state ≠ .idle ∧ s.ctx.observed = some .displacement) → byteAt r 0 ≠ 0 →
              ((∀ (x : StreamFields) (p : BusPlant), x.Valid → p.Valid → encodeBus (x, p) ≠ r)
                ∨ (∃ e, e ≠ busEntry ∧ (s.stream e).source = some (u16At r 1))
                ∨ (∃ i l, (s.slot i).loaded = some l ∧ l.address = u16At r 1) ∨ u16At r 1 = s.link.table.address) →
              alone .invalid))
        ∧ (∀ i : SlotId, r.length = 10 →
          let alone := s.AnswersAlone (.loadOutstation req (BitVec.ofNat 8 i.val) r) req 0x01#8
            (0x03#8 :: BitVec.ofNat 8 i.val :: r)
          let used := ((s.slot i).state = .enrolling ∨ (s.slot i).state = .inService ∨ (s.slot i).state = .unreachable)
            ∨ (SlotId.position i = 0 ∧ s.mode (SlotId.feeder i) ≠ .outOfService)
          (used → alone .inUse)
            ∧ (¬ used → byteAt r 0 ≠ 0 →
              ((∀ l : Loaded, l.Valid (SlotId.position i) → encodeOutstation l ≠ r)
                ∨ (∃ j l, j ≠ i ∧ (s.slot j).loaded = some l ∧ l.address = u16At r 1)
                ∨ (∃ e, (s.stream e).source = some (u16At r 1)) ∨ u16At r 1 = s.link.table.address) → alone .invalid)
            ∧ (¬ used → byteAt r 0 = 0 → ∃ t, exec (.loadOutstation req (BitVec.ofNat 8 i.val) r) s = .next t
              ∧ s.Answered t req 0x01#8 (0x03#8 :: BitVec.ofNat 8 i.val :: r) .ok [] ∧ t.slot i = Outstation.reset
              ∧ t.follower i = ⟨.none, none⟩ ∧ ∀ j, j ≠ i → t.slot j = s.slot j ∧ t.follower j = s.follower j))
        ∧ (∀ k : BankSlot, r.length = 50 →
          let alone := s.AnswersAlone (.loadProfile req (BitVec.ofNat 8 k.val) r) req 0x01#8 (0x04#8 :: BitVec.ofNat 8 k.val :: r)
          let used := ∃ e, (s.entry e).active = some k ∨ (s.entry e).pend = some k
          (used → alone .inUse)
            ∧ (¬ used → byteAt r 0 ≠ 0 → (∀ p : Profile, p.Valid → encodeProfile p ≠ r) → alone .invalid)
            ∧ (∀ p : Profile, ¬ used → p.Valid → r = encodeProfile p →
              ((p.ph.enable = true ∧ s.curve p.ph.curve = none) ∨ (p.ef.enable = true ∧ s.curve p.ef.curve = none)) →
              alone .empty)
            ∧ (¬ used → byteAt r 0 = 0 → ∃ t, exec (.loadProfile req (BitVec.ofNat 8 k.val) r) s = .next t
              ∧ s.Answered t req 0x01#8 (0x04#8 :: BitVec.ofNat 8 k.val :: r) .ok [] ∧ t.profile k = none
              ∧ (∀ j, j ≠ k → t.profile j = s.profile j) ∧ t.profiles.curves = s.profiles.curves
              ∧ t.profiles.map = s.profiles.map))
        ∧ (∀ k : BankSlot, r.length = 611 →
          let alone := s.AnswersAlone (.loadCurve req (BitVec.ofNat 8 k.val) r) req 0x01#8 (0x05#8 :: BitVec.ofNat 8 k.val :: r)
          let used := ∃ e j p, ((s.entry e).active = some j ∨ (s.entry e).pend = some j) ∧ s.profile j = some p
            ∧ (p.ph.curve = k ∨ p.ef.curve = k)
          (used → alone .inUse)
            ∧ (¬ used → byteAt r 0 ≠ 0 → (∀ c, curveValid c → encodeCurve c ≠ r) → alone .invalid)
            ∧ (¬ used → byteAt r 0 = 0 → ∃ t, exec (.loadCurve req (BitVec.ofNat 8 k.val) r) s = .next t
              ∧ s.Answered t req 0x01#8 (0x05#8 :: BitVec.ofNat 8 k.val :: r) .ok [] ∧ t.curve k = none
              ∧ (∀ j, j ≠ k → t.curve j = s.curve j) ∧ t.profiles.slots = s.profiles.slots ∧ t.profiles.map = s.profiles.map))
        ∧ (∀ f : Feeder, r.length = 1 + 2 * byteAt r 0 →
          let alone := s.AnswersAlone (.loadHuntPlan req (BitVec.ofNat 8 f.val) r) req 0x01#8
            (0x06#8 :: BitVec.ofNat 8 f.val :: r)
          (s.involves f = true → alone .inUse)
            ∧ (s.involves f = false →
              ((∀ p, planValid p → encodePlan p ≠ r)
                ∨ (∃ p x q, planValid p ∧ r = encodePlan p ∧ x ∈ p ∧ x.indicator = some q
                  ∧ ((s.slot (Feeder.slot f q)).loaded.any fun l => l.kind == .indicator) = false)) → alone .invalid))
        ∧ (r.length = 1 + byteAt r 0 →
          let alone := s.AnswersAlone (.loadBusOrder req 0x00#8 r) req 0x01#8 (0x07#8 :: 0x00#8 :: r)
          (s.ctx.state ≠ .idle ∧ s.ctx.kind = some .bus → alone .inUse)
            ∧ (¬ (s.ctx.state ≠ .idle ∧ s.ctx.kind = some .bus) →
              (∀ fs : List Feeder, fs.Nodup → encodeBusOrder fs ≠ r) → alone .invalid))
        ∧ (r.length = 21 →
          ((u16At r 0 = 0x0000#16 ∨ u16At r 0 = 0xFFFF#16 ∨ u16At r 2 = 0xFFFF#16 ∨ 4 < byteAt r 4
              ∨ (∃ k, k < byteAt r 4 ∧ (u16At r (5 + 2 * k) = 0x0000#16 ∨ u16At r (5 + 2 * k) = 0xFFFF#16))
              ∨ (∃ j k, j < k ∧ k < byteAt r 4 ∧ u16At r (5 + 2 * j) = u16At r (5 + 2 * k))
              ∨ (∃ k, k < 8 ∧ 3 < byteAt r (13 + k))
              ∨ (∃ e, (s.stream e).source = some (u16At r 0))
              ∨ (∃ i l, (s.slot i).loaded = some l ∧ l.address = u16At r 0)) →
            s.AnswersAlone (.loadLink req 0x00#8 r) req 0x01#8 (0x08#8 :: 0x00#8 :: r) .invalid)))
  ∧ (∀ s : State,
      (∀ f : Feeder,
        s.tableRecord 0x01#8 (BitVec.ofNat 8 f.val) = some (match (s.stream (Feeder.entry f)).source,
            (s.stream (Feeder.entry f)).silence, s.plant f with
          | some a, some n, some p => encodeFeeder (⟨a, n⟩, p)
          | _, _, _ => List.replicate 7 0x00#8)
        ∧ s.tableRecord 0x06#8 (BitVec.ofNat 8 f.val) = some (encodePlan (s.plan f)))
        ∧ s.tableRecord 0x02#8 0x00#8 = some (match (s.stream busEntry).source, (s.stream busEntry).silence, s.bank.bus with
          | some a, some n, some p => encodeBus (⟨a, n⟩, p)
          | _, _, _ => List.replicate 7 0x00#8)
        ∧ (∀ i : SlotId, s.tableRecord 0x03#8 (BitVec.ofNat 8 i.val) = some (match (s.slot i).loaded with
          | some l => encodeOutstation l
          | none => List.replicate 10 0x00#8))
        ∧ (∀ k : BankSlot, s.tableRecord 0x04#8 (BitVec.ofNat 8 k.val) = some (match s.profile k with
            | some p => encodeProfile p
            | none => List.replicate 50 0x00#8)
          ∧ s.tableRecord 0x05#8 (BitVec.ofNat 8 k.val) = some (match s.curve k with
            | some c => encodeCurve c
            | none => List.replicate 611 0x00#8))
        ∧ s.tableRecord 0x07#8 0x00#8 = some (encodeBusOrder s.hunt.busOrder)
        ∧ s.tableRecord 0x08#8 0x00#8 = some (encodeLink s.link.table)
        ∧ (∀ f : Feeder, s.feederSnapshot f =
          b48 s.time ++ [BitVec.ofNat 8 f.val, BitVec.ofNat 8 (s.mode f).code]
            ++ (BitVec.ofNat 8 (s.stream (Feeder.entry f)).state.code
              :: (b16 (s.stream (Feeder.entry f)).heldCount ++ b16 (s.stream (Feeder.entry f)).staleCount))
            ++ (match s.meas f with | some m => encodeMeasurement m | none => List.replicate 18 0xFF#8)
            ++ encodeElement (s.element f) ++ s.encodeEntry (Feeder.entry f) ++ s.encodeReclose f
            ++ (Feeder.slots f).flatMap (fun i => encodeSlot (s.slot i))
            ++ (if s.involves f = true then 0x01#8 else 0x00#8) :: b16 (s.plan f).length)
        ∧ ∀ ticket, s.busSnapshot ticket =
          b48 s.time ++ 0x08#8 :: (BitVec.ofNat 8 (s.stream busEntry).state.code
              :: (b16 (s.stream busEntry).heldCount ++ b16 (s.stream busEntry).staleCount))
            ++ (match s.phasor.bus with | some m => encodeBusMeasurement m | none => List.replicate 10 0xFF#8)
            ++ (match s.phasor.threshold with | some n => b16 n | none => [0xFF#8, 0xFF#8])
            ++ BitVec.ofNat 8 s.bank.nd.pick.code :: s.encodeNdTimer
            ++ (if s.bank.nd.operated = true then 0x01#8 else 0x00#8) :: s.encodeEntry busEntry
            ++ encodeContext s.ctx ++ (match s.ctx.settle with | some d => b32 (d - s.time) | none => List.replicate 4 0xFF#8)
            ++ BitVec.ofNat 8 s.hunt.pendingList.length :: s.hunt.pendingList.map (fun e => BitVec.ofNat 8 e.val)
            ++ s.link.log.toList.flatMap (fun l => b16 l.count ++ [if l.seen = true then 0x01#8 else 0x00#8])
            ++ b16 (s.countEntries ticket).1 ++ b16 (s.countEntries ticket).2.1 ++ b16 (s.countEntries ticket).2.2
            ++ b16 s.mgmt.notices.length ++ [if s.mgmt.overflow = true then 0x01#8 else 0x00#8])

/-- LOAD_OUTSTATION, arriving and served at once (log entry 5), of a present entry with fields in range and an address nobody has:
OK; a slot that was EMPTY becomes OUT_OF_SERVICE with reset values; a new address clears what was known of the old one (R101, R102).
That a new address keeps the tag counter, the failure count and the last completion time is the model's choice (log entry 17). -/
def Obligations.LoadOutstationStores : Prop :=
  ∀ (s : State) (req : RequestId) (i : SlotId) (l : Loaded), s.Ready req → l.Valid (SlotId.position i) →
    ((s.slot i).state = .empty ∨ (s.slot i).state = .outOfService) →
    (SlotId.position i = 0 → s.mode (SlotId.feeder i) = .outOfService) →
    s.slotHas (some i) l.address = false → s.streamHas none l.address = false → l.address ≠ s.link.table.address →
    ∃ t, exec (.loadOutstation req (BitVec.ofNat 8 i.val) (encodeOutstation l)) s = .next t
      ∧ s.Answered t req 0x01#8 (0x03#8 :: BitVec.ofNat 8 i.val :: encodeOutstation l) .ok []
      ∧ ((s.slot i).loaded = none → t.slot i = { Outstation.reset with state := .outOfService, loaded := some l })
      ∧ (∀ l0, (s.slot i).loaded = some l0 → l0.address = l.address → t.slot i = { s.slot i with loaded := some l })
      ∧ (∀ l0, (s.slot i).loaded = some l0 → l0.address ≠ l.address → t.slot i = { s.slot i with
          loaded := some l, known := .unknown, history := [], flags := none, passage := none, expiredTag := none })
      ∧ (∀ j, j ≠ i → t.slot j = s.slot j) ∧ s.PortKept t
      ∧ t = { s with exchange := t.exchange, link := t.link, mgmt := t.mgmt, outputs := t.outputs }

/-- LOAD_PROFILE and LOAD_CURVE, arriving and served at once (log entry 5), of a present record into a slot that is not in use: OK,
and the slot holds the new contents whole (R38, R64, R65, R66). LOAD_HUNT_PLAN and LOAD_BUS_ORDER: OK, and the plan or the order is
replaced whole (R132, R133). -/
def Obligations.LoadBankAndHuntStore : Prop :=
  (∀ (s : State) (req : RequestId) (k : BankSlot), s.Ready req →
      (∀ p : Profile, p.Valid → s.slotInUse k = false → s.curveMissing p = false →
        ∃ t, exec (.loadProfile req (BitVec.ofNat 8 k.val) (encodeProfile p)) s = .next t
          ∧ s.Answered t req 0x01#8 (0x04#8 :: BitVec.ofNat 8 k.val :: encodeProfile p) .ok []
          ∧ t.profile k = some p ∧ (∀ j, j ≠ k → t.profile j = s.profile j) ∧ t.profiles.curves = s.profiles.curves
          ∧ t.profiles.map = s.profiles.map ∧ s.NoNotice t ∧ s.PortKept t
          ∧ t = { s with profiles := t.profiles, link := t.link, mgmt := t.mgmt, outputs := t.outputs })
        ∧ (∀ c : List Nat, curveValid c → s.curveInUse k = false →
          ∃ t, exec (.loadCurve req (BitVec.ofNat 8 k.val) (encodeCurve c)) s = .next t
            ∧ s.Answered t req 0x01#8 (0x05#8 :: BitVec.ofNat 8 k.val :: encodeCurve c) .ok []
            ∧ t.curve k = some c ∧ (∀ j, j ≠ k → t.curve j = s.curve j) ∧ t.profiles.slots = s.profiles.slots
            ∧ t.profiles.map = s.profiles.map ∧ s.NoNotice t ∧ s.PortKept t
            ∧ t = { s with profiles := t.profiles, link := t.link, mgmt := t.mgmt, outputs := t.outputs }))
  ∧ (∀ (s : State) (req : RequestId), s.Ready req →
      (∀ (f : Feeder) (p : List PlanStep), planValid p → s.involves f = false → (∀ x ∈ p, s.indicatorOk f x = true) →
        ∃ t, exec (.loadHuntPlan req (BitVec.ofNat 8 f.val) (encodePlan p)) s = .next t
          ∧ s.Answered t req 0x01#8 (0x06#8 :: BitVec.ofNat 8 f.val :: encodePlan p) .ok []
          ∧ t.plan f = p ∧ (∀ g, g ≠ f → t.plan g = s.plan g) ∧ t.hunt.busOrder = s.hunt.busOrder ∧ t.ctx = s.ctx
          ∧ t.hunt.pendingList = s.hunt.pendingList ∧ s.NoNotice t ∧ s.PortKept t
          ∧ t = { s with hunt := t.hunt, link := t.link, mgmt := t.mgmt, outputs := t.outputs })
        ∧ (∀ fs : List Feeder, fs.Nodup → s.busHunting = false →
          ∃ t, exec (.loadBusOrder req 0x00#8 (encodeBusOrder fs)) s = .next t
            ∧ s.Answered t req 0x01#8 (0x07#8 :: 0x00#8 :: encodeBusOrder fs) .ok []
            ∧ t.hunt = { s.hunt with busOrder := fs } ∧ s.NoNotice t ∧ s.PortKept t
            ∧ t = { s with hunt := t.hunt, link := t.link, mgmt := t.mgmt, outputs := t.outputs }))

/-- LOAD_LINK, arriving and served at once (log entry 5), with addresses in range that no stream and no slot has: OK, from the new
engine address, and the link table is replaced whole (R149). -/
def Obligations.LoadLinkStores : Prop :=
  ∀ (s : State) (req : RequestId) (l : LinkTable), s.Ready req → l.Valid → s.streamHas none l.address = false →
    s.slotHas none l.address = false →
    ∃ t, exec (.loadLink req 0x00#8 (encodeLink l)) s = .next t
      ∧ s.Answered t req 0x01#8 (0x08#8 :: 0x00#8 :: encodeLink l) .ok []
      ∧ t.link.table = l ∧ t.link.log = s.link.log ∧ (∀ f, s.link.Holds f → t.link.Holds f)
      ∧ t.outputs.engineOk = s.outputs.engineOk
      ∧ t = { s with link := t.link, mgmt := t.mgmt, outputs := t.outputs }

/-- Whatever a table record holds, loading the bytes that READ_TABLE gives for it gives it back, for all eight tables (R158, R162).
A present record that a load accepts is returned byte for byte, for every table but LINK, whose unused source bytes are
not kept and are written as 0000h (the model's choice, log entry 32): no bit of it is dropped (R158, R162). For OUTSTATION this rests on the model's choice that bits 2 to 7 of its flag byte make a record
INVALID (log entry 12). LoadsRefusedTablesRead ties READ_TABLE to these encodings. -/
def Obligations.TableRecordsRoundTrip : Prop :=
  ((∀ f (x : StreamFields) (p : FeederPlant), x.Valid → p.Valid f → decodeFeeder f (encodeFeeder (x, p)) = some (x, p))
      ∧ (∀ (x : StreamFields) (p : BusPlant), x.Valid → p.Valid → decodeBus (encodeBus (x, p)) = some (x, p))
      ∧ (∀ n (l : Loaded), l.Valid n → decodeOutstation n (encodeOutstation l) = some l)
      ∧ (∀ p : Profile, p.Valid → decodeProfile (encodeProfile p) = some p)
      ∧ (∀ c, curveValid c → decodeCurve (encodeCurve c) = some c)
      ∧ (∀ p, planValid p → decodePlan (encodePlan p) = some p)
      ∧ (∀ fs : List Feeder, fs.Nodup → decodeBusOrder (encodeBusOrder fs) = some fs)
      ∧ ∀ t : LinkTable, t.Valid → decodeLink (encodeLink t) = some t)
  ∧ ((∀ f r x, r.length = 7 → byteAt r 0 ≠ 0 → decodeFeeder f r = some x → encodeFeeder x = r)
      ∧ (∀ r x, r.length = 7 → byteAt r 0 ≠ 0 → decodeBus r = some x → encodeBus x = r)
      ∧ (∀ n r l, r.length = 10 → byteAt r 0 ≠ 0 → decodeOutstation n r = some l → encodeOutstation l = r)
      ∧ (∀ r p, r.length = 50 → byteAt r 0 ≠ 0 → decodeProfile r = some p → encodeProfile p = r)
      ∧ (∀ r c, r.length = 611 → byteAt r 0 ≠ 0 → decodeCurve r = some c → encodeCurve c = r)
      ∧ (∀ r p, r.length = 1 + 2 * byteAt r 0 → decodePlan r = some p → encodePlan p = r)
      ∧ ∀ r fs, r.length = 1 + byteAt r 0 → decodeBusOrder r = some fs → encodeBusOrder fs = r)

/-- READ_TABLE, READ_STATE and READ_TRIPS, arriving and served at once (log entry 5), are answered OK with what stands in the state,
and change nothing (R58, R162, R167 to R169). LoadsRefusedTablesRead says what stands in a table record and in a
snapshot. The codes of completions in a trip record are the model's (log entry 30). -/
def Obligations.ReadsChangeNothing : Prop :=
  ∀ (s : State) (req : RequestId), s.Ready req →
    (∀ table index r, s.tableRecord table index = some r → ∃ t, exec (.readTable req table index) s = .next t
      ∧ s.Answered t req 0x02#8 [table, index] .ok r ∧ s.NoNotice t ∧ s.PortKept t ∧ s.SameBut t)
      ∧ (∀ table index, s.tableRecord table index = none → ∃ t, exec (.readTable req table index) s = .next t
        ∧ s.Answered t req 0x02#8 [table, index] .invalid [] ∧ s.NoNotice t ∧ s.PortKept t ∧ s.SameBut t)
      ∧ (∀ f : Feeder, ∃ t, exec (.readStateFeeder req (BitVec.ofNat 8 f.val)) s = .next t
        ∧ s.Answered t req 0x0D#8 [BitVec.ofNat 8 f.val] .ok (s.feederSnapshot f) ∧ s.NoNotice t ∧ s.PortKept t ∧ s.SameBut t)
      ∧ (∃ t, exec (.readStateBus req) s = .next t
        ∧ s.Answered t req 0x0D#8 [0x08#8] .ok (({ s with mgmt := { s.mgmt with
            requests := [⟨s.mgmt.nextTicket, req, 0x0D#8, [0x08#8], .replying .ok⟩] } } : State).busSnapshot s.mgmt.nextTicket)
        ∧ s.NoNotice t ∧ s.PortKept t ∧ s.SameBut t)
      ∧ ∃ t, exec (.readTrips req) s = .next t
        ∧ s.Answered t req 0x0E#8 [] .ok (BitVec.ofNat 8 s.bank.trips.length :: s.bank.trips.flatMap encodeTrip)
        ∧ s.NoNotice t ∧ s.PortKept t ∧ s.SameBut t

/-! ### Other requests -/

/-- SELECT_PROFILE, arriving and served at once (log entry 5), on one entry, where no takeover waits: a LOADED slot takes over at
once where the entry has no active slot, where its fire level is not below the active one's, or where the entry is quiet (TAKEN);
the slot already active stays (KEPT); otherwise it pends (PENDING) (R68, R69). Model's choices: bits 9 to 15 of the entry set
are ignored (log entry 12), and the payload is the entry and its outcome with no count byte before them (log entry 31). Selections of several entries and of an entry that has a pending slot are not stated. -/
def Obligations.SelectProfileApplies : Prop :=
  ∀ (s : State) (req : RequestId) (k : BankSlot) (p : Profile) (e : EntryId) (w : U16), s.Ready req → s.Calm →
    entrySetOf w = [e] → s.profile k = some p → (e ≠ busEntry → s.curveMissing p = false) →
    ∃ t, exec (.selectProfile req (BitVec.ofNat 8 k.val) w) s = .next t
      ∧ ((s.entry e).active = none → t.entry e = ⟨some k, none⟩
        ∧ s.Answered t req 0x03#8 (BitVec.ofNat 8 k.val :: bWord w) .ok [BitVec.ofNat 8 e.val, 0x00#8])
      ∧ (∀ a q, (s.entry e).active = some a → s.profile a = some q →
        (k = a → t.entry e = ⟨some k, none⟩
          ∧ s.Answered t req 0x03#8 (BitVec.ofNat 8 k.val :: bWord w) .ok [BitVec.ofNat 8 e.val, 0x01#8])
          ∧ (k ≠ a → (q.fireLevel ≤ p.fireLevel ∨ s.quiet e = true) → t.entry e = ⟨some k, none⟩
            ∧ s.Answered t req 0x03#8 (BitVec.ofNat 8 k.val :: bWord w) .ok [BitVec.ofNat 8 e.val, 0x00#8])
          ∧ (k ≠ a → p.fireLevel < q.fireLevel → s.quiet e = false → t.entry e = ⟨some a, some k⟩
            ∧ s.Answered t req 0x03#8 (BitVec.ofNat 8 k.val :: bWord w) .ok [BitVec.ofNat 8 e.val, 0x02#8]))
      ∧ (∀ j, j ≠ e → t.entry j = s.entry j) ∧ t.profiles.slots = s.profiles.slots ∧ t.profiles.curves = s.profiles.curves

/-- SET_BLOCK, arriving and served at once (log entry 5), adds MANUAL or HOT_LINE to a feeder's set, and CLEAR_BLOCK removes it; a
member added in DEAD_TIME sends the state to LOCKOUT with cause BLOCKED; every other feeder's reclose record is as it was (R80,
R81, R88). A set that becomes non-empty: each follower in NONE or RELEASE_PENDING whose outstation is IN_SERVICE or UNREACHABLE is
BLOCK_PENDING with a BLOCK at its slot, or, where a BLOCK is in flight and none queued, BLOCKED at once; in another outstation
state nothing is handed (R96, R97, R109); where a BLOCK is queued the new one joins it. A set that becomes empty: each follower in
BLOCK_PENDING or BLOCKED has its refresh timer stopped and is RELEASE_PENDING with a RELEASE at its slot, or, where a RELEASE is
in flight and none queued, NONE at once, and where one is queued the new one joins it; a follower in NONE stays (R98, R109). A set
that is non-empty on both sides, and another feeder's set, leave followers and slots as they were (R80). -/
def Obligations.BlocksJoinAndLeave : Prop :=
  ∀ (s : State) (req : RequestId) (f : Feeder) (m : Reason) (b : Byte), s.Ready req → s.Calm →
    (b = 0x01#8 ∧ m = .manual ∨ b = 0x02#8 ∧ m = .hotLine) →
    (∃ t, exec (.setBlock req (BitVec.ofNat 8 f.val) b) s = .next t
      ∧ s.Answered t req 0x04#8 [BitVec.ofNat 8 f.val, b] .ok []
      ∧ (t.recl f).reasons = (s.recl f).reasons.put true m
      ∧ (∀ n d, (s.recl f).state = .deadTime n d → (s.recl f).reasons.has m = false →
        (t.recl f).state = .lockout .blocked)
      ∧ (∀ i l, SlotId.feeder i = f → (s.slot i).loaded = some l → l.follower = true → l.kind = .recloser →
        (s.recl f).reasons.isEmpty = true → ((s.follower i).state = .none ∨ (s.follower i).state = .releasePending) →
        ((s.slot i).state = .inService ∨ (s.slot i).state = .unreachable) →
        ((s.slot i).queued (· == .block) = false → (s.slot i).flying (· == .block) = false →
          t.follower i = ⟨.blockPending, none⟩ ∧ (t.slot i).Has { kind := .block, origin := .reclose })
          ∧ ((s.slot i).queued (· == .block) = false → (s.slot i).flying (· == .block) = true → t.follower i = ⟨.blocked, some (s.time + 1000 * l.refresh)⟩)
          ∧ ((s.slot i).queued (· == .block) = true →
            t.follower i = ⟨.blockPending, none⟩ ∧ ∃ c, c.kind = .block ∧ (t.slot i).Has c))
      ∧ (∀ i, (SlotId.feeder i ≠ f ∨ (s.recl f).reasons.isEmpty = false ∨ (s.follower i).state = .none
          ∧ (s.slot i).state ≠ .inService ∧ (s.slot i).state ≠ .unreachable) →
        t.slot i = s.slot i ∧ t.follower i = s.follower i)
      ∧ (∀ g, g ≠ f → t.recl g = s.recl g) ∧ s.PortKept t
      ∧ t = { s with reclose := t.reclose, exchange := t.exchange, link := t.link, mgmt := t.mgmt, outputs := t.outputs })
    ∧ ∃ t, exec (.clearBlock req (BitVec.ofNat 8 f.val) b) s = .next t
      ∧ s.Answered t req 0x05#8 [BitVec.ofNat 8 f.val, b] .ok []
      ∧ t.recl f = ⟨(s.recl f).state, (s.recl f).reasons.put false m⟩
      ∧ (∀ i l, SlotId.feeder i = f → (s.slot i).loaded = some l → l.follower = true → l.kind = .recloser →
        (s.recl f).reasons.has m = true → ((s.recl f).reasons.put false m).isEmpty = true →
        ((s.follower i).state = .blockPending ∨ (s.follower i).state = .blocked) →
        ((s.slot i).state = .inService ∨ (s.slot i).state = .unreachable) →
        ((s.slot i).queued (· == .release) = false → (s.slot i).flying (· == .release) = false →
          t.follower i = ⟨.releasePending, none⟩ ∧ (t.slot i).Has { kind := .release, origin := .reclose })
          ∧ ((s.slot i).queued (· == .release) = false → (s.slot i).flying (· == .release) = true → t.follower i = ⟨.none, none⟩)
          ∧ ((s.slot i).queued (· == .release) = true →
            t.follower i = ⟨.releasePending, none⟩ ∧ ∃ c, c.kind = .release ∧ (t.slot i).Has c))
      ∧ (∀ i, (SlotId.feeder i ≠ f ∨ (s.recl f).reasons.has m = false ∨ ((s.recl f).reasons.put false m).isEmpty = false
          ∨ (s.follower i).state = .none) →
        t.slot i = s.slot i ∧ t.follower i = s.follower i)
      ∧ (∀ g, g ≠ f → t.recl g = s.recl g) ∧ s.PortKept t
      ∧ t = { s with reclose := t.reclose, exchange := t.exchange, link := t.link, mgmt := t.mgmt, outputs := t.outputs }

/-- SET_MODE, arriving and served at once (log entry 5): into OUT_OF_SERVICE the element record takes its reset values and the
reclose state goes to OFF; out of it the reclose state goes to READY where slot 0 is known CLOSED and to LOCKOUT with cause START
otherwise; between IN_SERVICE and TEST nothing else changes (R62, R93, R181). -/
def Obligations.SetModeChanges : Prop :=
  ∀ (s : State) (req : RequestId) (f : Feeder) (m : Mode) (b : Byte), s.Ready req → s.Calm → modeOf b = some m →
    s.mode f ≠ m → (s.recl f).state.cycling = false → (s.mode f = .outOfService → s.mayServe f = true) →
    ∃ t, exec (.setMode req (BitVec.ofNat 8 f.val) b) s = .next t
      ∧ s.Answered t req 0x06#8 [BitVec.ofNat 8 f.val, b] .ok [] ∧ t.mode f = m
      ∧ (m = .outOfService → t.element f = ElementRecord.reset ∧ (t.recl f).state = .off)
      ∧ (s.mode f = .outOfService → t.element f = s.element f
        ∧ (t.recl f).state = if (s.slot (Feeder.head f)).known = .closed then .ready else .lockout .start)
      ∧ (m ≠ .outOfService → s.mode f ≠ .outOfService → t.element f = s.element f ∧ t.recl f = s.recl f)
      ∧ (t.recl f).reasons = (s.recl f).reasons
      ∧ (∀ g, g ≠ f → t.mode g = s.mode g ∧ t.element g = s.element g ∧ t.recl g = s.recl g) ∧ s.PortKept t
      ∧ t = { s with modes := t.modes, bank := t.bank, reclose := t.reclose, link := t.link, mgmt := t.mgmt
                     outputs := t.outputs }

/-- SET_SERVICE, arriving and served at once (log entry 5): on of an OUT_OF_SERVICE slot: ENROLLING, and an ENROL with the expected
kind and three refresh periods of hold time is with the slot (R103); off of a slot with nothing in flight: OUT_OF_SERVICE with an
empty queue (R105). -/
def Obligations.SetServiceChanges : Prop :=
  ∀ (s : State) (req : RequestId) (i : SlotId), s.Ready req →
    (∀ l, (s.slot i).state = .outOfService → (s.slot i).loaded = some l →
      ∃ t, exec (.setServiceOn req (BitVec.ofNat 8 i.val)) s = .next t
        ∧ s.Answered t req 0x07#8 [BitVec.ofNat 8 i.val, 0x01#8] .ok []
        ∧ (t.slot i).still = { (s.slot i).still with
            state := .enrolling, known := .unknown, history := [], flags := none, passage := none, expiredTag := none
            failures := 0 }
        ∧ (t.slot i).Has { kind := .enrol, origin := .exchange, expected := some l.kind, hold := 3 * l.refresh }
        ∧ (∀ j, j ≠ i → t.slot j = s.slot j) ∧ s.PortKept t
        ∧ t = { s with exchange := t.exchange, link := t.link, mgmt := t.mgmt, outputs := t.outputs })
      ∧ (((s.slot i).state = .enrolling ∨ (s.slot i).state = .inService ∨ (s.slot i).state = .unreachable) →
        (s.slot i).inFlight = none → (SlotId.position i = 0 → s.mode (SlotId.feeder i) = .outOfService) →
        s.isOpenPoint i = false →
        ∃ t, exec (.setServiceOff req (BitVec.ofNat 8 i.val)) s = .next t
          ∧ s.Answered t req 0x07#8 [BitVec.ofNat 8 i.val, 0x00#8] .ok []
          ∧ t.slot i = { s.slot i with state := .outOfService, known := .unknown, history := [], flags := none
                                       passage := none, queue := [] }
          ∧ ∀ j, j ≠ i → (t.slot j).still = (s.slot j).still)

/-- OPERATE, arriving and served at once (log entry 5), of a point that can take it: the entry becomes DEFERRED and the OPEN or
CLOSE is with the slot (R106, R108, R164, R182). -/
def Obligations.OperateIsDeferred : Prop :=
  ∀ (s : State) (req : RequestId) (i : SlotId) (k : CmdKind), s.Ready req → s.isOpenPoint i = false →
    s.mode (SlotId.feeder i) ≠ .test → (SlotId.position i = 0 → s.operateCheck (SlotId.feeder i) k = none) →
    (s.slot i).state = .inService →
    ((s.slot i).loaded.any fun l => l.kind == .breaker || l.kind == .recloser || l.kind == .sectionaliser) = true →
    (∀ c ∈ (s.slot i).queue, c.kind.isSwitch = false) →
    (k = .opn → ∃ t, exec (.operateOpen req (BitVec.ofNat 8 i.val)) s = .next t
      ∧ s.Served t req 0x08#8 [BitVec.ofNat 8 i.val, 0x01#8] .deferred
      ∧ (t.slot i).Has { kind := .opn, origin := .management s.mgmt.nextTicket } ∧ (t.slot i).still = (s.slot i).still
      ∧ (∀ j, j ≠ i → t.slot j = s.slot j) ∧ s.NoNotice t ∧ s.PortKept t
      ∧ t = { s with exchange := t.exchange, link := t.link, mgmt := t.mgmt, outputs := t.outputs })
      ∧ (k = .close → ∃ t, exec (.operateClose req (BitVec.ofNat 8 i.val)) s = .next t
        ∧ s.Served t req 0x08#8 [BitVec.ofNat 8 i.val, 0x02#8] .deferred
        ∧ (t.slot i).Has { kind := .close, origin := .management s.mgmt.nextTicket } ∧ (t.slot i).still = (s.slot i).still
        ∧ (∀ j, j ≠ i → t.slot j = s.slot j) ∧ s.NoNotice t ∧ s.PortKept t
        ∧ t = { s with exchange := t.exchange, link := t.link, mgmt := t.mgmt, outputs := t.outputs })

/-- RESET_LOCKOUT, arriving and served at once (log entry 5), in LOCKOUT with slot 0 known CLOSED: READY, and SEF_LOCK has left the
set; with slot 0 not known CLOSED it answers STATE and changes nothing (R92). -/
def Obligations.ResetLockoutReadies : Prop :=
  ∀ (s : State) (req : RequestId) (f : Feeder) (c : LockoutCause), s.Ready req → s.Calm → (s.recl f).state = .lockout c →
    ((s.slot (Feeder.head f)).known = .closed → ∃ t, exec (.resetLockout req (BitVec.ofNat 8 f.val)) s = .next t
      ∧ s.Answered t req 0x09#8 [BitVec.ofNat 8 f.val] .ok []
      ∧ t.recl f = ⟨.ready, (s.recl f).reasons.put false .sefLock⟩ ∧ (∀ g, g ≠ f → t.recl g = s.recl g) ∧ s.PortKept t
      ∧ t = { s with reclose := t.reclose, exchange := t.exchange, link := t.link, mgmt := t.mgmt, outputs := t.outputs })
      ∧ ((s.slot (Feeder.head f)).known ≠ .closed → ∃ t, exec (.resetLockout req (BitVec.ofNat 8 f.val)) s = .next t
        ∧ s.Answered t req 0x09#8 [BitVec.ofNat 8 f.val] .state [] ∧ s.NoNotice t ∧ s.PortKept t ∧ s.SameBut t)

/-- ACK_SEF, arriving and served at once (log entry 5), sets the armed flag; where C differs from R at that moment an SEF_CHANGE
notice with the feeder, C and Mn, absent where there is no measurement record (the model's choice, log entry 18), is handed on, R
becomes C and the flag is clear again, and where they agree no notice is handed on (R49). CLEAR_COUNTERS clears both counts of
every stream, every class counter and every seen flag (R19, R153). -/
def Obligations.AckAndClear : Prop :=
  ∀ (s : State) (req : RequestId), s.Ready req →
    (∀ (f : Feeder) (u : State),
      u = s.notify (.sefChange f (s.element f).sefC ((s.meas f).map fun m => m.inn.mag)) (s.mode f == .test) →
      ∃ t, exec (.ackSef req (BitVec.ofNat 8 f.val)) s = .next t
        ∧ s.Answered t req 0x0C#8 [BitVec.ofNat 8 f.val] .ok []
        ∧ ((s.element f).sefC = (s.element f).sefR → t.element f = { s.element f with sefArmed := true } ∧ s.NoNotice t)
        ∧ ((s.element f).sefC ≠ (s.element f).sefR →
          t.element f = { s.element f with sefArmed := false, sefR := (s.element f).sefC }
            ∧ t.mgmt.notices = u.mgmt.notices ∧ t.mgmt.overflow = u.mgmt.overflow
            ∧ ∀ x, u.link.Holds x → t.link.Holds x)
        ∧ (∀ g, g ≠ f → t.element g = s.element g) ∧ s.PortKept t
        ∧ t = { s with
            bank := { s.bank with records := t.bank.records }, link := t.link, mgmt := t.mgmt, outputs := t.outputs })
      ∧ ∃ t, exec (.clearCounters req) s = .next t ∧ s.Answered t req 0x0F#8 [] .ok []
        ∧ (∀ e, t.stream e = { s.stream e with heldCount := 0, staleCount := 0 }) ∧ (∀ c, look t.link.log c = ⟨0, false⟩)
        ∧ t.link.table = s.link.table ∧ (∀ f, s.link.Holds f → t.link.Holds f) ∧ s.NoNotice t
        ∧ t = { s with intake := t.intake, link := t.link, mgmt := t.mgmt, outputs := t.outputs }

/-- Arriving and served at once (log entry 5): SAVE_IMAGE fixes the image's records and makes the entry DEFERRED (R165, R180);
they are, each once, the record as READ_TABLE gives it (R162; LINK's unused source places are the model's choice, log entry 32) of
each FEEDER, BUS, OUTSTATION, PROFILE and CURVE entry that is present, of each hunt plan and bus order that is not empty and of LINK,
and the STATE record of 25 bytes: the feeders' modes, a service wish for each slot ENROLLING, IN_SERVICE or UNREACHABLE, and the
active slots, FFh for none (R175, R180). RESTART is answered OK and changes nothing before its reply has left (R166). A request that
no other row serves (requestCommand spells the rows) is answered UNKNOWN, its kind outside 01h to 11h, or INVALID, and changes nothing
(R160, R163). -/
def Obligations.SaveRestartUnknown : Prop :=
  ∀ (s : State) (req : RequestId), s.Ready req →
    (∃ t, exec (.saveImage req) s = .next t ∧ s.Served t req 0x10#8 [] .deferred
      ∧ t.loader = .saving ⟨s.mgmt.nextTicket, s.imageRecords⟩ ∧ s.NoNotice t ∧ s.PortKept t
      ∧ t = { s with loader := t.loader, link := t.link, mgmt := t.mgmt, outputs := t.outputs })
      ∧ (∃ t, exec (.restart req) s = .next t ∧ s.Answered t req 0x11#8 [] .ok [] ∧ s.NoNotice t ∧ s.PortKept t
        ∧ s.SameBut t)
      ∧ (∃ wishes : List Byte,
        (∀ x, x ∈ s.imageRecords ↔ x = (0x09#8, 0x00#8, wishes) ∨ s.tableRecord x.1 x.2.1 = some x.2.2
          ∧ (x.1.toNat ≤ 5 → byteAt x.2.2 0 = 1) ∧ (x.1.toNat = 6 ∨ x.1.toNat = 7 → 1 < x.2.2.length))
        ∧ (s.imageRecords.map fun x => (x.1, x.2.1)).Nodup ∧ wishes.length = 25
        ∧ (∀ f : Feeder, byteAt wishes f.val = match s.mode f with
          | .inService => 0
          | .test => 1
          | .outOfService => 2)
        ∧ (∀ i : SlotId, (wishes.getD (8 + i.val / 8) 0x00#8).getLsbD (i.val % 8) = true
          ↔ (s.slot i).state = .enrolling ∨ (s.slot i).state = .inService ∨ (s.slot i).state = .unreachable)
        ∧ ∀ e : EntryId, byteAt wishes (16 + e.val) = match (s.entry e).active with
          | none => 0xFF
          | some k => k.val)
      ∧ ∀ kind params, requestCommand req kind params = .unknownRequest req kind params →
        ∃ t, exec (.unknownRequest req kind params) s = .next t
        ∧ s.Answered t req kind params (if 0x01 ≤ kind.toNat ∧ kind.toNat ≤ 0x11 then .invalid else .unknown) []
        ∧ s.NoNotice t ∧ s.PortKept t ∧ s.SameBut t

/-! ### Arithmetic and small rules -/

/-- The classification of a frame on a stream: with the last sequence present, d is the sequence distance; staleness is judged
before quality, and with the last sequence absent a set is never STALE (R6). -/
def Obligations.ClassifyTable : Prop :=
  ∀ (s : State) (e : EntryId) (x : SampleFrame) (invalid : Bool),
    invalid = (x.quality.getLsbD 0 || x.quality.getLsbD 1 || x.quality.getLsbD 2 || x.quality.getLsbD 3) →
    ((s.stream e).lastSeq = none → s.classOf e x = if invalid then .missing else .first)
      ∧ ∀ (last : U16) (d : Nat), (s.stream e).lastSeq = some last → d = (x.seq.toNat + (65536 - last.toNat)) % 65536 →
        s.classOf e x =
          if d = 0 ∨ 32768 ≤ d then .stale else if invalid then .missing
          else if d = 1 then .inOrder else if d = 2 then .oneMissing else .gap

/-- A sum becomes a component by rounding its quotient by 262,144 to the nearest integer, halves away from zero; negating every
sample of a window negates every component, and leaves every magnitude unchanged (R24). -/
def Obligations.RoundingIsSymmetric : Prop :=
  (∀ x : Int, 0 ≤ x → roundComponent x = (x + 131072) / 262144) ∧ (∀ x : Int, x < 0 → roundComponent x = -roundComponent (-x))
    ∧ (∀ x : Int, 2 * (262144 * roundComponent x - x).natAbs ≤ 262144)
    ∧ ∀ xs : List Int, (fundamental (xs.map (- ·))).re = -(fundamental xs).re
      ∧ (fundamental (xs.map (- ·))).im = -(fundamental xs).im ∧ (fundamental (xs.map (- ·))).mag = (fundamental xs).mag
      ∧ (secondHarmonic (xs.map (- ·))).re = -(secondHarmonic xs).re
      ∧ (secondHarmonic (xs.map (- ·))).im = -(secondHarmonic xs).im
      ∧ (secondHarmonic (xs.map (- ·))).mag = (secondHarmonic xs).mag

/-- An enabled accumulator that is not held: picked up it rises by floor(rate × 100 / TMS) up to 16,777,216 and operates exactly
when it comes to that value from below; below pickup it falls to 0, or by floor(16,777,216 / (160 × reset time)) under TIMED
(R39, R40, R41). From 0 under a steady current an accumulator operates on the n-th set picked up, n being 16,777,216 divided by
the increment, rounded up (R40). -/
def Obligations.InverseTimeElement : Prop :=
  (∀ (x : ItSettings) (rates : List Nat) (m acc : Nat), x.enable = true → acc ≤ 16777216 →
      (x.ip ≤ m →
        (itStep x rates false m acc).1
            = min 16777216 (acc + rates.getD (min 320 (16 * m / x.ip) - 16) 0 * 100 / x.tms)
          ∧ (itStep x rates false m acc).2.1 = true
          ∧ ((itStep x rates false m acc).2.2 = true ↔ acc < 16777216 ∧ (itStep x rates false m acc).1 = 16777216))
        ∧ (m < x.ip → itStep x rates false m acc
          = (if x.timed then acc - 16777216 / (160 * x.resetTime) else 0, false, false)))
  ∧ (∀ (x : ItSettings) (rates : List Nat) (m n : Nat), x.enable = true → x.ip ≤ m →
      0 < increment rates x.tms (ratioIndex m x.ip) →
      let acc (k : Nat) : Nat := (fun a => (itStep x rates false m a).1)^[k] 0
      ((itStep x rates false m (acc n)).2.2 = true
        ↔ n + 1 = (16777216 + increment rates x.tms (ratioIndex m x.ip) - 1) / increment rates x.tms (ratioIndex m x.ip)))

/-- An admitted OPEN or CLOSE completes BUSY if a SWITCH command is queued, and otherwise joins the queue behind every command
already there; a command in flight does not matter (R108). -/
def Obligations.SwitchAdmission : Prop :=
  ∀ (test : Bool) (i : SlotId) (o : Outstation) (c : Cmd), (c.kind = .opn ∨ c.kind = .close) → o.state = .inService →
    (∃ l, o.loaded = some l ∧ c.kind.permittedFor l.kind = true) → test = false →
    ((∃ q ∈ o.queue, q.kind = .opn ∨ q.kind = .close) → admitCmd test i o c = (o, deliveries i c .busy))
      ∧ ((∀ q ∈ o.queue, q.kind ≠ .opn ∧ q.kind ≠ .close) → admitCmd test i o c = ({ o with queue := o.queue ++ [c] }, []))

/-- A TRIP that failed, whatever the completion: in TRIPPING the state goes to LOCKOUT with cause BREAKER_FAIL, final mark or
not, and no CLOSE is admitted; in any other state the reclose state does not change (R84). -/
def Obligations.FailedTripLocksOut : Prop :=
  ∀ (s : State) (f : Feeder) (k : Completion), (s.element f).latch ≠ none → k.isDone = false →
    (∀ n m, (s.recl f).state = .tripping n m → (s.tripCompleted f k).recl f = { s.recl f with state := .lockout .breakerFail })
      ∧ ((∀ n m, (s.recl f).state ≠ .tripping n m) → (s.tripCompleted f k).recl f = s.recl f)
      ∧ (∀ g, g ≠ f → (s.tripCompleted f k).recl g = s.recl g) ∧ (s.tripCompleted f k).exchange = s.exchange

/-- The check of a record is the two's complement of the 16-bit sum of the bytes of kind, index, length and contents; a record
whose sum and check do not add up to 0 modulo 65,536 is not correct and is discarded when it is read, and one whose sum does is
not discarded for its check; the header carries no check (R176). -/
def Obligations.RecordCheckIsCorrect : Prop :=
  (∀ (kind index : Byte) (contents : List Byte), ∃ body hi lo, recordBytes kind index contents = body ++ [hi, lo]
      ∧ body = [kind, index] ++ b16 contents.length ++ contents
      ∧ hi.toNat * 256 + lo.toNat = (65536 - (body.map BitVec.toNat).sum % 65536) % 65536)
  ∧ (∀ (s : State) (p : Reading) (left len check : Nat) (h contents : List Byte), s.held = false → s.loader = .reading p →
      p.stage = .records left → h = SerialMemory.bytes s.serial p.address 4 → len = wordAt h 2 → len ≤ 611 →
      contents = SerialMemory.bytes s.serial (p.address + 4) len →
      check = wordAt (SerialMemory.bytes s.serial (p.address + 4 + len) 2) 0 →
      ∃ t q, exec (.imageRecordRead true) s = .next t ∧ t.loader = .reading q ∧ q.address = p.address + 6 + len
        ∧ ((((h ++ contents).map BitVec.toNat).sum + check) % 65536 ≠ 0 → q.kept = p.kept ∧ q.discarded = p.discarded + 1)
        ∧ ((((h ++ contents).map BitVec.toNat).sum + check) % 65536 = 0 → 1 ≤ byteAt h 0 → byteAt h 0 ≤ 9 →
          (∀ k ∈ p.kept, ¬ (k.kind = h.getD 0 0#8 ∧ k.index = h.getD 1 0#8)) →
          q.kept = p.kept ++ [⟨p.position, h.getD 0 0#8, h.getD 1 0#8, contents⟩] ∧ q.discarded = p.discarded))
  ∧ ∀ n, (headerBytes n).length = 4

end Statements
end

