-- ==== Sys2Proof/Laws/State.lean ====
section
/-! SUPPORT. What each update of the state changes: one lemma per field for each block update, and the reading of one record
after the replacement of one. No later proof unfolds a record update. -/

namespace Sys2Proof.Machine

/-! ### Vectors -/

@[simp] theorem look_put_self {α : Type} {n : Nat} (v : Vector α n) (i : Fin n) (x : α) : look (put v i x) i = x := by
  simp [look, put]

theorem look_put {α : Type} {n : Nat} (v : Vector α n) (i j : Fin n) (x : α) :
    look (put v i x) j = if j = i then x else look v j := by
  unfold look put
  rw [Vector.getElem_set]
  by_cases h : i.val = j.val
  · simp [h, Fin.ext_iff]
  · simp [h, Fin.ext_iff, Ne.symm h]

theorem look_put_ne {α : Type} {n : Nat} (v : Vector α n) {i j : Fin n} (x : α) (h : j ≠ i) :
    look (put v i x) j = look v j := by simp [look_put, h]

@[simp] theorem look_map {α β : Type} {n : Nat} (g : α → β) (v : Vector α n) (i : Fin n) : look (v.map g) i = g (look v i) := by
  simp [look]

@[simp] theorem look_replicate {α : Type} {n : Nat} (x : α) (i : Fin n) : look (Vector.replicate n x) i = x := by simp [look]

@[simp] theorem look_ofFn {α : Type} {n : Nat} (g : Fin n → α) (i : Fin n) : look (Vector.ofFn g) i = g i := by simp [look]

theorem look_ext {α : Type} {n : Nat} {v w : Vector α n} (h : ∀ i, look v i = look w i) : v = w := by
  apply Vector.ext
  intro i hi
  exact h ⟨i, hi⟩

theorem look_congr {α : Type} {n : Nat} {v w : Vector α n} (h : v = w) (i : Fin n) : look v i = look w i := by rw [h]

/-- Replacing a value by one with the same image leaves the image of the vector as it was. -/
theorem map_put {α β : Type} {n : Nat} (g : α → β) (v : Vector α n) (i : Fin n) (x : α) (h : g x = g (look v i)) :
    (put v i x).map g = v.map g := by
  apply look_ext
  intro j
  by_cases hj : j = i
  · subst hj; simp [h]
  · simp [look_put, hj]

@[simp] theorem put_look {α : Type} {n : Nat} (v : Vector α n) (i : Fin n) : put v i (look v i) = v := by
  apply look_ext
  intro j
  by_cases hj : j = i
  · subst hj; simp
  · simp [look_put, hj]

/-! ### Block updates -/

@[simp] theorem State.setIntake_intake (s : State) (x : StreamIntake) : (s.setIntake x).intake = x := rfl
@[simp] theorem State.setIntake_phasor (s : State) (x : StreamIntake) : (s.setIntake x).phasor = s.phasor := rfl
@[simp] theorem State.setIntake_bank (s : State) (x : StreamIntake) : (s.setIntake x).bank = s.bank := rfl
@[simp] theorem State.setIntake_profiles (s : State) (x : StreamIntake) : (s.setIntake x).profiles = s.profiles := rfl
@[simp] theorem State.setIntake_reclose (s : State) (x : StreamIntake) : (s.setIntake x).reclose = s.reclose := rfl
@[simp] theorem State.setIntake_exchange (s : State) (x : StreamIntake) : (s.setIntake x).exchange = s.exchange := rfl
@[simp] theorem State.setIntake_hunt (s : State) (x : StreamIntake) : (s.setIntake x).hunt = s.hunt := rfl
@[simp] theorem State.setIntake_link (s : State) (x : StreamIntake) : (s.setIntake x).link = s.link := rfl
@[simp] theorem State.setIntake_mgmt (s : State) (x : StreamIntake) : (s.setIntake x).mgmt = s.mgmt := rfl
@[simp] theorem State.setIntake_loader (s : State) (x : StreamIntake) : (s.setIntake x).loader = s.loader := rfl
@[simp] theorem State.setIntake_modes (s : State) (x : StreamIntake) : (s.setIntake x).modes = s.modes := rfl
@[simp] theorem State.setIntake_outputs (s : State) (x : StreamIntake) : (s.setIntake x).outputs = s.outputs := rfl
@[simp] theorem State.setIntake_serial (s : State) (x : StreamIntake) : (s.setIntake x).serial = s.serial := rfl
@[simp] theorem State.setIntake_time (s : State) (x : StreamIntake) : (s.setIntake x).time = s.time := rfl
@[simp] theorem State.setIntake_held (s : State) (x : StreamIntake) : (s.setIntake x).held = s.held := rfl
@[simp] theorem State.setIntake_pending (s : State) (x : StreamIntake) : (s.setIntake x).pending = s.pending := rfl

@[simp] theorem State.setPhasor_intake (s : State) (x : PhasorUnit) : (s.setPhasor x).intake = s.intake := rfl
@[simp] theorem State.setPhasor_phasor (s : State) (x : PhasorUnit) : (s.setPhasor x).phasor = x := rfl
@[simp] theorem State.setPhasor_bank (s : State) (x : PhasorUnit) : (s.setPhasor x).bank = s.bank := rfl
@[simp] theorem State.setPhasor_profiles (s : State) (x : PhasorUnit) : (s.setPhasor x).profiles = s.profiles := rfl
@[simp] theorem State.setPhasor_reclose (s : State) (x : PhasorUnit) : (s.setPhasor x).reclose = s.reclose := rfl
@[simp] theorem State.setPhasor_exchange (s : State) (x : PhasorUnit) : (s.setPhasor x).exchange = s.exchange := rfl
@[simp] theorem State.setPhasor_hunt (s : State) (x : PhasorUnit) : (s.setPhasor x).hunt = s.hunt := rfl
@[simp] theorem State.setPhasor_link (s : State) (x : PhasorUnit) : (s.setPhasor x).link = s.link := rfl
@[simp] theorem State.setPhasor_mgmt (s : State) (x : PhasorUnit) : (s.setPhasor x).mgmt = s.mgmt := rfl
@[simp] theorem State.setPhasor_loader (s : State) (x : PhasorUnit) : (s.setPhasor x).loader = s.loader := rfl
@[simp] theorem State.setPhasor_modes (s : State) (x : PhasorUnit) : (s.setPhasor x).modes = s.modes := rfl
@[simp] theorem State.setPhasor_outputs (s : State) (x : PhasorUnit) : (s.setPhasor x).outputs = s.outputs := rfl
@[simp] theorem State.setPhasor_serial (s : State) (x : PhasorUnit) : (s.setPhasor x).serial = s.serial := rfl
@[simp] theorem State.setPhasor_time (s : State) (x : PhasorUnit) : (s.setPhasor x).time = s.time := rfl
@[simp] theorem State.setPhasor_held (s : State) (x : PhasorUnit) : (s.setPhasor x).held = s.held := rfl
@[simp] theorem State.setPhasor_pending (s : State) (x : PhasorUnit) : (s.setPhasor x).pending = s.pending := rfl

@[simp] theorem State.setBank_intake (s : State) (x : ElementBank) : (s.setBank x).intake = s.intake := rfl
@[simp] theorem State.setBank_phasor (s : State) (x : ElementBank) : (s.setBank x).phasor = s.phasor := rfl
@[simp] theorem State.setBank_bank (s : State) (x : ElementBank) : (s.setBank x).bank = x := rfl
@[simp] theorem State.setBank_profiles (s : State) (x : ElementBank) : (s.setBank x).profiles = s.profiles := rfl
@[simp] theorem State.setBank_reclose (s : State) (x : ElementBank) : (s.setBank x).reclose = s.reclose := rfl
@[simp] theorem State.setBank_exchange (s : State) (x : ElementBank) : (s.setBank x).exchange = s.exchange := rfl
@[simp] theorem State.setBank_hunt (s : State) (x : ElementBank) : (s.setBank x).hunt = s.hunt := rfl
@[simp] theorem State.setBank_link (s : State) (x : ElementBank) : (s.setBank x).link = s.link := rfl
@[simp] theorem State.setBank_mgmt (s : State) (x : ElementBank) : (s.setBank x).mgmt = s.mgmt := rfl
@[simp] theorem State.setBank_loader (s : State) (x : ElementBank) : (s.setBank x).loader = s.loader := rfl
@[simp] theorem State.setBank_modes (s : State) (x : ElementBank) : (s.setBank x).modes = s.modes := rfl
@[simp] theorem State.setBank_outputs (s : State) (x : ElementBank) : (s.setBank x).outputs = s.outputs := rfl
@[simp] theorem State.setBank_serial (s : State) (x : ElementBank) : (s.setBank x).serial = s.serial := rfl
@[simp] theorem State.setBank_time (s : State) (x : ElementBank) : (s.setBank x).time = s.time := rfl
@[simp] theorem State.setBank_held (s : State) (x : ElementBank) : (s.setBank x).held = s.held := rfl
@[simp] theorem State.setBank_pending (s : State) (x : ElementBank) : (s.setBank x).pending = s.pending := rfl

@[simp] theorem State.setProfiles_intake (s : State) (x : ProfileManager) : (s.setProfiles x).intake = s.intake := rfl
@[simp] theorem State.setProfiles_phasor (s : State) (x : ProfileManager) : (s.setProfiles x).phasor = s.phasor := rfl
@[simp] theorem State.setProfiles_bank (s : State) (x : ProfileManager) : (s.setProfiles x).bank = s.bank := rfl
@[simp] theorem State.setProfiles_profiles (s : State) (x : ProfileManager) : (s.setProfiles x).profiles = x := rfl
@[simp] theorem State.setProfiles_reclose (s : State) (x : ProfileManager) : (s.setProfiles x).reclose = s.reclose := rfl
@[simp] theorem State.setProfiles_exchange (s : State) (x : ProfileManager) : (s.setProfiles x).exchange = s.exchange := rfl
@[simp] theorem State.setProfiles_hunt (s : State) (x : ProfileManager) : (s.setProfiles x).hunt = s.hunt := rfl
@[simp] theorem State.setProfiles_link (s : State) (x : ProfileManager) : (s.setProfiles x).link = s.link := rfl
@[simp] theorem State.setProfiles_mgmt (s : State) (x : ProfileManager) : (s.setProfiles x).mgmt = s.mgmt := rfl
@[simp] theorem State.setProfiles_loader (s : State) (x : ProfileManager) : (s.setProfiles x).loader = s.loader := rfl
@[simp] theorem State.setProfiles_modes (s : State) (x : ProfileManager) : (s.setProfiles x).modes = s.modes := rfl
@[simp] theorem State.setProfiles_outputs (s : State) (x : ProfileManager) : (s.setProfiles x).outputs = s.outputs := rfl
@[simp] theorem State.setProfiles_serial (s : State) (x : ProfileManager) : (s.setProfiles x).serial = s.serial := rfl
@[simp] theorem State.setProfiles_time (s : State) (x : ProfileManager) : (s.setProfiles x).time = s.time := rfl
@[simp] theorem State.setProfiles_held (s : State) (x : ProfileManager) : (s.setProfiles x).held = s.held := rfl
@[simp] theorem State.setProfiles_pending (s : State) (x : ProfileManager) : (s.setProfiles x).pending = s.pending := rfl

@[simp] theorem State.setReclose_intake (s : State) (x : RecloseController) : (s.setReclose x).intake = s.intake := rfl
@[simp] theorem State.setReclose_phasor (s : State) (x : RecloseController) : (s.setReclose x).phasor = s.phasor := rfl
@[simp] theorem State.setReclose_bank (s : State) (x : RecloseController) : (s.setReclose x).bank = s.bank := rfl
@[simp] theorem State.setReclose_profiles (s : State) (x : RecloseController) : (s.setReclose x).profiles = s.profiles := rfl
@[simp] theorem State.setReclose_reclose (s : State) (x : RecloseController) : (s.setReclose x).reclose = x := rfl
@[simp] theorem State.setReclose_exchange (s : State) (x : RecloseController) : (s.setReclose x).exchange = s.exchange := rfl
@[simp] theorem State.setReclose_hunt (s : State) (x : RecloseController) : (s.setReclose x).hunt = s.hunt := rfl
@[simp] theorem State.setReclose_link (s : State) (x : RecloseController) : (s.setReclose x).link = s.link := rfl
@[simp] theorem State.setReclose_mgmt (s : State) (x : RecloseController) : (s.setReclose x).mgmt = s.mgmt := rfl
@[simp] theorem State.setReclose_loader (s : State) (x : RecloseController) : (s.setReclose x).loader = s.loader := rfl
@[simp] theorem State.setReclose_modes (s : State) (x : RecloseController) : (s.setReclose x).modes = s.modes := rfl
@[simp] theorem State.setReclose_outputs (s : State) (x : RecloseController) : (s.setReclose x).outputs = s.outputs := rfl
@[simp] theorem State.setReclose_serial (s : State) (x : RecloseController) : (s.setReclose x).serial = s.serial := rfl
@[simp] theorem State.setReclose_time (s : State) (x : RecloseController) : (s.setReclose x).time = s.time := rfl
@[simp] theorem State.setReclose_held (s : State) (x : RecloseController) : (s.setReclose x).held = s.held := rfl
@[simp] theorem State.setReclose_pending (s : State) (x : RecloseController) : (s.setReclose x).pending = s.pending := rfl

@[simp] theorem State.setExchange_intake (s : State) (x : OutstationExchange) : (s.setExchange x).intake = s.intake := rfl
@[simp] theorem State.setExchange_phasor (s : State) (x : OutstationExchange) : (s.setExchange x).phasor = s.phasor := rfl
@[simp] theorem State.setExchange_bank (s : State) (x : OutstationExchange) : (s.setExchange x).bank = s.bank := rfl
@[simp] theorem State.setExchange_profiles (s : State) (x : OutstationExchange) : (s.setExchange x).profiles = s.profiles := rfl
@[simp] theorem State.setExchange_reclose (s : State) (x : OutstationExchange) : (s.setExchange x).reclose = s.reclose := rfl
@[simp] theorem State.setExchange_exchange (s : State) (x : OutstationExchange) : (s.setExchange x).exchange = x := rfl
@[simp] theorem State.setExchange_hunt (s : State) (x : OutstationExchange) : (s.setExchange x).hunt = s.hunt := rfl
@[simp] theorem State.setExchange_link (s : State) (x : OutstationExchange) : (s.setExchange x).link = s.link := rfl
@[simp] theorem State.setExchange_mgmt (s : State) (x : OutstationExchange) : (s.setExchange x).mgmt = s.mgmt := rfl
@[simp] theorem State.setExchange_loader (s : State) (x : OutstationExchange) : (s.setExchange x).loader = s.loader := rfl
@[simp] theorem State.setExchange_modes (s : State) (x : OutstationExchange) : (s.setExchange x).modes = s.modes := rfl
@[simp] theorem State.setExchange_outputs (s : State) (x : OutstationExchange) : (s.setExchange x).outputs = s.outputs := rfl
@[simp] theorem State.setExchange_serial (s : State) (x : OutstationExchange) : (s.setExchange x).serial = s.serial := rfl
@[simp] theorem State.setExchange_time (s : State) (x : OutstationExchange) : (s.setExchange x).time = s.time := rfl
@[simp] theorem State.setExchange_held (s : State) (x : OutstationExchange) : (s.setExchange x).held = s.held := rfl
@[simp] theorem State.setExchange_pending (s : State) (x : OutstationExchange) : (s.setExchange x).pending = s.pending := rfl

@[simp] theorem State.setHunt_intake (s : State) (x : HuntController) : (s.setHunt x).intake = s.intake := rfl
@[simp] theorem State.setHunt_phasor (s : State) (x : HuntController) : (s.setHunt x).phasor = s.phasor := rfl
@[simp] theorem State.setHunt_bank (s : State) (x : HuntController) : (s.setHunt x).bank = s.bank := rfl
@[simp] theorem State.setHunt_profiles (s : State) (x : HuntController) : (s.setHunt x).profiles = s.profiles := rfl
@[simp] theorem State.setHunt_reclose (s : State) (x : HuntController) : (s.setHunt x).reclose = s.reclose := rfl
@[simp] theorem State.setHunt_exchange (s : State) (x : HuntController) : (s.setHunt x).exchange = s.exchange := rfl
@[simp] theorem State.setHunt_hunt (s : State) (x : HuntController) : (s.setHunt x).hunt = x := rfl
@[simp] theorem State.setHunt_link (s : State) (x : HuntController) : (s.setHunt x).link = s.link := rfl
@[simp] theorem State.setHunt_mgmt (s : State) (x : HuntController) : (s.setHunt x).mgmt = s.mgmt := rfl
@[simp] theorem State.setHunt_loader (s : State) (x : HuntController) : (s.setHunt x).loader = s.loader := rfl
@[simp] theorem State.setHunt_modes (s : State) (x : HuntController) : (s.setHunt x).modes = s.modes := rfl
@[simp] theorem State.setHunt_outputs (s : State) (x : HuntController) : (s.setHunt x).outputs = s.outputs := rfl
@[simp] theorem State.setHunt_serial (s : State) (x : HuntController) : (s.setHunt x).serial = s.serial := rfl
@[simp] theorem State.setHunt_time (s : State) (x : HuntController) : (s.setHunt x).time = s.time := rfl
@[simp] theorem State.setHunt_held (s : State) (x : HuntController) : (s.setHunt x).held = s.held := rfl
@[simp] theorem State.setHunt_pending (s : State) (x : HuntController) : (s.setHunt x).pending = s.pending := rfl

@[simp] theorem State.setLink_intake (s : State) (x : LinkPort) : (s.setLink x).intake = s.intake := rfl
@[simp] theorem State.setLink_phasor (s : State) (x : LinkPort) : (s.setLink x).phasor = s.phasor := rfl
@[simp] theorem State.setLink_bank (s : State) (x : LinkPort) : (s.setLink x).bank = s.bank := rfl
@[simp] theorem State.setLink_profiles (s : State) (x : LinkPort) : (s.setLink x).profiles = s.profiles := rfl
@[simp] theorem State.setLink_reclose (s : State) (x : LinkPort) : (s.setLink x).reclose = s.reclose := rfl
@[simp] theorem State.setLink_exchange (s : State) (x : LinkPort) : (s.setLink x).exchange = s.exchange := rfl
@[simp] theorem State.setLink_hunt (s : State) (x : LinkPort) : (s.setLink x).hunt = s.hunt := rfl
@[simp] theorem State.setLink_link (s : State) (x : LinkPort) : (s.setLink x).link = x := rfl
@[simp] theorem State.setLink_mgmt (s : State) (x : LinkPort) : (s.setLink x).mgmt = s.mgmt := rfl
@[simp] theorem State.setLink_loader (s : State) (x : LinkPort) : (s.setLink x).loader = s.loader := rfl
@[simp] theorem State.setLink_modes (s : State) (x : LinkPort) : (s.setLink x).modes = s.modes := rfl
@[simp] theorem State.setLink_outputs (s : State) (x : LinkPort) : (s.setLink x).outputs = s.outputs := rfl
@[simp] theorem State.setLink_serial (s : State) (x : LinkPort) : (s.setLink x).serial = s.serial := rfl
@[simp] theorem State.setLink_time (s : State) (x : LinkPort) : (s.setLink x).time = s.time := rfl
@[simp] theorem State.setLink_held (s : State) (x : LinkPort) : (s.setLink x).held = s.held := rfl
@[simp] theorem State.setLink_pending (s : State) (x : LinkPort) : (s.setLink x).pending = s.pending := rfl

@[simp] theorem State.setMgmt_intake (s : State) (x : Responder) : (s.setMgmt x).intake = s.intake := rfl
@[simp] theorem State.setMgmt_phasor (s : State) (x : Responder) : (s.setMgmt x).phasor = s.phasor := rfl
@[simp] theorem State.setMgmt_bank (s : State) (x : Responder) : (s.setMgmt x).bank = s.bank := rfl
@[simp] theorem State.setMgmt_profiles (s : State) (x : Responder) : (s.setMgmt x).profiles = s.profiles := rfl
@[simp] theorem State.setMgmt_reclose (s : State) (x : Responder) : (s.setMgmt x).reclose = s.reclose := rfl
@[simp] theorem State.setMgmt_exchange (s : State) (x : Responder) : (s.setMgmt x).exchange = s.exchange := rfl
@[simp] theorem State.setMgmt_hunt (s : State) (x : Responder) : (s.setMgmt x).hunt = s.hunt := rfl
@[simp] theorem State.setMgmt_link (s : State) (x : Responder) : (s.setMgmt x).link = s.link := rfl
@[simp] theorem State.setMgmt_mgmt (s : State) (x : Responder) : (s.setMgmt x).mgmt = x := rfl
@[simp] theorem State.setMgmt_loader (s : State) (x : Responder) : (s.setMgmt x).loader = s.loader := rfl
@[simp] theorem State.setMgmt_modes (s : State) (x : Responder) : (s.setMgmt x).modes = s.modes := rfl
@[simp] theorem State.setMgmt_outputs (s : State) (x : Responder) : (s.setMgmt x).outputs = s.outputs := rfl
@[simp] theorem State.setMgmt_serial (s : State) (x : Responder) : (s.setMgmt x).serial = s.serial := rfl
@[simp] theorem State.setMgmt_time (s : State) (x : Responder) : (s.setMgmt x).time = s.time := rfl
@[simp] theorem State.setMgmt_held (s : State) (x : Responder) : (s.setMgmt x).held = s.held := rfl
@[simp] theorem State.setMgmt_pending (s : State) (x : Responder) : (s.setMgmt x).pending = s.pending := rfl

@[simp] theorem State.setLoader_intake (s : State) (x : LoaderState) : (s.setLoader x).intake = s.intake := rfl
@[simp] theorem State.setLoader_phasor (s : State) (x : LoaderState) : (s.setLoader x).phasor = s.phasor := rfl
@[simp] theorem State.setLoader_bank (s : State) (x : LoaderState) : (s.setLoader x).bank = s.bank := rfl
@[simp] theorem State.setLoader_profiles (s : State) (x : LoaderState) : (s.setLoader x).profiles = s.profiles := rfl
@[simp] theorem State.setLoader_reclose (s : State) (x : LoaderState) : (s.setLoader x).reclose = s.reclose := rfl
@[simp] theorem State.setLoader_exchange (s : State) (x : LoaderState) : (s.setLoader x).exchange = s.exchange := rfl
@[simp] theorem State.setLoader_hunt (s : State) (x : LoaderState) : (s.setLoader x).hunt = s.hunt := rfl
@[simp] theorem State.setLoader_link (s : State) (x : LoaderState) : (s.setLoader x).link = s.link := rfl
@[simp] theorem State.setLoader_mgmt (s : State) (x : LoaderState) : (s.setLoader x).mgmt = s.mgmt := rfl
@[simp] theorem State.setLoader_loader (s : State) (x : LoaderState) : (s.setLoader x).loader = x := rfl
@[simp] theorem State.setLoader_modes (s : State) (x : LoaderState) : (s.setLoader x).modes = s.modes := rfl
@[simp] theorem State.setLoader_outputs (s : State) (x : LoaderState) : (s.setLoader x).outputs = s.outputs := rfl
@[simp] theorem State.setLoader_serial (s : State) (x : LoaderState) : (s.setLoader x).serial = s.serial := rfl
@[simp] theorem State.setLoader_time (s : State) (x : LoaderState) : (s.setLoader x).time = s.time := rfl
@[simp] theorem State.setLoader_held (s : State) (x : LoaderState) : (s.setLoader x).held = s.held := rfl
@[simp] theorem State.setLoader_pending (s : State) (x : LoaderState) : (s.setLoader x).pending = s.pending := rfl

@[simp] theorem State.setModes_intake (s : State) (x : Vector Mode 8) : (s.setModes x).intake = s.intake := rfl
@[simp] theorem State.setModes_phasor (s : State) (x : Vector Mode 8) : (s.setModes x).phasor = s.phasor := rfl
@[simp] theorem State.setModes_bank (s : State) (x : Vector Mode 8) : (s.setModes x).bank = s.bank := rfl
@[simp] theorem State.setModes_profiles (s : State) (x : Vector Mode 8) : (s.setModes x).profiles = s.profiles := rfl
@[simp] theorem State.setModes_reclose (s : State) (x : Vector Mode 8) : (s.setModes x).reclose = s.reclose := rfl
@[simp] theorem State.setModes_exchange (s : State) (x : Vector Mode 8) : (s.setModes x).exchange = s.exchange := rfl
@[simp] theorem State.setModes_hunt (s : State) (x : Vector Mode 8) : (s.setModes x).hunt = s.hunt := rfl
@[simp] theorem State.setModes_link (s : State) (x : Vector Mode 8) : (s.setModes x).link = s.link := rfl
@[simp] theorem State.setModes_mgmt (s : State) (x : Vector Mode 8) : (s.setModes x).mgmt = s.mgmt := rfl
@[simp] theorem State.setModes_loader (s : State) (x : Vector Mode 8) : (s.setModes x).loader = s.loader := rfl
@[simp] theorem State.setModes_modes (s : State) (x : Vector Mode 8) : (s.setModes x).modes = x := rfl
@[simp] theorem State.setModes_outputs (s : State) (x : Vector Mode 8) : (s.setModes x).outputs = s.outputs := rfl
@[simp] theorem State.setModes_serial (s : State) (x : Vector Mode 8) : (s.setModes x).serial = s.serial := rfl
@[simp] theorem State.setModes_time (s : State) (x : Vector Mode 8) : (s.setModes x).time = s.time := rfl
@[simp] theorem State.setModes_held (s : State) (x : Vector Mode 8) : (s.setModes x).held = s.held := rfl
@[simp] theorem State.setModes_pending (s : State) (x : Vector Mode 8) : (s.setModes x).pending = s.pending := rfl

@[simp] theorem State.setOutputs_intake (s : State) (x : Outputs) : (s.setOutputs x).intake = s.intake := rfl
@[simp] theorem State.setOutputs_phasor (s : State) (x : Outputs) : (s.setOutputs x).phasor = s.phasor := rfl
@[simp] theorem State.setOutputs_bank (s : State) (x : Outputs) : (s.setOutputs x).bank = s.bank := rfl
@[simp] theorem State.setOutputs_profiles (s : State) (x : Outputs) : (s.setOutputs x).profiles = s.profiles := rfl
@[simp] theorem State.setOutputs_reclose (s : State) (x : Outputs) : (s.setOutputs x).reclose = s.reclose := rfl
@[simp] theorem State.setOutputs_exchange (s : State) (x : Outputs) : (s.setOutputs x).exchange = s.exchange := rfl
@[simp] theorem State.setOutputs_hunt (s : State) (x : Outputs) : (s.setOutputs x).hunt = s.hunt := rfl
@[simp] theorem State.setOutputs_link (s : State) (x : Outputs) : (s.setOutputs x).link = s.link := rfl
@[simp] theorem State.setOutputs_mgmt (s : State) (x : Outputs) : (s.setOutputs x).mgmt = s.mgmt := rfl
@[simp] theorem State.setOutputs_loader (s : State) (x : Outputs) : (s.setOutputs x).loader = s.loader := rfl
@[simp] theorem State.setOutputs_modes (s : State) (x : Outputs) : (s.setOutputs x).modes = s.modes := rfl
@[simp] theorem State.setOutputs_outputs (s : State) (x : Outputs) : (s.setOutputs x).outputs = x := rfl
@[simp] theorem State.setOutputs_serial (s : State) (x : Outputs) : (s.setOutputs x).serial = s.serial := rfl
@[simp] theorem State.setOutputs_time (s : State) (x : Outputs) : (s.setOutputs x).time = s.time := rfl
@[simp] theorem State.setOutputs_held (s : State) (x : Outputs) : (s.setOutputs x).held = s.held := rfl
@[simp] theorem State.setOutputs_pending (s : State) (x : Outputs) : (s.setOutputs x).pending = s.pending := rfl

@[simp] theorem State.setSerial_intake (s : State) (x : SerialMemory) : (s.setSerial x).intake = s.intake := rfl
@[simp] theorem State.setSerial_phasor (s : State) (x : SerialMemory) : (s.setSerial x).phasor = s.phasor := rfl
@[simp] theorem State.setSerial_bank (s : State) (x : SerialMemory) : (s.setSerial x).bank = s.bank := rfl
@[simp] theorem State.setSerial_profiles (s : State) (x : SerialMemory) : (s.setSerial x).profiles = s.profiles := rfl
@[simp] theorem State.setSerial_reclose (s : State) (x : SerialMemory) : (s.setSerial x).reclose = s.reclose := rfl
@[simp] theorem State.setSerial_exchange (s : State) (x : SerialMemory) : (s.setSerial x).exchange = s.exchange := rfl
@[simp] theorem State.setSerial_hunt (s : State) (x : SerialMemory) : (s.setSerial x).hunt = s.hunt := rfl
@[simp] theorem State.setSerial_link (s : State) (x : SerialMemory) : (s.setSerial x).link = s.link := rfl
@[simp] theorem State.setSerial_mgmt (s : State) (x : SerialMemory) : (s.setSerial x).mgmt = s.mgmt := rfl
@[simp] theorem State.setSerial_loader (s : State) (x : SerialMemory) : (s.setSerial x).loader = s.loader := rfl
@[simp] theorem State.setSerial_modes (s : State) (x : SerialMemory) : (s.setSerial x).modes = s.modes := rfl
@[simp] theorem State.setSerial_outputs (s : State) (x : SerialMemory) : (s.setSerial x).outputs = s.outputs := rfl
@[simp] theorem State.setSerial_serial (s : State) (x : SerialMemory) : (s.setSerial x).serial = x := rfl
@[simp] theorem State.setSerial_time (s : State) (x : SerialMemory) : (s.setSerial x).time = s.time := rfl
@[simp] theorem State.setSerial_held (s : State) (x : SerialMemory) : (s.setSerial x).held = s.held := rfl
@[simp] theorem State.setSerial_pending (s : State) (x : SerialMemory) : (s.setSerial x).pending = s.pending := rfl

@[simp] theorem State.setTime_intake (s : State) (x : Nat) : (s.setTime x).intake = s.intake := rfl
@[simp] theorem State.setTime_phasor (s : State) (x : Nat) : (s.setTime x).phasor = s.phasor := rfl
@[simp] theorem State.setTime_bank (s : State) (x : Nat) : (s.setTime x).bank = s.bank := rfl
@[simp] theorem State.setTime_profiles (s : State) (x : Nat) : (s.setTime x).profiles = s.profiles := rfl
@[simp] theorem State.setTime_reclose (s : State) (x : Nat) : (s.setTime x).reclose = s.reclose := rfl
@[simp] theorem State.setTime_exchange (s : State) (x : Nat) : (s.setTime x).exchange = s.exchange := rfl
@[simp] theorem State.setTime_hunt (s : State) (x : Nat) : (s.setTime x).hunt = s.hunt := rfl
@[simp] theorem State.setTime_link (s : State) (x : Nat) : (s.setTime x).link = s.link := rfl
@[simp] theorem State.setTime_mgmt (s : State) (x : Nat) : (s.setTime x).mgmt = s.mgmt := rfl
@[simp] theorem State.setTime_loader (s : State) (x : Nat) : (s.setTime x).loader = s.loader := rfl
@[simp] theorem State.setTime_modes (s : State) (x : Nat) : (s.setTime x).modes = s.modes := rfl
@[simp] theorem State.setTime_outputs (s : State) (x : Nat) : (s.setTime x).outputs = s.outputs := rfl
@[simp] theorem State.setTime_serial (s : State) (x : Nat) : (s.setTime x).serial = s.serial := rfl
@[simp] theorem State.setTime_time (s : State) (x : Nat) : (s.setTime x).time = x := rfl
@[simp] theorem State.setTime_held (s : State) (x : Nat) : (s.setTime x).held = s.held := rfl
@[simp] theorem State.setTime_pending (s : State) (x : Nat) : (s.setTime x).pending = s.pending := rfl

@[simp] theorem State.setHeld_intake (s : State) (x : Bool) : (s.setHeld x).intake = s.intake := rfl
@[simp] theorem State.setHeld_phasor (s : State) (x : Bool) : (s.setHeld x).phasor = s.phasor := rfl
@[simp] theorem State.setHeld_bank (s : State) (x : Bool) : (s.setHeld x).bank = s.bank := rfl
@[simp] theorem State.setHeld_profiles (s : State) (x : Bool) : (s.setHeld x).profiles = s.profiles := rfl
@[simp] theorem State.setHeld_reclose (s : State) (x : Bool) : (s.setHeld x).reclose = s.reclose := rfl
@[simp] theorem State.setHeld_exchange (s : State) (x : Bool) : (s.setHeld x).exchange = s.exchange := rfl
@[simp] theorem State.setHeld_hunt (s : State) (x : Bool) : (s.setHeld x).hunt = s.hunt := rfl
@[simp] theorem State.setHeld_link (s : State) (x : Bool) : (s.setHeld x).link = s.link := rfl
@[simp] theorem State.setHeld_mgmt (s : State) (x : Bool) : (s.setHeld x).mgmt = s.mgmt := rfl
@[simp] theorem State.setHeld_loader (s : State) (x : Bool) : (s.setHeld x).loader = s.loader := rfl
@[simp] theorem State.setHeld_modes (s : State) (x : Bool) : (s.setHeld x).modes = s.modes := rfl
@[simp] theorem State.setHeld_outputs (s : State) (x : Bool) : (s.setHeld x).outputs = s.outputs := rfl
@[simp] theorem State.setHeld_serial (s : State) (x : Bool) : (s.setHeld x).serial = s.serial := rfl
@[simp] theorem State.setHeld_time (s : State) (x : Bool) : (s.setHeld x).time = s.time := rfl
@[simp] theorem State.setHeld_held (s : State) (x : Bool) : (s.setHeld x).held = x := rfl
@[simp] theorem State.setHeld_pending (s : State) (x : Bool) : (s.setHeld x).pending = s.pending := rfl

@[simp] theorem State.setPending_intake (s : State) (x : List Instr) : (s.setPending x).intake = s.intake := rfl
@[simp] theorem State.setPending_phasor (s : State) (x : List Instr) : (s.setPending x).phasor = s.phasor := rfl
@[simp] theorem State.setPending_bank (s : State) (x : List Instr) : (s.setPending x).bank = s.bank := rfl
@[simp] theorem State.setPending_profiles (s : State) (x : List Instr) : (s.setPending x).profiles = s.profiles := rfl
@[simp] theorem State.setPending_reclose (s : State) (x : List Instr) : (s.setPending x).reclose = s.reclose := rfl
@[simp] theorem State.setPending_exchange (s : State) (x : List Instr) : (s.setPending x).exchange = s.exchange := rfl
@[simp] theorem State.setPending_hunt (s : State) (x : List Instr) : (s.setPending x).hunt = s.hunt := rfl
@[simp] theorem State.setPending_link (s : State) (x : List Instr) : (s.setPending x).link = s.link := rfl
@[simp] theorem State.setPending_mgmt (s : State) (x : List Instr) : (s.setPending x).mgmt = s.mgmt := rfl
@[simp] theorem State.setPending_loader (s : State) (x : List Instr) : (s.setPending x).loader = s.loader := rfl
@[simp] theorem State.setPending_modes (s : State) (x : List Instr) : (s.setPending x).modes = s.modes := rfl
@[simp] theorem State.setPending_outputs (s : State) (x : List Instr) : (s.setPending x).outputs = s.outputs := rfl
@[simp] theorem State.setPending_serial (s : State) (x : List Instr) : (s.setPending x).serial = s.serial := rfl
@[simp] theorem State.setPending_time (s : State) (x : List Instr) : (s.setPending x).time = s.time := rfl
@[simp] theorem State.setPending_held (s : State) (x : List Instr) : (s.setPending x).held = s.held := rfl
@[simp] theorem State.setPending_pending (s : State) (x : List Instr) : (s.setPending x).pending = x := rfl

/-! ### Record updates: the blocks they leave alone -/

@[simp] theorem State.setStream_phasor (s : State) (e : EntryId) (r : StreamRecord) : (s.setStream e r).phasor = s.phasor := rfl
@[simp] theorem State.setStream_bank (s : State) (e : EntryId) (r : StreamRecord) : (s.setStream e r).bank = s.bank := rfl
@[simp] theorem State.setStream_profiles (s : State) (e : EntryId) (r : StreamRecord) : (s.setStream e r).profiles = s.profiles := rfl
@[simp] theorem State.setStream_reclose (s : State) (e : EntryId) (r : StreamRecord) : (s.setStream e r).reclose = s.reclose := rfl
@[simp] theorem State.setStream_exchange (s : State) (e : EntryId) (r : StreamRecord) : (s.setStream e r).exchange = s.exchange := rfl
@[simp] theorem State.setStream_hunt (s : State) (e : EntryId) (r : StreamRecord) : (s.setStream e r).hunt = s.hunt := rfl
@[simp] theorem State.setStream_link (s : State) (e : EntryId) (r : StreamRecord) : (s.setStream e r).link = s.link := rfl
@[simp] theorem State.setStream_mgmt (s : State) (e : EntryId) (r : StreamRecord) : (s.setStream e r).mgmt = s.mgmt := rfl
@[simp] theorem State.setStream_loader (s : State) (e : EntryId) (r : StreamRecord) : (s.setStream e r).loader = s.loader := rfl
@[simp] theorem State.setStream_modes (s : State) (e : EntryId) (r : StreamRecord) : (s.setStream e r).modes = s.modes := rfl
@[simp] theorem State.setStream_outputs (s : State) (e : EntryId) (r : StreamRecord) : (s.setStream e r).outputs = s.outputs := rfl
@[simp] theorem State.setStream_serial (s : State) (e : EntryId) (r : StreamRecord) : (s.setStream e r).serial = s.serial := rfl
@[simp] theorem State.setStream_time (s : State) (e : EntryId) (r : StreamRecord) : (s.setStream e r).time = s.time := rfl
@[simp] theorem State.setStream_held (s : State) (e : EntryId) (r : StreamRecord) : (s.setStream e r).held = s.held := rfl
@[simp] theorem State.setStream_pending (s : State) (e : EntryId) (r : StreamRecord) : (s.setStream e r).pending = s.pending := rfl

@[simp] theorem State.setMeas_intake (s : State) (f : Feeder) (r : Option FeederMeasurement) : (s.setMeas f r).intake = s.intake := rfl
@[simp] theorem State.setMeas_bank (s : State) (f : Feeder) (r : Option FeederMeasurement) : (s.setMeas f r).bank = s.bank := rfl
@[simp] theorem State.setMeas_profiles (s : State) (f : Feeder) (r : Option FeederMeasurement) : (s.setMeas f r).profiles = s.profiles := rfl
@[simp] theorem State.setMeas_reclose (s : State) (f : Feeder) (r : Option FeederMeasurement) : (s.setMeas f r).reclose = s.reclose := rfl
@[simp] theorem State.setMeas_exchange (s : State) (f : Feeder) (r : Option FeederMeasurement) : (s.setMeas f r).exchange = s.exchange := rfl
@[simp] theorem State.setMeas_hunt (s : State) (f : Feeder) (r : Option FeederMeasurement) : (s.setMeas f r).hunt = s.hunt := rfl
@[simp] theorem State.setMeas_link (s : State) (f : Feeder) (r : Option FeederMeasurement) : (s.setMeas f r).link = s.link := rfl
@[simp] theorem State.setMeas_mgmt (s : State) (f : Feeder) (r : Option FeederMeasurement) : (s.setMeas f r).mgmt = s.mgmt := rfl
@[simp] theorem State.setMeas_loader (s : State) (f : Feeder) (r : Option FeederMeasurement) : (s.setMeas f r).loader = s.loader := rfl
@[simp] theorem State.setMeas_modes (s : State) (f : Feeder) (r : Option FeederMeasurement) : (s.setMeas f r).modes = s.modes := rfl
@[simp] theorem State.setMeas_outputs (s : State) (f : Feeder) (r : Option FeederMeasurement) : (s.setMeas f r).outputs = s.outputs := rfl
@[simp] theorem State.setMeas_serial (s : State) (f : Feeder) (r : Option FeederMeasurement) : (s.setMeas f r).serial = s.serial := rfl
@[simp] theorem State.setMeas_time (s : State) (f : Feeder) (r : Option FeederMeasurement) : (s.setMeas f r).time = s.time := rfl
@[simp] theorem State.setMeas_held (s : State) (f : Feeder) (r : Option FeederMeasurement) : (s.setMeas f r).held = s.held := rfl
@[simp] theorem State.setMeas_pending (s : State) (f : Feeder) (r : Option FeederMeasurement) : (s.setMeas f r).pending = s.pending := rfl

@[simp] theorem State.setBusMeas_intake (s : State) (r : Option BusMeasurement) : (s.setBusMeas r).intake = s.intake := rfl
@[simp] theorem State.setBusMeas_bank (s : State) (r : Option BusMeasurement) : (s.setBusMeas r).bank = s.bank := rfl
@[simp] theorem State.setBusMeas_profiles (s : State) (r : Option BusMeasurement) : (s.setBusMeas r).profiles = s.profiles := rfl
@[simp] theorem State.setBusMeas_reclose (s : State) (r : Option BusMeasurement) : (s.setBusMeas r).reclose = s.reclose := rfl
@[simp] theorem State.setBusMeas_exchange (s : State) (r : Option BusMeasurement) : (s.setBusMeas r).exchange = s.exchange := rfl
@[simp] theorem State.setBusMeas_hunt (s : State) (r : Option BusMeasurement) : (s.setBusMeas r).hunt = s.hunt := rfl
@[simp] theorem State.setBusMeas_link (s : State) (r : Option BusMeasurement) : (s.setBusMeas r).link = s.link := rfl
@[simp] theorem State.setBusMeas_mgmt (s : State) (r : Option BusMeasurement) : (s.setBusMeas r).mgmt = s.mgmt := rfl
@[simp] theorem State.setBusMeas_loader (s : State) (r : Option BusMeasurement) : (s.setBusMeas r).loader = s.loader := rfl
@[simp] theorem State.setBusMeas_modes (s : State) (r : Option BusMeasurement) : (s.setBusMeas r).modes = s.modes := rfl
@[simp] theorem State.setBusMeas_outputs (s : State) (r : Option BusMeasurement) : (s.setBusMeas r).outputs = s.outputs := rfl
@[simp] theorem State.setBusMeas_serial (s : State) (r : Option BusMeasurement) : (s.setBusMeas r).serial = s.serial := rfl
@[simp] theorem State.setBusMeas_time (s : State) (r : Option BusMeasurement) : (s.setBusMeas r).time = s.time := rfl
@[simp] theorem State.setBusMeas_held (s : State) (r : Option BusMeasurement) : (s.setBusMeas r).held = s.held := rfl
@[simp] theorem State.setBusMeas_pending (s : State) (r : Option BusMeasurement) : (s.setBusMeas r).pending = s.pending := rfl

@[simp] theorem State.setThreshold_intake (s : State) (r : Option Nat) : (s.setThreshold r).intake = s.intake := rfl
@[simp] theorem State.setThreshold_bank (s : State) (r : Option Nat) : (s.setThreshold r).bank = s.bank := rfl
@[simp] theorem State.setThreshold_profiles (s : State) (r : Option Nat) : (s.setThreshold r).profiles = s.profiles := rfl
@[simp] theorem State.setThreshold_reclose (s : State) (r : Option Nat) : (s.setThreshold r).reclose = s.reclose := rfl
@[simp] theorem State.setThreshold_exchange (s : State) (r : Option Nat) : (s.setThreshold r).exchange = s.exchange := rfl
@[simp] theorem State.setThreshold_hunt (s : State) (r : Option Nat) : (s.setThreshold r).hunt = s.hunt := rfl
@[simp] theorem State.setThreshold_link (s : State) (r : Option Nat) : (s.setThreshold r).link = s.link := rfl
@[simp] theorem State.setThreshold_mgmt (s : State) (r : Option Nat) : (s.setThreshold r).mgmt = s.mgmt := rfl
@[simp] theorem State.setThreshold_loader (s : State) (r : Option Nat) : (s.setThreshold r).loader = s.loader := rfl
@[simp] theorem State.setThreshold_modes (s : State) (r : Option Nat) : (s.setThreshold r).modes = s.modes := rfl
@[simp] theorem State.setThreshold_outputs (s : State) (r : Option Nat) : (s.setThreshold r).outputs = s.outputs := rfl
@[simp] theorem State.setThreshold_serial (s : State) (r : Option Nat) : (s.setThreshold r).serial = s.serial := rfl
@[simp] theorem State.setThreshold_time (s : State) (r : Option Nat) : (s.setThreshold r).time = s.time := rfl
@[simp] theorem State.setThreshold_held (s : State) (r : Option Nat) : (s.setThreshold r).held = s.held := rfl
@[simp] theorem State.setThreshold_pending (s : State) (r : Option Nat) : (s.setThreshold r).pending = s.pending := rfl

@[simp] theorem State.setElement_intake (s : State) (f : Feeder) (r : ElementRecord) : (s.setElement f r).intake = s.intake := rfl
@[simp] theorem State.setElement_phasor (s : State) (f : Feeder) (r : ElementRecord) : (s.setElement f r).phasor = s.phasor := rfl
@[simp] theorem State.setElement_profiles (s : State) (f : Feeder) (r : ElementRecord) : (s.setElement f r).profiles = s.profiles := rfl
@[simp] theorem State.setElement_reclose (s : State) (f : Feeder) (r : ElementRecord) : (s.setElement f r).reclose = s.reclose := rfl
@[simp] theorem State.setElement_exchange (s : State) (f : Feeder) (r : ElementRecord) : (s.setElement f r).exchange = s.exchange := rfl
@[simp] theorem State.setElement_hunt (s : State) (f : Feeder) (r : ElementRecord) : (s.setElement f r).hunt = s.hunt := rfl
@[simp] theorem State.setElement_link (s : State) (f : Feeder) (r : ElementRecord) : (s.setElement f r).link = s.link := rfl
@[simp] theorem State.setElement_mgmt (s : State) (f : Feeder) (r : ElementRecord) : (s.setElement f r).mgmt = s.mgmt := rfl
@[simp] theorem State.setElement_loader (s : State) (f : Feeder) (r : ElementRecord) : (s.setElement f r).loader = s.loader := rfl
@[simp] theorem State.setElement_modes (s : State) (f : Feeder) (r : ElementRecord) : (s.setElement f r).modes = s.modes := rfl
@[simp] theorem State.setElement_outputs (s : State) (f : Feeder) (r : ElementRecord) : (s.setElement f r).outputs = s.outputs := rfl
@[simp] theorem State.setElement_serial (s : State) (f : Feeder) (r : ElementRecord) : (s.setElement f r).serial = s.serial := rfl
@[simp] theorem State.setElement_time (s : State) (f : Feeder) (r : ElementRecord) : (s.setElement f r).time = s.time := rfl
@[simp] theorem State.setElement_held (s : State) (f : Feeder) (r : ElementRecord) : (s.setElement f r).held = s.held := rfl
@[simp] theorem State.setElement_pending (s : State) (f : Feeder) (r : ElementRecord) : (s.setElement f r).pending = s.pending := rfl

@[simp] theorem State.setPlant_intake (s : State) (f : Feeder) (r : Option FeederPlant) : (s.setPlant f r).intake = s.intake := rfl
@[simp] theorem State.setPlant_phasor (s : State) (f : Feeder) (r : Option FeederPlant) : (s.setPlant f r).phasor = s.phasor := rfl
@[simp] theorem State.setPlant_profiles (s : State) (f : Feeder) (r : Option FeederPlant) : (s.setPlant f r).profiles = s.profiles := rfl
@[simp] theorem State.setPlant_reclose (s : State) (f : Feeder) (r : Option FeederPlant) : (s.setPlant f r).reclose = s.reclose := rfl
@[simp] theorem State.setPlant_exchange (s : State) (f : Feeder) (r : Option FeederPlant) : (s.setPlant f r).exchange = s.exchange := rfl
@[simp] theorem State.setPlant_hunt (s : State) (f : Feeder) (r : Option FeederPlant) : (s.setPlant f r).hunt = s.hunt := rfl
@[simp] theorem State.setPlant_link (s : State) (f : Feeder) (r : Option FeederPlant) : (s.setPlant f r).link = s.link := rfl
@[simp] theorem State.setPlant_mgmt (s : State) (f : Feeder) (r : Option FeederPlant) : (s.setPlant f r).mgmt = s.mgmt := rfl
@[simp] theorem State.setPlant_loader (s : State) (f : Feeder) (r : Option FeederPlant) : (s.setPlant f r).loader = s.loader := rfl
@[simp] theorem State.setPlant_modes (s : State) (f : Feeder) (r : Option FeederPlant) : (s.setPlant f r).modes = s.modes := rfl
@[simp] theorem State.setPlant_outputs (s : State) (f : Feeder) (r : Option FeederPlant) : (s.setPlant f r).outputs = s.outputs := rfl
@[simp] theorem State.setPlant_serial (s : State) (f : Feeder) (r : Option FeederPlant) : (s.setPlant f r).serial = s.serial := rfl
@[simp] theorem State.setPlant_time (s : State) (f : Feeder) (r : Option FeederPlant) : (s.setPlant f r).time = s.time := rfl
@[simp] theorem State.setPlant_held (s : State) (f : Feeder) (r : Option FeederPlant) : (s.setPlant f r).held = s.held := rfl
@[simp] theorem State.setPlant_pending (s : State) (f : Feeder) (r : Option FeederPlant) : (s.setPlant f r).pending = s.pending := rfl

@[simp] theorem State.setBusPlant_intake (s : State) (r : Option BusPlant) : (s.setBusPlant r).intake = s.intake := rfl
@[simp] theorem State.setBusPlant_phasor (s : State) (r : Option BusPlant) : (s.setBusPlant r).phasor = s.phasor := rfl
@[simp] theorem State.setBusPlant_profiles (s : State) (r : Option BusPlant) : (s.setBusPlant r).profiles = s.profiles := rfl
@[simp] theorem State.setBusPlant_reclose (s : State) (r : Option BusPlant) : (s.setBusPlant r).reclose = s.reclose := rfl
@[simp] theorem State.setBusPlant_exchange (s : State) (r : Option BusPlant) : (s.setBusPlant r).exchange = s.exchange := rfl
@[simp] theorem State.setBusPlant_hunt (s : State) (r : Option BusPlant) : (s.setBusPlant r).hunt = s.hunt := rfl
@[simp] theorem State.setBusPlant_link (s : State) (r : Option BusPlant) : (s.setBusPlant r).link = s.link := rfl
@[simp] theorem State.setBusPlant_mgmt (s : State) (r : Option BusPlant) : (s.setBusPlant r).mgmt = s.mgmt := rfl
@[simp] theorem State.setBusPlant_loader (s : State) (r : Option BusPlant) : (s.setBusPlant r).loader = s.loader := rfl
@[simp] theorem State.setBusPlant_modes (s : State) (r : Option BusPlant) : (s.setBusPlant r).modes = s.modes := rfl
@[simp] theorem State.setBusPlant_outputs (s : State) (r : Option BusPlant) : (s.setBusPlant r).outputs = s.outputs := rfl
@[simp] theorem State.setBusPlant_serial (s : State) (r : Option BusPlant) : (s.setBusPlant r).serial = s.serial := rfl
@[simp] theorem State.setBusPlant_time (s : State) (r : Option BusPlant) : (s.setBusPlant r).time = s.time := rfl
@[simp] theorem State.setBusPlant_held (s : State) (r : Option BusPlant) : (s.setBusPlant r).held = s.held := rfl
@[simp] theorem State.setBusPlant_pending (s : State) (r : Option BusPlant) : (s.setBusPlant r).pending = s.pending := rfl

@[simp] theorem State.setNd_intake (s : State) (r : NdDetector) : (s.setNd r).intake = s.intake := rfl
@[simp] theorem State.setNd_phasor (s : State) (r : NdDetector) : (s.setNd r).phasor = s.phasor := rfl
@[simp] theorem State.setNd_profiles (s : State) (r : NdDetector) : (s.setNd r).profiles = s.profiles := rfl
@[simp] theorem State.setNd_reclose (s : State) (r : NdDetector) : (s.setNd r).reclose = s.reclose := rfl
@[simp] theorem State.setNd_exchange (s : State) (r : NdDetector) : (s.setNd r).exchange = s.exchange := rfl
@[simp] theorem State.setNd_hunt (s : State) (r : NdDetector) : (s.setNd r).hunt = s.hunt := rfl
@[simp] theorem State.setNd_link (s : State) (r : NdDetector) : (s.setNd r).link = s.link := rfl
@[simp] theorem State.setNd_mgmt (s : State) (r : NdDetector) : (s.setNd r).mgmt = s.mgmt := rfl
@[simp] theorem State.setNd_loader (s : State) (r : NdDetector) : (s.setNd r).loader = s.loader := rfl
@[simp] theorem State.setNd_modes (s : State) (r : NdDetector) : (s.setNd r).modes = s.modes := rfl
@[simp] theorem State.setNd_outputs (s : State) (r : NdDetector) : (s.setNd r).outputs = s.outputs := rfl
@[simp] theorem State.setNd_serial (s : State) (r : NdDetector) : (s.setNd r).serial = s.serial := rfl
@[simp] theorem State.setNd_time (s : State) (r : NdDetector) : (s.setNd r).time = s.time := rfl
@[simp] theorem State.setNd_held (s : State) (r : NdDetector) : (s.setNd r).held = s.held := rfl
@[simp] theorem State.setNd_pending (s : State) (r : NdDetector) : (s.setNd r).pending = s.pending := rfl

@[simp] theorem State.setTrips_intake (s : State) (r : List TripRecord) : (s.setTrips r).intake = s.intake := rfl
@[simp] theorem State.setTrips_phasor (s : State) (r : List TripRecord) : (s.setTrips r).phasor = s.phasor := rfl
@[simp] theorem State.setTrips_profiles (s : State) (r : List TripRecord) : (s.setTrips r).profiles = s.profiles := rfl
@[simp] theorem State.setTrips_reclose (s : State) (r : List TripRecord) : (s.setTrips r).reclose = s.reclose := rfl
@[simp] theorem State.setTrips_exchange (s : State) (r : List TripRecord) : (s.setTrips r).exchange = s.exchange := rfl
@[simp] theorem State.setTrips_hunt (s : State) (r : List TripRecord) : (s.setTrips r).hunt = s.hunt := rfl
@[simp] theorem State.setTrips_link (s : State) (r : List TripRecord) : (s.setTrips r).link = s.link := rfl
@[simp] theorem State.setTrips_mgmt (s : State) (r : List TripRecord) : (s.setTrips r).mgmt = s.mgmt := rfl
@[simp] theorem State.setTrips_loader (s : State) (r : List TripRecord) : (s.setTrips r).loader = s.loader := rfl
@[simp] theorem State.setTrips_modes (s : State) (r : List TripRecord) : (s.setTrips r).modes = s.modes := rfl
@[simp] theorem State.setTrips_outputs (s : State) (r : List TripRecord) : (s.setTrips r).outputs = s.outputs := rfl
@[simp] theorem State.setTrips_serial (s : State) (r : List TripRecord) : (s.setTrips r).serial = s.serial := rfl
@[simp] theorem State.setTrips_time (s : State) (r : List TripRecord) : (s.setTrips r).time = s.time := rfl
@[simp] theorem State.setTrips_held (s : State) (r : List TripRecord) : (s.setTrips r).held = s.held := rfl
@[simp] theorem State.setTrips_pending (s : State) (r : List TripRecord) : (s.setTrips r).pending = s.pending := rfl

@[simp] theorem State.setProfile_intake (s : State) (k : BankSlot) (r : Option Profile) : (s.setProfile k r).intake = s.intake := rfl
@[simp] theorem State.setProfile_phasor (s : State) (k : BankSlot) (r : Option Profile) : (s.setProfile k r).phasor = s.phasor := rfl
@[simp] theorem State.setProfile_bank (s : State) (k : BankSlot) (r : Option Profile) : (s.setProfile k r).bank = s.bank := rfl
@[simp] theorem State.setProfile_reclose (s : State) (k : BankSlot) (r : Option Profile) : (s.setProfile k r).reclose = s.reclose := rfl
@[simp] theorem State.setProfile_exchange (s : State) (k : BankSlot) (r : Option Profile) : (s.setProfile k r).exchange = s.exchange := rfl
@[simp] theorem State.setProfile_hunt (s : State) (k : BankSlot) (r : Option Profile) : (s.setProfile k r).hunt = s.hunt := rfl
@[simp] theorem State.setProfile_link (s : State) (k : BankSlot) (r : Option Profile) : (s.setProfile k r).link = s.link := rfl
@[simp] theorem State.setProfile_mgmt (s : State) (k : BankSlot) (r : Option Profile) : (s.setProfile k r).mgmt = s.mgmt := rfl
@[simp] theorem State.setProfile_loader (s : State) (k : BankSlot) (r : Option Profile) : (s.setProfile k r).loader = s.loader := rfl
@[simp] theorem State.setProfile_modes (s : State) (k : BankSlot) (r : Option Profile) : (s.setProfile k r).modes = s.modes := rfl
@[simp] theorem State.setProfile_outputs (s : State) (k : BankSlot) (r : Option Profile) : (s.setProfile k r).outputs = s.outputs := rfl
@[simp] theorem State.setProfile_serial (s : State) (k : BankSlot) (r : Option Profile) : (s.setProfile k r).serial = s.serial := rfl
@[simp] theorem State.setProfile_time (s : State) (k : BankSlot) (r : Option Profile) : (s.setProfile k r).time = s.time := rfl
@[simp] theorem State.setProfile_held (s : State) (k : BankSlot) (r : Option Profile) : (s.setProfile k r).held = s.held := rfl
@[simp] theorem State.setProfile_pending (s : State) (k : BankSlot) (r : Option Profile) : (s.setProfile k r).pending = s.pending := rfl

@[simp] theorem State.setCurve_intake (s : State) (k : BankSlot) (r : Option (List Nat)) : (s.setCurve k r).intake = s.intake := rfl
@[simp] theorem State.setCurve_phasor (s : State) (k : BankSlot) (r : Option (List Nat)) : (s.setCurve k r).phasor = s.phasor := rfl
@[simp] theorem State.setCurve_bank (s : State) (k : BankSlot) (r : Option (List Nat)) : (s.setCurve k r).bank = s.bank := rfl
@[simp] theorem State.setCurve_reclose (s : State) (k : BankSlot) (r : Option (List Nat)) : (s.setCurve k r).reclose = s.reclose := rfl
@[simp] theorem State.setCurve_exchange (s : State) (k : BankSlot) (r : Option (List Nat)) : (s.setCurve k r).exchange = s.exchange := rfl
@[simp] theorem State.setCurve_hunt (s : State) (k : BankSlot) (r : Option (List Nat)) : (s.setCurve k r).hunt = s.hunt := rfl
@[simp] theorem State.setCurve_link (s : State) (k : BankSlot) (r : Option (List Nat)) : (s.setCurve k r).link = s.link := rfl
@[simp] theorem State.setCurve_mgmt (s : State) (k : BankSlot) (r : Option (List Nat)) : (s.setCurve k r).mgmt = s.mgmt := rfl
@[simp] theorem State.setCurve_loader (s : State) (k : BankSlot) (r : Option (List Nat)) : (s.setCurve k r).loader = s.loader := rfl
@[simp] theorem State.setCurve_modes (s : State) (k : BankSlot) (r : Option (List Nat)) : (s.setCurve k r).modes = s.modes := rfl
@[simp] theorem State.setCurve_outputs (s : State) (k : BankSlot) (r : Option (List Nat)) : (s.setCurve k r).outputs = s.outputs := rfl
@[simp] theorem State.setCurve_serial (s : State) (k : BankSlot) (r : Option (List Nat)) : (s.setCurve k r).serial = s.serial := rfl
@[simp] theorem State.setCurve_time (s : State) (k : BankSlot) (r : Option (List Nat)) : (s.setCurve k r).time = s.time := rfl
@[simp] theorem State.setCurve_held (s : State) (k : BankSlot) (r : Option (List Nat)) : (s.setCurve k r).held = s.held := rfl
@[simp] theorem State.setCurve_pending (s : State) (k : BankSlot) (r : Option (List Nat)) : (s.setCurve k r).pending = s.pending := rfl

@[simp] theorem State.setEntry_intake (s : State) (e : EntryId) (r : MapEntry) : (s.setEntry e r).intake = s.intake := rfl
@[simp] theorem State.setEntry_phasor (s : State) (e : EntryId) (r : MapEntry) : (s.setEntry e r).phasor = s.phasor := rfl
@[simp] theorem State.setEntry_bank (s : State) (e : EntryId) (r : MapEntry) : (s.setEntry e r).bank = s.bank := rfl
@[simp] theorem State.setEntry_reclose (s : State) (e : EntryId) (r : MapEntry) : (s.setEntry e r).reclose = s.reclose := rfl
@[simp] theorem State.setEntry_exchange (s : State) (e : EntryId) (r : MapEntry) : (s.setEntry e r).exchange = s.exchange := rfl
@[simp] theorem State.setEntry_hunt (s : State) (e : EntryId) (r : MapEntry) : (s.setEntry e r).hunt = s.hunt := rfl
@[simp] theorem State.setEntry_link (s : State) (e : EntryId) (r : MapEntry) : (s.setEntry e r).link = s.link := rfl
@[simp] theorem State.setEntry_mgmt (s : State) (e : EntryId) (r : MapEntry) : (s.setEntry e r).mgmt = s.mgmt := rfl
@[simp] theorem State.setEntry_loader (s : State) (e : EntryId) (r : MapEntry) : (s.setEntry e r).loader = s.loader := rfl
@[simp] theorem State.setEntry_modes (s : State) (e : EntryId) (r : MapEntry) : (s.setEntry e r).modes = s.modes := rfl
@[simp] theorem State.setEntry_outputs (s : State) (e : EntryId) (r : MapEntry) : (s.setEntry e r).outputs = s.outputs := rfl
@[simp] theorem State.setEntry_serial (s : State) (e : EntryId) (r : MapEntry) : (s.setEntry e r).serial = s.serial := rfl
@[simp] theorem State.setEntry_time (s : State) (e : EntryId) (r : MapEntry) : (s.setEntry e r).time = s.time := rfl
@[simp] theorem State.setEntry_held (s : State) (e : EntryId) (r : MapEntry) : (s.setEntry e r).held = s.held := rfl
@[simp] theorem State.setEntry_pending (s : State) (e : EntryId) (r : MapEntry) : (s.setEntry e r).pending = s.pending := rfl

@[simp] theorem State.setRecl_intake (s : State) (f : Feeder) (r : RecloseRecord) : (s.setRecl f r).intake = s.intake := rfl
@[simp] theorem State.setRecl_phasor (s : State) (f : Feeder) (r : RecloseRecord) : (s.setRecl f r).phasor = s.phasor := rfl
@[simp] theorem State.setRecl_bank (s : State) (f : Feeder) (r : RecloseRecord) : (s.setRecl f r).bank = s.bank := rfl
@[simp] theorem State.setRecl_profiles (s : State) (f : Feeder) (r : RecloseRecord) : (s.setRecl f r).profiles = s.profiles := rfl
@[simp] theorem State.setRecl_exchange (s : State) (f : Feeder) (r : RecloseRecord) : (s.setRecl f r).exchange = s.exchange := rfl
@[simp] theorem State.setRecl_hunt (s : State) (f : Feeder) (r : RecloseRecord) : (s.setRecl f r).hunt = s.hunt := rfl
@[simp] theorem State.setRecl_link (s : State) (f : Feeder) (r : RecloseRecord) : (s.setRecl f r).link = s.link := rfl
@[simp] theorem State.setRecl_mgmt (s : State) (f : Feeder) (r : RecloseRecord) : (s.setRecl f r).mgmt = s.mgmt := rfl
@[simp] theorem State.setRecl_loader (s : State) (f : Feeder) (r : RecloseRecord) : (s.setRecl f r).loader = s.loader := rfl
@[simp] theorem State.setRecl_modes (s : State) (f : Feeder) (r : RecloseRecord) : (s.setRecl f r).modes = s.modes := rfl
@[simp] theorem State.setRecl_outputs (s : State) (f : Feeder) (r : RecloseRecord) : (s.setRecl f r).outputs = s.outputs := rfl
@[simp] theorem State.setRecl_serial (s : State) (f : Feeder) (r : RecloseRecord) : (s.setRecl f r).serial = s.serial := rfl
@[simp] theorem State.setRecl_time (s : State) (f : Feeder) (r : RecloseRecord) : (s.setRecl f r).time = s.time := rfl
@[simp] theorem State.setRecl_held (s : State) (f : Feeder) (r : RecloseRecord) : (s.setRecl f r).held = s.held := rfl
@[simp] theorem State.setRecl_pending (s : State) (f : Feeder) (r : RecloseRecord) : (s.setRecl f r).pending = s.pending := rfl

@[simp] theorem State.setFollower_intake (s : State) (i : SlotId) (r : FollowerRecord) : (s.setFollower i r).intake = s.intake := rfl
@[simp] theorem State.setFollower_phasor (s : State) (i : SlotId) (r : FollowerRecord) : (s.setFollower i r).phasor = s.phasor := rfl
@[simp] theorem State.setFollower_bank (s : State) (i : SlotId) (r : FollowerRecord) : (s.setFollower i r).bank = s.bank := rfl
@[simp] theorem State.setFollower_profiles (s : State) (i : SlotId) (r : FollowerRecord) : (s.setFollower i r).profiles = s.profiles := rfl
@[simp] theorem State.setFollower_exchange (s : State) (i : SlotId) (r : FollowerRecord) : (s.setFollower i r).exchange = s.exchange := rfl
@[simp] theorem State.setFollower_hunt (s : State) (i : SlotId) (r : FollowerRecord) : (s.setFollower i r).hunt = s.hunt := rfl
@[simp] theorem State.setFollower_link (s : State) (i : SlotId) (r : FollowerRecord) : (s.setFollower i r).link = s.link := rfl
@[simp] theorem State.setFollower_mgmt (s : State) (i : SlotId) (r : FollowerRecord) : (s.setFollower i r).mgmt = s.mgmt := rfl
@[simp] theorem State.setFollower_loader (s : State) (i : SlotId) (r : FollowerRecord) : (s.setFollower i r).loader = s.loader := rfl
@[simp] theorem State.setFollower_modes (s : State) (i : SlotId) (r : FollowerRecord) : (s.setFollower i r).modes = s.modes := rfl
@[simp] theorem State.setFollower_outputs (s : State) (i : SlotId) (r : FollowerRecord) : (s.setFollower i r).outputs = s.outputs := rfl
@[simp] theorem State.setFollower_serial (s : State) (i : SlotId) (r : FollowerRecord) : (s.setFollower i r).serial = s.serial := rfl
@[simp] theorem State.setFollower_time (s : State) (i : SlotId) (r : FollowerRecord) : (s.setFollower i r).time = s.time := rfl
@[simp] theorem State.setFollower_held (s : State) (i : SlotId) (r : FollowerRecord) : (s.setFollower i r).held = s.held := rfl
@[simp] theorem State.setFollower_pending (s : State) (i : SlotId) (r : FollowerRecord) : (s.setFollower i r).pending = s.pending := rfl

@[simp] theorem State.setSlot_intake (s : State) (i : SlotId) (r : Outstation) : (s.setSlot i r).intake = s.intake := rfl
@[simp] theorem State.setSlot_phasor (s : State) (i : SlotId) (r : Outstation) : (s.setSlot i r).phasor = s.phasor := rfl
@[simp] theorem State.setSlot_bank (s : State) (i : SlotId) (r : Outstation) : (s.setSlot i r).bank = s.bank := rfl
@[simp] theorem State.setSlot_profiles (s : State) (i : SlotId) (r : Outstation) : (s.setSlot i r).profiles = s.profiles := rfl
@[simp] theorem State.setSlot_reclose (s : State) (i : SlotId) (r : Outstation) : (s.setSlot i r).reclose = s.reclose := rfl
@[simp] theorem State.setSlot_hunt (s : State) (i : SlotId) (r : Outstation) : (s.setSlot i r).hunt = s.hunt := rfl
@[simp] theorem State.setSlot_link (s : State) (i : SlotId) (r : Outstation) : (s.setSlot i r).link = s.link := rfl
@[simp] theorem State.setSlot_mgmt (s : State) (i : SlotId) (r : Outstation) : (s.setSlot i r).mgmt = s.mgmt := rfl
@[simp] theorem State.setSlot_loader (s : State) (i : SlotId) (r : Outstation) : (s.setSlot i r).loader = s.loader := rfl
@[simp] theorem State.setSlot_modes (s : State) (i : SlotId) (r : Outstation) : (s.setSlot i r).modes = s.modes := rfl
@[simp] theorem State.setSlot_outputs (s : State) (i : SlotId) (r : Outstation) : (s.setSlot i r).outputs = s.outputs := rfl
@[simp] theorem State.setSlot_serial (s : State) (i : SlotId) (r : Outstation) : (s.setSlot i r).serial = s.serial := rfl
@[simp] theorem State.setSlot_time (s : State) (i : SlotId) (r : Outstation) : (s.setSlot i r).time = s.time := rfl
@[simp] theorem State.setSlot_held (s : State) (i : SlotId) (r : Outstation) : (s.setSlot i r).held = s.held := rfl
@[simp] theorem State.setSlot_pending (s : State) (i : SlotId) (r : Outstation) : (s.setSlot i r).pending = s.pending := rfl
@[simp] theorem State.countAdmission_intake (s : State) (i : SlotId) : (s.countAdmission i).intake = s.intake := rfl
@[simp] theorem State.countAdmission_phasor (s : State) (i : SlotId) : (s.countAdmission i).phasor = s.phasor := rfl
@[simp] theorem State.countAdmission_bank (s : State) (i : SlotId) : (s.countAdmission i).bank = s.bank := rfl
@[simp] theorem State.countAdmission_profiles (s : State) (i : SlotId) : (s.countAdmission i).profiles = s.profiles := rfl
@[simp] theorem State.countAdmission_reclose (s : State) (i : SlotId) : (s.countAdmission i).reclose = s.reclose := rfl
@[simp] theorem State.countAdmission_hunt (s : State) (i : SlotId) : (s.countAdmission i).hunt = s.hunt := rfl
@[simp] theorem State.countAdmission_link (s : State) (i : SlotId) : (s.countAdmission i).link = s.link := rfl
@[simp] theorem State.countAdmission_mgmt (s : State) (i : SlotId) : (s.countAdmission i).mgmt = s.mgmt := rfl
@[simp] theorem State.countAdmission_loader (s : State) (i : SlotId) : (s.countAdmission i).loader = s.loader := rfl
@[simp] theorem State.countAdmission_modes (s : State) (i : SlotId) : (s.countAdmission i).modes = s.modes := rfl
@[simp] theorem State.countAdmission_outputs (s : State) (i : SlotId) : (s.countAdmission i).outputs = s.outputs := rfl
@[simp] theorem State.countAdmission_serial (s : State) (i : SlotId) : (s.countAdmission i).serial = s.serial := rfl
@[simp] theorem State.countAdmission_time (s : State) (i : SlotId) : (s.countAdmission i).time = s.time := rfl
@[simp] theorem State.countAdmission_held (s : State) (i : SlotId) : (s.countAdmission i).held = s.held := rfl
@[simp] theorem State.countAdmission_pending (s : State) (i : SlotId) : (s.countAdmission i).pending = s.pending := rfl

@[simp] theorem State.setCtx_intake (s : State) (r : HuntContext) : (s.setCtx r).intake = s.intake := rfl
@[simp] theorem State.setCtx_phasor (s : State) (r : HuntContext) : (s.setCtx r).phasor = s.phasor := rfl
@[simp] theorem State.setCtx_bank (s : State) (r : HuntContext) : (s.setCtx r).bank = s.bank := rfl
@[simp] theorem State.setCtx_profiles (s : State) (r : HuntContext) : (s.setCtx r).profiles = s.profiles := rfl
@[simp] theorem State.setCtx_reclose (s : State) (r : HuntContext) : (s.setCtx r).reclose = s.reclose := rfl
@[simp] theorem State.setCtx_exchange (s : State) (r : HuntContext) : (s.setCtx r).exchange = s.exchange := rfl
@[simp] theorem State.setCtx_link (s : State) (r : HuntContext) : (s.setCtx r).link = s.link := rfl
@[simp] theorem State.setCtx_mgmt (s : State) (r : HuntContext) : (s.setCtx r).mgmt = s.mgmt := rfl
@[simp] theorem State.setCtx_loader (s : State) (r : HuntContext) : (s.setCtx r).loader = s.loader := rfl
@[simp] theorem State.setCtx_modes (s : State) (r : HuntContext) : (s.setCtx r).modes = s.modes := rfl
@[simp] theorem State.setCtx_outputs (s : State) (r : HuntContext) : (s.setCtx r).outputs = s.outputs := rfl
@[simp] theorem State.setCtx_serial (s : State) (r : HuntContext) : (s.setCtx r).serial = s.serial := rfl
@[simp] theorem State.setCtx_time (s : State) (r : HuntContext) : (s.setCtx r).time = s.time := rfl
@[simp] theorem State.setCtx_held (s : State) (r : HuntContext) : (s.setCtx r).held = s.held := rfl
@[simp] theorem State.setCtx_pending (s : State) (r : HuntContext) : (s.setCtx r).pending = s.pending := rfl

@[simp] theorem State.setHuntList_intake (s : State) (r : List EntryId) : (s.setHuntList r).intake = s.intake := rfl
@[simp] theorem State.setHuntList_phasor (s : State) (r : List EntryId) : (s.setHuntList r).phasor = s.phasor := rfl
@[simp] theorem State.setHuntList_bank (s : State) (r : List EntryId) : (s.setHuntList r).bank = s.bank := rfl
@[simp] theorem State.setHuntList_profiles (s : State) (r : List EntryId) : (s.setHuntList r).profiles = s.profiles := rfl
@[simp] theorem State.setHuntList_reclose (s : State) (r : List EntryId) : (s.setHuntList r).reclose = s.reclose := rfl
@[simp] theorem State.setHuntList_exchange (s : State) (r : List EntryId) : (s.setHuntList r).exchange = s.exchange := rfl
@[simp] theorem State.setHuntList_link (s : State) (r : List EntryId) : (s.setHuntList r).link = s.link := rfl
@[simp] theorem State.setHuntList_mgmt (s : State) (r : List EntryId) : (s.setHuntList r).mgmt = s.mgmt := rfl
@[simp] theorem State.setHuntList_loader (s : State) (r : List EntryId) : (s.setHuntList r).loader = s.loader := rfl
@[simp] theorem State.setHuntList_modes (s : State) (r : List EntryId) : (s.setHuntList r).modes = s.modes := rfl
@[simp] theorem State.setHuntList_outputs (s : State) (r : List EntryId) : (s.setHuntList r).outputs = s.outputs := rfl
@[simp] theorem State.setHuntList_serial (s : State) (r : List EntryId) : (s.setHuntList r).serial = s.serial := rfl
@[simp] theorem State.setHuntList_time (s : State) (r : List EntryId) : (s.setHuntList r).time = s.time := rfl
@[simp] theorem State.setHuntList_held (s : State) (r : List EntryId) : (s.setHuntList r).held = s.held := rfl
@[simp] theorem State.setHuntList_pending (s : State) (r : List EntryId) : (s.setHuntList r).pending = s.pending := rfl

@[simp] theorem State.setPlan_intake (s : State) (f : Feeder) (r : List PlanStep) : (s.setPlan f r).intake = s.intake := rfl
@[simp] theorem State.setPlan_phasor (s : State) (f : Feeder) (r : List PlanStep) : (s.setPlan f r).phasor = s.phasor := rfl
@[simp] theorem State.setPlan_bank (s : State) (f : Feeder) (r : List PlanStep) : (s.setPlan f r).bank = s.bank := rfl
@[simp] theorem State.setPlan_profiles (s : State) (f : Feeder) (r : List PlanStep) : (s.setPlan f r).profiles = s.profiles := rfl
@[simp] theorem State.setPlan_reclose (s : State) (f : Feeder) (r : List PlanStep) : (s.setPlan f r).reclose = s.reclose := rfl
@[simp] theorem State.setPlan_exchange (s : State) (f : Feeder) (r : List PlanStep) : (s.setPlan f r).exchange = s.exchange := rfl
@[simp] theorem State.setPlan_link (s : State) (f : Feeder) (r : List PlanStep) : (s.setPlan f r).link = s.link := rfl
@[simp] theorem State.setPlan_mgmt (s : State) (f : Feeder) (r : List PlanStep) : (s.setPlan f r).mgmt = s.mgmt := rfl
@[simp] theorem State.setPlan_loader (s : State) (f : Feeder) (r : List PlanStep) : (s.setPlan f r).loader = s.loader := rfl
@[simp] theorem State.setPlan_modes (s : State) (f : Feeder) (r : List PlanStep) : (s.setPlan f r).modes = s.modes := rfl
@[simp] theorem State.setPlan_outputs (s : State) (f : Feeder) (r : List PlanStep) : (s.setPlan f r).outputs = s.outputs := rfl
@[simp] theorem State.setPlan_serial (s : State) (f : Feeder) (r : List PlanStep) : (s.setPlan f r).serial = s.serial := rfl
@[simp] theorem State.setPlan_time (s : State) (f : Feeder) (r : List PlanStep) : (s.setPlan f r).time = s.time := rfl
@[simp] theorem State.setPlan_held (s : State) (f : Feeder) (r : List PlanStep) : (s.setPlan f r).held = s.held := rfl
@[simp] theorem State.setPlan_pending (s : State) (f : Feeder) (r : List PlanStep) : (s.setPlan f r).pending = s.pending := rfl

@[simp] theorem State.setBusOrder_intake (s : State) (r : List Feeder) : (s.setBusOrder r).intake = s.intake := rfl
@[simp] theorem State.setBusOrder_phasor (s : State) (r : List Feeder) : (s.setBusOrder r).phasor = s.phasor := rfl
@[simp] theorem State.setBusOrder_bank (s : State) (r : List Feeder) : (s.setBusOrder r).bank = s.bank := rfl
@[simp] theorem State.setBusOrder_profiles (s : State) (r : List Feeder) : (s.setBusOrder r).profiles = s.profiles := rfl
@[simp] theorem State.setBusOrder_reclose (s : State) (r : List Feeder) : (s.setBusOrder r).reclose = s.reclose := rfl
@[simp] theorem State.setBusOrder_exchange (s : State) (r : List Feeder) : (s.setBusOrder r).exchange = s.exchange := rfl
@[simp] theorem State.setBusOrder_link (s : State) (r : List Feeder) : (s.setBusOrder r).link = s.link := rfl
@[simp] theorem State.setBusOrder_mgmt (s : State) (r : List Feeder) : (s.setBusOrder r).mgmt = s.mgmt := rfl
@[simp] theorem State.setBusOrder_loader (s : State) (r : List Feeder) : (s.setBusOrder r).loader = s.loader := rfl
@[simp] theorem State.setBusOrder_modes (s : State) (r : List Feeder) : (s.setBusOrder r).modes = s.modes := rfl
@[simp] theorem State.setBusOrder_outputs (s : State) (r : List Feeder) : (s.setBusOrder r).outputs = s.outputs := rfl
@[simp] theorem State.setBusOrder_serial (s : State) (r : List Feeder) : (s.setBusOrder r).serial = s.serial := rfl
@[simp] theorem State.setBusOrder_time (s : State) (r : List Feeder) : (s.setBusOrder r).time = s.time := rfl
@[simp] theorem State.setBusOrder_held (s : State) (r : List Feeder) : (s.setBusOrder r).held = s.held := rfl
@[simp] theorem State.setBusOrder_pending (s : State) (r : List Feeder) : (s.setBusOrder r).pending = s.pending := rfl

@[simp] theorem State.setMode_intake (s : State) (f : Feeder) (r : Mode) : (s.setMode f r).intake = s.intake := rfl
@[simp] theorem State.setMode_phasor (s : State) (f : Feeder) (r : Mode) : (s.setMode f r).phasor = s.phasor := rfl
@[simp] theorem State.setMode_bank (s : State) (f : Feeder) (r : Mode) : (s.setMode f r).bank = s.bank := rfl
@[simp] theorem State.setMode_profiles (s : State) (f : Feeder) (r : Mode) : (s.setMode f r).profiles = s.profiles := rfl
@[simp] theorem State.setMode_reclose (s : State) (f : Feeder) (r : Mode) : (s.setMode f r).reclose = s.reclose := rfl
@[simp] theorem State.setMode_exchange (s : State) (f : Feeder) (r : Mode) : (s.setMode f r).exchange = s.exchange := rfl
@[simp] theorem State.setMode_hunt (s : State) (f : Feeder) (r : Mode) : (s.setMode f r).hunt = s.hunt := rfl
@[simp] theorem State.setMode_link (s : State) (f : Feeder) (r : Mode) : (s.setMode f r).link = s.link := rfl
@[simp] theorem State.setMode_mgmt (s : State) (f : Feeder) (r : Mode) : (s.setMode f r).mgmt = s.mgmt := rfl
@[simp] theorem State.setMode_loader (s : State) (f : Feeder) (r : Mode) : (s.setMode f r).loader = s.loader := rfl
@[simp] theorem State.setMode_outputs (s : State) (f : Feeder) (r : Mode) : (s.setMode f r).outputs = s.outputs := rfl
@[simp] theorem State.setMode_serial (s : State) (f : Feeder) (r : Mode) : (s.setMode f r).serial = s.serial := rfl
@[simp] theorem State.setMode_time (s : State) (f : Feeder) (r : Mode) : (s.setMode f r).time = s.time := rfl
@[simp] theorem State.setMode_held (s : State) (f : Feeder) (r : Mode) : (s.setMode f r).held = s.held := rfl
@[simp] theorem State.setMode_pending (s : State) (f : Feeder) (r : Mode) : (s.setMode f r).pending = s.pending := rfl

/-! ### Record updates: inside their own block -/

@[simp] theorem State.setStream_intake_streams (s : State) (e : EntryId) (r : StreamRecord) : (s.setStream e r).intake.streams = put s.intake.streams e r := rfl
@[simp] theorem State.setMeas_phasor_feeders (s : State) (f : Feeder) (r : Option FeederMeasurement) : (s.setMeas f r).phasor.feeders = put s.phasor.feeders f r := rfl
@[simp] theorem State.setMeas_phasor_bus (s : State) (f : Feeder) (r : Option FeederMeasurement) : (s.setMeas f r).phasor.bus = s.phasor.bus := rfl
@[simp] theorem State.setMeas_phasor_threshold (s : State) (f : Feeder) (r : Option FeederMeasurement) : (s.setMeas f r).phasor.threshold = s.phasor.threshold := rfl
@[simp] theorem State.setBusMeas_phasor_feeders (s : State) (r : Option BusMeasurement) : (s.setBusMeas r).phasor.feeders = s.phasor.feeders := rfl
@[simp] theorem State.setBusMeas_phasor_bus (s : State) (r : Option BusMeasurement) : (s.setBusMeas r).phasor.bus = r := rfl
@[simp] theorem State.setBusMeas_phasor_threshold (s : State) (r : Option BusMeasurement) : (s.setBusMeas r).phasor.threshold = s.phasor.threshold := rfl
@[simp] theorem State.setThreshold_phasor_feeders (s : State) (r : Option Nat) : (s.setThreshold r).phasor.feeders = s.phasor.feeders := rfl
@[simp] theorem State.setThreshold_phasor_bus (s : State) (r : Option Nat) : (s.setThreshold r).phasor.bus = s.phasor.bus := rfl
@[simp] theorem State.setThreshold_phasor_threshold (s : State) (r : Option Nat) : (s.setThreshold r).phasor.threshold = r := rfl
@[simp] theorem State.setElement_bank_records (s : State) (f : Feeder) (r : ElementRecord) : (s.setElement f r).bank.records = put s.bank.records f r := rfl
@[simp] theorem State.setElement_bank_plants (s : State) (f : Feeder) (r : ElementRecord) : (s.setElement f r).bank.plants = s.bank.plants := rfl
@[simp] theorem State.setElement_bank_bus (s : State) (f : Feeder) (r : ElementRecord) : (s.setElement f r).bank.bus = s.bank.bus := rfl
@[simp] theorem State.setElement_bank_nd (s : State) (f : Feeder) (r : ElementRecord) : (s.setElement f r).bank.nd = s.bank.nd := rfl
@[simp] theorem State.setElement_bank_trips (s : State) (f : Feeder) (r : ElementRecord) : (s.setElement f r).bank.trips = s.bank.trips := rfl
@[simp] theorem State.setPlant_bank_records (s : State) (f : Feeder) (r : Option FeederPlant) : (s.setPlant f r).bank.records = s.bank.records := rfl
@[simp] theorem State.setPlant_bank_plants (s : State) (f : Feeder) (r : Option FeederPlant) : (s.setPlant f r).bank.plants = put s.bank.plants f r := rfl
@[simp] theorem State.setPlant_bank_bus (s : State) (f : Feeder) (r : Option FeederPlant) : (s.setPlant f r).bank.bus = s.bank.bus := rfl
@[simp] theorem State.setPlant_bank_nd (s : State) (f : Feeder) (r : Option FeederPlant) : (s.setPlant f r).bank.nd = s.bank.nd := rfl
@[simp] theorem State.setPlant_bank_trips (s : State) (f : Feeder) (r : Option FeederPlant) : (s.setPlant f r).bank.trips = s.bank.trips := rfl
@[simp] theorem State.setBusPlant_bank_records (s : State) (r : Option BusPlant) : (s.setBusPlant r).bank.records = s.bank.records := rfl
@[simp] theorem State.setBusPlant_bank_plants (s : State) (r : Option BusPlant) : (s.setBusPlant r).bank.plants = s.bank.plants := rfl
@[simp] theorem State.setBusPlant_bank_bus (s : State) (r : Option BusPlant) : (s.setBusPlant r).bank.bus = r := rfl
@[simp] theorem State.setBusPlant_bank_nd (s : State) (r : Option BusPlant) : (s.setBusPlant r).bank.nd = s.bank.nd := rfl
@[simp] theorem State.setBusPlant_bank_trips (s : State) (r : Option BusPlant) : (s.setBusPlant r).bank.trips = s.bank.trips := rfl
@[simp] theorem State.setNd_bank_records (s : State) (r : NdDetector) : (s.setNd r).bank.records = s.bank.records := rfl
@[simp] theorem State.setNd_bank_plants (s : State) (r : NdDetector) : (s.setNd r).bank.plants = s.bank.plants := rfl
@[simp] theorem State.setNd_bank_bus (s : State) (r : NdDetector) : (s.setNd r).bank.bus = s.bank.bus := rfl
@[simp] theorem State.setNd_bank_nd (s : State) (r : NdDetector) : (s.setNd r).bank.nd = r := rfl
@[simp] theorem State.setNd_bank_trips (s : State) (r : NdDetector) : (s.setNd r).bank.trips = s.bank.trips := rfl
@[simp] theorem State.setTrips_bank_records (s : State) (r : List TripRecord) : (s.setTrips r).bank.records = s.bank.records := rfl
@[simp] theorem State.setTrips_bank_plants (s : State) (r : List TripRecord) : (s.setTrips r).bank.plants = s.bank.plants := rfl
@[simp] theorem State.setTrips_bank_bus (s : State) (r : List TripRecord) : (s.setTrips r).bank.bus = s.bank.bus := rfl
@[simp] theorem State.setTrips_bank_nd (s : State) (r : List TripRecord) : (s.setTrips r).bank.nd = s.bank.nd := rfl
@[simp] theorem State.setTrips_bank_trips (s : State) (r : List TripRecord) : (s.setTrips r).bank.trips = r := rfl
@[simp] theorem State.setProfile_profiles_slots (s : State) (k : BankSlot) (r : Option Profile) : (s.setProfile k r).profiles.slots = put s.profiles.slots k r := rfl
@[simp] theorem State.setProfile_profiles_curves (s : State) (k : BankSlot) (r : Option Profile) : (s.setProfile k r).profiles.curves = s.profiles.curves := rfl
@[simp] theorem State.setProfile_profiles_map (s : State) (k : BankSlot) (r : Option Profile) : (s.setProfile k r).profiles.map = s.profiles.map := rfl
@[simp] theorem State.setCurve_profiles_slots (s : State) (k : BankSlot) (r : Option (List Nat)) : (s.setCurve k r).profiles.slots = s.profiles.slots := rfl
@[simp] theorem State.setCurve_profiles_curves (s : State) (k : BankSlot) (r : Option (List Nat)) : (s.setCurve k r).profiles.curves = put s.profiles.curves k r := rfl
@[simp] theorem State.setCurve_profiles_map (s : State) (k : BankSlot) (r : Option (List Nat)) : (s.setCurve k r).profiles.map = s.profiles.map := rfl
@[simp] theorem State.setEntry_profiles_slots (s : State) (e : EntryId) (r : MapEntry) : (s.setEntry e r).profiles.slots = s.profiles.slots := rfl
@[simp] theorem State.setEntry_profiles_curves (s : State) (e : EntryId) (r : MapEntry) : (s.setEntry e r).profiles.curves = s.profiles.curves := rfl
@[simp] theorem State.setEntry_profiles_map (s : State) (e : EntryId) (r : MapEntry) : (s.setEntry e r).profiles.map = put s.profiles.map e r := rfl
@[simp] theorem State.setRecl_reclose_records (s : State) (f : Feeder) (r : RecloseRecord) : (s.setRecl f r).reclose.records = put s.reclose.records f r := rfl
@[simp] theorem State.setRecl_reclose_followers (s : State) (f : Feeder) (r : RecloseRecord) : (s.setRecl f r).reclose.followers = s.reclose.followers := rfl
@[simp] theorem State.setFollower_reclose_records (s : State) (i : SlotId) (r : FollowerRecord) : (s.setFollower i r).reclose.records = s.reclose.records := rfl
@[simp] theorem State.setFollower_reclose_followers (s : State) (i : SlotId) (r : FollowerRecord) : (s.setFollower i r).reclose.followers = put s.reclose.followers i r := rfl
@[simp] theorem State.setSlot_exchange_slots (s : State) (i : SlotId) (r : Outstation) : (s.setSlot i r).exchange.slots = put s.exchange.slots i r := rfl
@[simp] theorem State.setSlot_exchange_admitted (s : State) (i : SlotId) (r : Outstation) : (s.setSlot i r).exchange.admitted = s.exchange.admitted := rfl
@[simp] theorem State.countAdmission_exchange_slots (s : State) (i : SlotId) : (s.countAdmission i).exchange.slots = s.exchange.slots := rfl
@[simp] theorem State.countAdmission_exchange_admitted (s : State) (i : SlotId) : (s.countAdmission i).exchange.admitted = put s.exchange.admitted i (s.admissions i + 1) := rfl
@[simp] theorem State.setCtx_hunt_ctx (s : State) (r : HuntContext) : (s.setCtx r).hunt.ctx = r := rfl
@[simp] theorem State.setCtx_hunt_pendingList (s : State) (r : HuntContext) : (s.setCtx r).hunt.pendingList = s.hunt.pendingList := rfl
@[simp] theorem State.setCtx_hunt_plans (s : State) (r : HuntContext) : (s.setCtx r).hunt.plans = s.hunt.plans := rfl
@[simp] theorem State.setCtx_hunt_busOrder (s : State) (r : HuntContext) : (s.setCtx r).hunt.busOrder = s.hunt.busOrder := rfl
@[simp] theorem State.setHuntList_hunt_ctx (s : State) (r : List EntryId) : (s.setHuntList r).hunt.ctx = s.hunt.ctx := rfl
@[simp] theorem State.setHuntList_hunt_pendingList (s : State) (r : List EntryId) : (s.setHuntList r).hunt.pendingList = r := rfl
@[simp] theorem State.setHuntList_hunt_plans (s : State) (r : List EntryId) : (s.setHuntList r).hunt.plans = s.hunt.plans := rfl
@[simp] theorem State.setHuntList_hunt_busOrder (s : State) (r : List EntryId) : (s.setHuntList r).hunt.busOrder = s.hunt.busOrder := rfl
@[simp] theorem State.setPlan_hunt_ctx (s : State) (f : Feeder) (r : List PlanStep) : (s.setPlan f r).hunt.ctx = s.hunt.ctx := rfl
@[simp] theorem State.setPlan_hunt_pendingList (s : State) (f : Feeder) (r : List PlanStep) : (s.setPlan f r).hunt.pendingList = s.hunt.pendingList := rfl
@[simp] theorem State.setPlan_hunt_plans (s : State) (f : Feeder) (r : List PlanStep) : (s.setPlan f r).hunt.plans = put s.hunt.plans f r := rfl
@[simp] theorem State.setPlan_hunt_busOrder (s : State) (f : Feeder) (r : List PlanStep) : (s.setPlan f r).hunt.busOrder = s.hunt.busOrder := rfl
@[simp] theorem State.setBusOrder_hunt_ctx (s : State) (r : List Feeder) : (s.setBusOrder r).hunt.ctx = s.hunt.ctx := rfl
@[simp] theorem State.setBusOrder_hunt_pendingList (s : State) (r : List Feeder) : (s.setBusOrder r).hunt.pendingList = s.hunt.pendingList := rfl
@[simp] theorem State.setBusOrder_hunt_plans (s : State) (r : List Feeder) : (s.setBusOrder r).hunt.plans = s.hunt.plans := rfl
@[simp] theorem State.setBusOrder_hunt_busOrder (s : State) (r : List Feeder) : (s.setBusOrder r).hunt.busOrder = r := rfl
@[simp] theorem State.setMode_modes (s : State) (f : Feeder) (r : Mode) : (s.setMode f r).modes = put s.modes f r := rfl

/-! ### Reading one record after a replacement -/

theorem State.stream_setStream (s : State) (e j : EntryId) (r : StreamRecord) :
    (s.setStream e r).stream j = if j = e then r else s.stream j := look_put _ _ _ _
@[simp] theorem State.stream_setStream_self (s : State) (e : EntryId) (r : StreamRecord) : (s.setStream e r).stream e = r := look_put_self _ _ _

theorem State.meas_setMeas (s : State) (f j : Feeder) (r : Option FeederMeasurement) :
    (s.setMeas f r).meas j = if j = f then r else s.meas j := look_put _ _ _ _
@[simp] theorem State.meas_setMeas_self (s : State) (f : Feeder) (r : Option FeederMeasurement) : (s.setMeas f r).meas f = r := look_put_self _ _ _

theorem State.element_setElement (s : State) (f j : Feeder) (r : ElementRecord) :
    (s.setElement f r).element j = if j = f then r else s.element j := look_put _ _ _ _
@[simp] theorem State.element_setElement_self (s : State) (f : Feeder) (r : ElementRecord) : (s.setElement f r).element f = r := look_put_self _ _ _

theorem State.plant_setPlant (s : State) (f j : Feeder) (r : Option FeederPlant) :
    (s.setPlant f r).plant j = if j = f then r else s.plant j := look_put _ _ _ _
@[simp] theorem State.plant_setPlant_self (s : State) (f : Feeder) (r : Option FeederPlant) : (s.setPlant f r).plant f = r := look_put_self _ _ _

theorem State.profile_setProfile (s : State) (k j : BankSlot) (r : Option Profile) :
    (s.setProfile k r).profile j = if j = k then r else s.profile j := look_put _ _ _ _
@[simp] theorem State.profile_setProfile_self (s : State) (k : BankSlot) (r : Option Profile) : (s.setProfile k r).profile k = r := look_put_self _ _ _

theorem State.curve_setCurve (s : State) (k j : BankSlot) (r : Option (List Nat)) :
    (s.setCurve k r).curve j = if j = k then r else s.curve j := look_put _ _ _ _
@[simp] theorem State.curve_setCurve_self (s : State) (k : BankSlot) (r : Option (List Nat)) : (s.setCurve k r).curve k = r := look_put_self _ _ _

theorem State.entry_setEntry (s : State) (e j : EntryId) (r : MapEntry) :
    (s.setEntry e r).entry j = if j = e then r else s.entry j := look_put _ _ _ _
@[simp] theorem State.entry_setEntry_self (s : State) (e : EntryId) (r : MapEntry) : (s.setEntry e r).entry e = r := look_put_self _ _ _

theorem State.recl_setRecl (s : State) (f j : Feeder) (r : RecloseRecord) :
    (s.setRecl f r).recl j = if j = f then r else s.recl j := look_put _ _ _ _
@[simp] theorem State.recl_setRecl_self (s : State) (f : Feeder) (r : RecloseRecord) : (s.setRecl f r).recl f = r := look_put_self _ _ _

theorem State.follower_setFollower (s : State) (i j : SlotId) (r : FollowerRecord) :
    (s.setFollower i r).follower j = if j = i then r else s.follower j := look_put _ _ _ _
@[simp] theorem State.follower_setFollower_self (s : State) (i : SlotId) (r : FollowerRecord) : (s.setFollower i r).follower i = r := look_put_self _ _ _

theorem State.slot_setSlot (s : State) (i j : SlotId) (r : Outstation) :
    (s.setSlot i r).slot j = if j = i then r else s.slot j := look_put _ _ _ _
@[simp] theorem State.slot_setSlot_self (s : State) (i : SlotId) (r : Outstation) : (s.setSlot i r).slot i = r := look_put_self _ _ _
@[simp] theorem State.slot_countAdmission (s : State) (i j : SlotId) : (s.countAdmission i).slot j = s.slot j := rfl

theorem State.plan_setPlan (s : State) (f j : Feeder) (r : List PlanStep) :
    (s.setPlan f r).plan j = if j = f then r else s.plan j := look_put _ _ _ _
@[simp] theorem State.plan_setPlan_self (s : State) (f : Feeder) (r : List PlanStep) : (s.setPlan f r).plan f = r := look_put_self _ _ _

theorem State.mode_setMode (s : State) (f j : Feeder) (r : Mode) :
    (s.setMode f r).mode j = if j = f then r else s.mode j := look_put _ _ _ _
@[simp] theorem State.mode_setMode_self (s : State) (f : Feeder) (r : Mode) : (s.setMode f r).mode f = r := look_put_self _ _ _

end Sys2Proof.Machine
end

