-- ==== Sys2Proof/Laws/Moves.lean ====
section
/-! SUPPORT. What the working of an event can do, said once: every decision, admission, hunt step and takeover is a chain of the
primitive changes below. What a primitive keeps, every one of them keeps. -/

namespace Sys2Proof.Machine

/-- How many commands a slot has, waiting or in flight. -/
def Outstation.load (o : Outstation) : Nat := o.queue.length + o.inFlight.toList.length

/-- The parts of the state that the working of an event can change beside the Link Port and the notice queue. -/
inductive Part where
  | exchange
  | reclose
  | hunt
  | bank
  | threshold
  | map
  | requests
  | outputs
  deriving DecidableEq, Repr

/-- One primitive change of a permitted part, with what is known of it. -/
inductive Prim (μ : Part → Prop) : State → State → Prop
  | notify (s : State) (n : Notice) (b : Bool) : Prim μ s (s.notify n b)
  | frame (s : State) (f : TxFrame) (h : f.isNotice = false) : Prim μ s (s.handFrame f)
  | mark (s : State) (ticket : Nat) (st : EntryState) (hp : μ .requests) : Prim μ s (s.markEntry ticket st)
  | slot (s : State) (i : SlotId) (o : Outstation) (hp : μ .exchange) (hs : o.still = (s.slot i).still)
      (hq : (s.slot i).Ok → o.Ok) (hn : (s.slot i).state = .enrolling → o.load ≤ (s.slot i).load) : Prim μ s (s.setSlot i o)
  | admission (s : State) (i : SlotId) (hp : μ .exchange) : Prim μ s (s.countAdmission i)
  | recl (s : State) (f : Feeder) (r : RecloseRecord) (hp : μ .reclose) (ho : r.state = .off ↔ (s.recl f).state = .off)
      (hr : r.reasons.outside = (s.recl f).reasons.outside) : Prim μ s (s.setRecl f r)
  | follower (s : State) (i : SlotId) (r : FollowerRecord) (hp : μ .reclose) : Prim μ s (s.setFollower i r)
  | ctx (s : State) (c : HuntContext) (hp : μ .hunt) : Prim μ s (s.setCtx c)
  | huntList (s : State) (l : List EntryId) (hp : μ .hunt) (h : s.hunt.pendingList.Nodup → l.Nodup) : Prim μ s (s.setHuntList l)
  | element (s : State) (f : Feeder) (r : ElementRecord) (hp : μ .bank) (h : (s.element f).Ok → r.Ok) :
      Prim μ s (s.setElement f r)
  | trips (s : State) (l : List TripRecord) (hp : μ .bank) (h : s.bank.trips.length ≤ 16 → l.length ≤ 16) :
      Prim μ s (s.setTrips l)
  | shift (s : State) (hp : μ .bank) : Prim μ s (s.setBank { s.bank with records := shiftLatches s.bank.records })
  | threshold (s : State) (t : Option Nat) (hp : μ .threshold) : Prim μ s (s.setThreshold t)
  | entry (s : State) (e : EntryId) (m : MapEntry) (hp : μ .map) (h : s.EntryOk (s.entry e) → s.EntryOk m) :
      Prim μ s (s.setEntry e m)
  | outputs (s : State) (o : Outputs) (hp : μ .outputs) (h : o.engineOk = s.outputs.engineOk) : Prim μ s (s.setOutputs o)

/-- A chain of primitive changes of permitted parts. -/
abbrev Moves (μ : Part → Prop) : State → State → Prop := Relation.ReflTransGen (Prim μ)

/-- What a decision, a hunt step or a supersession may change. -/
structure Working (μ : Part → Prop) : Prop where
  exchange : μ .exchange
  reclose : μ .reclose
  hunt : μ .hunt
  bank : μ .bank
  requests : μ .requests

variable {μ : Part → Prop}

theorem Moves.one {s t : State} (h : Prim μ s t) : Moves μ s t := Relation.ReflTransGen.single h

theorem Moves.rfl {s : State} : Moves μ s s := Relation.ReflTransGen.refl

/-- The last part of a chain, then what came before it. -/
theorem Moves.peel {s t u : State} (h : Moves μ t u) (h0 : Moves μ s t) : Moves μ s u := h0.trans h

/-- The last primitive change of a chain, then what came before it. -/
theorem Moves.pone {s t u : State} (h : Prim μ t u) (h0 : Moves μ s t) : Moves μ s u := h0.tail h

theorem moves_foldl {α : Type} (g : State → α → State) (h : ∀ s x, Moves μ s (g s x)) (l : List α) (s : State) :
    Moves μ s (l.foldl g s) := by
  induction l generalizing s with
  | nil => exact .rfl
  | cons x rest ih => exact (h s x).trans (ih _)

/-! ### Link Port and queues -/

theorem moves_notify (s : State) (n : Notice) (b : Bool) : Moves μ s (s.notify n b) := .one (.notify s n b)

theorem moves_replyTo (hr : μ .requests) (s : State) (k : Nat) (r : Result) (p : List Byte) : Moves μ s (s.replyTo k r p) := by
  unfold State.replyTo
  split
  · exact .rfl
  · exact (Moves.one (.mark s _ _ hr)).trans (Moves.one (.frame _ _ rfl))

/-! ### Admission and sending -/

theorem still_admitTrip (i : SlotId) (o : Outstation) (c : Cmd) : (admitTrip i o c).1.still = o.still := by
  unfold admitTrip; dsimp only; split
  · rfl
  · split <;> rfl

theorem still_admitSwitch (i : SlotId) (o : Outstation) (c : Cmd) : (admitSwitch i o c).1.still = o.still := by
  unfold admitSwitch; split <;> rfl

theorem still_admitBlocking (i : SlotId) (o : Outstation) (c : Cmd) : (admitBlocking i o c).1.still = o.still := by
  unfold admitBlocking; split
  · rfl
  · dsimp only; split <;> rfl

/-- Admission changes a slot's queue and in-flight command alone. -/
theorem still_admitCmd (b : Bool) (i : SlotId) (o : Outstation) (c : Cmd) : (admitCmd b i o c).1.still = o.still := by
  unfold admitCmd
  split
  · rfl
  · split
    · exact still_admitTrip i o c
    · exact still_admitSwitch i o c
    · exact still_admitSwitch i o c
    · exact still_admitBlocking i o c
    · exact still_admitBlocking i o c
    · rfl

/-- What R110 and 6.2.1 ask of the kinds that stand in a queue. -/
def KindsOk (st : SlotState) (ks : List CmdKind) (fl : Option CmdKind) : Prop :=
  (ks.countP (· == .trip) ≤ 1 ∧ ks.countP CmdKind.isSwitch ≤ 1 ∧ ks.countP CmdKind.isBlocking ≤ 1)
    ∧ (∀ k ∈ ks.drop 1, k ≠ .trip)
    ∧ match st with
      | .empty | .outOfService => ks = [] ∧ fl = none
      | .enrolling => (∀ k ∈ ks, k = .enrol) ∧ ks.length + fl.toList.length ≤ 1 ∧ ∀ k ∈ fl, k = .enrol
      | .inService => ∀ k ∈ ks, k ≠ .enrol
      | .unreachable => ∀ k ∈ ks, k.isBlocking = true

theorem queuedCount_kinds (o : Outstation) (p : CmdKind → Bool) : o.queuedCount p = (o.queue.map Cmd.kind).countP p := by
  rw [List.countP_map, List.countP_eq_length_filter]; rfl

/-- A slot is sound when the kinds in its queue and in flight are. -/
theorem ok_kinds (o : Outstation) :
    o.Ok ↔ KindsOk o.state (o.queue.map Cmd.kind) (o.inFlight.map fun f => f.cmd.kind) ∧ o.loaded.isSome = (o.state != .empty) := by
  constructor
  · intro h
    refine ⟨⟨by simpa [queuedCount_kinds] using h.groups, ?_, ?_⟩, h.loaded⟩
    · intro k hk
      rw [← List.map_drop] at hk
      obtain ⟨c, hc, rfl⟩ := List.mem_map.1 hk
      exact h.front c hc
    · have hs := h.state
      cases hst : o.state <;> simp only [hst] at hs ⊢
      · simpa using hs
      · simpa using hs
      · refine ⟨by simpa using hs.1, ?_, by simpa using hs.2.2⟩
        cases hf : o.inFlight <;> simpa [hf] using hs.2.1
      · simpa using hs
      · simpa using hs
  · rintro ⟨⟨h1, h2, h3⟩, h4⟩
    refine ⟨by simpa [queuedCount_kinds] using h1, ?_, ?_, h4⟩
    · intro c hc
      apply h2
      rw [← List.map_drop]
      exact List.mem_map_of_mem hc
    · cases hst : o.state <;> simp only [hst] at h3 ⊢
      · simpa using h3
      · simpa using h3
      · refine ⟨by simpa using h3.1, ?_, by simpa using h3.2.2⟩
        cases hf : o.inFlight <;> simpa [hf] using h3.2.1
      · simpa using h3
      · simpa using h3

theorem kinds_mergeQueued (k : CmdKind) (o : Originator) (q : List Cmd) :
    (mergeQueued k o q).map Cmd.kind = q.map Cmd.kind := by
  induction q with
  | nil => rfl
  | cons c rest ih =>
    unfold mergeQueued
    split
    · simp
    · simp [ih]

theorem kinds_withoutGroup (p : CmdKind → Bool) (q : List Cmd) :
    (withoutGroup p q).map Cmd.kind = (q.map Cmd.kind).filter fun k => !p k := by
  simp [withoutGroup, List.filter_map, Function.comp_def]

theorem queued_kinds (o : Outstation) (p : CmdKind → Bool) : o.queued p = (o.queue.map Cmd.kind).any p := by
  simp [Outstation.queued, List.any_map, Function.comp_def]

/-- Removing a group keeps a queue sound. -/
theorem kindsOk_filter {st : SlotState} {ks : List CmdKind} {fl : Option CmdKind} (p : CmdKind → Bool)
    (h : KindsOk st ks fl) : KindsOk st (ks.filter p) fl := by
  have hs : (ks.filter p).Sublist ks := List.filter_sublist
  obtain ⟨⟨h1, h2, h3⟩, h4, h5⟩ := h
  refine ⟨⟨hs.countP_le.trans h1, hs.countP_le.trans h2, hs.countP_le.trans h3⟩, ?_, ?_⟩
  · cases ks with
    | nil => simp
    | cons a rest =>
      intro k hk
      have h4' : ∀ k ∈ rest, k ≠ .trip := by simpa using h4
      by_cases ha : p a
      · simp only [List.filter_cons, ha, if_true, List.drop_succ_cons, List.drop_zero] at hk
        exact h4' k (List.mem_of_mem_filter hk)
      · simp only [List.filter_cons, ha, Bool.false_eq_true, if_false] at hk
        exact h4' k (List.mem_of_mem_filter (List.mem_of_mem_drop hk))
  · cases st
    · simpa [h5.1] using h5.2
    · simpa [h5.1] using h5.2
    · exact ⟨fun k hk => h5.1 k (hs.subset hk), (Nat.add_le_add_right hs.length_le _).trans h5.2.1, h5.2.2⟩
    · exact fun k hk => h5 k (hs.subset hk)
    · exact fun k hk => h5 k (hs.subset hk)

/-- A SWITCH or BLOCKING command at the end of a queue that holds none of its group keeps it sound. -/
theorem kindsOk_append {st : SlotState} {ks : List CmdKind} {fl : Option CmdKind} {k : CmdKind}
    (h : KindsOk st ks fl) (hst : st = .inService ∨ (st = .unreachable ∧ k.isBlocking = true))
    (hk : (k.isSwitch = true ∧ ks.any CmdKind.isSwitch = false) ∨ (k.isBlocking = true ∧ ks.any CmdKind.isBlocking = false)) :
    KindsOk st (ks ++ [k]) fl := by
  obtain ⟨⟨h1, h2, h3⟩, h4, h5⟩ := h
  have z : ∀ p : CmdKind → Bool, ks.any p = false → ks.countP p = 0 := by
    intro p hp
    rw [List.countP_eq_zero]
    simpa using hp
  have hkind : k ≠ .trip ∧ k ≠ .enrol := by cases k <;> simp_all [CmdKind.isSwitch, CmdKind.isBlocking]
  refine ⟨⟨?_, ?_, ?_⟩, ?_, ?_⟩
  · simpa [List.countP_append, List.countP_cons, hkind.1] using h1
  · rcases hk with ⟨hk, hz⟩ | ⟨hk, hz⟩
    · simp [List.countP_append, z _ hz, hk]
    · have : k.isSwitch = false := by cases k <;> simp_all [CmdKind.isSwitch, CmdKind.isBlocking]
      simpa [List.countP_append, List.countP_cons, this] using h2
  · rcases hk with ⟨hk, hz⟩ | ⟨hk, hz⟩
    · have : k.isBlocking = false := by cases k <;> simp_all [CmdKind.isSwitch, CmdKind.isBlocking]
      simpa [List.countP_append, List.countP_cons, this] using h3
    · simp [List.countP_append, z _ hz, hk]
  · intro x hx
    cases ks with
    | nil => simp at hx
    | cons a rest =>
      have : x ∈ rest ∨ x = k := by simpa using hx
      rcases this with hx | rfl
      · exact h4 x (by simpa using hx)
      · exact hkind.1
  · rcases hst with rfl | ⟨rfl, hb⟩
    · intro x hx
      rcases List.mem_append.1 hx with hx | hx
      · exact h5 x hx
      · simp at hx; exact hx ▸ hkind.2
    · intro x hx
      rcases List.mem_append.1 hx with hx | hx
      · exact h5 x hx
      · simp at hx; exact hx ▸ hb

/-- A TRIP before a queue that holds none keeps it sound. -/
theorem kindsOk_trip {ks : List CmdKind} {fl : Option CmdKind} (h : KindsOk .inService ks fl)
    (hz : ks.any (· == .trip) = false) : KindsOk .inService (.trip :: ks) fl := by
  obtain ⟨⟨h1, h2, h3⟩, h4, h5⟩ := h
  have hz' : ∀ k ∈ ks, k ≠ .trip := by simpa using hz
  refine ⟨⟨?_, ?_, ?_⟩, ?_, ?_⟩
  · have : ks.countP (· == .trip) = 0 := by rw [List.countP_eq_zero]; simpa using hz
    simp [this]
  · simpa [List.countP_cons, CmdKind.isSwitch] using h2
  · simpa [List.countP_cons, CmdKind.isBlocking] using h3
  · simpa using hz'
  · intro k hk
    rcases List.mem_cons.1 hk with rfl | hk
    · decide
    · exact h5 k hk

/-- A command that no check turns away finds the slot in a state that admits it. -/
theorem admits_of_turnsAway {o : Outstation} {b : Bool} {c : Cmd} (h : o.turnsAway b c = none) : o.admits c.kind = true := by
  by_contra hc
  simp [Outstation.turnsAway, Bool.eq_false_iff.2 hc] at h

/-- Admission keeps a sound slot sound, for every command but an ENROL. -/
theorem ok_admitCmd (b : Bool) (i : SlotId) (o : Outstation) (c : Cmd) (hk : c.kind ≠ .enrol) (ho : o.Ok) :
    (admitCmd b i o c).1.Ok := by
  have hk' : (c.kind == CmdKind.enrol) = false := by simpa using hk
  unfold admitCmd
  split; · exact ho
  rename_i hadm
  have hadm := admits_of_turnsAway hadm
  have hst : o.state = .inService ∨ (o.state = .unreachable ∧ c.kind.isBlocking = true) := by
    have h := hadm
    simp only [Outstation.admits, hk', Bool.false_and, Bool.or_false, Bool.or_eq_true, beq_iff_eq, Bool.and_eq_true] at h
    rcases h with h | ⟨⟨h1, h2⟩, _⟩
    · exact .inl h
    · exact .inr ⟨h2, h1⟩
  rw [ok_kinds] at ho ⊢
  obtain ⟨hks, hl⟩ := ho
  have sw : ∀ k : CmdKind, k = c.kind → k.isSwitch = true → KindsOk (admitSwitch i o c).1.state
      ((admitSwitch i o c).1.queue.map Cmd.kind) ((admitSwitch i o c).1.inFlight.map fun f => f.cmd.kind)
      ∧ (admitSwitch i o c).1.loaded.isSome = ((admitSwitch i o c).1.state != .empty) := by
    intro k hkc hsw
    unfold admitSwitch
    split
    · exact ⟨hks, hl⟩
    · rename_i hq
      refine ⟨?_, hl⟩
      rw [queued_kinds] at hq
      simpa using kindsOk_append hks (k := c.kind) hst (.inl ⟨hkc ▸ hsw, by simpa using hq⟩)
  have bl : ∀ k : CmdKind, k = c.kind → k.isBlocking = true → KindsOk (admitBlocking i o c).1.state
      ((admitBlocking i o c).1.queue.map Cmd.kind) ((admitBlocking i o c).1.inFlight.map fun f => f.cmd.kind)
      ∧ (admitBlocking i o c).1.loaded.isSome = ((admitBlocking i o c).1.state != .empty) := by
    intro k hkc hbl
    unfold admitBlocking
    split
    · exact ⟨by simpa [kinds_mergeQueued] using hks, hl⟩
    · dsimp only
      split
      · exact ⟨by simpa [kinds_withoutGroup] using kindsOk_filter _ hks, hl⟩
      · refine ⟨?_, hl⟩
        have := kindsOk_append (k := c.kind) (kindsOk_filter (fun k => !k.isBlocking) hks) hst
          (.inr ⟨hkc ▸ hbl, by simp⟩)
        simpa [kinds_withoutGroup] using this
  split
  · rename_i hc
    have hst : o.state = .inService := by
      rcases hst with h | ⟨_, h⟩
      · exact h
      · simp [hc, CmdKind.isBlocking] at h
    rw [hst] at hks hl
    have hf := kindsOk_filter (fun k => !k.isSwitch) hks
    unfold admitTrip
    dsimp only
    split
    · exact ⟨by simpa [kinds_mergeQueued, kinds_withoutGroup, hst] using hf, by simpa [hst] using hl⟩
    · rename_i hq
      rw [queued_kinds] at hq
      split
      · refine ⟨?_, by simpa [hst] using hl⟩
        simpa [kinds_withoutGroup, hst, Option.map_map, Function.comp_def] using hf
      · refine ⟨?_, by simpa [hst] using hl⟩
        have := kindsOk_trip hf (by
          rw [List.any_eq_false]
          intro k hk
          have hk := List.mem_of_mem_filter hk
          have hq : (o.queue.map Cmd.kind).any (· == .trip) = false := by simpa using hq
          exact (List.any_eq_false.1 hq) k hk)
        simpa [kinds_withoutGroup, hc, hst] using this
  · rename_i hc; exact sw .opn hc.symm rfl
  · rename_i hc; exact sw .close hc.symm rfl
  · rename_i hc; exact bl .block hc.symm rfl
  · rename_i hc; exact bl .release hc.symm rfl
  · rename_i hc; exact absurd hc hk

/-- An ENROLLING slot takes no command but an ENROL. -/
theorem load_admitCmd (b : Bool) (i : SlotId) (o : Outstation) (c : Cmd) (hk : c.kind ≠ .enrol) (hs : o.state = .enrolling) :
    (admitCmd b i o c).1 = o := by
  have : o.admits c.kind = false := by simp [Outstation.admits, hs, hk]
  simp [admitCmd, Outstation.turnsAway, this]

/-- Handing a command changes the slot as the admission leaves it, then counts the admission if there was one. -/
theorem moves_handCmd (he : μ .exchange) (s : State) (i : SlotId) (c : Cmd) (hk : c.kind ≠ .enrol) : Moves μ s (s.handCmd i c).1 := by
  have h : Moves μ s (s.setSlot i (admitCmd (s.testMark (SlotId.feeder i)) i (s.slot i) c).1) :=
    .one (.slot _ _ _ he (still_admitCmd _ _ _ _) (ok_admitCmd _ _ _ _ hk)
      fun h => Nat.le_of_eq (congrArg Outstation.load (load_admitCmd _ _ _ _ hk h)))
  unfold State.handCmd
  dsimp only
  split
  · exact .pone (.admission _ i he) h
  · exact h

/-- Sending keeps a sound slot sound. -/
theorem ok_sent {o : Outstation} {c : Cmd} {rest : List Cmd} (tag : Byte) (d : Nat) (hq : o.queue = c :: rest)
    (hs : o.sends = true) (ho : o.Ok) : Outstation.Ok { o with queue := rest, tagCounter := tag, inFlight := some ⟨c, tag, d, 0⟩ } := by
  have hsub : rest.Sublist o.queue := hq ▸ List.sublist_cons_self c rest
  refine ⟨?_, ?_, ?_, ho.loaded⟩
  · have h := ho.groups
    exact ⟨((hsub.filter _).length_le).trans h.1, ((hsub.filter _).length_le).trans h.2.1,
      ((hsub.filter _).length_le).trans h.2.2⟩
  · intro x hx
    exact ho.front x (by simpa [hq] using List.mem_of_mem_drop hx)
  · have h := ho.state
    cases hst : o.state <;> simp only [hst] at h ⊢
    · simp [Outstation.sends, hst] at hs
    · simp [Outstation.sends, hst] at hs
    · have hl := h.2.1
      have hr : rest = [] := by
        simp only [hq, List.length_cons] at hl
        exact List.length_eq_zero_iff.1 (by omega)
      subst hr
      exact ⟨by simp, by simp, by simpa using h.1 c (by simp [hq])⟩
    · exact fun x hx => h x (hsub.subset hx)
    · exact fun x hx => h x (hsub.subset hx)

theorem moves_trySend (he : μ .exchange) (s : State) (i : SlotId) : Moves μ s (s.trySend i) := by
  unfold State.trySend
  dsimp only
  split
  · rename_i hc
    split
    · rename_i c rest l hq hl
      have hs : (s.slot i).sends = true := by
        simp only [Outstation.canSend, hq, Bool.and_eq_true] at hc
        exact hc.1.1.2
      refine Relation.ReflTransGen.tail (.single (.slot s i _ he ?_ (ok_sent _ _ hq hs) ?_)) (.frame _ _ rfl)
      · rfl
      · intro _
        simp [Outstation.load, hq]
    · exact .rfl
  · exact .rfl

theorem moves_sendChanged (he : μ .exchange) (s0 s : State) : Moves μ s (State.sendChanged s0 s) :=
  moves_foldl _ (fun s i => by split; exacts [moves_trySend he s i, .rfl]) _ _

theorem moves_refreshOutputs (ho : μ .outputs) (s : State) : Moves μ s s.refreshOutputs := .one (.outputs s _ ho rfl)

/-- The end of an event is a chain of primitive changes. -/
theorem moves_finish (he : μ .exchange) (ho : μ .outputs) (s0 s : State) : Moves μ s (State.finish s0 s) :=
  (moves_sendChanged he s0 s).trans (moves_refreshOutputs ho _)

end Sys2Proof.Machine
end

