-- ==== Sys2Proof/Laws/Tower.lean ====
section
/-! SUPPORT. Every operation from the reclose transitions up to the settling of an event is a chain of primitive changes. -/

namespace Sys2Proof.Machine

variable {μ : Part → Prop}

/-! ### Followers -/

theorem moves_moveFollower (hc : μ .reclose) (s : State) (i : SlotId) (st : FollowerState) (r : Option Nat) (k : Option Completion) :
    Moves μ s (s.moveFollower i st r k) := by
  unfold State.moveFollower
  dsimp only
  split
  · exact .one (.follower _ _ _ hc)
  · exact .peel (moves_notify _ _ _) (.one (.follower _ _ _ hc))

theorem moves_blockCompleted (hc : μ .reclose) (s : State) (i : SlotId) (k : Completion) : Moves μ s (s.blockCompleted i k) := by
  unfold State.blockCompleted
  dsimp only
  split
  · exact .rfl
  · split <;> first | exact moves_moveFollower hc _ _ _ _ _ | exact .rfl
  · split <;> first | exact moves_moveFollower hc _ _ _ _ _ | exact .rfl

theorem moves_releaseCompleted (hc : μ .reclose) (s : State) (i : SlotId) (k : Completion) : Moves μ s (s.releaseCompleted i k) := by
  unfold State.releaseCompleted
  split <;> first | exact moves_moveFollower hc _ _ _ _ _ | exact .rfl

theorem moves_blockingCompleted (hc : μ .reclose) (s : State) (d : Delivery) : Moves μ s (s.blockingCompleted d) := by
  unfold State.blockingCompleted
  split
  · exact moves_blockCompleted hc _ _ _
  · exact moves_releaseCompleted hc _ _ _
  · exact .rfl

theorem moves_handBlocking (he : μ .exchange) (hc : μ .reclose) (s : State) (i : SlotId) (k : CmdKind) (hk : k ≠ .enrol) : Moves μ s (s.handBlocking i k) :=
  .peel (moves_foldl _ (moves_blockingCompleted hc) _ _) (moves_handCmd he s i _ hk)

theorem moves_blockFollower (he : μ .exchange) (hc : μ .reclose) (s : State) (i : SlotId) : Moves μ s (s.blockFollower i) := by
  unfold State.blockFollower
  split
  · split
    · exact .peel (moves_handBlocking he hc _ _ _ (by decide)) (moves_moveFollower hc _ _ _ _ _)
    · exact .rfl
  · split
    · exact .peel (moves_handBlocking he hc _ _ _ (by decide)) (moves_moveFollower hc _ _ _ _ _)
    · exact .rfl
  · exact .rfl
  · exact .rfl

theorem moves_releaseFollower (he : μ .exchange) (hc : μ .reclose) (s : State) (i : SlotId) : Moves μ s (s.releaseFollower i) := by
  unfold State.releaseFollower
  split
  · exact .peel (moves_handBlocking he hc _ _ _ (by decide)) (moves_moveFollower hc _ _ _ _ _)
  · exact .peel (moves_handBlocking he hc _ _ _ (by decide)) (moves_moveFollower hc _ _ _ _ _)
  · exact .rfl
  · exact .rfl

theorem moves_refreshExpired (he : μ .exchange) (hc : μ .reclose) (s : State) (i : SlotId) : Moves μ s (s.refreshExpired i) := by
  unfold State.refreshExpired
  dsimp only
  split
  · exact .peel (moves_handBlocking he hc _ _ _ (by decide)) (.one (.follower _ _ _ hc))
  · exact .one (.follower _ _ _ hc)

theorem moves_dropFollower (hc : μ .reclose) (s : State) (i : SlotId) : Moves μ s (s.dropFollower i) := moves_moveFollower hc _ _ _ _ _

theorem moves_followerEntered (he : μ .exchange) (hc : μ .reclose) (s : State) (i : SlotId) : Moves μ s (s.followerEntered i) := by
  unfold State.followerEntered
  split
  · exact .rfl
  · split
    · exact moves_blockFollower he hc _ _
    · exact .rfl

/-! ### The reclose state -/

/-- Marks and transitions between states other than OFF. -/
theorem moves_markReclose (hc : μ .reclose) (s : State) (f : Feeder) (st : RecloseState) (h : (s.recl f).state ≠ .off) (h' : st ≠ .off) :
    Moves μ s (s.markReclose f st) := .one (.recl _ _ _ hc (by simp [h, h']) rfl)

theorem moves_goReclose (hc : μ .reclose) (s : State) (f : Feeder) (st : RecloseState) (x : PermissionFailures) (h : (s.recl f).state ≠ .off)
    (h' : st ≠ .off) : Moves μ s (s.goReclose f st x) := .peel (moves_notify _ _ _) (moves_markReclose hc s f st h h')

theorem moves_tellDecision (hc : μ .reclose) (s : State) (f : Feeder) : Moves μ s (s.tellDecision f) := by
  unfold State.tellDecision
  split
  · exact .rfl
  · rename_i st hst
    refine moves_goReclose hc _ _ _ _ ?_ ?_
    · intro h; rw [h] at hst; simp [RecloseState.afterDecision] at hst
    · rintro rfl
      unfold RecloseState.afterDecision at hst
      split at hst <;> simp at hst

theorem moves_tellTripDone (hc : μ .reclose) (s : State) (f : Feeder) (c : Causes) : Moves μ s (s.tellTripDone f c) := by
  unfold State.tellTripDone
  split
  · rename_i h; exact moves_goReclose hc _ _ _ _ (by simp [h]) (by simp)
  · rename_i h
    dsimp only
    split
    · exact moves_goReclose hc _ _ _ _ (by simp [h]) (by simp)
    · exact moves_goReclose hc _ _ _ _ (by simp [h]) (by simp)
  · exact .rfl

theorem moves_tellTripFailed (hc : μ .reclose) (s : State) (f : Feeder) : Moves μ s (s.tellTripFailed f) := by
  unfold State.tellTripFailed
  split
  · rename_i h; exact moves_goReclose hc _ _ _ _ (by simp [h]) (by simp)
  · exact .rfl

theorem moves_closeCompleted (hc : μ .reclose) (s : State) (f : Feeder) (k : Completion) : Moves μ s (s.closeCompleted f k) := by
  unfold State.closeCompleted
  split
  · rename_i n mark h
    have hg : ∀ st, st ≠ .off → Moves μ s (s.goReclose f st) := fun st => moves_goReclose hc s f st {} (by simp [h])
    cases k
    case done => cases mark <;> exact hg _ (by simp)
    case superseded => exact .rfl
    all_goals exact hg _ (by simp)
  · exact .rfl

theorem moves_deadExpired (he : μ .exchange) (hc : μ .reclose) (s : State) (f : Feeder) (n : Nat) (h : (s.recl f).state ≠ .off) : Moves μ s (s.deadExpired f n) := by
  unfold State.deadExpired
  dsimp only
  have hm : Moves μ s (State.handCmd (s.goReclose f (.closing n none)) (Feeder.head f)
      { kind := .close, origin := .reclose, shot := n }).1 :=
    .peel (moves_handCmd he _ _ _ (by simp)) (moves_goReclose hc s f (.closing n none) {} h (by simp))
  split
  · exact hm
  · exact .peel (moves_closeCompleted hc _ _ _) hm

theorem moves_reasonAdded (hc : μ .reclose) (s : State) (f : Feeder) : Moves μ s (s.reasonAdded f) := by
  unfold State.reasonAdded
  split
  · rename_i h; exact moves_goReclose hc _ _ _ _ (by simp [h]) (by simp)
  · rename_i h; exact moves_markReclose hc _ _ _ (by simp [h]) (by simp)
  · exact .rfl

theorem moves_reclaimExpired (hc : μ .reclose) (s : State) (f : Feeder) (h : (s.recl f).state ≠ .off) : Moves μ s (s.reclaimExpired f) :=
  moves_goReclose hc _ _ _ _ h (by simp)

theorem moves_presentReclose (hc : μ .reclose) (s : State) (f : Feeder) (p : Profile) : Moves μ s (s.presentReclose f p) := by
  unfold State.presentReclose
  split
  · rename_i h
    split
    · exact moves_goReclose hc _ _ _ _ (by simp [h]) (by simp)
    · exact .rfl
  · rename_i h
    split
    · exact moves_markReclose hc _ _ _ (by simp [h]) (by simp)
    · exact .rfl
  · rename_i h
    split
    · exact moves_reclaimExpired hc _ _ (by simp [h])
    · exact .rfl
  · exact .rfl

theorem moves_externalOpen (hc : μ .reclose) (s : State) (f : Feeder) : Moves μ s (s.externalOpen f) := by
  unfold State.externalOpen
  split
  · rename_i h; exact moves_goReclose hc _ _ _ _ (by simp [h]) (by simp)
  · exact .rfl

theorem moves_operateTold (hc : μ .reclose) (s : State) (f : Feeder) (kd : CmdKind) (k : Completion) : Moves μ s (s.operateTold f kd k) := by
  unfold State.operateTold
  split
  · split
    · rename_i h; exact moves_goReclose hc _ _ _ _ (by simp [h]) (by simp)
    · rename_i h; exact moves_goReclose hc _ _ _ _ (by simp [h]) (by simp)
    · rename_i h
      split
      · exact .rfl
      · exact moves_goReclose hc _ _ _ _ (by simp [h]) (by simp)
    · rename_i h; exact moves_goReclose hc _ _ _ _ (by simp [h]) (by simp)
    · exact .rfl
  · exact .rfl

/-! ### Block reason sets -/

/-- A member the operator does not set and a stream does not bring. -/
def Reason.inner : Reason → Prop
  | .fire | .hunt | .sefLock => True
  | .manual | .hotLine | .streamLost => False

theorem outside_put (r : Reasons) (x : Bool) (m : Reason) (h : m.inner) : (r.put x m).outside = r.outside := by
  cases m <;> first | rfl | exact absurd h id

theorem moves_changeReason (hc : μ .reclose) (s : State) (f : Feeder) (m : Reason) (x : Bool) (h : m.inner) : Moves μ s (s.changeReason f m x) :=
  .peel (moves_notify _ _ _) (.one (.recl s f { s.recl f with reasons := (s.recl f).reasons.put x m } hc Iff.rfl (outside_put _ _ _ h)))

/-- Adding a member: nothing where it is present, the change of the set and then primitive changes where it is not. -/
theorem moves_addReason_from (he : μ .exchange) (hc : μ .reclose) (s : State) (f : Feeder) (m : Reason) (h : (s.recl f).reasons.has m = false) :
    Moves μ (s.changeReason f m true) (s.addReason f m) := by
  unfold State.addReason
  simp only [h, Bool.false_eq_true, if_false]
  split
  · exact .peel (moves_foldl _ (moves_blockFollower he hc) _ _) (moves_reasonAdded hc _ _)
  · exact moves_reasonAdded hc _ _

theorem addReason_present (s : State) (f : Feeder) (m : Reason) (h : (s.recl f).reasons.has m = true) : s.addReason f m = s := by
  simp [State.addReason, h]

theorem moves_removeReason_from (he : μ .exchange) (hc : μ .reclose) (s : State) (f : Feeder) (m : Reason) (h : (s.recl f).reasons.has m = true) :
    Moves μ (s.changeReason f m false) (s.removeReason f m) := by
  unfold State.removeReason
  simp only [h, if_true]
  split
  · exact moves_foldl _ (moves_releaseFollower he hc) _ _
  · exact .rfl

theorem removeReason_absent (s : State) (f : Feeder) (m : Reason) (h : (s.recl f).reasons.has m = false) :
    s.removeReason f m = s := by
  simp [State.removeReason, h]

theorem moves_addReason (he : μ .exchange) (hc : μ .reclose) (s : State) (f : Feeder) (m : Reason) (h : m.inner) : Moves μ s (s.addReason f m) := by
  cases hm : (s.recl f).reasons.has m
  · exact .peel (moves_addReason_from he hc s f m hm) (moves_changeReason hc s f m true h)
  · rw [addReason_present s f m hm]

theorem moves_removeReason (he : μ .exchange) (hc : μ .reclose) (s : State) (f : Feeder) (m : Reason) (h : m.inner) : Moves μ s (s.removeReason f m) := by
  cases hm : (s.recl f).reasons.has m
  · rw [removeReason_absent s f m hm]
  · exact .peel (moves_removeReason_from he hc s f m hm) (moves_changeReason hc s f m false h)

theorem moves_ite {s : State} {c : Prop} [Decidable c] {a b : State} (ha : Moves μ s a) (hb : Moves μ s b) :
    Moves μ s (if c then a else b) := by split <;> assumption

/-! ### The end of a hunt -/

theorem moves_mapCtx (hh : μ .hunt) (s : State) (g : HuntContext → HuntContext) : Moves μ s (s.mapCtx g) := .one (.ctx _ _ hh)

theorem moves_appendOutcome (hh : μ .hunt) (s : State) (v : OutcomeValue) : Moves μ s (s.appendOutcome v) := by
  unfold State.appendOutcome
  split
  · exact .rfl
  · exact moves_mapCtx hh _ _

theorem moves_finishHunt (he : μ .exchange) (hc : μ .reclose) (hh : μ .hunt) (s : State) (r : HuntResult) (o : Option PointOutcome) : Moves μ s (s.finishHunt r o) :=
  .pone (.ctx _ _ hh) (.peel (moves_notify _ _ _) (moves_foldl _ (fun s f => moves_removeReason he hc s f .hunt trivial) _ _))

theorem moves_endAbort (he : μ .exchange) (hc : μ .reclose) (hh : μ .hunt) (s : State) (o : Option PointOutcome) : Moves μ s (s.endAbort o) := moves_finishHunt he hc hh _ _ _

theorem moves_abortCloseDone (he : μ .exchange) (hc : μ .reclose) (hh : μ .hunt) (s : State) (k : Completion) : Moves μ s (s.abortCloseDone k) := by
  cases k <;> exact .peel (moves_endAbort he hc hh _ _) (moves_mapCtx hh _ _)

theorem moves_decideRestoration (he : μ .exchange) (hc : μ .reclose) (hh : μ .hunt) (s : State) : Moves μ s s.decideRestoration := by
  unfold State.decideRestoration
  split
  · exact moves_endAbort he hc hh _ _
  · rename_i i _
    split
    · dsimp only
      have hm : Moves μ s ((s.mapCtx fun x => { x with outstanding := some .close, restoring := true }).handCmd i
          (huntCmd .close)).1 := .peel (moves_handCmd he _ _ _ (by simp [huntCmd])) (moves_mapCtx hh _ _)
      split
      · exact hm
      · exact .peel (moves_abortCloseDone he hc hh _ _) hm
    · exact moves_endAbort he hc hh _ _

theorem moves_settlePoint (he : μ .exchange) (hc : μ .reclose) (hh : μ .hunt) (s : State) : Moves μ s s.settlePoint := by
  unfold State.settlePoint
  split <;> first | exact moves_endAbort he hc hh _ _ | exact moves_decideRestoration he hc hh _ | exact .rfl

theorem moves_abortHunt (he : μ .exchange) (hc : μ .reclose) (hh : μ .hunt) (s : State) (c : AbortCause) : Moves μ s (s.abortHunt c) := by
  unfold State.abortHunt
  dsimp only
  have h1 : Moves μ s (if s.ctx.state == .restoring then s else s.appendOutcome .interrupted) :=
    moves_ite .rfl (moves_appendOutcome hh _ _)
  split
  · exact .peel (moves_mapCtx hh _ _) h1
  · exact .peel (moves_settlePoint he hc hh _) (.peel (moves_mapCtx hh _ _) h1)

theorem moves_huntCause (he : μ .exchange) (hc : μ .reclose) (hh : μ .hunt) (s : State) (c : AbortCause) : Moves μ s (s.huntCause c) := by
  unfold State.huntCause
  split
  · exact moves_abortHunt he hc hh _ _
  · split
    · exact moves_mapCtx hh _ _
    · exact .rfl

theorem moves_escalateHunt (he : μ .exchange) (hc : μ .reclose) (hh : μ .hunt) (s : State) (f : Feeder) : Moves μ s (s.escalateHunt f) := moves_ite (moves_huntCause he hc hh _ _) .rfl

theorem moves_huntStreamLost (he : μ .exchange) (hc : μ .reclose) (hh : μ .hunt) (s : State) (e : EntryId) : Moves μ s (s.huntStreamLost e) := moves_ite (moves_huntCause he hc hh _ _) .rfl

theorem moves_huntAbortingDone (he : μ .exchange) (hc : μ .reclose) (hh : μ .hunt) (s : State) (kd : CmdKind) (k : Completion) : Moves μ s (s.huntAbortingDone kd k) := by
  unfold State.huntAbortingDone
  split
  · dsimp only
    split
    · exact .peel (moves_settlePoint he hc hh _) (moves_mapCtx hh _ _)
    · exact .peel (moves_endAbort he hc hh _ _) (.peel (moves_mapCtx hh _ _) (moves_mapCtx hh _ _))
  · exact moves_abortCloseDone he hc hh _ _

theorem moves_huntSuperseded (he : μ .exchange) (hc : μ .reclose) (hh : μ .hunt) (s : State) (kd : CmdKind) : Moves μ s (s.huntSuperseded kd) := by
  unfold State.huntSuperseded
  split
  · exact .peel (moves_abortHunt he hc hh _ _) (moves_mapCtx hh _ _)
  · exact .peel (moves_abortHunt he hc hh _ _) (moves_mapCtx hh _ _)
  · exact moves_huntAbortingDone he hc hh _ _ _
  · exact .rfl

/-! ### Trips -/

theorem moves_openRecord (hb : μ .bank) (s : State) (t : TripRecord) : Moves μ s (s.openRecord t) := by
  unfold State.openRecord
  split
  · rename_i h
    have h : s.bank.trips.length < 16 := h
    exact .one (.trips _ _ hb (fun _ => by simp only [List.length_append, List.length_cons, List.length_nil]; omega))
  · rename_i hl
    have hl : ¬ s.bank.trips.length < 16 := hl
    refine .pone (.trips _ _ hb fun h => ?_) (.one (.shift s hb))
    have h : s.bank.trips.length ≤ 16 := h
    simp only [List.length_append, List.length_drop, List.length_cons, List.length_nil]
    omega

theorem moves_mapRecord (hb : μ .bank) (s : State) (r : Option Nat) (g : TripRecord → TripRecord) : Moves μ s (s.mapRecord r g) := by
  unfold State.mapRecord
  split
  · exact .rfl
  · exact .one (.trips _ _ hb (fun h => by simpa using h))

/-- A change of an element record that leaves accumulators and histories alone. -/
theorem moves_setElement (hb : μ .bank) (s : State) (f : Feeder) (r : ElementRecord) (h1 : r.phAcc = (s.element f).phAcc)
    (h2 : r.efAcc = (s.element f).efAcc) (h3 : r.histories = (s.element f).histories) : Moves μ s (s.setElement f r) :=
  .one (.element s f r hb fun h => ⟨h1 ▸ h.phase, h2 ▸ h.earth, h3 ▸ h.histories⟩)

theorem moves_closeLatch (hb : μ .bank) (s : State) (f : Feeder) (l : Latch) (o : TripOutcome) : Moves μ s (s.closeLatch f l o) :=
  .peel (moves_setElement hb _ _ _ rfl rfl rfl) (moves_mapRecord hb _ _ _)

theorem moves_notifyTrip (s : State) (f : Feeder) (l : Latch) (o : TripOutcome) : Moves μ s (s.notifyTrip f l o) := by
  unfold State.notifyTrip
  split <;> exact moves_notify _ _ _

theorem moves_tripCompleted (hc : μ .reclose) (hb : μ .bank) (s : State) (f : Feeder) (k : Completion) : Moves μ s (s.tripCompleted f k) := by
  unfold State.tripCompleted
  split
  · exact .rfl
  · split
    · refine .peel (moves_notifyTrip _ _ _ _) (.peel (moves_tellTripDone hc _ _ _) (.pone (.element _ _ _ hb ?_) (moves_closeLatch hb _ _ _ _)))
      intro _
      exact ⟨by simp [ElementRecord.zeroed, Phases.all3], by simp [ElementRecord.zeroed], by simp [ElementRecord.zeroed, Phases.all3]⟩
    · exact .peel (moves_notifyTrip _ _ _ _) (.peel (moves_tellTripFailed hc _ _) (moves_closeLatch hb _ _ _ _))

theorem moves_operateCompleted (hc : μ .reclose) (hr : μ .requests) (s : State) (n : Nat) (i : SlotId) (kd : CmdKind) (k : Completion) :
    Moves μ s (s.operateCompleted n i kd k) := .peel (moves_replyTo hr _ _ _ _) (moves_ite (moves_operateTold hc _ _ _ _) .rfl)

theorem moves_supersededSwitch (w : Working μ) (s : State) (d : Delivery) : Moves μ s (s.supersededSwitch d) := by
  unfold State.supersededSwitch
  split
  · exact moves_closeCompleted w.reclose _ _ _
  · exact moves_huntSuperseded w.exchange w.reclose w.hunt _ _
  · exact moves_operateCompleted w.reclose w.requests _ _ _ _ _
  · exact .rfl
  · exact .rfl

theorem moves_setLatch (hb : μ .bank) (s : State) (f : Feeder) (c : Causes) : Moves μ s (s.setLatch f c) :=
  .peel (moves_setElement hb _ _ _ rfl rfl rfl) (moves_openRecord hb _ _)

theorem moves_handTrip (w : Working μ) (s : State) (f : Feeder) : Moves μ s (s.handTrip f).1 :=
  .peel (moves_foldl _ (moves_supersededSwitch w) _ _) (moves_handCmd w.exchange _ _ _ (by simp [tripCmd]))

theorem moves_tripDecision (w : Working μ) (s : State) (f : Feeder) (c : Causes) : Moves μ s (s.tripDecision f c) := by
  unfold State.tripDecision
  dsimp only
  have hm : Moves μ s ((((s.setLatch f c).handTrip f).1.tellDecision f).escalateHunt f) :=
    .peel (moves_escalateHunt w.exchange w.reclose w.hunt _ _) (.peel (moves_tellDecision w.reclose _ _) (.peel (moves_handTrip w _ _) (moves_setLatch w.bank _ _ _)))
  split
  · exact hm
  · exact .peel (moves_tripCompleted w.reclose w.bank _ _ _) hm

theorem moves_addCauses (hb : μ .bank) (s : State) (f : Feeder) (l : Latch) (c : Causes) : Moves μ s (s.addCauses f l c) :=
  .peel (moves_mapRecord hb _ _ _) (moves_setElement hb _ _ _ rfl rfl rfl)

theorem moves_operation (w : Working μ) (s : State) (f : Feeder) (c : Causes) : Moves μ s (s.operation f c) := by
  unfold State.operation
  split
  · exact .rfl
  all_goals
    split
    · exact moves_tripDecision w _ _ _
    · exact moves_addCauses w.bank _ _ _ _

/-! ### Hunts -/

theorem moves_conclude (w : Working μ) (s : State) (r : HuntResult) : Moves μ s (s.conclude r) := by
  unfold State.conclude
  dsimp only
  split
  · exact .peel (moves_finishHunt w.exchange w.reclose w.hunt _ _ _) (.peel (moves_operation w _ _ _) (moves_mapCtx w.hunt _ _))
  · exact .peel (moves_finishHunt w.exchange w.reclose w.hunt _ _ _) (moves_mapCtx w.hunt _ _)

theorem moves_openPointAt (he : μ .exchange) (hh : μ .hunt) (s : State) (i : SlotId) : Moves μ s (s.openPointAt i).1 :=
  .peel (moves_handCmd he _ _ _ (by simp [huntCmd])) (moves_mapCtx hh _ _)

theorem moves_openDone (hh : μ .hunt) (s : State) : Moves μ s s.openDone := by
  unfold State.openDone
  exact moves_mapCtx hh _ _

theorem moves_openFailed (hh : μ .hunt) (s : State) : Moves μ s s.openFailed := .peel (moves_appendOutcome hh _ _) (moves_mapCtx hh _ _)

theorem moves_feederSteps (w : Working μ) (f : Feeder) (l : List PlanStep) (k : Nat) (s : State) : Moves μ s (State.feederSteps f l k s) := by
  induction l generalizing k s with
  | nil => exact moves_conclude w _ _
  | cons x rest ih =>
    unfold State.feederSteps
    dsimp only
    split
    · exact .peel (ih _ _) (.peel (moves_appendOutcome w.hunt _ _) (moves_mapCtx w.hunt _ _))
    · split
      · exact .peel (ih _ _) (.peel (moves_appendOutcome w.hunt _ _) (moves_mapCtx w.hunt _ _))
      · split
        · exact .peel (moves_openPointAt w.exchange w.hunt _ _) (moves_mapCtx w.hunt _ _)
        · exact .peel (moves_openDone w.hunt _) (.peel (moves_openPointAt w.exchange w.hunt _ _) (moves_mapCtx w.hunt _ _))
        · exact .peel (ih _ _) (.peel (moves_openFailed w.hunt _) (.peel (moves_openPointAt w.exchange w.hunt _ _) (moves_mapCtx w.hunt _ _)))

theorem moves_busSteps (w : Working μ) (l : List Feeder) (k : Nat) (s : State) : Moves μ s (State.busSteps l k s) := by
  induction l generalizing k s with
  | nil => exact moves_conclude w _ _
  | cons x rest ih =>
    unfold State.busSteps
    dsimp only
    split
    · exact .peel (ih _ _) (.peel (moves_appendOutcome w.hunt _ _) (moves_mapCtx w.hunt _ _))
    · split
      · exact .peel (moves_openPointAt w.exchange w.hunt _ _) (moves_mapCtx w.hunt _ _)
      · exact .peel (moves_openDone w.hunt _) (.peel (moves_openPointAt w.exchange w.hunt _ _) (moves_mapCtx w.hunt _ _))
      · exact .peel (ih _ _) (.peel (moves_openFailed w.hunt _) (.peel (moves_openPointAt w.exchange w.hunt _ _) (moves_mapCtx w.hunt _ _)))

theorem moves_nextStep (w : Working μ) (s : State) : Moves μ s s.nextStep := by
  unfold State.nextStep
  split
  · exact moves_feederSteps w _ _ _ _
  · exact moves_busSteps w _ _ _
  · exact .rfl

theorem moves_chain (w : Working μ) (s : State) (f : Feeder) : Moves μ s (s.chain f) := by
  unfold State.chain
  split
  · exact moves_conclude w _ _
  · exact .peel (moves_feederSteps w _ _ _ _) (moves_mapCtx w.hunt _ _)

theorem moves_restored (w : Working μ) (s : State) : Moves μ s s.restored := by
  unfold State.restored
  dsimp only
  split
  · split
    · exact .peel (moves_chain w _ _) (moves_mapCtx w.hunt _ _)
    · exact .peel (moves_nextStep w _) (moves_mapCtx w.hunt _ _)
  · exact .peel (moves_nextStep w _) (moves_mapCtx w.hunt _ _)

theorem moves_closeInRestoring (w : Working μ) (s : State) (k : Completion) : Moves μ s (s.closeInRestoring k) := by
  cases k
  case done => exact moves_restored w _
  case superseded => exact moves_huntSuperseded w.exchange w.reclose w.hunt _ _
  all_goals exact .peel (moves_abortHunt w.exchange w.reclose w.hunt _ _) (moves_mapCtx w.hunt _ _)

theorem moves_restore (w : Working μ) (s : State) : Moves μ s s.restore := by
  unfold State.restore
  split
  · exact .rfl
  · rename_i i _
    dsimp only
    have hm : Moves μ s ((s.mapCtx fun x => { x with state := .restoring, outstanding := some .close }).handCmd i
        (huntCmd .close)).1 := .peel (moves_handCmd w.exchange _ _ _ (by simp [huntCmd])) (moves_mapCtx w.hunt _ _)
    split
    · exact hm
    · exact .peel (moves_closeInRestoring w _ _) hm

theorem moves_huntCompleted (w : Working μ) (s : State) (kd : CmdKind) (k : Completion) : Moves μ s (s.huntCompleted kd k) := by
  unfold State.huntCompleted
  split
  · cases k
    case done => exact moves_openDone w.hunt _
    case superseded => exact moves_huntSuperseded w.exchange w.reclose w.hunt _ _
    all_goals exact .peel (moves_nextStep w _) (moves_openFailed w.hunt _)
  · exact moves_closeInRestoring w _ _
  · exact moves_huntAbortingDone w.exchange w.reclose w.hunt _ _ _
  all_goals exact .rfl

theorem moves_settleOnSet (hh : μ .hunt) (s : State) (e : EntryId) : Moves μ s (s.settleOnSet e) := by
  unfold State.settleOnSet
  split
  · split
    · exact moves_ite (moves_mapCtx hh _ _) .rfl
    · exact .rfl
  · exact .rfl

theorem moves_settleOnGap (hh : μ .hunt) (s : State) (e : EntryId) : Moves μ s (s.settleOnGap e) := moves_ite (moves_mapCtx hh _ _) .rfl

theorem moves_settleExpired (w : Working μ) (s : State) (t : Nat) : Moves μ s (s.settleExpired t) := by
  unfold State.settleExpired
  dsimp only
  split
  · split
    · exact .peel (moves_conclude w _ _) (.peel (moves_appendOutcome w.hunt _ _) (moves_mapCtx w.hunt _ _))
    · exact .peel (moves_restore w _) (.peel (moves_appendOutcome w.hunt _ _) (moves_mapCtx w.hunt _ _))
  · exact .peel (moves_restore w _) (.peel (moves_appendOutcome w.hunt _ _) (moves_mapCtx w.hunt _ _))

theorem moves_startHunt (w : Working μ) (s : State) (e : EntryId) (o : HuntOrigin) : Moves μ s (s.startHunt e o) := by
  unfold State.startHunt
  dsimp only
  have hm : Moves μ s (((s.setCtx (s.startContext e o)).setHuntList ((s.setCtx (s.startContext e o)).hunt.pendingList.filter
      fun x => !(s.setCtx (s.startContext e o)).involvesSource x))) :=
    .pone (.huntList _ _ w.hunt fun h => h.filter _) (.one (.ctx _ _ w.hunt))
  split
  · exact .peel (moves_feederSteps w _ _ _ _) (.peel (moves_foldl _ (fun s f => moves_addReason w.exchange w.reclose s f .hunt trivial) _ _) hm)
  · exact .peel (moves_busSteps w _ _ _) (.peel (moves_foldl _ (fun s f => moves_addReason w.exchange w.reclose s f .hunt trivial) _ _) hm)

/-- Serving the list leaves what stands after the entry served, or nothing. -/
theorem moves_serveFrom (w : Working μ) (l : List EntryId) (s : State) (h : s.hunt.pendingList.Nodup → l.Nodup) :
    Moves μ s (State.serveFrom l s) := by
  induction l generalizing s with
  | nil => exact .one (.huntList _ _ w.hunt (fun _ => List.nodup_nil))
  | cons e rest ih =>
    unfold State.serveFrom
    dsimp only
    have hr : s.hunt.pendingList.Nodup → rest.Nodup := fun x => (List.nodup_cons.1 (h x)).2
    split
    · exact .peel (moves_startHunt w _ _ _) (.one (.huntList s rest w.hunt hr))
    · exact .peel (ih _ (by simp)) (.one (.huntList s rest w.hunt hr))

theorem moves_servePendingHunts (w : Working μ) (s : State) : Moves μ s s.servePendingHunts := moves_ite (moves_serveFrom w _ _ id) .rfl

theorem moves_offerTrigger (hh : μ .hunt) (s : State) (e : EntryId) : Moves μ s (s.offerTrigger e) := by
  unfold State.offerTrigger
  split
  · exact .rfl
  · rename_i h
    refine .one (.huntList _ _ hh fun hn => ?_)
    have hc : e ∉ s.hunt.pendingList := by
      intro hm
      simp [State.dropsTrigger, hm] at h
    rw [List.nodup_append]
    refine ⟨hn, by simp, ?_⟩
    intro a ha b hb
    simp only [List.mem_cons, List.not_mem_nil, or_false] at hb
    subst hb
    rintro rfl
    exact hc ha

theorem moves_triggerArrives (w : Working μ) (s : State) (e : EntryId) : Moves μ s (s.triggerArrives e) :=
  moves_ite .rfl (.peel (moves_servePendingHunts w _) (moves_offerTrigger w.hunt _ _))

theorem moves_presentHunt (he : μ .exchange) (hc : μ .reclose) (hh : μ .hunt) (s : State) (f : Feeder) (p : Profile) : Moves μ s (s.presentHunt f p) := moves_ite (moves_huntCause he hc hh _ _) .rfl

/-! ### Elements -/

theorem moves_notifySef (s : State) (f : Feeder) (p : Profile) : Moves μ s (s.notifySef f p) := by
  unfold State.notifySef
  split <;> exact moves_notify _ _ _

theorem moves_sefOperate (w : Working μ) (s : State) (f : Feeder) (p : Profile) : Moves μ s (s.sefOperate f p) := by
  unfold State.sefOperate
  dsimp only
  split
  · exact moves_notifySef _ _ _
  · exact .peel (moves_triggerArrives w _ _) (moves_notifySef _ _ _)
  · exact .peel (moves_ite (moves_addReason w.exchange w.reclose _ _ _ trivial) .rfl) (moves_notifySef _ _ _)

theorem moves_sefReport (hb : μ .bank) (s : State) (f : Feeder) : Moves μ s (s.sefReport f) := by
  unfold State.sefReport
  dsimp only
  split
  · exact .peel (moves_notify _ _ _) (moves_setElement hb _ _ _ rfl rfl rfl)
  · exact .rfl

theorem moves_ackSef (hb : μ .bank) (s : State) (f : Feeder) : Moves μ s (s.ackSef f) :=
  .peel (moves_sefReport hb _ _) (moves_setElement hb _ _ _ rfl rfl rfl)

theorem moves_operateIf (w : Working μ) (s : State) (f : Feeder) (c : Causes) : Moves μ s (s.operateIf f c) := moves_ite .rfl (moves_operation w _ _ _)

theorem itStep_le (x : ItSettings) (rates : List Nat) (held : Bool) (m acc : Nat) (h : acc ≤ 16777216) :
    (itStep x rates held m acc).1 ≤ 16777216 := by
  unfold itStep
  split; · exact Nat.zero_le _
  split
  · split
    · exact h
    · exact Nat.min_le_left _ _
  · split
    · exact h
    · simp only [resetAccumulator]
      split
      · exact (Nat.sub_le _ _).trans h
      · exact Nat.zero_le _

theorem ok_clearHighSet {r : ElementRecord} (h : r.Ok) : r.clearHighSet.Ok :=
  ⟨h.phase, h.earth, by simp [ElementRecord.clearHighSet, Phases.all3]⟩

theorem ok_stepInverse (s : State) (p : Profile) (m : FeederMeasurement) {r : ElementRecord} (h : r.Ok) :
    (stepInverse s p m r).1.Ok :=
  ⟨⟨itStep_le _ _ _ _ _ h.phase.1, itStep_le _ _ _ _ _ h.phase.2.1, itStep_le _ _ _ _ _ h.phase.2.2⟩,
    itStep_le _ _ _ _ _ h.earth, h.histories⟩

theorem pushResult_length (h : List Bool) (x : Bool) (hl : h.length ≤ 3) : (pushResult h x).length ≤ 3 := by
  unfold pushResult
  split
  · simp; omega
  · simp; omega

theorem ok_stepHighSetTimer (d : Nat) {r : ElementRecord} (h : r.Ok) : (stepHighSetTimer d r).1.Ok := by
  unfold stepHighSetTimer
  split; · exact h
  split; · exact ⟨h.phase, h.earth, h.histories⟩
  split
  · exact ⟨h.phase, h.earth, h.histories⟩
  · split <;> exact ⟨h.phase, h.earth, h.histories⟩

theorem ok_stepHighSet (p : Profile) (m : FeederMeasurement) {r : ElementRecord} (h : r.Ok) : (stepHighSet p m r).1.Ok := by
  unfold stepHighSet
  split
  · exact ok_clearHighSet h
  · dsimp only
    have hh := h.histories
    split
    · exact ok_stepHighSetTimer _ ⟨h.phase, h.earth, pushResult_length _ _ hh.1, pushResult_length _ _ hh.2.1, pushResult_length _ _ hh.2.2⟩
    · exact ⟨h.phase, h.earth, pushResult_length _ _ hh.1, pushResult_length _ _ hh.2.1, pushResult_length _ _ hh.2.2⟩

theorem ok_stepSefTimer (d : Nat) {r : ElementRecord} (h : r.Ok) : (stepSefTimer d r).1.Ok := by
  unfold stepSefTimer
  split
  · exact ⟨h.phase, h.earth, h.histories⟩
  · split
    · split
      · exact h
      · exact ⟨h.phase, h.earth, h.histories⟩
    · split <;> exact ⟨h.phase, h.earth, h.histories⟩

/-- An evaluated set leaves a sound element record. -/
theorem ok_stepElements (s : State) (f : Feeder) (p : Profile) (m : FeederMeasurement) {r : ElementRecord} (h : r.Ok) :
    (stepElements s f p m r).1.Ok := by
  have h1 := ok_stepHighSet p m (ok_stepInverse s p m h)
  exact ok_stepSefTimer _ ⟨h1.phase, h1.earth, h1.histories⟩

theorem moves_evaluateWith (w : Working μ) (s : State) (f : Feeder) (p : Profile) (m : FeederMeasurement) : Moves μ s (s.evaluateWith f p m) := by
  unfold State.evaluateWith
  dsimp only
  exact .peel (moves_sefReport w.bank _ _) (.peel (moves_operateIf w _ _ _) (.peel (moves_ite (moves_sefOperate w _ _ _) .rfl)
    (.one (.element s f _ w.bank (ok_stepElements s f p m)))))

theorem moves_evaluate (w : Working μ) (s : State) (f : Feeder) (m : FeederMeasurement) : Moves μ s (s.evaluate f m) := by
  unfold State.evaluate
  split
  · exact .rfl
  · exact .rfl
  · exact moves_evaluateWith w _ _ _ _

theorem ok_keepInverse {r : ElementRecord} (p : Profile) (h : r.Ok) : (r.keepInverse p).Ok := by
  unfold ElementRecord.keepInverse
  dsimp only
  have h1 : (if p.ph.enable then r else { r with phAcc := Phases.all3 0, phPickup := Phases.all3 false }).Ok := by
    split
    · exact h
    · exact ⟨by simp [Phases.all3], h.earth, h.histories⟩
  generalize (if p.ph.enable then r else { r with phAcc := Phases.all3 0, phPickup := Phases.all3 false }) = r1 at h1 ⊢
  have h2 : (if p.ef.enable then r1 else { r1 with efAcc := 0, efPickup := false }).Ok := by
    split
    · exact h1
    · exact ⟨h1.phase, by simp, h1.histories⟩
  generalize (if p.ef.enable then r1 else { r1 with efAcc := 0, efPickup := false }) = r2 at h2 ⊢
  have h3 : (if p.rstEnable then r2 else { r2 with restraint := false }).Ok := by
    split
    · exact h2
    · exact ⟨h2.phase, h2.earth, h2.histories⟩
  split
  · exact h3
  · exact ok_clearHighSet h3

theorem ok_takeoverHighSet (p : Profile) {r : ElementRecord} (h : r.Ok) : (takeoverHighSet p r).1.Ok := by
  unfold takeoverHighSet
  split; · exact h
  split
  · split
    · exact ⟨h.phase, h.earth, h.histories⟩
    · exact h
  · split
    · split <;> exact ⟨h.phase, h.earth, h.histories⟩
    · exact h

theorem ok_takeoverSef (p : Profile) {r : ElementRecord} (h : r.Ok) : (takeoverSef p r).1.Ok := by
  unfold takeoverSef
  split; · exact ⟨h.phase, h.earth, h.histories⟩
  split
  · split
    · exact ⟨h.phase, h.earth, h.histories⟩
    · exact h
  · exact h

theorem moves_presentElements (w : Working μ) (s : State) (f : Feeder) (p : Profile) : Moves μ s (s.presentElements f p) := by
  unfold State.presentElements
  split
  · exact .rfl
  all_goals
    dsimp only
    exact .peel (moves_setElement w.bank _ _ _ rfl rfl rfl) (.peel (moves_operateIf w _ _ _) (.peel (moves_ite (moves_sefOperate w _ _ _) .rfl)
      (.one (.element s f _ w.bank (fun h => ok_takeoverSef p (ok_takeoverHighSet p (ok_keepInverse p h)))))))

/-! ### Takeovers -/

theorem moves_agreeFire (he : μ .exchange) (hc : μ .reclose) (s : State) (f : Feeder) (p : Profile) : Moves μ s (s.agreeFire f p) :=
  moves_ite (moves_addReason he hc _ _ _ trivial) (moves_removeReason he hc _ _ _ trivial)

theorem moves_formThreshold (ht : μ .threshold) (s : State) : Moves μ s s.formThreshold := .one (.threshold _ _ ht)

theorem moves_activate (he : μ .exchange) (hc : μ .reclose) (hm : μ .map) (s : State) (e : EntryId) (k : BankSlot) (p : Profile) (h : s.profile k = some p) :
    Moves μ s (s.activate e k p) := by
  unfold State.activate
  dsimp only
  have hm : Moves μ s (s.setEntry e ⟨some k, none⟩) := by
    refine .one (.entry _ _ _ hm fun _ => ⟨?_, ?_⟩)
    · rintro a ⟨⟩; simp [h]
    · simp
  split
  · exact .peel (moves_agreeFire he hc _ _ _) hm
  · exact hm

theorem moves_present (w : Working μ) (ht : μ .threshold) (s : State) (e : EntryId) (p : Profile) : Moves μ s (s.present e p) := by
  unfold State.present
  split
  · exact .peel (moves_presentHunt w.exchange w.reclose w.hunt _ _ _) (.peel (moves_presentReclose w.reclose _ _ _) (moves_presentElements w _ _ _))
  · exact moves_formThreshold ht _

theorem moves_takeover (w : Working μ) (ht : μ .threshold) (hm : μ .map) (s : State) (e : EntryId) (k : BankSlot) (o : TakeoverOrigin) : Moves μ s (s.takeover e k o) := by
  unfold State.takeover
  split
  · exact .rfl
  · rename_i h
    exact .peel (moves_present w ht _ _ _) (.peel (moves_notify _ _ _) (moves_activate w.exchange w.reclose hm _ _ _ _ h))

theorem moves_takeoverPending (w : Working μ) (ht : μ .threshold) (hm : μ .map) (s : State) (e : EntryId) : Moves μ s (s.takeoverPending e) := by
  unfold State.takeoverPending
  split
  · exact .rfl
  · exact moves_takeover w ht hm _ _ _ _

theorem moves_settleRounds (w : Working μ) (ht : μ .threshold) (hm : μ .map) (n : Nat) (s : State) : Moves μ s (State.settleRounds n s) := by
  induction n generalizing s with
  | zero => exact .rfl
  | succ n ih =>
    unfold State.settleRounds
    split
    · exact .peel (ih _) (moves_takeoverPending w ht hm _ _)
    · split
      · exact .peel (ih _) (moves_servePendingHunts w _)
      · exact .rfl

/-- What the end of an event settles is a chain of primitive changes. -/
theorem moves_settle (w : Working μ) (ht : μ .threshold) (hm : μ .map) (s : State) : Moves μ s s.settle := moves_settleRounds w ht hm _ _

/-- Selecting a LOADED slot is a chain of primitive changes. -/
theorem moves_selectEntry (w : Working μ) (ht : μ .threshold) (hm : μ .map) (s : State) (k : BankSlot) (e : EntryId) (h : (s.profile k).isSome) :
    Moves μ s (s.selectEntry k e).1 := by
  obtain ⟨q, hq⟩ := Option.isSome_iff_exists.1 h
  unfold State.selectEntry
  split
  · exact moves_takeover w ht hm _ _ _ _
  · rename_i a ha
    split
    · exact .one (.entry _ _ _ hm fun hm => ⟨fun b hb => by cases hb; exact hm.1 _ ha, by simp⟩)
    · split
      · exact moves_takeover w ht hm _ _ _ _
      · rename_i hl
        refine .one (.entry _ _ _ hm fun hm => ⟨fun b hb => by cases hb; exact hm.1 _ ha, ?_⟩)
        rintro b ⟨⟩
        obtain ⟨p, hp⟩ := Option.isSome_iff_exists.1 (hm.1 _ ha)
        refine ⟨a, p, q, rfl, hp, hq, ?_⟩
        simp only [State.levelOf, hp, hq, Bool.or_eq_true, decide_eq_true_eq, not_or] at hl
        omega

end Sys2Proof.Machine
end

