-- ==== Sys2Proof/Laws/Kept.lean ====
section
/-! SUPPORT. What every chain of primitive changes keeps: the parts of the state listed in `Fixed`, and the soundness of the
element records, the map, the slots, the port and the queues. -/

namespace Sys2Proof.Machine

variable {μ : Part → Prop}

/-! ### The Link Port and the queues -/

/-- A chain of changes of the Link Port and the Management Responder alone. -/
theorem beginTx_link (s : State) : ∃ l, s.beginTx = s.setLink l ∧ l.table = s.link.table ∧ l.log = s.link.log := by
  unfold State.beginTx
  split
  · exact ⟨s.link, rfl, rfl, rfl⟩
  · split
    · exact ⟨s.link, rfl, rfl, rfl⟩
    · exact ⟨_, rfl, rfl, rfl⟩

theorem handFrame_link (s : State) (f : TxFrame) :
    ∃ l, s.handFrame f = s.setLink l ∧ l.table = s.link.table ∧ l.log = s.link.log := by
  obtain ⟨l, h1, h2, h3⟩ := beginTx_link (s.setLink { s.link with tx := f.join s.link.tx })
  exact ⟨l, h1, h2, h3⟩

theorem feedNotice_parts (s : State) : ∃ l m, s.feedNotice = (s.setMgmt m).setLink l ∧ l.table = s.link.table
    ∧ l.log = s.link.log ∧ m.requests = s.mgmt.requests ∧ m.nextTicket = s.mgmt.nextTicket
    ∧ m.notices.length ≤ s.mgmt.notices.length := by
  unfold State.feedNotice
  split
  · split
    · rename_i d n rest hd hn
      obtain ⟨l, h1, h2, h3⟩ := handFrame_link (s.setMgmt { s.mgmt with notices := rest, overflow := false })
        (.notice d s.link.table.address s.mgmt.overflow n)
      exact ⟨l, _, h1, h2, h3, rfl, rfl, by simp [hn]⟩
    · exact ⟨s.link, s.mgmt, rfl, rfl, rfl, rfl, rfl, Nat.le_refl _⟩
  · exact ⟨s.link, s.mgmt, rfl, rfl, rfl, rfl, rfl, Nat.le_refl _⟩

/-- A notice changes the Link Port's queue and path and the notice queue alone. -/
theorem notify_parts (s : State) (n : Notice) (b : Bool) : ∃ l m, s.notify n b = (s.setMgmt m).setLink l
    ∧ l.table = s.link.table ∧ l.log = s.link.log ∧ m.requests = s.mgmt.requests ∧ m.nextTicket = s.mgmt.nextTicket
    ∧ (s.mgmt.notices.length ≤ 32 → m.notices.length ≤ 32) := by
  unfold State.notify
  split
  · rename_i hl
    have hl : s.mgmt.notices.length < 32 := hl
    obtain ⟨l, m, h1, h2, h3, h4, h5, h6⟩ := feedNotice_parts (s.setMgmt { s.mgmt with notices := s.mgmt.notices ++ [⟨n, b⟩] })
    refine ⟨l, m, h1, h2, h3, h4, h5, fun _ => h6.trans ?_⟩
    simp
    omega
  · exact ⟨s.link, { s.mgmt with overflow := true }, rfl, rfl, rfl, rfl, rfl, id⟩

/-! ### The fixed parts -/

theorem fixed_prim {s t : State} (h : Prim μ s t) : t.fixed = s.fixed := by
  cases h with
  | notify n b =>
    obtain ⟨l, m, h1, h2, h3, h4, h5, _⟩ := notify_parts s n b
    rw [h1]; simp [State.fixed, h2, h3, h4, h5]
  | frame f _ =>
    obtain ⟨l, h1, h2, h3⟩ := handFrame_link s f
    rw [h1]; simp [State.fixed, h2, h3]
  | mark k st _ =>
    have : (s.mgmt.requests.map fun e => if e.ticket = k then { e with state := st } else e).map ReqEntry.request
        = s.mgmt.requests.map ReqEntry.request := by
      rw [List.map_map]
      congr 1
      funext e
      simp only [Function.comp]
      split <;> rfl
    simp [State.fixed, State.markEntry, this]
  | slot i o _ hs _ _ => simp only [State.fixed, State.setSlot, State.setExchange]; congr 1; exact map_put _ _ _ _ hs
  | recl f r _ _ hr => simp only [State.fixed, State.setRecl, State.setReclose]; congr 1; exact map_put _ _ _ _ hr
  | outputs o _ h => simp [State.fixed, h]
  | _ => rfl

/-- A chain of primitive changes leaves the fixed parts alone. -/
theorem fixed_moves {s t : State} (h : Moves μ s t) : t.fixed = s.fixed := by
  induction h with
  | refl => rfl
  | tail _ hp ih => exact (fixed_prim hp).trans ih

/-- What holds of a state and is kept by every primitive change is kept by a chain of them. -/
theorem moves_keep (P : State → Prop) (hp : ∀ s t, Prim μ s t → P s → P t) {s t : State} (h : Moves μ s t) (hs : P s) : P t := by
  induction h with
  | refl => exact hs
  | tail _ h1 ih => exact hp _ _ h1 ih

/-! ### Blocks that notices and frames leave alone -/

theorem notify_rest (s : State) (n : Notice) (b : Bool) : ∃ l m, s.notify n b = (s.setMgmt m).setLink l :=
  (notify_parts s n b).imp fun _ h => h.imp fun _ h => h.1

theorem elementsOk_prim (s t : State) (h : Prim μ s t) (hs : s.ElementsOk) : t.ElementsOk := by
  cases h with
  | notify n b => obtain ⟨l, m, h1⟩ := notify_rest s n b; rw [h1]; exact hs
  | frame f _ => obtain ⟨l, h1, _⟩ := handFrame_link s f; rw [h1]; exact hs
  | element f r _ h =>
    intro j
    rw [State.element_setElement]
    split
    · exact h (hs f)
    · exact hs j
  | shift =>
    intro j
    have h1 : State.element (s.setBank { s.bank with records := shiftLatches s.bank.records }) j
        = { s.element j with latch := (s.element j).latch.map fun l => { l with record := shiftRef l.record } } := by
      simp [State.element, shiftLatches, look_map]
    rw [h1]
    exact ⟨(hs j).phase, (hs j).earth, (hs j).histories⟩
  | _ => exact hs

theorem tripsOk_prim (s t : State) (h : Prim μ s t) (hs : s.TripsOk) : t.TripsOk := by
  cases h with
  | notify n b => obtain ⟨l, m, h1⟩ := notify_rest s n b; rw [h1]; exact hs
  | frame f _ => obtain ⟨l, h1, _⟩ := handFrame_link s f; rw [h1]; exact hs
  | trips l _ h => exact h hs
  | _ => exact hs

theorem mapOk_prim (s t : State) (h : Prim μ s t) (hs : s.MapOk) : t.MapOk := by
  cases h with
  | notify n b => obtain ⟨l, m, h1⟩ := notify_rest s n b; rw [h1]; exact hs
  | frame f _ => obtain ⟨l, h1, _⟩ := handFrame_link s f; rw [h1]; exact hs
  | entry e m _ h =>
    intro j
    rw [State.entry_setEntry]
    split
    · exact h (hs e)
    · exact hs j
  | _ => exact hs

theorem offOk_prim (s t : State) (h : Prim μ s t) (hs : s.OffOk) : t.OffOk := by
  cases h with
  | notify n b => obtain ⟨l, m, h1⟩ := notify_rest s n b; rw [h1]; exact hs
  | frame f _ => obtain ⟨l, h1, _⟩ := handFrame_link s f; rw [h1]; exact hs
  | recl f r _ ho _ =>
    intro j
    rw [State.recl_setRecl]
    split
    · rename_i hj; subst hj; exact ho.trans (hs j)
    · exact hs j
  | _ => exact hs

theorem slotsOk_prim (s t : State) (h : Prim μ s t) (hs : s.SlotsOk) : t.SlotsOk := by
  cases h with
  | notify n b => obtain ⟨l, m, h1⟩ := notify_rest s n b; rw [h1]; exact hs
  | frame f _ => obtain ⟨l, h1, _⟩ := handFrame_link s f; rw [h1]; exact hs
  | slot i o _ _ hq _ =>
    intro j
    rw [State.slot_setSlot]
    split
    · exact hq (hs i)
    · exact hs j
  | _ => exact hs

/-- An ENROLLING slot gains no command. -/
theorem load_prim (i : SlotId) (n : Nat) (s t : State) (h : Prim μ s t)
    (hs : (s.slot i).state = .enrolling → (s.slot i).load ≤ n) : (t.slot i).state = .enrolling → (t.slot i).load ≤ n := by
  cases h with
  | notify n b => obtain ⟨l, m, h1⟩ := notify_rest s n b; rw [h1]; exact hs
  | frame f _ => obtain ⟨l, h1, _⟩ := handFrame_link s f; rw [h1]; exact hs
  | slot j o _ hst _ hn =>
    rw [State.slot_setSlot]
    split
    · rename_i hj
      subst hj
      have : o.still.state = (s.slot i).still.state := by rw [hst]
      change o.state = (s.slot i).state at this
      rw [this]
      exact fun h => (hn h).trans (hs h)
    · exact hs
  | _ => exact hs

theorem huntListOk_prim (s t : State) (h : Prim μ s t) (hs : s.HuntListOk) : t.HuntListOk := by
  cases h with
  | notify n b => obtain ⟨l, m, h1⟩ := notify_rest s n b; rw [h1]; exact hs
  | frame f _ => obtain ⟨l, h1, _⟩ := handFrame_link s f; rw [h1]; exact hs
  | huntList l _ h => exact h hs
  | _ => exact hs

theorem queuesOk_prim (s t : State) (h : Prim μ s t) (hs : s.QueuesOk) : t.QueuesOk := by
  cases h with
  | notify n b =>
    obtain ⟨l, m, h1, _, _, h4, _, h6⟩ := notify_parts s n b
    rw [h1]
    exact ⟨by simpa [h4] using hs.1, h6 hs.2⟩
  | frame f _ => obtain ⟨l, h1, _⟩ := handFrame_link s f; rw [h1]; exact hs
  | mark k st _ => exact ⟨by simpa [State.markEntry] using hs.1, hs.2⟩
  | _ => exact hs

/-! ### The port -/

/-- The next frame of a queue in its classes, and what is left of the queue. -/
theorem next_classed {q r : TxQueue} {f : TxFrame} (h : q.next = some (f, r)) (hq : q.Classed) :
    r.Classed ∧ (f.cls = 5 → f ∈ q.c5) ∧ r.c5.length + (if f.cls = 5 then 1 else 0) = q.c5.length := by
  obtain ⟨h1, h2, h3, h4, h5⟩ := hq
  unfold TxQueue.next at h
  have tl : ∀ {l : List TxFrame} {k : Nat} {g : TxFrame} {rest : List TxFrame}, l = g :: rest → (∀ f ∈ l, f.cls = k) →
      g.cls = k ∧ ∀ f ∈ rest, f.cls = k := by
    rintro l k g rest rfl hl
    exact ⟨hl g (by simp), fun f hf => hl f (by simp [hf])⟩
  split at h
  · rename_i hc
    obtain ⟨rfl, rfl⟩ := by simpa using h
    obtain ⟨e, e'⟩ := tl hc h1
    exact ⟨⟨e', h2, h3, h4, h5⟩, by simp [e], by simp [e]⟩
  split at h
  · rename_i hc
    obtain ⟨rfl, rfl⟩ := by simpa using h
    obtain ⟨e, e'⟩ := tl hc h2
    exact ⟨⟨h1, e', h3, h4, h5⟩, by simp [e], by simp [e]⟩
  split at h
  · rename_i hc
    obtain ⟨rfl, rfl⟩ := by simpa using h
    obtain ⟨e, e'⟩ := tl hc h3
    exact ⟨⟨h1, h2, e', h4, h5⟩, by simp [e], by simp [e]⟩
  split at h
  · rename_i hc
    obtain ⟨rfl, rfl⟩ := by simpa using h
    obtain ⟨e, e'⟩ := tl hc h4
    exact ⟨⟨h1, h2, h3, e', h5⟩, by simp [e], by simp [e]⟩
  split at h
  · rename_i hc
    obtain ⟨rfl, rfl⟩ := by simpa using h
    obtain ⟨e, e'⟩ := tl hc h5
    exact ⟨⟨h1, h2, h3, h4, e'⟩, by simp [hc], by simp [e, hc]⟩
  · simp at h

theorem next_none {q : TxQueue} (h : q.next = none) : q.isEmpty = true := by
  unfold TxQueue.next at h
  unfold TxQueue.isEmpty
  split at h; · simp at h
  split at h; · simp at h
  split at h; · simp at h
  split at h; · simp at h
  split at h; · simp at h
  simp [*]

theorem isNotice_cls (f : TxFrame) : f.isNotice = true ↔ f.cls = 5 := by
  cases f with
  | command _ _ k _ _ _ => cases k <;> simp [TxFrame.isNotice, TxFrame.cls]
  | _ => simp [TxFrame.isNotice, TxFrame.cls]

/-- Beginning the next transmission makes the port sound, if its frames stand in their classes and class 5 holds at most one. -/
theorem beginTx_ok (s : State) (hc : s.link.tx.Classed)
    (hn : s.link.tx.c5.length + (if s.link.wire.any TxFrame.isNotice then 1 else 0) ≤ 1) : s.beginTx.PortOk := by
  unfold State.beginTx
  split
  · rename_i f hw
    exact ⟨hc, by simp [hw], hn⟩
  · rename_i hw
    simp only [hw, Option.any_none, Bool.false_eq_true, if_false] at hn
    split
    · rename_i hx
      exact ⟨hc, fun _ => next_none hx, by simpa [hw] using hn⟩
    · rename_i f r hx
      obtain ⟨h1, _, h3⟩ := next_classed hx hc
      refine ⟨h1, by simp, ?_⟩
      simp only [State.setLink_link, Option.any_some, isNotice_cls]
      omega

/-- A frame that joins its class. -/
theorem join_classed (f : TxFrame) (q : TxQueue) (h : q.Classed) :
    (f.join q).Classed ∧ (f.join q).c5.length = q.c5.length + if f.cls = 5 then 1 else 0 := by
  obtain ⟨h1, h2, h3, h4, h5⟩ := h
  have ap : ∀ {l : List TxFrame} {k : Nat}, (∀ f ∈ l, f.cls = k) → f.cls = k → ∀ g ∈ l ++ [f], g.cls = k := by
    intro l k hl hf g hg
    rcases List.mem_append.1 hg with hg | hg
    · exact hl g hg
    · simp at hg; exact hg ▸ hf
  cases f with
  | command _ _ k _ _ _ =>
    cases k
    case trip => exact ⟨⟨ap h1 rfl, h2, h3, h4, h5⟩, by simp [TxFrame.join, TxFrame.cls]⟩
    case opn => exact ⟨⟨h1, ap h2 rfl, h3, h4, h5⟩, by simp [TxFrame.join, TxFrame.cls]⟩
    case close => exact ⟨⟨h1, ap h2 rfl, h3, h4, h5⟩, by simp [TxFrame.join, TxFrame.cls]⟩
    all_goals exact ⟨⟨h1, h2, h3, ap h4 rfl, h5⟩, by simp [TxFrame.join, TxFrame.cls]⟩
  | reply => exact ⟨⟨h1, h2, ap h3 rfl, h4, h5⟩, by simp [TxFrame.join, TxFrame.cls]⟩
  | notice => exact ⟨⟨h1, h2, h3, h4, ap h5 rfl⟩, by simp [TxFrame.join, TxFrame.cls]⟩

theorem handFrame_ok (s : State) (f : TxFrame) (h : s.PortOk) (hf : f.isNotice = true → s.noticeClassFree = true) :
    (s.handFrame f).PortOk := by
  obtain ⟨h1, h2⟩ := join_classed f _ h.classed
  refine beginTx_ok _ h1 ?_
  simp only [State.setLink_link, h2]
  have h3 := h.notices
  split
  · rename_i hc
    have hfree := hf ((isNotice_cls f).2 hc)
    simp only [State.noticeClassFree, Bool.and_eq_true, List.isEmpty_iff, Bool.not_eq_true'] at hfree
    simp [hfree.1, hfree.2]
  · rw [Nat.add_zero]; exact h3

theorem feedNotice_ok (s : State) (h : s.PortOk) : s.feedNotice.PortOk := by
  unfold State.feedNotice
  split
  · rename_i hf
    split
    · exact handFrame_ok _ _ h (fun _ => hf)
    · exact h
  · exact h

theorem portOk_prim (s t : State) (h : Prim μ s t) (hs : s.PortOk) : t.PortOk := by
  cases h with
  | notify n b =>
    unfold State.notify
    split
    · exact feedNotice_ok _ hs
    · exact hs
  | frame f hf => exact handFrame_ok _ _ hs (by simp [hf])
  | _ => exact hs

end Sys2Proof.Machine
end

