-- ==== Sys2Proof/Laws/Port.lean ====
section
/-! SUPPORT. What a chain of primitive changes leaves: the frames at the port, and the parts it was not permitted to change. The
end of an event, and the serving of a request that finds no other. -/

namespace Sys2Proof.Machine

variable {μ : Part → Prop}

/-! ### Frames at the port -/

theorem join_holds (f g : TxFrame) (l : LinkPort) :
    LinkPort.Holds { l with tx := f.join l.tx } g ↔ l.Holds g ∨ g = f := by
  cases f with
  | command _ _ k _ _ _ => cases k <;> simp [LinkPort.Holds, TxFrame.join] <;> tauto
  | reply => simp [LinkPort.Holds, TxFrame.join]; tauto
  | notice => simp [LinkPort.Holds, TxFrame.join]; tauto

theorem next_holds {q r : TxQueue} {f : TxFrame} (h : q.next = some (f, r)) (l : LinkPort) (g : TxFrame) (hw : l.wire = none)
    (hq : l.tx = q) : LinkPort.Holds { l with tx := r, wire := some f } g ↔ l.Holds g := by
  subst hq
  unfold TxQueue.next at h
  unfold LinkPort.Holds
  split at h
  · obtain ⟨rfl, rfl⟩ := by simpa using h
    simp [*, eq_comm, or_assoc]
  split at h
  · obtain ⟨rfl, rfl⟩ := by simpa using h
    simp [*, eq_comm, or_assoc]
  split at h
  · obtain ⟨rfl, rfl⟩ := by simpa using h
    simp [*, eq_comm, or_assoc]
  split at h
  · obtain ⟨rfl, rfl⟩ := by simpa using h
    simp [*, eq_comm, or_assoc]
  split at h
  · obtain ⟨rfl, rfl⟩ := by simpa using h
    simp [*, eq_comm]
  · simp at h

theorem beginTx_holds (s : State) (g : TxFrame) : s.beginTx.link.Holds g ↔ s.link.Holds g := by
  unfold State.beginTx
  split
  · rfl
  · rename_i hw
    split
    · rfl
    · rename_i f q hn
      exact next_holds hn s.link g hw rfl

/-- A frame handed to the port is at the port, and every other frame as before. -/
theorem handFrame_holds (s : State) (f g : TxFrame) : (s.handFrame f).link.Holds g ↔ s.link.Holds g ∨ g = f :=
  (beginTx_holds _ g).trans (join_holds f g s.link)

theorem feedNotice_holds (s : State) (g : TxFrame) (h : s.link.Holds g) : s.feedNotice.link.Holds g := by
  unfold State.feedNotice
  split
  · split
    · exact (handFrame_holds _ _ _).2 (.inl h)
    · exact h
  · exact h

theorem notify_holds (s : State) (n : Notice) (b : Bool) (g : TxFrame) (h : s.link.Holds g) : (s.notify n b).link.Holds g := by
  unfold State.notify
  split
  · exact feedNotice_holds _ _ h
  · exact h

theorem holds_prim {s t : State} (h : Prim μ s t) (g : TxFrame) (hg : s.link.Holds g) : t.link.Holds g := by
  cases h with
  | notify n b => exact notify_holds s n b g hg
  | frame f _ => exact (handFrame_holds s f g).2 (.inl hg)
  | _ => exact hg

/-- A chain of primitive changes keeps link table, error log and engine-ok, and takes no frame from the port. -/
theorem portKept_moves {s t : State} (h : Moves μ s t) : s.PortKept t := by
  have hf := fixed_moves h
  refine ⟨congrArg Fixed.table hf, congrArg Fixed.log hf, ?_, congrArg Fixed.engineOk hf⟩
  intro f
  exact moves_keep (μ := μ) (fun u => s.link.Holds f → u.link.Holds f) (fun a b hp ha hs => holds_prim hp f (ha hs)) h id

/-! ### The parts a chain was not permitted to change -/

/-- What a chain leaves of each part that it may not change. -/
structure Parted (μ : Part → Prop) (s t : State) : Prop where
  exchange : ¬ μ .exchange → t.exchange = s.exchange
  reclose : ¬ μ .reclose → t.reclose = s.reclose
  hunt : ¬ μ .hunt → t.hunt = s.hunt
  bank : ¬ μ .bank → t.bank = s.bank
  threshold : ¬ μ .threshold → t.phasor = s.phasor
  map : ¬ μ .map → t.profiles = s.profiles
  requests : ¬ μ .requests → t.mgmt.requests = s.mgmt.requests
  outputs : ¬ μ .outputs → t.outputs = s.outputs
  rest : t = { s with exchange := t.exchange, reclose := t.reclose, hunt := t.hunt, bank := t.bank, phasor := t.phasor
                      profiles := t.profiles, mgmt := t.mgmt, link := t.link, outputs := t.outputs }

theorem parted_prim {s t : State} (h : Prim μ s t) : Parted μ s t := by
  cases h with
  | notify n b =>
    obtain ⟨l, m, h1, _, _, h4, _⟩ := notify_parts s n b
    rw [h1]
    exact ⟨fun _ => rfl, fun _ => rfl, fun _ => rfl, fun _ => rfl, fun _ => rfl, fun _ => rfl, fun _ => h4, fun _ => rfl, rfl⟩
  | frame f _ =>
    obtain ⟨l, h1, _⟩ := handFrame_link s f
    rw [h1]
    exact ⟨fun _ => rfl, fun _ => rfl, fun _ => rfl, fun _ => rfl, fun _ => rfl, fun _ => rfl, fun _ => rfl, fun _ => rfl, rfl⟩
  | _ =>
    constructor <;> first | rfl | (intro h; first | rfl | exact absurd (by assumption) h)

theorem parted_moves {s t : State} (h : Moves μ s t) : Parted μ s t := by
  induction h with
  | refl => exact ⟨fun _ => rfl, fun _ => rfl, fun _ => rfl, fun _ => rfl, fun _ => rfl, fun _ => rfl, fun _ => rfl, fun _ => rfl, rfl⟩
  | tail _ hp ih =>
    have h1 := parted_prim hp
    refine ⟨fun x => (h1.exchange x).trans (ih.exchange x), fun x => (h1.reclose x).trans (ih.reclose x),
      fun x => (h1.hunt x).trans (ih.hunt x), fun x => (h1.bank x).trans (ih.bank x),
      fun x => (h1.threshold x).trans (ih.threshold x), fun x => (h1.map x).trans (ih.map x),
      fun x => (h1.requests x).trans (ih.requests x), fun x => (h1.outputs x).trans (ih.outputs x), ?_⟩
    rw [h1.rest, ih.rest]

/-! ### The end of an event -/

/-- Nothing is settled while nothing waits. -/
theorem settle_still (s : State) (h1 : ∀ e, (s.entry e).pend = none) (h2 : s.ctx.state ≠ .idle ∨ s.hunt.pendingList = []) :
    s.settle = s := by
  unfold State.settle State.settleRounds
  have : (entries.find? fun e => s.takesOver e) = none := by
    rw [List.find?_eq_none]
    intro e _
    simp [State.takesOver, h1]
  rw [this]
  dsimp only
  rw [if_neg]
  rcases h2 with h2 | h2
  · simp [h2]
  · simp [h2]

/-- No slot is tested for sending where nothing was admitted and no command in flight was completed. -/
theorem sendChanged_same (s0 s : State) (h : ∀ i, State.sendTestDue s0 s i = false) : State.sendChanged s0 s = s := by
  unfold State.sendChanged
  have : ∀ (l : List SlotId), (l.foldl (fun s i => if State.sendTestDue s0 s i then s.trySend i else s) s) = s := by
    intro l
    induction l with
    | nil => rfl
    | cons i rest ih =>
      simp only [List.foldl_cons]
      rw [if_neg]
      · exact ih
      · simp [h i]
  exact this _

theorem finish_same (s0 s : State) (h : s.exchange = s0.exchange) : State.finish s0 s = s.refreshOutputs := by
  unfold State.finish
  rw [sendChanged_same]
  intro i
  simp [State.sendTestDue, State.admissions, State.slot, h]

/-! ### A request that finds no other -/

/-- The state in which a request that found no other is served. -/
def State.arrived (s : State) (req : RequestId) (kind : Byte) (params : List Byte) : State :=
  s.setMgmt { s.mgmt with requests := [s.newEntry req kind params], nextTicket := s.mgmt.nextTicket + 1 }

/-- A request that finds no other is served as it arrives. -/
theorem requestEvent_ready (s : State) (req : RequestId) (kind : Byte) (params : List Byte) (settles : Bool)
    (owner : Nat → State → Served) (h : s.Ready req) :
    s.requestEvent req kind params settles owner
      = State.serveEntry s (s.arrived req kind params) s.mgmt.nextTicket settles owner := by
  have ha : s.arrive req kind params = s.arrived req kind params := by
    simp [State.arrive, State.arrived, h.known, h.noRequest, Config.requestEntries]
  have ho : s.oldestWaiting = none := by simp [State.oldestWaiting, h.noRequest]
  have ho' : (s.arrived req kind params).oldestWaiting = some (s.newEntry req kind params) := by
    simp [State.oldestWaiting, State.arrived, State.newEntry]
  have hs : (s.arrived req kind params).serving = true := by
    simp [State.serving, State.isReading, State.restarting, State.arrived, State.newEntry, h.idle]
  simp [State.requestEvent, State.unlessHeld, h.released, ho, ha, State.serveIfOldest, ho', hs, ReqEntry.isFor, State.newEntry]

/-- The reply of the only entry: the entry is REPLYING and the reply is at the port; beside the port nothing else changes. -/
theorem replyTo_only (u : State) (e : ReqEntry) (r : Result) (payload : List Byte) (h : u.mgmt.requests.map ReqEntry.request = [e]) :
    (u.replyTo e.ticket r payload).mgmt.requests = [{ e with state := .replying r }]
      ∧ (u.replyTo e.ticket r payload).link.Holds
          (.reply e.ticket e.req.source u.link.table.address e.req.tag e.kind r payload)
      ∧ u.replyTo e.ticket r payload
          = { u with link := (u.replyTo e.ticket r payload).link, mgmt := (u.replyTo e.ticket r payload).mgmt }
      ∧ u.NoNotice (u.replyTo e.ticket r payload) ∧ (u.replyTo e.ticket r payload).mgmt.nextTicket = u.mgmt.nextTicket := by
  obtain ⟨x, hx, rfl⟩ : ∃ x, u.mgmt.requests = [x] ∧ x.request = e := by
    match hq : u.mgmt.requests, h with
    | [x], h => exact ⟨x, rfl, by simpa using h⟩
  have hf : (u.mgmt.requests.find? fun y => y.ticket == x.request.ticket) = some x := by simp [hx, ReqEntry.request]
  unfold State.replyTo
  rw [hf]
  dsimp only
  obtain ⟨l, h1, _⟩ := handFrame_link (u.markEntry x.request.ticket (.replying r))
    (.reply x.request.ticket x.req.source u.link.table.address x.req.tag x.kind r payload)
  have hh := (handFrame_holds (u.markEntry x.request.ticket (.replying r))
    (.reply x.request.ticket x.req.source u.link.table.address x.req.tag x.kind r payload) _).2 (.inr rfl)
  refine ⟨?_, hh, ?_, ?_, ?_⟩
  · rw [h1]; simp [State.markEntry, hx, ReqEntry.request]
  · rw [h1]; rfl
  · rw [h1]; exact ⟨rfl, rfl⟩
  · rw [h1]; rfl

end Sys2Proof.Machine
end

