-- ==== Sys2Proof/Laws/Acts.lean ====
section
/-! SUPPORT. What a command can do, said once: every meaning is a chain of acts, an act being a primitive change of Moves.lean or
one of the changes that only arrivals, loads, answers, requests and resets make, each with what is known of it. -/

namespace Sys2Proof.Machine

/-- One act. `ν` is what may be taken for granted of the state the command began in. -/
inductive Act (ν : Prop) : State → State → Prop
  | prim {s t : State} (h : Prim (fun _ => True) s t) : Act ν s t
  | intake (s : State) (x : StreamIntake) : Act ν s (s.setIntake x)
  | phasor (s : State) (x : PhasorUnit) : Act ν s (s.setPhasor x)
  | bank (s : State) (x : ElementBank) (h1 : x.records = s.bank.records) (h2 : x.trips = s.bank.trips) : Act ν s (s.setBank x)
  | profile (s : State) (k : BankSlot) (p : Option Profile) (h : s.slotInUse k = false) : Act ν s (s.setProfile k p)
  | curve (s : State) (k : BankSlot) (c : Option (List Nat)) : Act ν s (s.setCurve k c)
  | hunt (s : State) (x : HuntController) (h : x.pendingList = s.hunt.pendingList) : Act ν s (s.setHunt x)
  | slot (s : State) (i : SlotId) (o : Outstation) (h : ν → (s.slot i).Ok → o.Ok) : Act ν s (s.setSlot i o)
  | recl (s : State) (f : Feeder) (r : RecloseRecord) (h : r.state = .off ↔ (s.recl f).state = .off) : Act ν s (s.setRecl f r)
  | mode (s : State) (f : Feeder) (m : Mode) (r : RecloseRecord) (h : s.OffOk → (r.state = .off ↔ m = .outOfService)) :
      Act ν s ((s.setMode f m).setRecl f r)
  | link (s : State) (l : LinkPort) (h : s.link.Ok → l.Ok) : Act ν s (s.setLink l)
  | mgmt (s : State) (m : Responder) (h1 : s.mgmt.requests.length ≤ 8 → m.requests.length ≤ 8)
      (h2 : m.notices.length ≤ s.mgmt.notices.length) : Act ν s (s.setMgmt m)
  | loader (s : State) (x : LoaderState) : Act ν s (s.setLoader x)
  | serial (s : State) (w : List (Nat × Byte)) : Act ν s (s.setSerial (SerialMemory.writeAll s.serial w))
  | outputs (s : State) (x : Outputs) : Act ν s (s.setOutputs x)
  | held (s : State) (x : Bool) : Act ν s (s.setHeld x)
  | time (s : State) (n : Nat) : Act ν s (s.setTime n)
  | pending (s : State) (l : List Instr) : Act ν s (s.setPending l)
  | powerUp (s : State) : Act ν s s.powerUp
  | restarted (s : State) : Act ν s s.restarted

/-- A chain of acts. -/
abbrev Acts (ν : Prop) : State → State → Prop := Relation.ReflTransGen (Act ν)

variable {ν : Prop}

theorem Acts.rfl {s : State} : Acts ν s s := Relation.ReflTransGen.refl

theorem Acts.one {s t : State} (h : Act ν s t) : Acts ν s t := Relation.ReflTransGen.single h

/-- The last part of a chain, then what came before it. -/
theorem Acts.peel {s t u : State} (h : Acts ν t u) (h0 : Acts ν s t) : Acts ν s u := h0.trans h

/-- The last act of a chain, then what came before it. -/
theorem Acts.pone {s t u : State} (h : Act ν t u) (h0 : Acts ν s t) : Acts ν s u := h0.tail h

/-- A chain of primitive changes is a chain of acts. -/
theorem Acts.moves {s t : State} (h : Moves (fun _ => True) s t) : Acts ν s t := by
  induction h with
  | refl => exact .rfl
  | tail _ hp ih => exact .pone (.prim hp) ih

theorem acts_foldl {α : Type} (g : State → α → State) (h : ∀ s x, Acts ν s (g s x)) (l : List α) (s : State) :
    Acts ν s (l.foldl g s) := by
  induction l generalizing s with
  | nil => exact .rfl
  | cons x rest ih => exact (h s x).trans (ih _)

theorem acts_ite {s : State} {c : Prop} [Decidable c] {a b : State} (ha : Acts ν s a) (hb : Acts ν s b) :
    Acts ν s (if c then a else b) := by split <;> assumption

/-- Every part may change. -/
theorem working_all : Working fun _ => True := ⟨trivial, trivial, trivial, trivial, trivial⟩

theorem acts_notify (s : State) (n : Notice) (b : Bool) : Acts ν s (s.notify n b) := .moves (moves_notify _ _ _)

theorem acts_settle (s : State) : Acts ν s s.settle := .moves (moves_settle working_all trivial trivial s)

theorem acts_finish (s0 s : State) : Acts ν s (State.finish s0 s) := .moves (moves_finish trivial trivial s0 s)

theorem acts_conclude72 (s0 s : State) : Acts ν s (State.conclude72 s0 s) := .peel (acts_finish _ _) (acts_settle _)

theorem acts_unlessHeld {s t : State} (h : Acts ν s t) : Acts ν s (s.unlessHeld t) := acts_ite .rfl h

theorem acts_changeReason (s : State) (f : Feeder) (m : Reason) (x : Bool) : Acts ν s (s.changeReason f m x) :=
  .peel (acts_notify _ _ _) (.one (.recl s f { s.recl f with reasons := (s.recl f).reasons.put x m } Iff.rfl))

theorem acts_addReason (s : State) (f : Feeder) (m : Reason) : Acts ν s (s.addReason f m) := by
  cases hm : (s.recl f).reasons.has m
  · exact .peel (.moves (moves_addReason_from trivial trivial s f m hm)) (acts_changeReason s f m true)
  · rw [addReason_present s f m hm]

theorem acts_removeReason (s : State) (f : Feeder) (m : Reason) : Acts ν s (s.removeReason f m) := by
  cases hm : (s.recl f).reasons.has m
  · rw [removeReason_absent s f m hm]
  · exact .peel (.moves (moves_removeReason_from trivial trivial s f m hm)) (acts_changeReason s f m false)

theorem acts_occur (s : State) (c : ErrorClass) : Acts ν s (s.occur c) := by
  unfold State.occur
  dsimp only
  have h : ∀ g, Acts ν s (s.setLink { s.link with log := g }) := fun g => .one (.link _ _ fun h => ⟨h.classed, h.idle, h.notices⟩)
  exact acts_ite (.peel (acts_notify _ _ _) (h _)) (h _)

/-! ### Streams -/

theorem acts_setStream (s : State) (e : EntryId) (r : StreamRecord) : Acts ν s (s.setStream e r) := .one (.intake _ _)

theorem acts_moveStream (s : State) (e : EntryId) (r : StreamRecord) (x : StreamReason) : Acts ν s (s.moveStream e r x) :=
  acts_ite (acts_setStream _ _ _) (.peel (acts_notify _ _ _) (acts_setStream _ _ _))

theorem acts_checkFull (s : State) (e : EntryId) : Acts ν s (s.checkFull e) := by
  unfold State.checkFull
  dsimp only
  split
  · split
    · exact .peel (acts_removeReason _ _ _) (acts_moveStream _ _ _ _)
    · exact acts_moveStream _ _ _ _
  · exact .rfl

theorem acts_setNd (s : State) (d : NdDetector) : Acts ν s (s.setNd d) := .one (.bank _ _ rfl rfl)

theorem acts_evaluateBus (s : State) (n : Nat) : Acts ν s (s.evaluateBus n) := by
  unfold State.evaluateBus
  split
  · exact acts_setNd _ _
  · exact .rfl

theorem acts_evaluateSet (s : State) (e : EntryId) (q : U16) : Acts ν s (s.evaluateSet e q) := by
  unfold State.evaluateSet
  dsimp only
  split
  · exact .peel (.moves (moves_settleOnSet trivial _ _)) (.peel (.moves (moves_evaluate working_all _ _ _)) (.one (.phasor _ _)))
  · exact .peel (.moves (moves_settleOnSet trivial _ _)) (.peel (acts_evaluateBus _ _) (.one (.phasor _ _)))

theorem acts_takeSet (s : State) (e : EntryId) (x : SampleSet) : Acts ν s (s.takeSet e x) := by
  unfold State.takeSet
  dsimp only
  exact acts_ite (.peel (acts_evaluateSet _ _ _) (.peel (acts_checkFull _ _) (acts_moveStream _ _ _ _)))
    (.peel (acts_checkFull _ _) (acts_moveStream _ _ _ _))

theorem acts_holdRepeat (s : State) (e : EntryId) : Acts ν s (s.holdRepeat e) := by
  unfold State.holdRepeat
  dsimp only
  split
  · exact .peel (acts_checkFull _ _) (acts_setStream _ _ _)
  · exact .rfl

theorem acts_holdElements (s : State) (e : EntryId) : Acts ν s (s.holdElements e) := by
  have hd : Acts ν s (s.dropMeas e) := by
    unfold State.dropMeas
    split <;> exact .one (.phasor _ _)
  unfold State.holdElements
  dsimp only
  split
  · exact .pone (.prim (.element _ _ _ trivial fun h => ⟨h.phase, h.earth, by simp [ElementRecord.held, ElementRecord.clearHighSet, Phases.all3]⟩)) hd
  · exact .peel (acts_setNd _ _) hd

theorem acts_refill (s : State) (e : EntryId) (x : SampleSet) : Acts ν s (s.refill e x) := by
  unfold State.refill
  dsimp only
  exact acts_ite (.peel (.moves (moves_settleOnGap trivial _ _)) (.peel (acts_holdElements _ _) (acts_moveStream _ _ _ _)))
    (.peel (acts_holdElements _ _) (acts_moveStream _ _ _ _))

theorem acts_takeFrame (s : State) (e : EntryId) (x : SampleFrame) : Acts ν s (s.takeFrame e x) := by
  unfold State.takeFrame
  split
  · exact .peel (acts_occur _ _) (acts_setStream _ _ _)
  · exact .rfl
  · exact acts_takeSet _ _ _
  · exact acts_takeSet _ _ _
  · exact .peel (acts_takeSet _ _ _) (acts_holdRepeat _ _)
  · exact acts_refill _ _ _

theorem acts_takeSample (s : State) (x : SampleFrame) : Acts ν s (s.takeSample x) := by
  unfold State.takeSample
  split
  · exact acts_occur _ _
  · exact acts_takeFrame _ _ _

theorem acts_loseStream (s : State) (e : EntryId) : Acts ν s (s.loseStream e) := by
  unfold State.loseStream
  dsimp only
  have hl : ∀ s f, Acts ν s (State.lossAction s f) := by
    intro s f
    unfold State.lossAction
    dsimp only
    exact acts_ite (.peel (.moves (moves_operation working_all _ _ _)) (acts_addReason _ _ _)) (acts_addReason _ _ _)
  split
  · exact .peel (hl _ _) (.peel (.moves (moves_huntStreamLost trivial trivial trivial _ _)) (.peel (acts_holdElements _ _) (acts_moveStream _ _ _ _)))
  · exact .peel (.moves (moves_huntStreamLost trivial trivial trivial _ _)) (.peel (acts_holdElements _ _) (acts_moveStream _ _ _ _))

/-! ### Answers -/

theorem acts_setSlot {s : State} {i : SlotId} {o : Outstation} (h : ν → (s.slot i).Ok → o.Ok) : Acts ν s (s.setSlot i o) :=
  .one (.slot _ _ _ h)

theorem acts_notifySlot (s : State) (i : SlotId) (p : SlotState) (r : OutReason) (v : Option U16) (k : Option Completion) :
    Acts ν s (s.notifySlot i p r v k) := acts_notify _ _ _

/-- A slot whose state, queue and in-flight command are as before is as sound as before. -/
theorem ok_same {o o' : Outstation} (h1 : o'.state = o.state) (h2 : o'.queue = o.queue) (h3 : o'.inFlight = o.inFlight)
    (h4 : o'.loaded = o.loaded) (h : o.Ok) : o'.Ok := by
  rw [ok_kinds] at h ⊢
  rw [h1, h2, h3, h4]
  exact h

theorem ok_reach {o : Outstation} (hs : o.state = .unreachable) (n : Nat) (h : o.Ok) :
    Outstation.Ok { o with state := .inService, failures := n } := by
  refine ⟨h.groups, h.front, ?_, h.loaded.trans (by rw [hs]; rfl)⟩
  have h5 := h.state
  rw [hs] at h5
  intro c hc hk
  have := h5 c hc
  simp [hk, CmdKind.isBlocking] at this

theorem acts_reach (s : State) (i : SlotId) : Acts ν s (s.reach i) := by
  unfold State.reach
  dsimp only
  split
  · rename_i h
    exact .peel (acts_notifySlot _ _ _ _ _ _) (acts_setSlot fun _ => ok_reach (by simpa using h) 0)
  · exact .rfl

theorem ok_landed {o : Outstation} (now : Nat) (h : o.Ok) : (o.landed now).Ok := by
  refine ⟨h.groups, h.front, ?_, h.loaded⟩
  have h5 := h.state
  change match o.state with
      | .empty | .outOfService => o.queue = [] ∧ (none : Option InFlight) = none
      | .enrolling => (∀ c ∈ o.queue, c.kind = .enrol) ∧ o.queue.length + (none : Option InFlight).toList.length ≤ 1
        ∧ ∀ f ∈ (none : Option InFlight), f.cmd.kind = .enrol
      | .inService => ∀ c ∈ o.queue, c.kind ≠ .enrol
      | .unreachable => ∀ c ∈ o.queue, c.kind.isBlocking = true
  cases hs : o.state <;> rw [hs] at h5
  · exact ⟨h5.1, rfl⟩
  · exact ⟨h5.1, rfl⟩
  · exact ⟨h5.1, (Nat.add_le_add_left (Nat.zero_le _) _).trans h5.2.1, by simp⟩
  · exact h5
  · exact h5

/-- Delivering to the ENROL of an ENROLLING slot is safe: the slot holds no further command. -/
def State.Landed (s : State) (i : SlotId) : Prop := (s.slot i).state = .enrolling → (s.slot i).load ≤ 0

theorem landed_moves {s t : State} {i : SlotId} (h : Moves (fun _ => True) s t) (hs : s.Landed i) : t.Landed i :=
  moves_keep (fun s => s.Landed i) (load_prim i 0) h hs

/-- An ENROL completes: its slot leaves ENROLLING with nothing queued and nothing in flight. -/
theorem acts_enrolCompleted (s : State) (d : Delivery) (hl : ν → s.Landed d.slot) : Acts ν s (s.enrolCompleted d) := by
  unfold State.enrolCompleted
  dsimp only
  split
  · rename_i h
    have h : (s.slot d.slot).state = .enrolling := by simpa using h
    have hf : ν → (s.slot d.slot).queue = [] ∧ (s.slot d.slot).inFlight = none := by
      intro hv
      have h0 := hl hv h
      simp only [Outstation.load, Nat.le_zero, Nat.add_eq_zero_iff, List.length_eq_zero_iff] at h0
      exact ⟨h0.1, by simpa using h0.2⟩
    have hin : ∀ n, ν → (s.slot d.slot).Ok → Outstation.Ok { s.slot d.slot with state := .inService, failures := n } := by
      intro n hv ho
      obtain ⟨h1, h2⟩ := hf hv
      exact ⟨ho.groups, ho.front, by simp [h1], ho.loaded.trans (by rw [h]; rfl)⟩
    have hout : ν → (s.slot d.slot).Ok → Outstation.Ok { s.slot d.slot with state := .outOfService } := by
      intro hv ho
      obtain ⟨h1, h2⟩ := hf hv
      exact ⟨ho.groups, ho.front, ⟨h1, h2⟩, ho.loaded.trans (by rw [h]; rfl)⟩
    have he : ∀ o r v k, (ν → (s.slot d.slot).Ok → o.Ok) → Acts ν s (s.endEnrol d.slot o r v k) := fun o r v k ho =>
      .peel (acts_notifySlot _ _ _ _ _ _) (acts_setSlot ho)
    split
    · split
      · exact acts_ite (.peel (.moves (moves_followerEntered trivial trivial _ _)) (he _ _ _ _ (hin 0))) (he _ _ _ _ (hin 0))
      · exact he _ _ _ _ hout
    · exact he _ _ _ _ hout
  · exact .rfl

theorem moves_deliver (s : State) (d : Delivery) (h : d.origin ≠ .exchange) : Moves (fun _ => True) s (s.deliver d) := by
  unfold State.deliver
  split
  · exact moves_tripCompleted trivial trivial _ _ _
  · split
    · exact moves_closeCompleted trivial _ _ _
    · exact moves_blockingCompleted trivial _ _
  · exact moves_huntCompleted working_all _ _ _
  · exact moves_operateCompleted trivial trivial _ _ _ _ _
  · rename_i h'; exact absurd h' h

/-- An ENROL that completes is no more ENROLLING. -/
theorem enrolCompleted_landed (s : State) (d : Delivery) (i : SlotId) (hi : s.Landed i) : (s.enrolCompleted d).Landed i := by
  unfold State.enrolCompleted
  dsimp only
  split
  · have he : ∀ o r v k, o.state ≠ .enrolling → (s.endEnrol d.slot o r v k).Landed i := by
      intro o r v k ho
      have h0 : (s.setSlot d.slot o).Landed i := by
        intro hst
        rw [State.slot_setSlot] at hst ⊢
        split at hst
        · exact absurd hst ho
        · rename_i hne; rw [if_neg hne]; exact hi hst
      exact landed_moves (moves_notify _ _ _) h0
    split
    · split
      · split
        · exact landed_moves (moves_followerEntered trivial trivial _ _) (he _ _ _ _ (by simp))
        · exact he _ _ _ _ (by simp)
      · exact he _ _ _ _ (by simp)
    · exact he _ _ _ _ (by simp)
  · exact hi

theorem deliver_landed (s : State) (d : Delivery) (i : SlotId) (hi : s.Landed i) : (s.deliver d).Landed i := by
  by_cases h : d.origin = .exchange
  · have : s.deliver d = s.enrolCompleted d := by simp [State.deliver, h]
    rw [this]; exact enrolCompleted_landed s d i hi
  · exact landed_moves (moves_deliver s d h) hi

theorem acts_deliver (s : State) (d : Delivery) (hf : ν → s.Landed d.slot) : Acts ν s (s.deliver d) := by
  by_cases h : d.origin = .exchange
  · have : s.deliver d = s.enrolCompleted d := by simp [State.deliver, h]
    rw [this]; exact acts_enrolCompleted s d hf
  · exact .moves (moves_deliver s d h)

/-- Completions of one slot are delivered in order. -/
theorem acts_deliverAll (i : SlotId) (ds : List Delivery) (hd : ∀ d ∈ ds, d.slot = i) (s : State) (hf : ν → s.Landed i) :
    Acts ν s (s.deliverAll ds) := by
  unfold State.deliverAll
  induction ds generalizing s with
  | nil => exact .rfl
  | cons d rest ih =>
    have hi : d.slot = i := hd d (by simp)
    exact (acts_deliver s d (hi ▸ hf)).trans (ih (fun x hx => hd x (by simp [hx])) _ (fun hv => deliver_landed s d i (hf hv)))

theorem slot_deliveries (i : SlotId) (c : Cmd) (k : Completion) : ∀ d ∈ deliveries i c k, d.slot = i := by
  intro d hd
  simp only [deliveries, List.mem_map] at hd
  obtain ⟨o, _, rfl⟩ := hd
  rfl

theorem slot_flatMap_deliveries (i : SlotId) (q : List Cmd) (k : Completion) :
    ∀ d ∈ q.flatMap (fun c => deliveries i c k), d.slot = i := by
  intro d hd
  obtain ⟨c, _, hc⟩ := List.mem_flatMap.1 hd
  exact slot_deliveries i c k d hc

theorem landed_of_state {s : State} {i : SlotId} (h : (s.slot i).state ≠ .enrolling) : s.Landed i := fun h' => absurd h' h

/-- In a sound state, the slot whose command in flight has landed holds no further ENROL. -/
theorem landed_landed {s : State} {i : SlotId} {fl : InFlight} (hs : (s.slot i).Ok) (hf : (s.slot i).inFlight = some fl)
    {o : Outstation} (h1 : o.state = (s.slot i).state) (h2 : o.queue = (s.slot i).queue) (h3 : o.inFlight = none) :
    (s.setSlot i o).Landed i := by
  intro h
  rw [State.slot_setSlot_self] at h ⊢
  have h5 := hs.state
  rw [← h1, h] at h5
  have := h5.2.1
  simp only [hf, Option.toList_some, List.length_cons, List.length_nil] at this
  simp only [Outstation.load, h2, h3, Option.toList_none, List.length_nil]
  omega

end Sys2Proof.Machine
end

