-- ==== Sys2Proof/Laws/Commands.lean ====
section
/-! SUPPORT. Every command of the table is a chain of acts (Acts.lean), and so is what a step does on an empty queue. -/

namespace Sys2Proof.Machine

variable {ν : Prop}

theorem Outstation.Ok.same {o o' : Outstation} (h : o.Ok) (h1 : o'.state = o.state) (h2 : o'.queue = o.queue)
    (h3 : o'.inFlight = o.inFlight) (h4 : o'.loaded = o.loaded) : o'.Ok := ok_same h1 h2 h3 h4 h

theorem still_state {o o' : Outstation} (h : o.still = o'.still) : o.state = o'.state ∧ o.loaded = o'.loaded :=
  ⟨congrArg (fun x : Outstation => x.still.state) (a₁ := o.still) (a₂ := o'.still) h, congrArg (fun x : Outstation => x.still.loaded) (a₁ := o.still) (a₂ := o'.still) h⟩

/-! ### Responses, deadlines and reports -/

/-- The slot a delivery is for stays as it was, if it is not ENROLLING. -/
theorem deliver_state (s : State) (d : Delivery) (i : SlotId) (h : (s.slot i).state ≠ .enrolling) :
    ((s.deliver d).slot i).state = (s.slot i).state ∧ ((s.deliver d).slot i).loaded = (s.slot i).loaded := by
  by_cases ho : d.origin = .exchange
  · have h1 : s.deliver d = s.enrolCompleted d := by simp [State.deliver, ho]
    rw [h1]
    unfold State.enrolCompleted
    dsimp only
    split
    · rename_i he
      have hne : i ≠ d.slot := by rintro rfl; exact h (by simpa using he)
      have hs : ∀ o r v k, (((s.endEnrol d.slot o r v k).slot i) = s.slot i) := by
        intro o r v k
        unfold State.endEnrol State.notifySlot
        obtain ⟨l, m, e⟩ := notify_rest (s.setSlot d.slot o)
          (.outstationState d.slot .enrolling ((s.setSlot d.slot o).slot d.slot).state ((s.setSlot d.slot o).slot d.slot).known
            ((s.setSlot d.slot o).slot d.slot).flags r v k) ((s.setSlot d.slot o).testMark (SlotId.feeder d.slot))
        dsimp only
        rw [e]
        exact look_put_ne _ _ hne
      have hf : ∀ t : State, ((t.followerEntered d.slot).slot i).still = (t.slot i).still := by
        intro t
        have e := fixed_moves (moves_followerEntered (μ := fun _ => True) trivial trivial t d.slot)
        have e2 := look_congr (congrArg Fixed.still e) i
        simpa [State.fixed, State.slot] using e2
      have hf2 : ∀ o r v k, (((s.endEnrol d.slot o r v k).followerEntered d.slot).slot i).state = (s.slot i).state
          ∧ (((s.endEnrol d.slot o r v k).followerEntered d.slot).slot i).loaded = (s.slot i).loaded := by
        intro o r v k
        have e := hf (s.endEnrol d.slot o r v k)
        rw [hs] at e
        exact still_state e
      split
      · split
        · split
          · exact hf2 _ _ _ _
          · rw [hs]; exact ⟨rfl, rfl⟩
        · rw [hs]; exact ⟨rfl, rfl⟩
      · rw [hs]; exact ⟨rfl, rfl⟩
    · exact ⟨rfl, rfl⟩
  · have e := fixed_moves (moves_deliver s d ho)
    have e2 := look_congr (congrArg Fixed.still e) i
    have e3 : ((s.deliver d).slot i).still = (s.slot i).still := by simpa [State.fixed, State.slot] using e2
    exact still_state e3

theorem deliverAll_state (ds : List Delivery) (s : State) (i : SlotId) (h : (s.slot i).state ≠ .enrolling) :
    ((s.deliverAll ds).slot i).state = (s.slot i).state ∧ ((s.deliverAll ds).slot i).loaded = (s.slot i).loaded := by
  unfold State.deliverAll
  induction ds generalizing s with
  | nil => exact ⟨rfl, rfl⟩
  | cons d rest ih =>
    have e := deliver_state s d i h
    have e2 := ih (s.deliver d) (by rw [e.1]; exact h)
    exact ⟨e2.1.trans e.1, e2.2.trans e.2⟩

theorem ok_quiet {o : Outstation} (k : Position) (h : List Bool) (f : Option OutFlags) (p : Option Passage) (ho : o.Ok) :
    Outstation.Ok { o with known := k, history := h, flags := f, passage := p } := ho.same rfl rfl rfl rfl

theorem acts_switched (s : State) (i : SlotId) (k : CmdKind) : Acts ν s (s.switched i k) := by
  unfold State.switched
  split
  · exact .rfl
  · dsimp only
    have h : ∀ p, Acts ν s (s.setSlot i { s.slot i with known := p, history := [] }) := fun p =>
      acts_setSlot fun _ => ok_same rfl rfl rfl rfl
    exact acts_ite (h _) (.peel (acts_notifySlot _ _ _ _ _ _) (h _))

/-- A slot that becomes reachable is still not more ENROLLING than it was. -/
theorem reach_landed (s : State) (i j : SlotId) (h : s.Landed j) : (s.reach i).Landed j := by
  unfold State.reach
  dsimp only
  split
  · refine landed_moves (moves_notify _ _ _) ?_
    intro hst
    rw [State.slot_setSlot] at hst ⊢
    split at hst
    · simp at hst
    · rename_i hne; rw [if_neg hne]; exact h hst
  · exact h

theorem switched_landed (s : State) (i j : SlotId) (k : CmdKind) (h : s.Landed j) : (s.switched i k).Landed j := by
  unfold State.switched
  split
  · exact h
  · rename_i p _
    have h1 : (s.setSlot i { s.slot i with known := p, history := [] }).Landed j := by
      intro hst
      rw [State.slot_setSlot] at hst ⊢
      split
      · rename_i hj; subst hj; rw [if_pos rfl] at hst; exact h hst
      · rename_i hj; rw [if_neg hj] at hst; exact h hst
    dsimp only
    split
    · exact h1
    · exact landed_moves (moves_notify _ _ _) h1

theorem acts_answered (s : State) (i : SlotId) (fl : InFlight) (k : Completion) (hf : (s.slot i).inFlight = some fl)
    (hν : ν → s.SlotsOk) : Acts ν s (s.answered i fl k) := by
  unfold State.answered
  dsimp only
  have h1 : Acts ν s ((s.setSlot i { (s.slot i).landed s.time with failures := 0 }).reach i) :=
    .peel (acts_reach _ _) (acts_setSlot fun _ h => (ok_landed s.time h).same rfl rfl rfl rfl)
  have h2 : ν → ((s.setSlot i { (s.slot i).landed s.time with failures := 0 }).reach i).Landed i := fun hv =>
    reach_landed _ _ _ (landed_landed (hν hv i) hf rfl rfl rfl)
  refine .peel (acts_deliverAll i _ (slot_deliveries i _ _) _ fun hv => ?_) ?_
  · split
    · exact switched_landed _ _ _ _ (h2 hv)
    · exact h2 hv
  · exact acts_ite (.peel (acts_switched _ _ _) h1) h1

theorem ok_inFlight {o : Outstation} {fl fl' : InFlight} (hf : o.inFlight = some fl) (hk : fl'.cmd.kind = fl.cmd.kind) (n : Nat)
    (h : o.Ok) : Outstation.Ok { o with inFlight := some fl', failures := n } := by
  rw [ok_kinds] at h ⊢
  simpa [hf, hk] using h

theorem acts_waited (s : State) (i : SlotId) (fl : InFlight) (w : U16) (hf : (s.slot i).inFlight = some fl)
    (hν : ν → s.SlotsOk) : Acts ν s (s.waited i fl w) := by
  unfold State.waited
  dsimp only
  split
  · exact .peel (acts_reach _ _) (acts_setSlot fun _ h =>
      ok_inFlight (fl' := { fl with waits := fl.waits + 1, deadline := max fl.deadline (s.time + waitTime w) }) hf rfl 0 h)
  · refine .peel (acts_deliverAll i _ (slot_deliveries i _ _) _ fun hv => ?_)
      (.peel (acts_reach _ _) (acts_setSlot fun _ h => (ok_landed s.time h).same rfl rfl rfl rfl))
    exact reach_landed _ _ _ (landed_landed (hν hv i) hf rfl rfl rfl)

theorem acts_takeResponse (s : State) (src : U16) (tag : Byte) (a : AnswerKind) (v : U16) (hν : ν → s.SlotsOk) :
    Acts ν s (s.takeResponse src tag a v) := by
  unfold State.takeResponse
  split
  · exact acts_occur _ _
  · split
    · exact acts_occur _ _
    · rename_i hf
      split
      · split
        · exact acts_answered _ _ _ _ hf hν
        · exact acts_answered _ _ _ _ hf hν
        · exact acts_waited _ _ _ _ hf hν
      · exact acts_occur _ _

theorem ok_unreachable {o : Outstation} (hs : o.state = .inService) (n : Nat) (h : o.Ok) :
    Outstation.Ok { o with state := .unreachable, failures := n, queue := o.queue.filter fun c => c.kind.isBlocking } := by
  have hsub : (o.queue.filter fun c => c.kind.isBlocking).Sublist o.queue := List.filter_sublist
  have hl := h.loaded
  rw [hs] at hl
  refine ⟨⟨((hsub.filter _).length_le).trans h.groups.1, ((hsub.filter _).length_le).trans h.groups.2.1,
    ((hsub.filter _).length_le).trans h.groups.2.2⟩, ?_, ?_, hl⟩
  · intro c hc hk
    have := List.mem_of_mem_drop hc
    simp [hk, CmdKind.isBlocking] at this
  · intro c hc
    exact (List.mem_filter.1 hc).2

theorem acts_becomeUnreachable (s : State) (i : SlotId) (hs : (s.slot i).state = .inService) : Acts ν s (s.becomeUnreachable i) := by
  unfold State.becomeUnreachable
  dsimp only
  refine .peel (acts_deliverAll i _ (slot_flatMap_deliveries i _ _) _ fun _ => ?_)
    (.peel (acts_notifySlot _ _ _ _ _ _) (acts_setSlot fun _ h => ok_unreachable hs _ h))
  exact landed_moves (moves_notify _ _ _) (landed_of_state (by simp))

theorem acts_timedOut (s : State) (i : SlotId) (fl : InFlight) (hf : (s.slot i).inFlight = some fl) (hν : ν → s.SlotsOk) :
    Acts ν s (s.timedOut i fl) := by
  unfold State.timedOut
  dsimp only
  have h1 : Acts ν s ((s.setSlot i { (s.slot i).landed s.time with expiredTag := some fl.tag }).deliverAll
      (deliveries i fl.cmd .timeout)) :=
    .peel (acts_deliverAll i _ (slot_deliveries i _ _) _ fun hv => landed_landed (hν hv i) hf rfl rfl rfl)
      (acts_setSlot fun _ h => (ok_landed s.time h).same rfl rfl rfl rfl)
  split
  · rename_i hst
    have hst : (s.slot i).state = .inService := by simpa using hst
    have h2 := (deliverAll_state (deliveries i fl.cmd .timeout)
      (s.setSlot i { (s.slot i).landed s.time with expiredTag := some fl.tag }) i (by simp [Outstation.landed, hst])).1
    have h3 : (((s.setSlot i { (s.slot i).landed s.time with expiredTag := some fl.tag }).deliverAll
        (deliveries i fl.cmd .timeout)).slot i).state = .inService := by rw [h2]; simp [Outstation.landed, hst]
    refine .peel ?_ h1
    unfold State.countFailure
    dsimp only
    exact acts_ite (acts_setSlot fun _ => ok_same rfl rfl rfl rfl) (acts_becomeUnreachable _ _ h3)
  · exact h1

theorem acts_takeFlags (s : State) (i : SlotId) (b : Byte) : Acts ν s (s.takeFlags i b) := by
  unfold State.takeFlags
  dsimp only
  have h : Acts ν s (s.setSlot i { s.slot i with flags := some (reportFlags b), passage := some (reportPassage b s.time) }) :=
    acts_setSlot fun _ => ok_same rfl rfl rfl rfl
  exact acts_ite h (.peel (acts_notifySlot _ _ _ _ _ _) h)

theorem acts_filterReport (s : State) (i : SlotId) (o : Bool) : Acts ν s (s.filterReport i o) := by
  unfold State.filterReport
  dsimp only
  split
  · exact acts_setSlot fun _ => ok_same rfl rfl rfl rfl
  · rename_i p _
    have h : Acts ν s ((s.setSlot i { s.slot i with history := pushReport (s.slot i).history o, known := p }).notifySlot i
        (s.slot i).state .reported) := .peel (acts_notifySlot _ _ _ _ _ _) (acts_setSlot fun _ => ok_same rfl rfl rfl rfl)
    exact acts_ite (acts_setSlot fun _ => ok_same rfl rfl rfl rfl)
      (acts_ite (.peel (.moves (moves_externalOpen trivial _ _)) h) h)

theorem acts_handleReport (s : State) (i : SlotId) (p : ReportPosition) (b : Byte) : Acts ν s (s.handleReport i p b) := by
  unfold State.handleReport
  dsimp only
  refine acts_ite (acts_takeFlags _ _ _) ?_
  split
  · exact acts_takeFlags _ _ _
  · exact .peel (acts_filterReport _ _ _) (acts_takeFlags _ _ _)
  · exact .peel (acts_filterReport _ _ _) (acts_takeFlags _ _ _)

theorem acts_takeReport (s : State) (src : U16) (p : ReportPosition) (b : Byte) : Acts ν s (s.takeReport src p b) := by
  unfold State.takeReport
  split
  · exact acts_occur _ _
  · split
    · exact .peel (acts_handleReport _ _ _ _) (acts_reach _ _)
    · exact .peel (acts_handleReport _ _ _ _) (acts_reach _ _)
    all_goals exact .rfl

/-! ### Loads -/

theorem acts_restartStream (s : State) (e : EntryId) (st : StreamState) (x : Option StreamFields) (r : StreamReason) :
    Acts ν s (s.restartStream e st x r) := by
  unfold State.restartStream
  dsimp only
  exact acts_ite (.peel (acts_holdElements _ _) (acts_moveStream _ _ _ _)) (acts_moveStream _ _ _ _)

theorem acts_configureStream (s : State) (e : EntryId) (x : StreamFields) : Acts ν s (s.configureStream e x) := by
  unfold State.configureStream
  dsimp only
  exact acts_ite (acts_setStream _ _ _) (acts_restartStream _ _ _ _ _)

theorem acts_removeStream (s : State) (e : EntryId) : Acts ν s (s.removeStream e) := acts_ite .rfl (acts_restartStream _ _ _ _ _)

theorem acts_setPlant (s : State) (f : Feeder) (p : Option FeederPlant) : Acts ν s (s.setPlant f p) := .one (.bank _ _ rfl rfl)

theorem acts_formThreshold (s : State) : Acts ν s s.formThreshold := .moves (moves_formThreshold trivial s)

theorem acts_loadFeederAt (s : State) (f : Feeder) (r : List Byte) : Acts ν s (s.loadFeederAt f r).1 := by
  unfold State.loadFeederAt
  split; · exact .rfl
  split; · exact .peel (acts_setPlant _ _ _) (acts_removeStream _ _)
  split; · exact .rfl
  split; · exact .rfl
  exact .peel (acts_setPlant _ _ _) (acts_configureStream _ _ _)

theorem acts_removeBus (s : State) : Acts ν s s.removeBus := by
  unfold State.removeBus
  exact acts_ite .rfl (.peel (acts_formThreshold _) (.peel (acts_setNd _ _) (.pone (.bank _ _ rfl rfl) (acts_removeStream _ _))))

theorem acts_loadBusAt (s : State) (r : List Byte) : Acts ν s (s.loadBusAt r).1 := by
  unfold State.loadBusAt
  split; · exact .rfl
  split; · exact acts_removeBus _
  split; · exact .rfl
  split; · exact .rfl
  exact .peel (acts_formThreshold _) (.pone (.bank _ _ rfl rfl) (acts_configureStream _ _ _))

theorem acts_placeSlot {s : State} {i : SlotId} {o : Outstation} (h : ν → (s.slot i).Ok → o.Ok) : Acts ν s (s.placeSlot i o) := by
  unfold State.placeSlot
  dsimp only
  exact acts_ite (acts_setSlot h) (.peel (acts_notifySlot _ _ _ _ _ _) (acts_setSlot h))

theorem ok_empty : Outstation.reset.Ok := ⟨by decide, by decide, ⟨rfl, rfl⟩, rfl⟩

theorem ok_reloaded {o : Outstation} (l : Loaded) (h : o.Ok) : (o.reloaded l).Ok := by
  unfold Outstation.reloaded
  split
  · exact ⟨by simp [Outstation.reset, Outstation.queuedCount], by simp [Outstation.reset], ⟨rfl, rfl⟩, rfl⟩
  · rename_i l0 hl
    have hne : o.state ≠ .empty := by
      intro he
      have := h.loaded
      simp [hl, he] at this
    have hl2 : (some l).isSome = (o.state != .empty) := by simp [hne]
    split
    · exact ⟨h.groups, h.front, h.state, hl2⟩
    · exact ⟨h.groups, h.front, h.state, hl2⟩

theorem acts_loadSlotAt (s : State) (i : SlotId) (r : List Byte) : Acts ν s (s.loadSlotAt i r).1 := by
  unfold State.loadSlotAt
  dsimp only
  split; · exact .rfl
  split; · exact .peel (.moves (moves_dropFollower trivial _ _)) (acts_placeSlot fun _ _ => ok_empty)
  split; · exact .rfl
  split; · exact .rfl
  exact acts_placeSlot fun _ h => ok_reloaded _ h

theorem acts_loadProfileAt (s : State) (k : BankSlot) (r : List Byte) : Acts ν s (s.loadProfileAt k r).1 := by
  unfold State.loadProfileAt
  split; · exact .rfl
  rename_i hu
  have hu : s.slotInUse k = false := by simpa using hu
  split; · exact .one (.profile _ _ _ hu)
  split; · exact .rfl
  split; · exact .rfl
  exact .one (.profile _ _ _ hu)

theorem acts_loadCurveAt (s : State) (k : BankSlot) (r : List Byte) : Acts ν s (s.loadCurveAt k r).1 := by
  unfold State.loadCurveAt
  split; · exact .rfl
  split; · exact .one (.curve _ _ _)
  split; · exact .rfl
  exact .one (.curve _ _ _)

theorem acts_loadPlanAt (s : State) (f : Feeder) (r : List Byte) : Acts ν s (s.loadPlanAt f r).1 := by
  unfold State.loadPlanAt
  split; · exact .rfl
  split; · exact .rfl
  split; · exact .one (.hunt _ _ rfl)
  exact .rfl

theorem acts_loadOrderAt (s : State) (r : List Byte) : Acts ν s (s.loadOrderAt r).1 := by
  unfold State.loadOrderAt
  split; · exact .rfl
  split; · exact .rfl
  exact .one (.hunt _ _ rfl)

theorem acts_feedNotice (s : State) : Acts ν s s.feedNotice := by
  obtain ⟨l, m, h1, _, _, h4, _, h6⟩ := feedNotice_parts s
  have h7 : (s.setMgmt m).link.Ok → l.Ok := by
    intro h
    have := feedNotice_ok s h
    rw [h1] at this
    exact this
  rw [h1]
  exact .pone (.link _ _ h7) (.one (.mgmt _ _ (by rw [h4]; exact id) h6))

theorem acts_placeLink (s : State) (t : LinkTable) : Acts ν s (s.placeLink t) := by
  unfold State.placeLink
  dsimp only
  have h : Acts ν s (s.setLink { s.link with table := t }) := .one (.link _ _ fun h => ⟨h.classed, h.idle, h.notices⟩)
  exact acts_ite (.peel (acts_feedNotice _) h) h

theorem acts_loadLinkAt (s : State) (r : List Byte) : Acts ν s (s.loadLinkAt r).1 := by
  unfold State.loadLinkAt
  split; · exact .rfl
  split; · exact .rfl
  exact acts_placeLink _ _

theorem acts_loadWithin (n : Nat) (s : State) (x : Byte) (g : Fin n → State × Result) (h : ∀ i, Acts ν s (g i).1) :
    Acts ν s (loadWithin n s x g).1 := by
  unfold loadWithin
  split
  · exact .rfl
  · exact h _

theorem acts_ownerLoad (s : State) (table : Nat) (index : Byte) (r : List Byte) : Acts ν s (s.ownerLoad table index r).1 := by
  unfold State.ownerLoad
  split
  · exact acts_loadWithin _ _ _ _ fun _ => acts_loadFeederAt _ _ _
  · exact acts_loadWithin _ _ _ _ fun _ => acts_loadBusAt _ _
  · exact acts_loadWithin _ _ _ _ fun _ => acts_loadSlotAt _ _ _
  · exact acts_loadWithin _ _ _ _ fun _ => acts_loadProfileAt _ _ _
  · exact acts_loadWithin _ _ _ _ fun _ => acts_loadCurveAt _ _ _
  · exact acts_loadWithin _ _ _ _ fun _ => acts_loadPlanAt _ _ _
  · exact acts_loadWithin _ _ _ _ fun _ => acts_loadOrderAt _ _
  · exact acts_loadWithin _ _ _ _ fun _ => acts_loadLinkAt _ _
  · exact .rfl

theorem acts_applyLoad (s : State) (table : Nat) (index : Byte) (r : List Byte) : Acts ν s (s.applyLoad table index r).1 := by
  unfold State.applyLoad
  split
  · exact acts_ownerLoad _ _ _ _
  · exact .rfl

/-! ### Service and modes -/

theorem beginTx_setSlot (s : State) (i : SlotId) (o : Outstation) : (s.setSlot i o).beginTx = s.beginTx.setSlot i o := by
  have e : (s.setSlot i o).link = s.link := rfl
  unfold State.beginTx
  rw [e]
  split
  · rfl
  · split <;> rfl

/-- A notice and a change of a slot do not touch each other. -/
theorem notify_setSlot (s : State) (n : Notice) (b : Bool) (i : SlotId) (o : Outstation) :
    (s.setSlot i o).notify n b = (s.notify n b).setSlot i o := by
  have hf : ∀ (s : State) f, (s.setSlot i o).handFrame f = (s.handFrame f).setSlot i o := fun s f =>
    beginTx_setSlot (s.setLink { s.link with tx := f.join s.link.tx }) i o
  have hn : ∀ s : State, (s.setSlot i o).feedNotice = s.feedNotice.setSlot i o := by
    intro s
    have e1 : (s.setSlot i o).link = s.link := rfl
    have e2 : (s.setSlot i o).mgmt = s.mgmt := rfl
    have e3 : (s.setSlot i o).noticeClassFree = s.noticeClassFree := rfl
    unfold State.feedNotice
    rw [e1, e2, e3]
    split
    · split
      · rename_i d n rest _ _
        exact hf (s.setMgmt { s.mgmt with notices := rest, overflow := false }) (.notice d s.link.table.address s.mgmt.overflow n)
      · rfl
    · rfl
  have e2 : (s.setSlot i o).mgmt = s.mgmt := rfl
  unfold State.notify
  rw [e2]
  split
  · exact hn (s.setMgmt _)
  · rfl

theorem setSlot_setSlot (s : State) (i : SlotId) (o o' : Outstation) : (s.setSlot i o).setSlot i o' = s.setSlot i o' := by
  have h : put (put s.exchange.slots i o) i o' = put s.exchange.slots i o' := look_ext fun j => by
    rw [look_put, look_put, look_put]; split <;> rfl
  simp only [State.setSlot, State.setExchange, h]

theorem ok_beginEnrol (b : Bool) (i : SlotId) (o : Outstation) (l : Loaded) (hs : o.state = .outOfService) (h : o.Ok) :
    (admitCmd b i o.enrolling (enrolCmd l)).1.Ok := by
  have h5 := h.state
  rw [hs] at h5
  have hl : o.loaded.isSome = (SlotState.enrolling != .empty) := h.loaded.trans (by rw [hs]; rfl)
  obtain ⟨hq, hf⟩ : o.queue = [] ∧ o.inFlight = none := h5
  have h1 : ∀ q : List Cmd, (∀ c ∈ q, c.kind = .enrol) → q.length ≤ 1 → Outstation.Ok { o.enrolling with queue := q } := by
    intro q hk hlen
    have hz : ∀ p : CmdKind → Bool, (q.filter fun c => p c.kind).length ≤ 1 := fun p =>
      (List.length_filter_le _ _).trans hlen
    refine ⟨⟨hz (· == .trip), hz CmdKind.isSwitch, hz CmdKind.isBlocking⟩, fun c hc hc2 => ?_, ⟨hk, ?_, fun f hf2 => ?_⟩, hl⟩
    · rw [hk c (List.mem_of_mem_drop hc)] at hc2; cases hc2
    · simpa [Outstation.enrolling, hf] using hlen
    · simp [Outstation.enrolling, hf] at hf2
  have h0 : (o.enrolling).Ok := h1 o.queue (by simp [hq]) (by simp [hq])
  unfold admitCmd
  split
  · exact h0
  · exact h1 (o.queue ++ [enrolCmd l]) (by simp [hq, enrolCmd]) (by simp [hq])

theorem acts_beginEnrol (s : State) (i : SlotId) (l : Loaded) (hs : (s.slot i).state = .outOfService) : Acts ν s (s.beginEnrol i l) := by
  have h : s.beginEnrol i l =
      let t := (s.setSlot i (admitCmd (s.testMark (SlotId.feeder i)) i (s.slot i).enrolling (enrolCmd l)).1).notify
        (.outstationState i .outOfService (s.slot i).enrolling.state (s.slot i).enrolling.known (s.slot i).enrolling.flags .enrolling
          none none) (s.testMark (SlotId.feeder i))
      if ((s.slot i).enrolling.turnsAway (s.testMark (SlotId.feeder i)) (enrolCmd l)).isNone then t.countAdmission i else t := by
    unfold State.beginEnrol State.notifySlot State.handCmd
    dsimp only
    rw [State.slot_setSlot_self]
    have e : ∀ n b, ((s.setSlot i (s.slot i).enrolling).notify n b).slot i = (s.slot i).enrolling := by
      intro n b
      obtain ⟨l, m, e⟩ := notify_rest (s.setSlot i (s.slot i).enrolling) n b
      rw [e]; exact look_put_self _ _ _
    have e2 : ∀ n b, ((s.setSlot i (s.slot i).enrolling).notify n b).testMark (SlotId.feeder i) = s.testMark (SlotId.feeder i) := by
      intro n b
      obtain ⟨l, m, e⟩ := notify_rest (s.setSlot i (s.slot i).enrolling) n b
      rw [e]; rfl
    rw [e, e2, ← notify_setSlot, setSlot_setSlot]
    rfl
  rw [h]
  have h1 : Acts ν s ((s.setSlot i (admitCmd (s.testMark (SlotId.feeder i)) i (s.slot i).enrolling (enrolCmd l)).1).notify
      (.outstationState i .outOfService (s.slot i).enrolling.state (s.slot i).enrolling.known (s.slot i).enrolling.flags .enrolling
        none none) (s.testMark (SlotId.feeder i))) :=
    .peel (acts_notify _ _ _) (acts_setSlot fun _ ho => ok_beginEnrol _ _ _ _ hs ho)
  exact acts_ite (.pone (.prim (.admission _ i trivial)) h1) h1

theorem acts_serviceOn (s : State) (i : SlotId) : Acts ν s (s.serviceOn i).1 := by
  unfold State.serviceOn
  split
  · exact .rfl
  · rename_i h _
    exact acts_beginEnrol _ _ _ h
  · exact .rfl

theorem acts_leaveService (s : State) (i : SlotId) (hf : (s.slot i).inFlight = none) (hs : (s.slot i).state ≠ .empty) :
    Acts ν s (s.leaveService i) := by
  unfold State.leaveService
  dsimp only
  refine .peel (acts_deliverAll i _ (slot_flatMap_deliveries i _ _) _ fun _ => ?_)
    (.peel (.moves (moves_dropFollower trivial _ _)) (.peel (acts_notifySlot _ _ _ _ _ _) (acts_setSlot fun _ h => ?_)))
  · refine landed_moves (moves_dropFollower trivial _ _) (landed_moves (moves_notify _ _ _) (landed_of_state ?_))
    simp [Outstation.leftService]
  · refine ⟨by simp [Outstation.leftService, Outstation.queuedCount], by simp [Outstation.leftService], ⟨rfl, hf⟩, ?_⟩
    exact h.loaded.trans (by rw [show ((s.slot i).state != .empty) = true by simpa using hs]; rfl)

theorem acts_serviceOff (s : State) (i : SlotId) : Acts ν s (s.serviceOff i).1 := by
  unfold State.serviceOff
  dsimp only
  have h : (s.slot i).state ≠ .empty → Acts ν s (if (s.slot i).inFlight.isSome = true then (s, Result.busy)
      else if (SlotId.position i == 0 && s.mode (SlotId.feeder i) != .outOfService) = true then (s, .notPermitted)
      else if s.isOpenPoint i = true then (s, .notPermitted) else (s.leaveService i, .ok)).1 := by
    intro hs
    split; · exact .rfl
    rename_i hf
    split; · exact .rfl
    split; · exact .rfl
    exact acts_leaveService _ _ (by simpa using hf) hs
  split
  · exact .rfl
  · exact .rfl
  all_goals
    rename_i hs
    exact h (by rw [hs]; decide)

theorem acts_goOff (s : State) (f : Feeder) (m : Mode) (st : RecloseState) (x : PermissionFailures) (r : ElementRecord)
    (hr : (s.element f).Ok → r.Ok) (h : s.OffOk → (st = .off ↔ m = .outOfService)) :
    Acts ν s (((s.setMode f m).setElement f r).goReclose f st x) := by
  have h1 : Acts ν s ((s.setMode f m).setRecl f { s.recl f with state := st }) := .one (.mode s f m _ h)
  have h2 : Acts ν s (((s.setMode f m).setElement f r).markReclose f st) :=
    h1.tail (.prim (.element ((s.setMode f m).setRecl f { s.recl f with state := st }) f r trivial hr))
  exact .peel (acts_notify _ _ _) h2

theorem setRecl_self (s : State) (f : Feeder) : s.setRecl f (s.recl f) = s := by
  have : put s.reclose.records f (s.recl f) = s.reclose.records := put_look _ _
  simp only [State.setRecl, this]; rfl

theorem ok_resetElement : ElementRecord.reset.Ok := ⟨by decide, by decide, by decide⟩

theorem changeMode_off (s : State) (f : Feeder) :
    s.changeMode f .outOfService = ((s.setMode f .outOfService).setElement f ElementRecord.reset).recloseOff f := by
  unfold State.changeMode; cases s.mode f <;> rfl

theorem changeMode_on (s : State) (f : Feeder) (m : Mode) (h : s.mode f = .outOfService) (hm : m ≠ .outOfService) :
    s.changeMode f m = (s.setMode f m).recloseOn f := by
  unfold State.changeMode; rw [h]; cases m <;> first | rfl | exact absurd rfl hm

theorem changeMode_within (s : State) (f : Feeder) (m : Mode) (h : s.mode f ≠ .outOfService) (hm : m ≠ .outOfService) :
    s.changeMode f m = s.setMode f m := by
  unfold State.changeMode; cases hp : s.mode f <;> cases m <;> first | rfl | exact absurd rfl hm | exact absurd hp h

theorem acts_setMode (s : State) (f : Feeder) (m : Mode) (h : s.OffOk → ((s.recl f).state = .off ↔ m = .outOfService)) :
    Acts ν s (s.setMode f m) := by
  have e : (s.setMode f m).setRecl f (s.recl f) = s.setMode f m := setRecl_self (s.setMode f m) f
  rw [← e]
  exact .one (.mode s f m _ h)

theorem acts_changeMode (s : State) (f : Feeder) (m : Mode) : Acts ν s (s.changeMode f m) := by
  by_cases hm : m = .outOfService
  · subst hm
    rw [changeMode_off]
    unfold State.recloseOff
    split
    · rename_i ho
      have ho : (s.recl f).state = .off := ho
      exact .pone (.prim (.element _ _ _ trivial fun _ => ok_resetElement)) (acts_setMode _ _ _ fun _ => by simp [ho])
    · exact acts_goOff s f .outOfService .off {} _ (fun _ => ok_resetElement) fun _ => by simp
  · by_cases hp : s.mode f = .outOfService
    · rw [changeMode_on _ _ _ hp hm]
      have hg : ∀ st, st ≠ .off → Acts ν s ((s.setMode f m).goReclose f st) := fun st hst =>
        .peel (acts_notify _ _ _) (.one (.mode s f m { s.recl f with state := st } fun _ => by simp [hst, hm]))
      exact hg _ (by split <;> simp)
    · rw [changeMode_within _ _ _ hp hm]
      exact acts_setMode _ _ _ fun h => (h f).trans ⟨fun e => absurd e hp, fun e => absurd e hm⟩

theorem acts_setModeRequest (s : State) (f : Feeder) (m : Mode) : Acts ν s (s.setModeRequest f m).1 := by
  unfold State.setModeRequest
  split; · exact .rfl
  split; · exact .rfl
  split; · exact .rfl
  exact acts_changeMode _ _ _

theorem acts_clearCounts (s : State) : Acts ν s s.clearCounts := by
  unfold State.clearCounts
  dsimp only
  exact .pone (.link _ _ fun h => ⟨h.classed, h.idle, h.notices⟩) (.one (.intake _ _))

/-! ### The Image Loader -/

theorem acts_notifyImage (s : State) (r : ImageReason) (p : Option Nat) (k x : Option Byte) (res : Option Result) :
    Acts ν s (s.notifyImage r p k x res) := acts_notify _ _ _

theorem acts_setReading (s : State) (p : Reading) : Acts ν s (s.setReading p) := .one (.loader _ _)

theorem acts_readHeader (s : State) (p : Reading) (a : Bool) : Acts ν s (s.readHeader p a) := by
  unfold State.readHeader
  dsimp only
  exact acts_ite (.peel (acts_notifyImage _ _ _ _ _ _) (acts_setReading _ _))
    (acts_ite (.peel (acts_notifyImage _ _ _ _ _ _) (acts_setReading _ _)) (acts_setReading _ _))

theorem acts_discard (s : State) (p : Reading) (l n : Nat) (k x : Byte) (r : ImageReason) : Acts ν s (s.discard p l n k x r) :=
  .peel (acts_notifyImage _ _ _ _ _ _) (acts_setReading _ _)

theorem acts_readRecord (s : State) (p : Reading) (l : Nat) (a : Bool) : Acts ν s (s.readRecord p l a) := by
  unfold State.readRecord
  dsimp only
  exact acts_ite (.peel (acts_notifyImage _ _ _ _ _ _) (acts_setReading _ _))
    (acts_ite (.peel (acts_notifyImage _ _ _ _ _ _) (acts_setReading _ _))
      (acts_ite (acts_discard _ _ _ _ _ _ _) (acts_ite (acts_discard _ _ _ _ _ _ _)
        (acts_ite (acts_discard _ _ _ _ _ _ _) (acts_setReading _ _)))))

theorem acts_readImage (s : State) (a : Bool) : Acts ν s (s.readImage a) := by
  unfold State.readImage
  split
  · split
    · exact acts_readHeader _ _ _
    · exact acts_readRecord _ _ _ _
    · exact .rfl
  all_goals exact .rfl

theorem acts_applyRecord (a : Applied) (x : KeptRecord) : Acts ν a.1 (applyRecord a x).1 := by
  unfold applyRecord
  dsimp only
  split
  · exact acts_applyLoad _ _ _ _
  · exact .peel (acts_notifyImage _ _ _ _ _ _) (acts_applyLoad _ _ _ _)

theorem acts_applyKept (s : State) (kept : List KeptRecord) : Acts ν s (s.applyKept kept).1.1 := by
  have h1 : ∀ (l : List KeptRecord) (a : Applied), Acts ν a.1 (l.foldl applyRecord a).1 := by
    intro l
    induction l with
    | nil => exact fun _ => .rfl
    | cons x rest ih => exact fun a => (acts_applyRecord a x).trans (ih _)
  have h2 : ∀ (l : List KeptRecord) (a : Applied × Wishes), Acts ν a.1.1 (l.foldl takeStateRecord a).1.1 := by
    intro l
    induction l with
    | nil => exact fun _ => .rfl
    | cons x rest ih =>
      intro a
      refine Acts.peel (ih _) ?_
      unfold takeStateRecord
      split
      · exact .rfl
      · exact acts_notifyImage _ _ _ _ _ _
  unfold State.applyKept
  dsimp only
  exact .peel (h2 _ _) (h1 _ (s, 0))

theorem acts_takeover (s : State) (e : EntryId) (k : BankSlot) (o : TakeoverOrigin) : Acts ν s (s.takeover e k o) :=
  .moves (moves_takeover working_all trivial trivial s e k o)

theorem acts_restoreWishes (s : State) (w : Wishes) : Acts ν s (s.restoreWishes w) := by
  unfold State.restoreWishes
  dsimp only
  refine .peel (acts_foldl _ (fun s f => ?_) _ _) (.peel (acts_foldl _ (fun s e => ?_) _ _) (acts_foldl _ (fun s i => ?_) _ _))
  · unfold State.wishMode
    exact acts_ite (acts_changeMode _ _ _) .rfl
  · unfold State.imageTakeover
    split
    · exact .rfl
    · split
      · exact .rfl
      · exact acts_ite .rfl (acts_takeover _ _ _ _)
  · unfold State.wishSlot
    exact acts_ite (acts_serviceOn _ _) .rfl

theorem acts_startUp (s : State) (p : Reading) : Acts ν s (s.startUp p) := by
  unfold State.startUp
  dsimp only
  exact .pone (.loader _ _) (.peel (acts_notify _ _ _) (.pone (.outputs _ _) (.pone (.outputs _ _)
    (.peel (acts_restoreWishes _ _) (acts_applyKept _ _)))))

theorem acts_writeSave (s : State) (job : SaveJob) (n : Option Nat) : Acts ν s (s.writeSave job n) := by
  unfold State.writeSave
  dsimp only
  exact .one (.serial _ _)

theorem acts_replyTo (s : State) (k : Nat) (r : Result) (p : List Byte) : Acts ν s (s.replyTo k r p) := .moves (moves_replyTo trivial s k r p)

theorem acts_endSave (s : State) (n : Option Nat) : Acts ν s (s.endSave n) := by
  unfold State.endSave
  split
  · exact .peel (acts_replyTo _ _ _ _) (.pone (.loader _ _) (acts_writeSave _ _ _))
  all_goals exact .rfl

theorem ok_portReset (t : LinkTable) (g : Vector ClassLog 8) : LinkPort.Ok ⟨t, g, TxQueue.reset, none⟩ :=
  ⟨by simp [TxQueue.Classed, TxQueue.reset], fun _ => rfl, by simp [TxQueue.reset]⟩

theorem acts_assertReset (s : State) (n : Nat) : Acts ν s (s.assertReset n) := by
  have h : ∀ s1 : State, Acts ν s s1 →
      Acts ν s (((s1.setLink { s1.link with tx := TxQueue.reset, wire := none }).setOutputs Outputs.reset).setHeld true) := fun s1 h1 =>
    .pone (.held _ _) (.pone (.outputs _ _) (.pone (.link _ _ fun _ => ok_portReset _ _) h1))
  unfold State.assertReset
  dsimp only
  split
  · exact h _ (.pone (.loader _ _) (acts_writeSave _ _ _))
  all_goals exact h _ .rfl

/-! ### Requests -/

theorem acts_arrive (s : State) (req : RequestId) (k : Byte) (p : List Byte) : Acts ν s (s.arrive req k p) := by
  unfold State.arrive
  refine acts_ite (acts_occur _ _) ?_
  split
  · rename_i h
    have h : s.mgmt.requests.length < 8 := h
    exact .one (.mgmt _ _ (fun _ => by simp; omega) (Nat.le_refl _))
  · exact acts_occur _ _

/-- An owner's answer is a chain of acts. -/
abbrev Owns (ν : Prop) (owner : Nat → State → Served) : Prop := ∀ k s, Acts ν s (owner k s).1

theorem acts_giveReply (s : State) (k : Nat) (a : Option (Result × List Byte)) : Acts ν s (s.giveReply k a) := by
  unfold State.giveReply
  split
  · exact acts_replyTo _ _ _ _
  · exact .rfl

theorem acts_serveEntry (s0 s : State) (k : Nat) (b : Bool) (owner : Nat → State → Served) (h : Owns ν owner) :
    Acts ν s (State.serveEntry s0 s k b owner) := by
  unfold State.serveEntry
  dsimp only
  have h1 : Acts ν s (if b = true then (owner k s).1.settle else (owner k s).1) :=
    acts_ite (.peel (acts_settle _) (h k s)) (h k s)
  exact .peel (acts_finish _ _) (.peel (acts_giveReply _ _ _) h1)

theorem acts_serveIfOldest (s0 s : State) (req : RequestId) (k : Byte) (p : List Byte) (b : Bool) (owner : Nat → State → Served)
    (h : Owns ν owner) : Acts ν s (State.serveIfOldest s0 s req k p b owner) := by
  unfold State.serveIfOldest
  split
  · exact .rfl
  · exact acts_ite (acts_serveEntry _ _ _ _ _ h) .rfl

theorem acts_requestEvent (s : State) (req : RequestId) (k : Byte) (p : List Byte) (b : Bool) (owner : Nat → State → Served)
    (h : Owns ν owner) : Acts ν s (s.requestEvent req k p b owner) := by
  unfold State.requestEvent
  exact acts_unlessHeld (acts_ite (acts_serveIfOldest _ _ _ _ _ _ _ h)
    (acts_ite (acts_arrive _ _ _ _) (.peel (acts_serveIfOldest _ _ _ _ _ _ _ h) (acts_arrive _ _ _ _))))

theorem owns_load (table : Nat) (index : Byte) (r : List Byte) : Owns ν (serveLoad table index r) := by
  intro k s
  unfold serveLoad
  split
  · exact .rfl
  · exact acts_applyLoad _ _ _ _

theorem owns_withFeeder (b : Byte) (s : State) (g : Feeder → Served) (h : ∀ f, Acts ν s (g f).1) : Acts ν s (withFeeder s b g).1 := by
  unfold withFeeder
  split
  · exact .rfl
  · exact h _

theorem owns_withSlot (b : Byte) (s : State) (g : SlotId → Served) (h : ∀ f, Acts ν s (g f).1) : Acts ν s (withSlot s b g).1 := by
  unfold withSlot
  split
  · exact .rfl
  · exact h _

theorem owns_read (a b : Byte) : Owns ν (serveRead a b) := by
  intro k s
  unfold serveRead
  split <;> exact .rfl

theorem acts_selectAll (k : BankSlot) (es : List EntryId) (s : State) (h : (s.profile k).isSome) : Acts ν s (State.selectAll k es s).1 := by
  induction es generalizing s with
  | nil => exact .rfl
  | cons e rest ih =>
    have h1 := moves_selectEntry (μ := fun _ => True) working_all trivial trivial s k e h
    have h2 : ((s.selectEntry k e).1.profile k) = s.profile k := by
      have e := look_congr (congrArg Fixed.slots (fixed_moves h1)) k
      exact e
    exact (Acts.moves h1).trans (ih _ (by rw [h2]; exact h))

theorem owns_select (a : Byte) (w : U16) : Owns ν (serveSelect a w) := by
  intro n s
  unfold serveSelect
  dsimp only
  split
  · exact .rfl
  · rename_i k hk
    refine acts_selectAll _ _ _ ?_
    unfold State.selectCheck at hk
    split at hk
    · simp at hk
    · split at hk
      · simp at hk
      · split at hk
        · simp at hk
        · rename_i hp
          split at hk
          · simp at hk
          · cases hk; simp [hp]

theorem owns_block (x : Bool) (a b : Byte) : Owns ν (serveBlock x a b) := by
  intro n s
  unfold serveBlock
  refine owns_withFeeder _ _ _ fun f => ?_
  split
  · exact .rfl
  · split
    · exact acts_ite (acts_addReason _ _ _) (acts_removeReason _ _ _)
    · exact .rfl

theorem owns_mode (a b : Byte) : Owns ν (serveMode a b) := by
  intro n s
  unfold serveMode
  refine owns_withFeeder _ _ _ fun f => ?_
  split
  · exact .rfl
  · exact acts_setModeRequest _ _ _

theorem owns_serviceOn (a : Byte) : Owns ν (serveServiceOn a) := fun _ s => owns_withSlot _ s _ fun _ => acts_serviceOn _ _
theorem owns_serviceOff (a : Byte) : Owns ν (serveServiceOff a) := fun _ s => owns_withSlot _ s _ fun _ => acts_serviceOff _ _

theorem owns_operate (k : CmdKind) (hk : k ≠ .enrol) (a : Byte) : Owns ν (serveOperate k a) := by
  intro n s
  unfold serveOperate
  refine owns_withSlot _ _ _ fun i => ?_
  split
  · exact .rfl
  · dsimp only
    split
    · exact .moves (moves_handCmd trivial _ _ _ hk)
    · exact .pone (.prim (.mark _ _ _ trivial)) (.moves (moves_handCmd trivial _ _ _ hk))

/-- A primitive change moves no reclose state into or out of OFF. -/
theorem off_prim {μ : Part → Prop} (f : Feeder) (s t : State) (h : Prim μ s t) (hs : (s.recl f).state ≠ .off) :
    (t.recl f).state ≠ .off := by
  cases h with
  | notify n b => obtain ⟨l, m, h1⟩ := notify_rest s n b; rw [h1]; exact hs
  | frame f _ => obtain ⟨l, h1, _⟩ := handFrame_link s f; rw [h1]; exact hs
  | recl g r _ ho _ =>
    rw [State.recl_setRecl]
    split
    · rename_i hj; subst hj; exact fun e => hs (ho.1 e)
    · exact hs
  | _ => exact hs

theorem owns_resetLockout (a : Byte) : Owns ν (serveResetLockout a) := by
  intro n s
  refine owns_withFeeder _ _ _ fun f => ?_
  have hr := acts_removeReason (ν := ν) s f .sefLock
  change Acts ν s (s.resetLockout f).1
  unfold State.resetLockout
  split
  · rename_i c hc
    split
    · refine .peel (acts_notify _ _ _) (.pone (.recl _ _ _ ?_) hr)
      simp only [reduceCtorEq, false_iff]
      exact moves_keep (fun s => (s.recl f).state ≠ .off) (off_prim f)
        (moves_removeReason (μ := fun _ => True) trivial trivial s f .sefLock trivial) (by rw [hc]; simp)
    · exact .rfl
  all_goals first | exact hr | exact .rfl

theorem owns_startHunt (a : Byte) : Owns ν (serveStartHunt a) := by
  intro n s
  unfold serveStartHunt
  split
  · exact .rfl
  · split
    · exact .rfl
    · exact .moves (moves_startHunt working_all _ _ _)

theorem owns_abortHunt : Owns ν serveAbortHunt := by
  intro n s
  unfold serveAbortHunt State.abortRequest
  split
  · exact .rfl
  · exact .moves (moves_huntCause trivial trivial trivial _ _)

theorem owns_ackSef (a : Byte) : Owns ν (serveAckSef a) := fun _ s =>
  owns_withFeeder _ s _ fun _ => .moves (moves_ackSef trivial _ _)

theorem owns_readFeeder (a : Byte) : Owns ν (serveReadFeeder a) := fun _ s => owns_withFeeder _ s _ fun _ => .rfl
theorem owns_readBus : Owns ν serveReadBus := fun _ _ => .rfl
theorem owns_readTrips : Owns ν serveReadTrips := fun _ _ => .rfl
theorem owns_clear : Owns ν serveClear := fun _ _ => acts_clearCounts _

theorem owns_save : Owns ν serveSave := by
  intro n s
  unfold serveSave
  split
  · exact .rfl
  · exact .pone (.prim (.mark _ _ _ trivial)) (.one (.loader _ _))

theorem owns_restart : Owns ν serveRestart := by
  intro n s
  unfold serveRestart
  split <;> exact .rfl

theorem owns_unknown (a : Byte) (p : List Byte) : Owns ν (serveUnknown a p) := by
  intro n s
  unfold serveUnknown
  split
  · exact .rfl
  · split <;> exact .rfl

/-! ### Reception and the end of a transmission -/

theorem acts_receive (s : State) (x : RawFrame) (hν : ν → s.SlotsOk) : Acts ν s (s.receive x) := by
  unfold State.receive
  split
  · exact acts_occur _ _
  · exact .rfl
  · unfold State.dispatch
    split
    · exact acts_takeSample _ _
    · exact acts_takeReport _ _ _ _
    · exact acts_takeResponse _ _ _ _ _ hν
    · exact acts_arrive _ _ _ _

/-- The frame on the wire has left and the next one follows. -/
theorem acts_beginNext (s : State) (f : TxFrame) (hw : s.link.wire = some f) : Acts ν s ((s.frameLeft f).beginTx) := by
  have hk : ∀ t : State, Acts ν s t → t.link = s.link → Acts ν s ((t.setLink { t.link with wire := none }).beginTx) := by
    intro t ht he
    obtain ⟨l, h1, _⟩ := beginTx_link (t.setLink { t.link with wire := none })
    have h2 : t.link.Ok → l.Ok := by
      intro h
      have h3 := beginTx_ok (t.setLink { t.link with wire := none }) h.classed
        (by have := h.notices; simp only [State.setLink_link, Option.any_none, Bool.false_eq_true, if_false]; omega)
      rw [h1] at h3
      exact h3
    rw [h1]
    exact .pone (.link t l h2) ht
  have hd : ∀ k, Acts ν s (s.dropEntry k) := fun k =>
    .one (.mgmt _ _ (fun h => (List.length_filter_le _ _).trans h) (Nat.le_refl _))
  cases f with
  | reply k _ _ _ _ _ _ => exact hk (s.dropEntry k) (hd k) rfl
  | _ => exact hk s .rfl rfl

theorem acts_endTransmission (s : State) : Acts ν s s.endTransmission := by
  unfold State.endTransmission
  split
  · exact .rfl
  · rename_i f hw
    dsimp only
    have h := acts_beginNext (ν := ν) s f hw
    exact acts_ite (.one (.restarted s)) (acts_ite (.peel (acts_feedNotice _) h) h)

/-! ### Commands and steps -/

theorem acts_silence (s : State) (e : EntryId) :
    Acts ν s (if s.silenceDue e = true then State.conclude72 s (s.loseStream e) else s) :=
  acts_ite (.peel (acts_conclude72 _ _) (acts_loseStream _ _)) .rfl

theorem acts_ndExpired (s : State) : Acts ν s s.ndExpired := by
  unfold State.ndExpired
  dsimp only
  have hp : ∀ t, Acts ν s t → Acts ν s t.servePendingHunts := fun t h => .peel (.moves (moves_servePendingHunts working_all _)) h
  have ho : ∀ (c : Prop) [Decidable c] t, Acts ν s t → Acts ν s (if c then t.offerTrigger busEntry else t) := fun c _ t h =>
    acts_ite (.peel (.moves (moves_offerTrigger trivial _ _)) h) h
  exact acts_ite (hp _ (.peel (acts_notify _ _ _) (ho _ _ (acts_setNd _ _)))) (.peel (acts_notify _ _ _) (ho _ _ (acts_setNd _ _)))

theorem acts_deadDue (s : State) (f : Feeder) (n : Nat) (h : s.deadDue f = some n) : Acts ν s (s.deadExpired f n) := by
  refine .moves (moves_deadExpired trivial trivial s f n ?_)
  intro e
  simp [State.deadDue, e] at h

theorem acts_reclaimDue (s : State) (f : Feeder) (h : s.reclaimDue f = true) : Acts ν s (s.reclaimExpired f) := by
  refine .moves (moves_reclaimExpired trivial s f ?_)
  intro e
  simp [State.reclaimDue, e] at h

/-- Every command is a chain of acts, which may rest on the slots being sound when it began. -/
theorem acts_exec (c : Instr) (s : State) : ∃ t, exec c s = .next t ∧ Acts s.SlotsOk s t := by
  have hr : ∀ {req k p b} {owner : Nat → State → Served}, Owns s.SlotsOk owner →
      ∃ t, (Host.Outcome.next (s.requestEvent req k p b owner) : Host.Outcome State Fault Refusal) = .next t ∧ Acts s.SlotsOk s t :=
    fun h => ⟨_, rfl, acts_requestEvent _ _ _ _ _ _ h⟩
  have hu : ∀ t, Acts s.SlotsOk s t →
      ∃ u, (Host.Outcome.next (s.unlessHeld t) : Host.Outcome State Fault Refusal) = .next u ∧ Acts s.SlotsOk s u :=
    fun t h => ⟨_, rfl, acts_unlessHeld h⟩
  have hc : ∀ t, Acts s.SlotsOk s t → ∃ u, (Host.Outcome.next (s.unlessHeld (State.conclude72 s t)) :
      Host.Outcome State Fault Refusal) = .next u ∧ Acts s.SlotsOk s u :=
    fun t h => hu _ (.peel (acts_conclude72 _ _) h)
  cases c with
  | powerUpReset n => exact ⟨_, rfl, acts_assertReset _ _⟩
  | resetRelease => exact ⟨_, rfl, acts_ite (.one (.powerUp s)) .rfl⟩
  | imageRecordRead a => exact hu _ (acts_readImage _ _)
  | startUp =>
    refine hu _ ?_
    split
    · exact .rfl
    · exact .peel (acts_finish _ _) (acts_startUp _ _)
  | saveEnd n => exact hu _ (acts_endSave _ _)
  | sample x => exact hc _ (acts_takeSample _ _)
  | highSetDelayExpiry x => exact hc _ (acts_takeSample _ _)
  | sefDelayExpiry x => exact hc _ (acts_takeSample _ _)
  | statusReport a p b => exact hc _ (acts_takeReport _ _ _ _)
  | response a g k v => exact hc _ (acts_takeResponse _ _ _ _ _ id)
  | managementRequest req k p => exact hu _ (acts_arrive _ _ _ _)
  | frameRejected x => exact hc _ (acts_receive _ _ id)
  | transmissionEnd => exact hu _ (acts_endTransmission _)
  | silenceExpiry e => exact hu _ (acts_silence _ _)
  | busDelayExpiry => exact hu _ (acts_ite (.peel (acts_conclude72 _ _) (acts_ndExpired _)) .rfl)
  | deadTimerExpiry f =>
    refine hu _ ?_
    split
    · exact .rfl
    · rename_i h; exact .peel (acts_conclude72 _ _) (acts_deadDue _ _ _ h)
  | reclaimExpiry f =>
    refine hu _ ?_
    split
    · rename_i h; exact .peel (acts_conclude72 _ _) (acts_reclaimDue _ _ h)
    · exact .rfl
  | refreshExpiry i => exact hu _ (acts_ite (.peel (acts_finish _ _) (.moves (moves_refreshExpired trivial trivial _ _))) .rfl)
  | timeout i =>
    refine hu _ ?_
    split
    · exact .rfl
    · rename_i fl h
      have hf : (s.slot i).inFlight = some fl := by
        unfold State.deadlineDue at h
        split at h
        · cases h
        · rename_i h2; split at h
          · cases h; exact h2
          · cases h
      exact .peel (acts_conclude72 _ _) (acts_timedOut _ _ _ hf id)
  | turnaroundGapEnd i => exact hu _ (.moves (moves_trySend trivial _ _))
  | settleExpiry =>
    refine hu _ ?_
    split
    · exact .rfl
    · exact .peel (acts_conclude72 _ _) (.moves (moves_settleExpired working_all _ _))
  | loadFeeder req x r => exact hr (owns_load _ _ _)
  | loadBus req x r => exact hr (owns_load _ _ _)
  | loadOutstation req x r => exact hr (owns_load _ _ _)
  | loadProfile req x r => exact hr (owns_load _ _ _)
  | loadCurve req x r => exact hr (owns_load _ _ _)
  | loadHuntPlan req x r => exact hr (owns_load _ _ _)
  | loadBusOrder req x r => exact hr (owns_load _ _ _)
  | loadLink req x r => exact hr (owns_load _ _ _)
  | readTable req a b => exact hr (owns_read _ _)
  | selectProfile req a w => exact hr (owns_select _ _)
  | setBlock req a b => exact hr (owns_block _ _ _)
  | clearBlock req a b => exact hr (owns_block _ _ _)
  | setMode req a b => exact hr (owns_mode _ _)
  | setServiceOn req a => exact hr (owns_serviceOn _)
  | setServiceOff req a => exact hr (owns_serviceOff _)
  | operateOpen req a => exact hr (owns_operate _ (by decide) _)
  | operateClose req a => exact hr (owns_operate _ (by decide) _)
  | resetLockout req a => exact hr (owns_resetLockout _)
  | startHunt req a => exact hr (owns_startHunt _)
  | abortHunt req => exact hr owns_abortHunt
  | ackSef req a => exact hr (owns_ackSef _)
  | readStateFeeder req a => exact hr (owns_readFeeder _)
  | readStateBus req => exact hr owns_readBus
  | readTrips req => exact hr owns_readTrips
  | clearCounters req => exact hr owns_clear
  | saveImage req => exact hr owns_save
  | restart req => exact hr owns_restart
  | unknownRequest req k p => exact hr (owns_unknown _ _)

theorem acts_idle (s : State) : Acts ν s s.idle := by
  unfold State.idle
  refine acts_unlessHeld ?_
  split
  · exact .one (.time _ _)
  · exact .one (.pending _ _)

/-- A step is a chain of acts. -/
theorem acts_step (s t : State) (h : step s = .next t) : Acts s.SlotsOk s t := by
  unfold step at h
  split at h
  · cases h; exact acts_idle _
  · rename_i c rest hp
    obtain ⟨u, h1, h2⟩ := acts_exec c (s.setPending rest)
    rw [h1] at h
    cases h
    exact .peel h2 (.one (.pending s rest))

end Sys2Proof.Machine
end

