-- ==== Sys2Proof/Laws/Sound.lean ====
section
/-! SUPPORT. What each act keeps: the soundness of the element records, the trip store, the map, the modes, the slots, the port,
the queues and the serial memory. -/

namespace Sys2Proof.Machine

variable {ν : Prop}

/-- What every act keeps, a chain of acts keeps. -/
theorem acts_keep (P : State → Prop) (hp : ∀ s t, Act ν s t → P s → P t) {s t : State} (h : Acts ν s t) (hs : P s) : P t := by
  induction h with
  | refl => exact hs
  | tail _ h1 ih => exact hp _ _ h1 ih

theorem elementsOk_reset (s : State) (h : s.bank = State.reset.bank) : s.ElementsOk := by
  intro f
  have : s.element f = ElementRecord.reset := by rw [State.element, h]; exact look_replicate _ _
  rw [this]; exact ok_resetElement

theorem elementsOk_act (s t : State) (h : Act ν s t) (hs : s.ElementsOk) : t.ElementsOk := by
  cases h with
  | prim h => exact elementsOk_prim _ _ h hs
  | bank x h1 _ => intro f; have := hs f; simpa [State.element, h1] using this
  | powerUp => exact elementsOk_reset _ rfl
  | restarted => exact fun f => elementsOk_reset s.powerUp rfl f
  | _ => exact hs

theorem tripsOk_act (s t : State) (h : Act ν s t) (hs : s.TripsOk) : t.TripsOk := by
  cases h with
  | prim h => exact tripsOk_prim _ _ h hs
  | bank x _ h2 => simpa [State.TripsOk, h2] using hs
  | powerUp => exact Nat.zero_le _
  | restarted => exact hs
  | _ => exact hs

/-- A map entry stays as R67 says when the slots it names keep their profiles. -/
theorem entryOk_congr {s t : State} {m : MapEntry} (h : ∀ k, m.active = some k ∨ m.pend = some k → t.profile k = s.profile k)
    (hm : s.EntryOk m) : t.EntryOk m := by
  refine ⟨fun a ha => by rw [h a (.inl ha)]; exact hm.1 a ha, fun k hk => ?_⟩
  obtain ⟨a, p, q, h1, h2, h3, h4⟩ := hm.2 k hk
  exact ⟨a, p, q, h1, by rw [h a (.inl h1)]; exact h2, by rw [h k (.inr hk)]; exact h3, h4⟩

theorem slotInUse_of {s : State} {e : EntryId} {k : BankSlot} (h : (s.entry e).active = some k ∨ (s.entry e).pend = some k) :
    s.slotInUse k = true := by
  simp only [State.slotInUse, List.any_eq_true, Bool.or_eq_true, beq_iff_eq]
  exact ⟨e, (by decide : ∀ e : EntryId, e ∈ entries) e, h⟩

theorem mapOk_act (s t : State) (h : Act ν s t) (hs : s.MapOk) : t.MapOk := by
  have hreset : ∀ u : State, u.profiles = State.reset.profiles → u.MapOk := by
    intro u hu e
    have : u.entry e = ⟨none, none⟩ := by rw [State.entry, hu]; exact look_replicate _ _
    rw [this]
    exact ⟨by simp, by simp⟩
  cases h with
  | prim h => exact mapOk_prim _ _ h hs
  | profile k p hk =>
    intro e
    refine entryOk_congr (s := s) (fun j hj => ?_) (hs e)
    have hne : j ≠ k := by
      rintro rfl
      have := slotInUse_of (s := s) (e := e) hj
      rw [hk] at this
      cases this
    exact look_put_ne _ _ hne
  | powerUp => exact hreset _ rfl
  | restarted => exact hreset _ rfl
  | _ => exact hs

theorem offOk_act (s t : State) (h : Act ν s t) (hs : s.OffOk) : t.OffOk := by
  have hreset : ∀ u : State, u.reclose = State.reset.reclose → u.modes = Vector.replicate 8 .outOfService → u.OffOk := by
    intro u hu hm f
    have h1 : (u.recl f).state = .off := by rw [State.recl, hu]; exact congrArg RecloseRecord.state (look_replicate _ _)
    have h2 : u.mode f = .outOfService := by rw [State.mode, hm]; exact look_replicate _ _
    simp [h1, h2]
  cases h with
  | prim h => exact offOk_prim _ _ h hs
  | recl f r h =>
    intro j
    rw [State.recl_setRecl]
    split
    · rename_i hj; subst hj; exact h.trans (hs j)
    · exact hs j
  | mode f m r h =>
    intro j
    have e1 : ((s.setMode f m).setRecl f r).recl j = if j = f then r else s.recl j := State.recl_setRecl _ _ _ _
    have e2 : ((s.setMode f m).setRecl f r).mode j = if j = f then m else s.mode j := State.mode_setMode _ _ _ _
    rw [e1, e2]
    split
    · exact h hs
    · exact hs j
  | powerUp => exact hreset _ rfl rfl
  | restarted => exact hreset _ rfl rfl
  | _ => exact hs

theorem slotsOk_act (s t : State) (h : Act ν s t) (hv : ν) (hs : s.SlotsOk) : t.SlotsOk := by
  have hreset : ∀ u : State, u.exchange = State.reset.exchange → u.SlotsOk := by
    intro u hu i
    have : u.slot i = Outstation.reset := by rw [State.slot, hu]; exact look_replicate _ _
    rw [this]; exact ok_empty
  cases h with
  | prim h => exact slotsOk_prim _ _ h hs
  | slot i o h =>
    intro j
    rw [State.slot_setSlot]
    split
    · exact h hv (hs i)
    · exact hs j
  | powerUp => exact hreset _ rfl
  | restarted => exact hreset _ rfl
  | _ => exact hs

theorem huntListOk_act (s t : State) (h : Act ν s t) (hs : s.HuntListOk) : t.HuntListOk := by
  cases h with
  | prim h => exact huntListOk_prim _ _ h hs
  | hunt x h => simpa [State.HuntListOk, h] using hs
  | powerUp => exact List.nodup_nil
  | restarted => exact List.nodup_nil
  | _ => exact hs

theorem queuesOk_act (s t : State) (h : Act ν s t) (hs : s.QueuesOk) : t.QueuesOk := by
  cases h with
  | prim h => exact queuesOk_prim _ _ h hs
  | mgmt m h1 h2 => exact ⟨h1 hs.1, h2.trans hs.2⟩
  | powerUp => exact ⟨Nat.zero_le _, Nat.zero_le _⟩
  | restarted => exact ⟨Nat.zero_le _, Nat.zero_le _⟩
  | _ => exact hs

theorem portOk_act (s t : State) (h : Act ν s t) (hs : s.PortOk) : t.PortOk := by
  cases h with
  | prim h => exact portOk_prim _ _ h hs
  | link l h => exact h hs
  | powerUp => exact ok_portReset _ _
  | restarted => exact ok_portReset _ _
  | _ => exact hs

/-! ### The serial memory -/

/-- Below every cell of a canonical memory: all addresses of the rest are greater. -/
theorem write_above (m : SerialMemory) (n a : Nat) (b : Byte) (hn : n < a) (h : m.all (fun d => n < d.1) = true) :
    (SerialMemory.write m a b).all (fun d => n < d.1) = true := by
  induction m with
  | nil => unfold SerialMemory.write; split <;> simp [hn]
  | cons c rest ih =>
    simp only [List.all_cons, Bool.and_eq_true, decide_eq_true_eq] at h
    unfold SerialMemory.write
    split
    · simp only [List.all_cons, Bool.and_eq_true, decide_eq_true_eq]; exact ⟨h.1, ih h.2⟩
    · split
      · split
        · exact h.2
        · simp only [List.all_cons, Bool.and_eq_true, decide_eq_true_eq]; exact ⟨hn, h.2⟩
      · split
        · simp only [List.all_cons, Bool.and_eq_true, decide_eq_true_eq]; exact h
        · simp only [List.all_cons, Bool.and_eq_true, decide_eq_true_eq]; exact ⟨hn, h⟩

/-- A write keeps the canonical form. -/
theorem write_wf (m : SerialMemory) (a : Nat) (b : Byte) (h : SerialMemory.wf m = true) :
    SerialMemory.wf (SerialMemory.write m a b) = true := by
  induction m with
  | nil => unfold SerialMemory.write; split <;> simp_all [SerialMemory.wf]
  | cons c rest ih =>
    have h0 := h
    simp only [SerialMemory.wf, Bool.and_eq_true, bne_iff_ne] at h
    unfold SerialMemory.write
    split
    · rename_i hc
      simp only [SerialMemory.wf, Bool.and_eq_true, bne_iff_ne]
      exact ⟨⟨h.1.1, write_above rest c.1 a b hc h.1.2⟩, ih h.2⟩
    · rename_i hc
      split
      · rename_i he
        split
        · exact h.2
        · rename_i hb
          simp only [SerialMemory.wf, Bool.and_eq_true, bne_iff_ne]
          exact ⟨⟨hb, he ▸ h.1.2⟩, h.2⟩
      · rename_i he
        split
        · exact h0
        · rename_i hb
          have hlt : a < c.1 := by omega
          have hall : rest.all (fun d => a < d.1) = true := by
            rw [List.all_eq_true] at h ⊢
            intro d hd
            have := h.1.2 d hd
            simp only [decide_eq_true_eq] at this ⊢
            omega
          simp only [SerialMemory.wf, List.all_cons, Bool.and_eq_true, bne_iff_ne, decide_eq_true_eq]
          exact ⟨⟨hb, hlt, hall⟩, h.1, h.2⟩

theorem writeAll_wf (w : List (Nat × Byte)) (m : SerialMemory) (h : SerialMemory.wf m = true) :
    SerialMemory.wf (SerialMemory.writeAll m w) = true := by
  induction w generalizing m with
  | nil => exact h
  | cons x rest ih => exact ih _ (write_wf m x.1 x.2 h)

/-- A byte below every cell of a memory reads blank. -/
theorem read_below (m : SerialMemory) (a : Nat) (h : m.all (fun d => a < d.1) = true) : SerialMemory.read m a = Config.blankByte := by
  induction m with
  | nil => rfl
  | cons c rest ih =>
    simp only [List.all_cons, Bool.and_eq_true, decide_eq_true_eq] at h
    unfold SerialMemory.read
    rw [if_neg (by omega)]
    exact ih h.2

/-- What a write writes reads back, and every other byte reads as before. -/
theorem read_write (m : SerialMemory) (a x : Nat) (b : Byte) (h : SerialMemory.wf m = true) :
    SerialMemory.read (SerialMemory.write m a b) x = if x = a then b else SerialMemory.read m x := by
  induction m with
  | nil =>
    unfold SerialMemory.write
    split
    · rename_i hb; simp [SerialMemory.read, hb]
    · simp only [SerialMemory.read]
      by_cases hx : x = a
      · simp [hx]
      · rw [if_neg (Ne.symm hx), if_neg hx]
  | cons c rest ih =>
    simp only [SerialMemory.wf, Bool.and_eq_true, bne_iff_ne] at h
    unfold SerialMemory.write
    split
    · rename_i hc
      simp only [SerialMemory.read]
      by_cases hx : c.1 = x
      · rw [if_pos hx, if_pos hx, if_neg (by omega)]
      · rw [if_neg hx, if_neg hx]; exact ih h.2
    · rename_i hc
      split
      · rename_i he
        split
        · rename_i hb
          by_cases hx : x = a
          · subst hx
            rw [if_pos rfl, hb]
            exact read_below rest x (he ▸ h.1.2)
          · rw [if_neg hx]
            simp only [SerialMemory.read]
            rw [if_neg (by omega)]
        · simp only [SerialMemory.read]
          by_cases hx : x = a
          · rw [if_pos hx.symm, if_pos hx]
          · rw [if_neg (Ne.symm hx), if_neg hx, if_neg (by omega)]
      · rename_i he
        split
        · rename_i hb
          by_cases hx : x = a
          · subst hx
            rw [if_pos rfl, hb]
            refine read_below _ _ ?_
            rw [List.all_eq_true] at h ⊢
            intro d hd
            simp only [decide_eq_true_eq]
            rcases List.mem_cons.1 hd with rfl | hd
            · omega
            · have := h.1.2 d hd
              simp only [decide_eq_true_eq] at this
              omega
          · rw [if_neg hx]
        · simp only [SerialMemory.read]
          by_cases hx : x = a
          · rw [if_pos hx.symm, if_pos hx]
          · rw [if_neg (Ne.symm hx), if_neg hx]

theorem serialOk_act (s t : State) (h : Act ν s t) (hs : s.SerialOk) : t.SerialOk := by
  cases h with
  | prim h =>
    have e := congrArg Fixed.serial (fixed_prim h)
    change SerialMemory.wf t.fixed.serial = true
    rw [e]; exact hs
  | serial w => exact writeAll_wf w _ hs
  | _ => exact hs

end Sys2Proof.Machine
end

