-- ==== Sys2Proof/WellFormed.lean ====
section
/-! DEFINITION. Which commands the outside can send at all: a frame's body length is 16 bits (8.5.2), and a request is the
command of the one row that spells it. A wrong record, index or code is no ill-formed command: the engine answers it. -/

namespace Sys2Proof

/-- The parameters of a request fit the 16-bit body length beside the tag and the kind (8.5.2, 8.5.3). -/
def paramsFit (n : Nat) : Bool := n + 3 ≤ 65535

/-- A command that the outside can send. -/
def Instr.wellFormed : Instr → Bool
  | .managementRequest _ _ params => paramsFit params.length
  | .unknownRequest req kind params =>
    paramsFit params.length && requestCommand req kind params == .unknownRequest req kind params
  | .loadFeeder _ _ record | .loadBus _ _ record | .loadOutstation _ _ record | .loadProfile _ _ record
  | .loadCurve _ _ record | .loadHuntPlan _ _ record | .loadBusOrder _ _ record | .loadLink _ _ record =>
    paramsFit (record.length + 2)
  | .readStateFeeder _ feeder => feeder != 0x08#8
  | .frameRejected frame => frame.payload.length ≤ 65535
  | .powerUpReset _ | .resetRelease | .imageRecordRead _ | .startUp | .sample _ | .statusReport _ _ _
  | .response _ _ _ _ | .transmissionEnd | .silenceExpiry _ | .busDelayExpiry | .highSetDelayExpiry _
  | .sefDelayExpiry _ | .deadTimerExpiry _ | .reclaimExpiry _ | .refreshExpiry _ | .timeout _
  | .turnaroundGapEnd _ | .settleExpiry | .saveEnd _ | .readTable _ _ _ | .selectProfile _ _ _
  | .setBlock _ _ _ | .clearBlock _ _ _ | .setMode _ _ _ | .setServiceOn _ _ | .setServiceOff _ _
  | .operateOpen _ _ | .operateClose _ _ | .resetLockout _ _ | .startHunt _ _ | .abortHunt _ | .ackSef _ _
  | .readStateBus _ | .readTrips _ | .clearCounters _ | .saveImage _ | .restart _ => true

end Sys2Proof
end

