-- ==== Sys2Proof/Tests/Slice0.lean ====
section
/-! SUPPORT. The model's own tests: ill-formed commands, the worked cases of the spec, one step of each family, and for every
obligation with hypotheses a state and operands that meet them. -/

namespace Sys2Proof.Tests

-- Elaboration in order: evaluating all these at once starts more threads than the memory limit allows.
set_option Elab.async false

open Sys2Proof Sys2Proof.Machine

/-! ### WellFormed refuses an ill-formed term of each check (8.5.2, 8.5.3) -/

/-- A request of the station controller. -/
def rq : RequestId := ⟨0x0900#16, 0x0101#16⟩

theorem long_params (n : Nat) (h : 65533 ≤ n) : paramsFit n = false := by
  unfold paramsFit; exact decide_eq_false (by omega)

theorem test_illFormed_managementRequest :
    (Instr.managementRequest rq 0x0E#8 (List.replicate 65533 0#8)).wellFormed = false :=
  long_params _ (by rw [List.length_replicate])

theorem test_illFormed_unknownRequest_long :
    (Instr.unknownRequest rq 0x7F#8 (List.replicate 65533 0#8)).wellFormed = false := by
  simp only [Instr.wellFormed, long_params _ (le_of_eq (List.length_replicate (n := 65533) (a := 0#8)).symm), Bool.false_and]

theorem test_illFormed_unknownRequest_spelled : (Instr.unknownRequest rq 0x0E#8 []).wellFormed = false := by decide

theorem test_illFormed_loads :
    ∀ i ∈ [Instr.loadFeeder rq 0#8 (List.replicate 65531 0#8), .loadBus rq 0#8 (List.replicate 65531 0#8),
      .loadOutstation rq 0#8 (List.replicate 65531 0#8), .loadProfile rq 0#8 (List.replicate 65531 0#8),
      .loadCurve rq 0#8 (List.replicate 65531 0#8), .loadHuntPlan rq 0#8 (List.replicate 65531 0#8),
      .loadBusOrder rq 0#8 (List.replicate 65531 0#8), .loadLink rq 0#8 (List.replicate 65531 0#8)],
      i.wellFormed = false := by
  have h : paramsFit ((List.replicate 65531 (0#8)).length + 2) = false := long_params _ (by rw [List.length_replicate])
  intro i hi
  simp only [List.mem_cons, List.not_mem_nil, or_false] at hi
  rcases hi with rfl | rfl | rfl | rfl | rfl | rfl | rfl | rfl <;> exact h

theorem test_illFormed_readStateFeeder : (Instr.readStateFeeder rq 0x08#8).wellFormed = false := by decide

theorem long_frame (x : RawFrame) (h : 65536 ≤ x.payload.length) : (Instr.frameRejected x).wellFormed = false :=
  decide_eq_false (by omega)

theorem test_illFormed_frameRejected : (Instr.frameRejected ⟨true, 0x9A50#16, List.replicate 65536 0#8⟩).wellFormed = false :=
  long_frame _ (le_of_eq List.length_replicate.symm)

theorem test_wellFormed_some :
    (Instr.unknownRequest rq 0x0E#8 [0#8]).wellFormed = true ∧ (Instr.readStateFeeder rq 0x09#8).wellFormed = true
      ∧ (Instr.loadBus rq 0#8 []).wellFormed = true := by decide

/-! ### The words of the table and the rows of the requests -/

theorem test_no_word_spells (nbits w : Nat) : decodeTableWord nbits w = none := rfl

theorem test_requestCommand_rows :
    requestCommand rq 0x01#8 [0x03#8, 0x0A#8, 0x00#8] = .loadOutstation rq 0x0A#8 [0x00#8]
      ∧ requestCommand rq 0x01#8 [0x09#8, 0x00#8] = .unknownRequest rq 0x01#8 [0x09#8, 0x00#8]
      ∧ requestCommand rq 0x03#8 [0x02#8, 0x01#8, 0xFF#8] = .selectProfile rq 0x02#8 0x01FF#16
      ∧ requestCommand rq 0x08#8 [0x22#8, 0x01#8] = .operateOpen rq 0x22#8
      ∧ requestCommand rq 0x0D#8 [0x08#8] = .readStateBus rq
      ∧ requestCommand rq 0x0E#8 [0x00#8] = .unknownRequest rq 0x0E#8 [0x00#8]
      ∧ requestCommand rq 0x12#8 [] = .unknownRequest rq 0x12#8 [] := by decide

/-! ### Worked cases: streams (R6) -/

theorem test_classify_1000 :
    classify (some 1000) 1001 false = .inOrder ∧ classify (some 1000) 1002 false = .oneMissing
      ∧ classify (some 1000) 1000 false = .stale ∧ classify (some 1000) 999 false = .stale
      ∧ classify (some 1000) 1040 false = .gap ∧ classify (some 1000) 33768 false = .stale
      ∧ classify (some 1000) 33767 false = .gap := by decide

theorem test_classify_wraps : classify (some 65535) 0 false = .inOrder := by decide

theorem test_classify_stale_before_quality :
    classify (some 1000) 1000 true = .stale ∧ classify (some 1000) 1001 true = .missing ∧ classify none 7 true = .missing := by
  decide

/-! ### Worked cases: phasors (R24, R26, R28, R30, R32) -/

theorem test_rounding : roundComponent 16384000 = 63 ∧ roundComponent (-16384000) = -63 := by decide

theorem test_oldest_sample : (fundamental (1000 :: List.replicate 31 0)).re = 63 ∧ (fundamental (1000 :: List.replicate 31 0)).im = 0 := by
  decide +kernel

theorem test_magnitudes :
    magnitude 1697 0 = 1199 ∧ magnitude 30 (-40) = 35 ∧ magnitude 120 (-80) = 101 ∧ magnitude 39000 5000 = 27802 := by
  decide +kernel

theorem test_residual_balanced :
    (residual ⟨⟨1697, 0, 0⟩, ⟨-849, -1470, 0⟩, ⟨-849, 1470, 0⟩⟩) = ⟨-1, 0, 0⟩ := by decide +kernel

theorem test_residual_limited : (residual (Phases.all3 ⟨39000, 5000, 27802⟩)).re = 40000 := by decide +kernel

theorem test_thresholds :
    ndThresholdOf 12702 2 = 1270 ∧ ndThresholdOf 12702 0 = 635 ∧ threeQuarters 1270 = 952 ∧ threeQuarters 635 = 476 := by
  decide

/-! ### Worked cases: elements (R39 to R47) -/

theorem test_ratioIndex : ratioIndex 1199 300 = 63 ∧ ratioIndex 6500 300 = 320 := by decide

theorem test_increment : (2061 * 100 / 25 : Nat) = 8244 ∧ increment (List.replicate 305 2061) 25 63 = 8244 := by decide

/-- D is 10,485 at reset time 10: 8,000,000 falls below 0 with the 763rd set. -/
theorem test_timed_reset :
    resetAccumulator ⟨true, 300, 0, 25, true, 10⟩ 8000000 = 7989515 ∧ 10485 * 762 < 8000000 ∧ 8000000 ≤ 10485 * 763 := by decide

theorem test_restraint : phaseRestrains 10 600 101 = true ∧ phaseRestrains 10 600 93 = false ∧ phaseRestrains 10 31 40000 = false := by
  decide

theorem test_confirmation :
    confirms (pushResult [] true) = false ∧ confirms (pushResult [true] false) = false
      ∧ confirms (pushResult [true, false] true) = true ∧ pushResult [false, false, true] true = [false, true, true] := by decide

theorem test_sef_level :
    sefLevel 3 200 = 37 ∧ levelState 37 37 .dropped = .pickedUp ∧ levelState 37 36 .dropped = .dropped
      ∧ levelState 37 34 .pickedUp = .pickedUp ∧ levelState 37 33 .pickedUp = .dropped := by decide

theorem test_sef_pair : pairState 4 30 52 40 = .pickedUp ∧ pairState 4 30 52 42 = .dropped ∧ pairState 4 53 52 40 = .dropped := by
  decide

/-! ### Worked cases: records (R158, R176) -/

theorem test_record_check :
    recordBytes 0x01#8 0x02#8 [0x01#8, 0x30#8, 0x02#8, 0x04#8, 0x00#8, 0xC8#8, 0xFF#8]
      = [0x01#8, 0x02#8, 0x00#8, 0x07#8, 0x01#8, 0x30#8, 0x02#8, 0x04#8, 0x00#8, 0xC8#8, 0xFF#8, 0xFD#8, 0xF8#8] := by decide

theorem test_outstation_record :
    decodeOutstation 2 [0x01#8, 0x41#8, 0x0A#8, 0x02#8, 0x07#8, 0xD0#8, 0x01#8, 0xF4#8, 0x01#8, 0x0A#8]
      = some ⟨0x410A#16, .recloser, 2000, 500, true, false, 10⟩ := by decide

theorem test_outstation_refused :
    decodeOutstation 0 [0x01#8, 0x41#8, 0x0A#8, 0x02#8, 0x07#8, 0xD0#8, 0x01#8, 0xF4#8, 0x01#8, 0x0A#8] = none
      ∧ decodeOutstation 2 [0x01#8, 0x41#8, 0x0A#8, 0x02#8, 0x00#8, 0x13#8, 0x01#8, 0xF4#8, 0x01#8, 0x0A#8] = none := by decide

/-! ### Small states -/

/-- What a command leaves; the state itself where it does not run. -/
def after (c : Instr) (s : State) : State :=
  match exec c s with
  | .next t => t
  | _ => s

/-- After start-up with a blank image. -/
def bare : State := { State.reset with loader := .idle }

/-- A profile at fire level 1 without SEF. -/
def profA : Profile where
  fireLevel := 1
  ph := ⟨true, 300, 0, 25, true, 10⟩
  ef := ⟨true, 300, 0, 25, false, 1⟩
  hsEnable := true
  hsThreshold := 2000
  hsDelay := 1
  rstEnable := true
  rstRatio := 10
  sefEnable := false
  sefPair := false
  sefK := 3
  sefF := 30
  sefDelay := 1
  sefAction := .trip
  sefLock := true
  shots := 2
  dead1 := 5
  dead2 := 5
  dead3 := 5
  dead4 := 5
  reclaim := 10
  fireBlock := false
  lossTrip := false
  huntPermitted := true
  restorePermitted := true
  settle := 20
  exhaustedTrip := false
  ndStep := 2
  busHunt := true

/-- The same at fire level 0 with SEF. -/
def profB : Profile := { profA with fireLevel := 0, sefEnable := true }

/-- A breaker, a recloser that is a follower and a hunt point, an indicator. -/
def breaker : Loaded := ⟨0x4100#16, .breaker, 2000, 200, false, false, 10⟩
def recloser : Loaded := ⟨0x4101#16, .recloser, 2000, 500, true, true, 10⟩

/-- A slot IN_SERVICE and known CLOSED. -/
def served (l : Loaded) : Outstation := { Outstation.reset with state := .inService, loaded := some l, known := .closed }

/-- A full window, sequence numbers 0 to 31, with one sample of 1000 in Ia and in In. -/
def fullWindow : List SampleSet :=
  (List.range 32).map fun k => ⟨BitVec.ofNat 16 k, if k = 5 then 1000 else 0, 0, 0, if k = 5 then 1000 else 0, false⟩

/-- A LIVE stream with that window, silence expiry 20 ms. -/
def liveStream : StreamRecord := ⟨.live, some 0x3000#16, some 4, some 31, fullWindow, some 20, 7, 0⟩

/-- Feeder 0 in service: profile slot 0 active, stream LIVE, breaker at slot 0, recloser at slot 1, one hunt step. -/
def line : State where
  intake := ⟨put State.reset.intake.streams 0 liveStream⟩
  phasor := State.reset.phasor
  bank := { State.reset.bank with plants := put State.reset.bank.plants 0 (some ⟨200, none⟩) }
  profiles := ⟨#v[some profA, some profB, none, none], #v[some (List.replicate 305 2061), none, none, none],
    put State.reset.profiles.map 0 ⟨some 0, none⟩⟩
  reclose := { State.reset.reclose with records := put State.reset.reclose.records 0 ⟨.ready, {}⟩ }
  exchange := { State.reset.exchange with slots := put (put State.reset.exchange.slots 0 (served breaker)) 1 (served recloser) }
  hunt := { State.reset.hunt with plans := put State.reset.hunt.plans 0 [⟨1, none⟩] }
  link := State.reset.link
  mgmt := State.reset.mgmt
  loader := .idle
  modes := put State.reset.modes 0 .inService
  time := 0
  held := false
  outputs := ⟨put (Vector.replicate 8 false) 0 true, true⟩
  serial := []
  pending := []

/-- The same a while later. -/
def later (n : Nat) : State := { line with time := n }

theorem bare_still : bare.Still := ⟨rfl, by decide +kernel, rfl⟩
theorem bare_calm : bare.Calm := ⟨bare_still, rfl⟩
theorem bare_ready : bare.Ready rq := ⟨rfl, rfl, rfl, by decide +kernel⟩
theorem line_calm : line.Calm := ⟨⟨rfl, by decide +kernel, rfl⟩, rfl⟩
theorem line_ready : line.Ready rq := ⟨rfl, rfl, rfl, by decide +kernel⟩
theorem later_calm (n : Nat) : (later n).Calm := ⟨⟨rfl, line_calm.noPending, rfl⟩, rfl⟩

/-! ### One step of each kind, from the worked cases -/

/-- 1.4.5: set 503 arrives a second time, sets 504 to 506 are lost. -/
theorem test_sample_stale : ((after (.sample ⟨0x3000#16, 31, 0, 0, 0, 0, 0⟩) line).stream 0).staleCount = 1 := by decide +kernel

theorem test_sample_oneMissing :
    ((after (.sample ⟨0x3000#16, 33, 0, 0, 0, 0, 0⟩) line).stream 0).heldCount = 8
      ∧ ((after (.sample ⟨0x3000#16, 33, 0, 0, 0, 0, 0⟩) line).stream 0).window.length = 32 := by decide +kernel

theorem test_sample_gap :
    (after (.sample ⟨0x3000#16, 35, 0, 0, 0, 0, 0⟩) line).stream 0
      = { liveStream with state := .filling, window := [⟨35, 0, 0, 0, 0, false⟩], lastSeq := some 35, expiry := some 20 } := by
  decide +kernel

/-- 10.1.3: the FEEDER record of feeder 2. -/
theorem test_loadFeeder :
    (after (.loadFeeder rq 2 [0x01#8, 0x30#8, 0x02#8, 0x04#8, 0x00#8, 0xC8#8, 0xFF#8]) bare).plant 2 = some ⟨200, none⟩ := by
  decide +kernel

/-- 8.5.4: the OUTSTATION record of slot 10. -/
theorem test_loadOutstation :
    ((after (.loadOutstation rq 0x0A#8 [0x01#8, 0x41#8, 0x0A#8, 0x02#8, 0x07#8, 0xD0#8, 0x01#8, 0xF4#8, 0x01#8, 0x0A#8])
      bare).slot 10).loaded = some ⟨0x410A#16, .recloser, 2000, 500, true, false, 10⟩ := by decide +kernel

/-- R77, R180: a save and a start-up read the same image. -/
theorem test_save_reads_back :
    (after .startUp (after (.imageRecordRead true) (after (.imageRecordRead true)
      { (after (.saveEnd none) { line with loader := .saving ⟨0, [(1, 2, [1, 0x30, 2, 4, 0, 0xC8, 0xFF])]⟩ }) with
        loader := .reading Reading.start }))).plant 2 = some ⟨200, none⟩ := by decide +kernel

/-- R177: a blank memory ends reading. -/
theorem test_blank_image :
    (match (after (.imageRecordRead true) State.reset).loader with | .reading p => p.blank | _ => false) = true := by
  decide +kernel

/-- R111: the first command of a slot carries tag 1. -/
theorem test_operate_sends_tag :
    ((after (.operateOpen rq 0x01#8) line).slot 1).inFlight.map InFlight.tag = some 0x01#8 := by decide +kernel

/-- R14, R15: silence adds STREAM_LOST. -/
theorem test_silence : ((after (.silenceExpiry 0) (later 20)).recl 0).reasons.streamLost = true := by decide +kernel

/-- 6.7: the SET_BLOCK at 203,400 ms supersedes the queued RELEASE and finds the BLOCK in flight. -/
theorem test_block_supersedes :
    let s := after (.setBlock rq 0x00#8 0x02#8)
      { (((later 203400).setFollower 1 ⟨.releasePending, none⟩).setSlot 1 { served recloser with
          queue := [{ kind := .release, origin := .reclose }]
          inFlight := some ⟨{ kind := .block, origin := .reclose }, 17, 204200, 1⟩ }) with loader := .idle }
    s.follower 1 = ⟨.blocked, some 213400⟩ ∧ (s.slot 1).queue = [] := by decide +kernel

/-- 6.7: the WAIT at 201,200 ms. -/
theorem test_wait_extends :
    ((after (.response 0x4101#16 17 .wait 3000) ((later 201200).setSlot 1 { served recloser with
      inFlight := some ⟨{ kind := .block, origin := .reclose }, 17, 202000, 0⟩ })).slot 1).inFlight
      = some ⟨{ kind := .block, origin := .reclose }, 17, 204200, 1⟩ := by decide +kernel

/-- 6.5: the fourth report OPEN after CLOSED, OPEN, CLOSED. -/
theorem test_report_filter :
    let o := (after (.statusReport 0x4100#16 .opened 0) (line.setSlot 0 { served breaker with history := [false, true, false] })).slot 0
    o.history = [true, false, true] ∧ o.known = .opened := by decide +kernel

/-! ### Every obligation's hypotheses are met somewhere -/

theorem ok_reset_stream : StreamRecord.reset.Ok :=
  ⟨rfl, rfl, trivial, rfl, rfl, rfl, by decide⟩

/-- `consecutive` as a Bool. -/
def follows : List SampleSet → Bool
  | a :: b :: rest => b.seq == a.seq + 1#16 && follows (b :: rest)
  | _ => true

theorem consecutive_of_follows : ∀ w, follows w = true → consecutive w
  | [], _ => trivial
  | [_], _ => trivial
  | a :: b :: rest, h => by
    simp only [follows, Bool.and_eq_true, beq_iff_eq] at h
    exact ⟨h.1, consecutive_of_follows (b :: rest) h.2⟩

theorem ok_live_stream : liveStream.Ok :=
  ⟨by decide +kernel, by decide +kernel, consecutive_of_follows _ (by decide +kernel),
    show fullWindow.length = 32 by decide +kernel, rfl, ⟨by decide, by decide, by decide⟩, by decide⟩

theorem ok_line_streams : line.StreamsOk := by
  intro e
  by_cases h : e = 0
  · subst h; exact ok_live_stream
  · have : line.stream e = StreamRecord.reset := by revert e; decide +kernel
    rw [this]; exact ok_reset_stream

/-- The line with one command waiting. -/
def busy : State := { line with pending := [.silenceExpiry 0] }

theorem busy_steps : ∃ t, step busy = .next t := ⟨_, rfl⟩

theorem test_witness_StepRunsTheCommand : busy.pending = .silenceExpiry 0 :: [] := rfl

theorem test_witness_IdleStep :
    (line.pending = [] ∧ line.held = false ∧ (later 19).due = [] ∧ (later 20).due ≠ [])
      ∧ ({ State.reset with held := true } : State).pending = [] ∧ ({ State.reset with held := true } : State).held = true := by
  decide +kernel

theorem test_witness_EveryCommandAnswers :
    ({ line with held := true } : State).held = true ∧ (∀ n, Instr.startUp ≠ .powerUpReset n) ∧ Instr.startUp ≠ .resetRelease :=
  ⟨rfl, by simp, by simp⟩

theorem test_witness_StreamsStaySound : busy.StreamsOk ∧ ∃ t, step busy = .next t := ⟨ok_line_streams, busy_steps⟩

theorem test_witness_CapacitiesStayKept :
    (busy.ElementsOk ∧ busy.TripsOk ∧ busy.QueuesOk ∧ busy.HuntListOk) ∧ ∃ t, step busy = .next t := by
  refine ⟨⟨fun f => ?_, by unfold State.TripsOk; decide, by unfold State.QueuesOk; decide, List.nodup_nil⟩, busy_steps⟩
  have : busy.element f = ElementRecord.reset := by revert f; decide +kernel
  rw [this]
  exact ⟨by decide, by decide, by decide⟩

/-- The line with a lower fire level pending. -/
def lowering : State := { line.setEntry 0 ⟨some 0, some 1⟩ with pending := [.silenceExpiry 0] }

theorem test_witness_MapStaysSound : lowering.MapOk ∧ ∃ t, step lowering = .next t := by
  refine ⟨fun e => ?_, ⟨_, rfl⟩⟩
  by_cases h : e = 0
  · subst h
    exact ⟨by decide +kernel, fun k hk => ⟨0, profA, profB, by decide +kernel, by decide +kernel, by
      have : k = 1 := by revert k; decide +kernel
      subst this; decide +kernel, by decide⟩⟩
  · have : lowering.entry e = ⟨none, none⟩ := by revert e; decide +kernel
    rw [this]
    exact ⟨fun _ h => (nomatch h), fun _ h => (nomatch h)⟩

theorem test_witness_OffWhileOutOfService : busy.OffOk ∧ ∃ t, step busy = .next t :=
  ⟨by unfold State.OffOk; decide +kernel, busy_steps⟩

/-- The line in DEAD_TIME(1), the dead timer just expired. -/
def dead : State := { (later 500).setRecl 0 ⟨.deadTime 1 500, {}⟩ with pending := [.deadTimerExpiry 0] }

theorem dead_calm : ({ dead with pending := [] } : State).Calm := ⟨⟨rfl, by decide +kernel, rfl⟩, rfl⟩

theorem test_witness_DeadTimeUnblocked : dead.DeadTimeOk ∧ ∃ t, step dead = .next t := by
  refine ⟨fun f n t h => ?_, ⟨_, rfl⟩⟩
  by_cases h0 : f = 0
  · subst h0
    refine ⟨by decide +kernel, profA, by decide +kernel, ?_⟩
    have : (dead.recl 0).state = .deadTime 1 500 := by decide +kernel
    rw [this] at h
    cases h; decide
  · have : (dead.recl f).state = .off := by clear h; revert f; decide +kernel
    rw [this] at h; cases h

/-- A feeder hunt of the line in SETTLING, its point the recloser. -/
def hunting : State :=
  { ((later 2100).setRecl 0 ⟨.ready, { hunt := true }⟩).setCtx { HuntContext.reset with
      state := .settling, kind := some .feeder, phase := some .feederStep, involved := [0], feeder := some 0
      planIndex := some 0, observed := some .residual, clearLevel := some 27, openPoint := some 1, settle := some 2100
      lastAbove := some 2000, origin := some .manual } with pending := [.settleExpiry] }

theorem test_witness_HuntMemberWhileInvolved : hunting.HuntReasonOk ∧ ∃ t, step hunting = .next t :=
  ⟨by unfold State.HuntReasonOk; decide +kernel, ⟨_, rfl⟩⟩

theorem test_witness_SlotsStaySound : busy.SlotsOk ∧ ∃ t, step busy = .next t := by
  refine ⟨fun i => ?_, busy_steps⟩
  by_cases h0 : i = 0
  · subst h0; exact ⟨by decide, by decide, fun _ hc => (List.not_mem_nil hc).elim, rfl⟩
  · by_cases h1 : i = 1
    · subst h1; exact ⟨by decide, by decide, fun _ hc => (List.not_mem_nil hc).elim, rfl⟩
    · have : busy.slot i = Outstation.reset := by revert i; decide +kernel
      rw [this]; exact ⟨by decide, by decide, ⟨rfl, rfl⟩, rfl⟩

theorem test_witness_PortStaysSound : busy.PortOk ∧ ∃ t, step busy = .next t :=
  ⟨⟨⟨by decide, by decide, by decide, by decide, by decide⟩, fun _ => rfl, by decide⟩, busy_steps⟩

theorem test_witness_SerialStaysCanonical :
    ({ busy with serial := [(0, 0x4C#8), (1, 0x31#8)] } : State).SerialOk
      ∧ ∃ t, step { busy with serial := [(0, 0x4C#8), (1, 0x31#8)] } = .next t :=
  ⟨by unfold State.SerialOk; decide, ⟨_, rfl⟩⟩

theorem test_witness_OutputsFollow : busy.OutputsOk ∧ ∃ t, step busy = .next t :=
  ⟨by show ∀ f, look busy.outputs.healthy f = busy.healthy f; decide +kernel, busy_steps⟩

theorem test_witness_WorkingLeavesTheRest :
    (∃ t, exec (.deadTimerExpiry 0) dead = .next t) ∧ (∃ t, exec (.ackSef rq 0#8) line = .next t)
      ∧ ∃ t, exec (.setBlock rq 0#8 0x01#8) line = .next t := ⟨⟨_, rfl⟩, ⟨_, rfl⟩, ⟨_, rfl⟩⟩

/-- Reading of an image of one record, the serial memory holding it. -/
def imaged (p : Reading) : State :=
  { State.reset with
    serial := SerialMemory.writeAll [] (saveWrites [(9#8, 0#8, [1#8, 2#8])]), loader := .reading p }

/-- A save of that record in flight, its request with ticket 0. -/
def saving : State :=
  { bare with loader := .saving ⟨0, [(9#8, 0#8, [1#8, 2#8])]⟩
              mgmt := { bare.mgmt with requests := [⟨0, rq, 0x10#8, [], .deferred⟩], nextTicket := 1 } }

theorem test_witness_ResetInputHoldsAndReleases :
    (∃ job, saving.loader = .saving job) ∧ (∀ job, bare.loader ≠ .saving job)
      ∧ ({ bare with held := true } : State).held = true ∧ bare.held = false :=
  ⟨⟨_, rfl⟩, fun _ h => (nomatch h), rfl, rfl⟩

theorem test_witness_ImageRecordIsKept :
    (SerialMemory.bytes (imaged Reading.start).serial 0 4 = headerBytes 1 ∧ (imaged Reading.start).loader = .reading Reading.start
      ∧ Reading.start.stage = .header)
      ∧ (SerialMemory.bytes (SerialMemory.writeAll [] (saveWrites [])) 0 4 = headerBytes 0)
      ∧ (SerialMemory.bytes (imaged ⟨.records 1, 4, 0, [], 0, false⟩).serial 4 (6 + [1#8, 2#8].length)
          = recordBytes 9#8 0#8 [1#8, 2#8] ∧ 1 ≤ (9#8 : Byte).toNat ∧ (9#8 : Byte).toNat ≤ 9)
      ∧ Reading.start.stage ≠ .ended := by decide +kernel

theorem test_witness_StartUpEnds :
    (imaged { Reading.start with stage := .ended }).held = false
      ∧ (imaged { Reading.start with stage := .ended }).loader = .reading { Reading.start with stage := .ended }
      ∧ ({ Reading.start with stage := .ended } : Reading).kept = [] := ⟨rfl, rfl, rfl⟩

/-- At the start-up event after a power-up: four records kept, the STATE record first. -/
def starting : Reading :=
  ⟨.ended, 700, 4,
    [⟨0, 9, 0, [0, 2, 2, 2, 2, 2, 2, 2] ++ [1, 0, 0, 0, 0, 0, 0, 0] ++ (1#8 :: List.replicate 8 0xFF#8)⟩,
     ⟨1, 4, 1, encodeProfile { profB with ph := { profB.ph with enable := false }, ef := { profB.ef with enable := false } }⟩,
     ⟨2, 3, 0, encodeOutstation breaker⟩, ⟨3, 1, 0, [0x01, 0x30, 0x00, 0x04, 0x00, 0xC8, 0xFF]⟩], 0, false⟩

/-- The kept table records in the order of R178. -/
def ordered : List KeptRecord := [3, 2, 1].filterMap fun n => starting.kept[n]?

theorem test_witness_StartUpRestores :
    (let s : State := { State.reset with loader := .reading starting }
     s.held = false ∧ s.loader = .reading starting ∧ starting.stage = .ended)
      ∧ ordered.Perm (starting.kept.filter fun x => 1 ≤ x.kind.toNat && x.kind.toNat ≤ 8) ∧ ordered.Pairwise KeptRecord.Before
      ∧ ((starting.kept.filter fun x => x.kind == 0x09#8).map fun x => (x.index, x.contents.length)) = [(0x00#8, 25)] :=
  ⟨by decide +kernel, by decide +kernel, by unfold KeptRecord.Before; decide +kernel, by decide +kernel⟩

/-- R178, R179: the tables first, then the slot enrols, the entry takes its slot over, and the feeder comes back in LOCKOUT. -/
theorem test_startUp_restores :
    let t := after .startUp { State.reset with loader := .reading starting }
    (t.slot 0).state = .enrolling ∧ t.entry 0 = ⟨some 1, none⟩ ∧ t.mode 0 = .inService ∧ (t.recl 0).state = .lockout .start
      ∧ t.mode 1 = .outOfService := by decide +kernel

theorem test_witness_SaveEndReplies :
    saving.held = false ∧ (∃ job, saving.loader = .saving job ∧ job.ticket = 0)
      ∧ (saving.mgmt.requests.find? fun x => x.ticket == 0) = some ⟨0, rq, 0x10#8, [], .deferred⟩ :=
  ⟨rfl, ⟨_, rfl, rfl⟩, by decide⟩

theorem test_witness_SavedImageReadsBack :
    saving.held = false ∧ saving.SerialOk ∧ (∃ job, saving.loader = .saving job) ∧ ∃ t, exec (.saveEnd none) saving = .next t :=
  ⟨rfl, by unfold State.SerialOk; decide, ⟨_, rfl⟩, ⟨_, rfl⟩⟩

/-- A frame of stream 0 with a sequence number and a quality byte. -/
def frame (seq : U16) (q : Byte) : SampleFrame := ⟨0x3000#16, seq, q, 0, 0, 0, 0⟩

/-- The line with its stream LOST. -/
def silent : State := line.setStream 0 { liveStream with state := .lost, window := [], lastSeq := none, expiry := none }

/-- The line with one set short of a full window. -/
def nearlyFull : State := line.setStream 0 { liveStream with state := .filling, window := fullWindow.drop 1 }

theorem test_witness_SampleAppends :
    (line.streamAt 0x3000#16 = some 0 ∧ (line.stream 0).Ok ∧ line.classOf 0 (frame 32 0) = .inOrder)
      ∧ (nearlyFull.streamAt 0x3000#16 = some 0 ∧ (nearlyFull.stream 0).Ok ∧ nearlyFull.classOf 0 (frame 32 0) = .inOrder)
      ∧ (silent.streamAt 0x3000#16 = some 0 ∧ (silent.stream 0).Ok ∧ silent.classOf 0 (frame 9 0) = .first) := by
  refine ⟨⟨by decide +kernel, ok_live_stream, by decide +kernel⟩, ⟨by decide +kernel, ?_, by decide +kernel⟩,
    by decide +kernel, ?_, by decide +kernel⟩
  · exact ⟨by decide +kernel, by decide +kernel, consecutive_of_follows _ (by decide +kernel),
      show (fullWindow.drop 1).length < 32 by decide +kernel, rfl, ⟨by decide, by decide, by decide⟩, by decide⟩
  · exact ⟨rfl, rfl, trivial, rfl, rfl, ⟨by decide, by decide, by decide⟩, by decide⟩

theorem test_witness_SampleOtherwise :
    line.streamAt 0x3001#16 = none ∧ line.streamAt 0x3000#16 = some 0 ∧ (line.stream 0).Ok
      ∧ line.classOf 0 (frame 33 0) = .oneMissing ∧ (line.stream 0).window.getLast?.isSome = true
      ∧ line.classOf 0 (frame 34 0) = .gap ∧ line.classOf 0 (frame 32798 0) = .gap ∧ line.classOf 0 (frame 31 0) = .stale
      ∧ line.classOf 0 (frame 32799 0) = .stale ∧ line.classOf 0 (frame 32 8) = .missing :=
  ⟨by decide +kernel, by decide +kernel, ok_live_stream, by decide +kernel, by decide +kernel, by decide +kernel,
    by decide +kernel, by decide +kernel, by decide +kernel, by decide +kernel⟩

/-- The line with the high-set timer one set short of its delay. -/
def clashing : State :=
  line.setElement 0 { ElementRecord.reset with histories := ⟨[true, true], [], []⟩, hsCond := true, hsTimer := some 7 }

/-- The bus stream LIVE beside the line, with a threshold, the detector in a condition. -/
def busLive (threshold : Nat) (nd : NdDetector) : State :=
  { line with
    intake := ⟨put line.intake.streams busEntry { liveStream with source := some 0x3008#16 }⟩
    phasor := { line.phasor with threshold := some threshold }
    bank := { line.bank with bus := some ⟨12702, 10⟩, nd := nd } }

/-- A set of the bus stream, the next of its window. -/
def busFrame : SampleFrame := { frame 32 0 with source := 0x3008#16 }

/-- Vn over the window that set completes is 44. -/
theorem test_busFrame_vn : (measureBus 32 (pushSet fullWindow (setOf busFrame))).vn.mag = 44 := by decide +kernel

/-- The same with the reclose state that the decision finds. -/
def clashingIn (st : RecloseState) : State := clashing.setRecl 0 ⟨st, {}⟩

theorem test_witness_SetsMeasuredAndTaken_highSet :
    ∀ st ∈ [RecloseState.ready, .reclaim 1 0, .reclaim 0 0, .closing 2 none, .deadTime 1 9, .lockout .start],
      let s := clashingIn st
      s.Calm ∧ s.streamAt (frame 32 0).source = some (Feeder.entry 0) ∧ (s.stream (Feeder.entry 0)).state = .live
        ∧ s.classOf (Feeder.entry 0) (frame 32 0) = .inOrder ∧ s.mode 0 = .inService
        ∧ s.feederProfile 0 = some profA ∧ profA.hsEnable = true ∧ profA.sefEnable = false
        ∧ (s.element 0).latch = none ∧ (s.element 0).hsOperated = false
        ∧ ((s.element 0).hsTimer = some 7 ∧ 8 * profA.hsDelay ≤ 7 + 1)
        ∧ confirms (pushResult (s.element 0).histories.a (decide (profA.hsThreshold ≤ (measureFeeder (frame 32 0).seq
            (pushSet (s.stream (Feeder.entry 0)).window (setOf (frame 32 0)))).phase.a.mag))) = true
        ∧ (s.slot (Feeder.head 0)).state = .inService
        ∧ ((s.slot (Feeder.head 0)).loaded.any fun l => l.kind == .breaker) = true ∧ (s.recl 0).state = st := by
  intro st h
  fin_cases h <;> exact ⟨⟨⟨rfl, by decide +kernel, rfl⟩, rfl⟩, by decide +kernel⟩

/-- R82: RECLAIM(0) gives the mark SWITCH_ONTO_FAULT, DEAD_TIME(1) a trip with no shot used and the mark FINAL_TRIP. -/
theorem test_decision_marks :
    ((after (.highSetDelayExpiry (frame 32 0)) (clashingIn (.reclaim 0 0))).recl 0).state
        = .tripping 0 (some .switchOntoFault)
      ∧ ((after (.highSetDelayExpiry (frame 32 0)) (clashingIn (.deadTime 1 9))).recl 0).state
        = .tripping 0 (some .finalTrip) := by decide +kernel

theorem test_witness_SetsMeasuredAndTaken :
    ((3200000000 : Nat) : Int) = 40000 * 40000 + (-40000) * (-40000)
      ∧ (nearlyFull.held = false ∧ nearlyFull.streamAt 0x3000#16 = some 0 ∧ nearlyFull.classOf 0 (frame 32 0) = .inOrder
        ∧ (nearlyFull.stream 0).state ≠ .live ∧ ((after (.sample (frame 32 0)) nearlyFull).stream 0).state = .live)
      ∧ (silent.streamAt 0x3000#16 = some 0 ∧ silent.classOf 0 (frame 9 0) = .first)
      ∧ line.classOf 0 (frame 33 0) = .oneMissing
      ∧ ((busLive 44 ⟨.dropped, .stopped, false⟩).streamAt busFrame.source = some busEntry
        ∧ (busLive 44 ⟨.dropped, .stopped, false⟩).classOf busEntry busFrame = .inOrder
        ∧ ((after (.sample busFrame) (busLive 44 ⟨.dropped, .stopped, false⟩)).stream busEntry).state = .live
        ∧ 44 ≤ 44 ∧ 44 < 45 ∧ 59 * 3 / 4 ≤ 44 ∧ 44 < 60 * 3 / 4)
      ∧ (busLive 44 ⟨.dropped, .stopped, false⟩).bank.nd.pick = .dropped
      ∧ (busLive 60 ⟨.pickedUp, .held 5, false⟩).bank.nd.pick = .pickedUp := by
  refine ⟨by decide, by decide +kernel, by decide +kernel, by decide +kernel, by decide +kernel, rfl, rfl⟩

/-- R51: picked up at the threshold, dropped below three quarters of it, a held timer running again between. -/
theorem test_bus_detector :
    (after (.sample busFrame) (busLive 44 ⟨.dropped, .stopped, false⟩)).bank.nd = ⟨.pickedUp, .running 10000, false⟩
      ∧ (after (.sample busFrame) (busLive 60 ⟨.pickedUp, .held 5, false⟩)).bank.nd = ⟨.dropped, .stopped, false⟩
      ∧ (after (.sample busFrame) (busLive 59 ⟨.pickedUp, .held 5, false⟩)).bank.nd = ⟨.pickedUp, .running 5, false⟩ := by
  decide +kernel

/-- The line under profile slot 1, the SEF timer one set short of its delay. -/
def leaking : State :=
  (line.setEntry 0 ⟨some 1, none⟩).setElement 0 { ElementRecord.reset with sefC := .pickedUp, sefTimer := some 159 }
    |>.setPlant 0 (some ⟨50, none⟩)

theorem test_witness_SefDelayOperates :
    leaking.Calm ∧ leaking.streamAt (frame 32 0).source = some (Feeder.entry 0) ∧ (leaking.stream (Feeder.entry 0)).state = .live
      ∧ leaking.classOf (Feeder.entry 0) (frame 32 0) = .inOrder ∧ leaking.mode 0 = .inService
      ∧ leaking.feederProfile 0 = some profB ∧ profB.sefEnable = true ∧ profB.sefPair = false ∧ profB.sefAction ≠ .hunt
      ∧ (leaking.element 0).latch = none ∧ (leaking.element 0).sefC = .pickedUp
      ∧ sefLevel profB.sefK (leaking.sefBase 0) * 15 / 16
        ≤ (measureFeeder (frame 32 0).seq (pushSet (leaking.stream (Feeder.entry 0)).window (setOf (frame 32 0)))).inn.mag
      ∧ (leaking.element 0).sefTimer = some 159 ∧ 160 * profB.sefDelay ≤ 159 + 1
      ∧ (leaking.slot (Feeder.head 0)).state = .inService
      ∧ ((leaking.slot (Feeder.head 0)).loaded.any fun l => l.kind == .breaker) = true
      ∧ profB.sefAction = .trip ∧ profB.sefLock = true :=
  ⟨⟨⟨rfl, by decide +kernel, rfl⟩, rfl⟩, by decide +kernel⟩

theorem test_witness_SilenceLosesStream :
    line.held = false ∧ (later 19).silenceDue 0 = false ∧ (later 20).silenceDue 0 = true := by decide +kernel

/-- The line with the bus delay timer in a condition. -/
def bused (n : NdTimer) : State := { (later 10000) with bank := { line.bank with nd := ⟨.pickedUp, n, false⟩ } }

theorem test_witness_BusDelayOperates :
    ((bused (.running 10000)).held = false ∧ (bused (.running 10000)).bank.nd.timer = .running 10000
      ∧ 10000 ≤ (bused (.running 10000)).time)
      ∧ (∀ n, (bused (.running 10001)).bank.nd.timer = .running n → (bused (.running 10001)).time < n)
      ∧ ∀ n, (bused (.held 3)).bank.nd.timer = .running n → (bused (.held 3)).time < n :=
  ⟨⟨rfl, rfl, le_refl _⟩, fun n h => by (cases h; decide), fun n h => (nomatch h)⟩

/-- The line's breaker with a command in flight, tag 41, deadline 2,000 ms. -/
def flying (st : SlotState) (k : CmdKind) (waits : Nat) : State :=
  (later 2000).setSlot 0 { served breaker with
    state := st, failures := 2, tagCounter := 41
    inFlight := some ⟨{ kind := k, origin := if k = .enrol then .exchange else .reclose }, 41, 2000, waits⟩ }

theorem test_witness_StatusReportTaken :
    line.held = false ∧ line.knownSlot 0x4100#16 = some 0 ∧ (line.slot 0).state = .inService
      ∧ (line.slot 0).flying CmdKind.isSwitching = false
      ∧ ((flying .unreachable .close 0).knownSlot 0x4100#16 = some 0 ∧ ((flying .unreachable .close 0).slot 0).state = .unreachable
        ∧ ((flying .unreachable .close 0).slot 0).flying CmdKind.isSwitching = true)
      ∧ ((line.setSlot 0 { served breaker with state := .outOfService }).slot 0).state = .outOfService := by decide +kernel

/-- R90, R121: the second report of OPEN, in READY. -/
def openedOnce : State := line.setSlot 0 { served breaker with history := [true] }

theorem test_witness_StatusReportTaken_external :
    openedOnce.Calm ∧ openedOnce.held = false ∧ openedOnce.knownSlot 0x4100#16 = some (Feeder.head 0)
      ∧ (openedOnce.slot 0).state = .inService ∧ (openedOnce.slot 0).flying CmdKind.isSwitching = false
      ∧ (openedOnce.slot 0).known ≠ .opened ∧ agreed (pushReport (openedOnce.slot 0).history true) = some .opened
      ∧ (openedOnce.recl 0).state = .ready := ⟨⟨⟨rfl, by decide +kernel, rfl⟩, rfl⟩, by decide +kernel⟩

theorem test_external_open :
    ((after (.statusReport 0x4100#16 .opened 0) openedOnce).recl 0).state = .lockout .externalOpen
      ∧ ((after (.statusReport 0x4100#16 .opened 0) (openedOnce.setRecl 0 ⟨.reclaim 1 0, {}⟩)).recl 0).state = .reclaim 1 0 := by
  decide +kernel

/-- The line's recloser enrolling, a member in the feeder's set. -/
def enrolling : State :=
  ((later 2000).setSlot 1 { served recloser with
    state := .enrolling, known := .unknown
    inFlight := some ⟨{ kind := .enrol, origin := .exchange, expected := some .recloser, hold := 30 }, 41, 2000, 4⟩ }).setRecl 0
      ⟨.ready, { manual := true }⟩

theorem test_witness_ResponseWaitsOrMismatches :
    ((flying .inService .close 3).Calm ∧ (flying .inService .close 3).knownSlot 0x4100#16 = some 0
      ∧ ((flying .inService .close 3).slot 0).inFlight = some ⟨{ kind := .close, origin := .reclose }, 41, 2000, 3⟩ ∧ 3 + 1 < 5)
      ∧ (∀ fl, ((flying .inService .close 3).slot 0).inFlight = some fl → fl.tag ≠ 42)
      ∧ line.knownSlot 0x4102#16 = none :=
  ⟨⟨⟨⟨rfl, by decide +kernel, rfl⟩, rfl⟩, by decide +kernel, by decide +kernel, by decide⟩,
    fun fl h => by
      have : some fl = some (⟨{ kind := .close, origin := .reclose }, 41, 2000, 3⟩ : InFlight) := by
        rw [← h]; decide +kernel
      (cases this; decide),
    by decide +kernel⟩

/-- The line's breaker with a command queued, its last completion at 800 ms. -/
def queued (now : Nat) (k : CmdKind) : State :=
  (later now).setSlot 0 { served breaker with queue := [{ kind := k, origin := .reclose }], lastDone := some 800 }

theorem test_witness_CommandsInFlightEnd_responses :
    ((flying .inService .trip 4).held = false ∧ (flying .inService .trip 4).knownSlot 0x4100#16 = some 0
      ∧ ((flying .inService .trip 4).slot 0).inFlight = some ⟨{ kind := .trip, origin := .reclose }, 41, 2000, 4⟩
      ∧ ((flying .inService .trip 4).slot 0).loaded = some breaker ∧ ((flying .inService .trip 4).slot 0).state ≠ .enrolling
      ∧ 5 ≤ 4 + 1)
      ∧ ((flying .unreachable .close 3).Calm ∧ ((flying .unreachable .close 3).slot 0).state = .unreachable)
      ∧ (enrolling.Calm ∧ enrolling.knownSlot 0x4101#16 = some 1 ∧ (enrolling.slot 1).state = .enrolling
        ∧ (enrolling.slot 1).inFlight
          = some ⟨{ kind := .enrol, origin := .exchange, expected := some .recloser, hold := 30 }, 41, 2000, 4⟩
        ∧ (enrolling.slot 1).loaded = some recloser ∧ recloser.follower = true ∧ recloser.kind = .recloser
        ∧ (enrolling.slot 1).queue = [] ∧ (enrolling.follower 1).state = .none
        ∧ (enrolling.recl (SlotId.feeder 1)).reasons.isEmpty = false ∧ (2 : U16) = BitVec.ofNat 16 OutKind.recloser.code)
      ∧ (line.Still ∧ line.knownSlot 0x4100#16 = some 0 ∧ ∀ fl, (line.slot 0).inFlight = some fl → fl.tag ≠ 42) :=
  ⟨by decide +kernel, ⟨⟨⟨rfl, line_calm.noPending, rfl⟩, rfl⟩, by decide +kernel⟩,
    ⟨⟨⟨rfl, line_calm.noPending, rfl⟩, rfl⟩, by decide +kernel⟩,
    ⟨rfl, line_calm.noPending, rfl⟩, by decide +kernel,
    fun fl h => absurd (h.symm.trans (show (line.slot 0).inFlight = none by decide +kernel)) nofun⟩

theorem test_witness_CommandsInFlightEnd :
    (∀ fl, (line.slot 0).inFlight = some fl → line.time < fl.deadline)
      ∧ (((flying .inService .close 0).slot 0).inFlight = some ⟨{ kind := .close, origin := .reclose }, 41, 2000, 0⟩
        ∧ 2000 ≤ (flying .inService .close 0).time ∧ ((flying .inService .close 0).slot 0).state ≠ .enrolling
        ∧ 3 ≤ ((flying .inService .close 0).slot 0).failures + 1)
      ∧ ((enrolling.slot 1).state = .enrolling ∧ 2000 ≤ enrolling.time)
      ∧ (((queued 1000 .close).slot 0).queue = [{ kind := .close, origin := .reclose }]
        ∧ ((queued 1000 .close).slot 0).inFlight = none ∧ ((queued 1000 .close).slot 0).loaded = some breaker
        ∧ ((queued 1000 .close).slot 0).state = .inService ∧ ((queued 1000 .close).slot 0).lastDone = some 800
        ∧ 800 + breaker.gap ≤ (queued 1000 .close).time)
      ∧ (((queued 999 .close).slot 0).queue = [{ kind := .close, origin := .reclose }]
        ∧ ((queued 999 .close).slot 0).loaded = some breaker ∧ ((queued 999 .close).slot 0).lastDone = some 800
        ∧ (queued 999 .close).time < 800 + breaker.gap)
      ∧ (((queued 800 .trip).slot 0).queue = [{ kind := .trip, origin := .reclose }]
        ∧ ((queued 800 .trip).slot 0).inFlight = none ∧ ((queued 800 .trip).slot 0).loaded = some breaker)
      ∧ (line.slot 0).queue = [] :=
  ⟨fun fl h => absurd (h.symm.trans (show (line.slot 0).inFlight = none by decide +kernel)) nofun, by decide +kernel⟩

/-- R113: the command is no longer in flight, and the next is sent only where no turnaround gap holds it. -/
theorem test_response_lands :
    let o := (after (.response 0x4100#16 41 .done 0) (flying .inService .close 0)).slot 0
    o.inFlight = none ∧ o.lastDone = some 2000 ∧ o.known = .closed := by decide +kernel

/-- R111: a hunt whose one step is skipped admits BLOCK and RELEASE and leaves the queue as it was; the test is made all the same. -/
theorem test_skipped_hunt_sends :
    let s := ((later 3000).setSlot 1 { served recloser with
        known := .unknown, queue := [{ kind := .release, origin := .reclose }], lastDone := some 2500 }).setFollower 1
        ⟨.releasePending, none⟩
    (((after (.startHunt rq 0x00#8) s).slot 1).inFlight.map fun f => f.cmd.kind) = some .release := by decide +kernel

theorem test_witness_RecloseTimersExpire :
    (({ dead with pending := [] } : State).Calm ∧ (dead.recl 0).state = .deadTime 1 500 ∧ 500 ≤ dead.time
      ∧ (dead.slot (Feeder.head 0)).state = .inService ∧ dead.mode 0 ≠ .test
      ∧ (∀ c ∈ (dead.slot (Feeder.head 0)).queue, c.kind.isSwitch = false)
      ∧ ((dead.slot (Feeder.head 0)).loaded.any fun l => l.kind == .breaker) = true)
      ∧ ((dead.setSlot 0 { served breaker with state := .unreachable }).slot (Feeder.head 0)).state ≠ .inService
      ∧ (((later 1000).setRecl 0 ⟨.reclaim 1 0, {}⟩).recl 0).state = .reclaim 1 0
      ∧ ((later 1000).setRecl 0 ⟨.reclaim 1 0, {}⟩).Calm ∧ ((later 999).setRecl 0 ⟨.reclaim 1 0, {}⟩).Calm
      ∧ ((later 1000).setRecl 0 ⟨.reclaim 1 0, {}⟩).feederProfile 0 = some profA ∧ 0 + 100 * profA.reclaim ≤ (later 1000).time
      ∧ (later 999).time < 0 + 100 * profA.reclaim :=
  ⟨⟨dead_calm, by decide +kernel⟩, by decide +kernel, by decide +kernel, ⟨⟨rfl, by decide +kernel, rfl⟩, rfl⟩,
    ⟨⟨rfl, by decide +kernel, rfl⟩, rfl⟩, by decide +kernel⟩

/-- The line's follower BLOCKED, its refresh timer just expired. -/
def refreshing : State := (later 10000).setFollower 1 ⟨.blocked, some 10000⟩

theorem test_witness_RefreshBlocksAgain :
    refreshing.held = false ∧ (refreshing.follower 1).refresh = some 10000 ∧ 10000 ≤ refreshing.time
      ∧ (refreshing.follower 1).state = .blocked ∧ (refreshing.slot 1).loaded = some recloser ∧ recloser.follower = true
      ∧ recloser.kind = .recloser ∧ (refreshing.slot 1).state = .inService ∧ (refreshing.slot 1).queued (· == .block) = false
      ∧ (refreshing.slot 1).flying (· == .block) = false := by decide +kernel

/-- The same hunt with a measurement of the observed stream. -/
def measured : State := hunting.setMeas 0 (some (measureFeeder 31 fullWindow))

theorem test_witness_SettleDecides :
    (measured.Still ∧ measured.ctx.state = .settling ∧ measured.ctx.settle = some 2100 ∧ 2100 ≤ measured.time
      ∧ measured.ctx.phase = some .feederStep ∧ measured.ctx.feeder = some 0 ∧ measured.ctx.planIndex = some 0
      ∧ (measured.plan 0)[0]? = some ⟨1, none⟩ ∧ measured.observedMag.isSome = true
      ∧ measured.ctx.lastAbove = some 2000 ∧ 2000 + 100 ≤ 2100)
      ∧ (hunting.Still ∧ hunting.ctx.state = .settling ∧ hunting.ctx.settle = some 2100 ∧ 2100 ≤ hunting.time
        ∧ hunting.observedMag = none ∧ hunting.currentStep = some (.feederStep, 0, 1, true)
        ∧ hunting.ctx.openPoint = some 1 ∧ (hunting.slot 1).state = .inService
        ∧ ((hunting.slot 1).loaded.any fun l => l.kind == .breaker || l.kind == .recloser || l.kind == .sectionaliser) = true
        ∧ hunting.mode (SlotId.feeder 1) ≠ .test ∧ ∀ c ∈ (hunting.slot 1).queue, c.kind.isSwitch = false) :=
  ⟨⟨⟨rfl, by decide +kernel, rfl⟩, by decide +kernel⟩, ⟨rfl, by decide +kernel, rfl⟩, by decide +kernel⟩

/-- The same hunt at another moment. -/
def huntAt (st : HuntState) (open_ : Option SlotId) (out : Option HuntCmd) : State :=
  { bare with hunt := { bare.hunt with ctx := { hunting.ctx with state := st, openPoint := open_, outstanding := out } } }

theorem huntAt_still (st : HuntState) (o : Option SlotId) (c : Option HuntCmd) : (huntAt st o c).Still :=
  ⟨rfl, bare_still.noPending, rfl⟩

theorem huntAt_ready (st : HuntState) (o : Option SlotId) (c : Option HuntCmd) : (huntAt st o c).Ready rq :=
  ⟨rfl, rfl, rfl, bare_ready.known⟩

/-- The hunt of the line, in SETTLING, under a profile that does not permit restoration. -/
def leaving : State := hunting.setProfile 0 (some { profA with restorePermitted := false })

theorem test_witness_HuntRequests_start :
    line.Calm ∧ line.Ready rq ∧ line.eligible 0 = true ∧ line.live (Feeder.entry 0) = true ∧ line.plan 0 = [⟨1, none⟩]
      ∧ line.indicatorClear 0 ⟨1, none⟩ = false ∧ (line.slot (Feeder.slot 0 1)).huntPoint = true
      ∧ ((line.slot (Feeder.slot 0 1)).loaded.any fun l => l.kind == .recloser || l.kind == .sectionaliser) = true
      ∧ ∀ c ∈ (line.slot (Feeder.slot 0 1)).queue, c.kind.isSwitch = false := ⟨line_calm, line_ready, by decide +kernel⟩

theorem test_witness_HuntRequests :
    (bare.Ready rq ∧ bare.Still ∧ bare.ctx.state = .idle)
      ∧ ((huntAt .aborting none (some .close)).Ready rq ∧ (huntAt .aborting none (some .close)).Still)
      ∧ ((huntAt .opening (some 1) (some .opn)).Ready rq ∧ (huntAt .opening (some 1) (some .opn)).Still
        ∧ (huntAt .opening (some 1) (some .opn)).ctx.state = .opening
        ∧ (huntAt .opening (some 1) (some .opn)).ctx.outstanding ≠ none)
      ∧ (leaving.Ready rq ∧ leaving.Still ∧ leaving.ctx.state = .settling ∧ leaving.ctx.outstanding = none
        ∧ leaving.ctx.openPoint = some 1 ∧ leaving.currentStep = some (.feederStep, 0, 1, true)
        ∧ (leaving.feederProfile (SlotId.feeder 1)).any (fun p => !p.restorePermitted) = true ∧ leaving.link.table.dest = none
        ∧ leaving.mgmt.notices.length + 17 * leaving.ctx.involved.length < 32)
      ∧ (hunting.Ready rq ∧ hunting.Still ∧ hunting.ctx.state = .settling ∧ hunting.ctx.outstanding = none
        ∧ hunting.ctx.openPoint = some 1 ∧ hunting.currentStep = some (.feederStep, 0, 1, true)
        ∧ hunting.feederProfile (SlotId.feeder 1) = some profA ∧ profA.restorePermitted = true
        ∧ (hunting.slot 1).state = .inService ∧ hunting.mode (SlotId.feeder 1) ≠ .test
        ∧ ((hunting.slot 1).loaded.any fun l => l.kind == .breaker || l.kind == .recloser || l.kind == .sectionaliser) = true
        ∧ ∀ c ∈ (hunting.slot 1).queue, c.kind.isSwitch = false) :=
  ⟨⟨bare_ready, bare_still, rfl⟩, ⟨huntAt_ready _ _ _, huntAt_still _ _ _⟩,
    ⟨huntAt_ready _ _ _, huntAt_still _ _ _, rfl, nofun⟩,
    ⟨⟨rfl, rfl, rfl, by decide +kernel⟩, ⟨rfl, line_calm.noPending, rfl⟩, by decide +kernel⟩,
    ⟨⟨rfl, rfl, rfl, by decide +kernel⟩, ⟨rfl, line_calm.noPending, rfl⟩, by decide +kernel⟩⟩

/-- R144: an ABORT_HUNT in SETTLING closes the open point again where restoration is permitted, and leaves it open elsewhere. -/
theorem test_abort_from_settling :
    ((after (.abortHunt rq) hunting).ctx.state = .aborting
      ∧ ((after (.abortHunt rq) hunting).slot 1).inFlight.map (fun f => f.cmd.kind) = some .close)
      ∧ (after (.abortHunt rq) leaving).ctx = HuntContext.reset := by decide +kernel

/-- The TRIP of the line's breaker in flight, its trip latched, `used` shots used. -/
def tripped (used : Nat) (m : Option FinalMark) : State :=
  (((later 2000).setSlot 0 { served breaker with
      inFlight := some ⟨{ kind := .trip, origin := .elementBank }, 41, 2000, 0⟩ }).setElement 0
    { ElementRecord.reset with latch := some ⟨{ highSet := true }, none⟩ }).setRecl 0 ⟨.tripping used m, {}⟩

/-- A bus hunt of the line, its step the breaker, with a measurement of the bus. -/
def busHunting (st : HuntState) (plan : List PlanStep) : State :=
  (((((later 2100).setRecl 0 ⟨.ready, { hunt := true }⟩).setBusMeas (some (measureBus 31 fullWindow))).setPlan 0 plan).setBusOrder
    [0]).setCtx { HuntContext.reset with
      state := st, kind := some .bus, phase := some .busStep, involved := [0], busIndex := some 0, observed := some .displacement
      clearLevel := some 900, openPoint := some 0, settle := if st = .settling then some 2100 else none, lastAbove := some 2000
      origin := some .auto, results := if st = .settling then [] else [⟨.busStep, 0, 0, .cleared, true⟩]
      outstanding := if st = .settling then none else some .close }

/-- The same with its restoring CLOSE in flight. -/
def restoring (plan : List PlanStep) : State :=
  (busHunting .restoring plan).setSlot 0 { served breaker with
    known := .opened, inFlight := some ⟨{ kind := .close, origin := .hunt }, 41, 4000, 0⟩ }

theorem test_witness_AnswersLeadOn_trip :
    ((tripped 1 none).Calm ∧ (tripped 1 none).knownSlot 0x4100#16 = some (Feeder.head 0)
      ∧ ((tripped 1 none).slot (Feeder.head 0)).inFlight = some ⟨{ kind := .trip, origin := .elementBank }, 41, 2000, 0⟩
      ∧ ((tripped 1 none).slot (Feeder.head 0)).state ≠ .enrolling
      ∧ ((tripped 1 none).element 0).latch = some ⟨{ highSet := true }, none⟩
      ∧ ((tripped 1 none).recl 0).state = .tripping 1 none ∧ (tripped 1 none).feederProfile 0 = some profA
      ∧ ((tripped 1 none).recl 0).reasons.isEmpty = true ∧ 1 + 1 ≤ profA.shots
      ∧ ((tripped 1 none).stream (Feeder.entry 0)).state = .live)
      ∧ (((tripped 2 none).recl 0).state = .tripping 2 none ∧ profA.shots < 2 + 1)
      ∧ ((tripped 0 (some .finalTrip)).recl 0).state = .tripping 0 (some .finalTrip)
      ∧ ∀ used m, (((tripped 1 none).setRecl 0 ⟨.ready, {}⟩).recl 0).state ≠ .tripping used m :=
  ⟨⟨⟨⟨rfl, line_calm.noPending, rfl⟩, rfl⟩, by decide +kernel⟩, by decide +kernel, by decide +kernel, fun _ _ h => by
    rw [show (((tripped 1 none).setRecl 0 ⟨.ready, {}⟩).recl 0).state = .ready by decide +kernel] at h; cases h⟩

/-- R83: DEAD_TIME while a shot is left and every condition holds, LOCKOUT otherwise. -/
theorem test_trip_done :
    ((after (.response 0x4100#16 41 .done 0) (tripped 1 none)).recl 0).state = .deadTime 2 2500
      ∧ ((after (.response 0x4100#16 41 .done 0) (tripped 2 none)).recl 0).state = .lockout .notPermitted := by decide +kernel

/-- The CLOSE of a shot with the line's breaker, the fifth WAIT next, at its deadline. -/
def closing (mark : Option CloseMark) : State := (flying .inService .close 4).setRecl 0 ⟨.closing 1 mark, {}⟩

theorem test_witness_AnswersLeadOn_close :
    ∀ mark ∈ [none, some CloseMark.blocked, some .profile], (closing mark).Calm
      ∧ (closing mark).knownSlot 0x4100#16 = some (Feeder.head 0)
      ∧ ((closing mark).slot (Feeder.head 0)).inFlight = some ⟨{ kind := .close, origin := .reclose }, 41, 2000, 4⟩
      ∧ ((closing mark).recl 0).state = .closing 1 mark ∧ 5 ≤ 4 + 1 ∧ 2000 ≤ (closing mark).time := by
  intro mark h
  fin_cases h <;> exact ⟨⟨⟨rfl, line_calm.noPending, rfl⟩, rfl⟩, by decide +kernel⟩

/-- The same in TRIPPING, the latched TRIP queued behind the CLOSE, one failure short of UNREACHABLE. -/
def overtaken : State :=
  ((closing none).setSlot 0 { (closing none).slot 0 with queue := [tripCmd] }).setElement 0
    { ElementRecord.reset with latch := some ⟨{ highSet := true }, none⟩ } |>.setRecl 0 ⟨.tripping 1 none, {}⟩

theorem test_witness_AnswersLeadOn_overtaken :
    overtaken.Calm ∧ overtaken.knownSlot 0x4100#16 = some (Feeder.head 0)
      ∧ (overtaken.slot (Feeder.head 0)).inFlight = some ⟨{ kind := .close, origin := .reclose }, 41, 2000, 4⟩
      ∧ 2000 ≤ overtaken.time ∧ (overtaken.slot (Feeder.head 0)).state = .inService
      ∧ 3 ≤ (overtaken.slot (Feeder.head 0)).failures + 1 ∧ (overtaken.recl 0).state = .tripping 1 none
      ∧ (overtaken.element 0).latch ≠ none ∧ tripCmd ∈ (overtaken.slot (Feeder.head 0)).queue ∧ tripCmd.kind = .trip
      ∧ tripCmd.origin = .elementBank := ⟨⟨⟨rfl, line_calm.noPending, rfl⟩, rfl⟩, by decide +kernel⟩

/-- R115, R84: the third TIMEOUT completes the queued TRIP UNREACHABLE. -/
theorem test_overtaken_fails : ((after (.timeout 0) overtaken).recl 0).state = .lockout .breakerFail := by decide +kernel

/-- R86: RECLAIM from the DONE, LOCKOUT with the mark's cause, LOCKOUT with CLOSE_FAIL. -/
theorem test_close_done :
    ((after (.response 0x4100#16 41 .done 0x0002#16) (closing none)).recl 0).state = .reclaim 1 2000
      ∧ ((after (.response 0x4100#16 41 .done 0x0002#16) (closing (some .blocked))).recl 0).state = .lockout .blocked
      ∧ ((after (.response 0x4100#16 41 .refused 0) (closing none)).recl 0).state = .lockout .closeFail
      ∧ ((after (.timeout 0) (closing (some .blocked))).recl 0).state = .lockout .closeFail := by decide +kernel

theorem test_witness_AnswersLeadOn :
    ((busHunting .settling []).Still ∧ (busHunting .settling []).ctx.settle = some 2100 ∧ 2100 ≤ (busHunting .settling []).time
      ∧ (busHunting .settling []).hunt.busOrder[0]? = some 0 ∧ (busHunting .settling []).observedMag.isSome = true
      ∧ (busHunting .settling []).ctx.lastAbove = some 2000 ∧ 2000 + 100 ≤ 2100
      ∧ (busHunting .settling []).ctx.openPoint = some (Feeder.head 0)
      ∧ ((busHunting .settling []).slot (Feeder.head 0)).state = .inService ∧ (busHunting .settling []).mode 0 ≠ .test
      ∧ (((busHunting .settling []).slot (Feeder.head 0)).loaded.any fun l => l.kind == .breaker) = true
      ∧ ∀ c ∈ ((busHunting .settling []).slot (Feeder.head 0)).queue, c.kind.isSwitch = false)
      ∧ ((restoring [⟨1, none⟩]).Still ∧ (restoring [⟨1, none⟩]).knownSlot 0x4100#16 = some 0
        ∧ ((restoring [⟨1, none⟩]).slot 0).inFlight = some ⟨{ kind := .close, origin := .hunt }, 41, 4000, 0⟩
        ∧ ((restoring [⟨1, none⟩]).slot 0).state = .inService ∧ (restoring [⟨1, none⟩]).ctx.state = .restoring
        ∧ (restoring [⟨1, none⟩]).ctx.openPoint = some 0 ∧ (restoring [⟨1, none⟩]).hunt.busOrder[0]? = some 0
        ∧ (restoring [⟨1, none⟩]).ctx.results.getLast? = some ⟨.busStep, 0, 0, .cleared, true⟩
        ∧ (restoring [⟨1, none⟩]).plan 0 = [⟨1, none⟩] ∧ (restoring [⟨1, none⟩]).indicatorClear 0 ⟨1, none⟩ = false
        ∧ (restoring [⟨1, none⟩]).mode 0 ≠ .test ∧ ((restoring [⟨1, none⟩]).slot (Feeder.slot 0 1)).huntPoint = true
        ∧ (((restoring [⟨1, none⟩]).slot (Feeder.slot 0 1)).loaded.any fun l => l.kind == .recloser || l.kind == .sectionaliser)
          = true
        ∧ ∀ c ∈ ((restoring [⟨1, none⟩]).slot (Feeder.slot 0 1)).queue, c.kind.isSwitch = false)
      ∧ (restoring []).plan 0 = [] ∧ (restoring []).link.table.dest = none
      ∧ (restoring []).mgmt.notices.length + 17 * (restoring []).ctx.involved.length + 2 < 32 :=
  ⟨⟨⟨rfl, line_calm.noPending, rfl⟩, by decide +kernel⟩, ⟨⟨rfl, line_calm.noPending, rfl⟩, by decide +kernel⟩, by decide +kernel⟩

/-- R141: a bus step that cleared leads, its point closed again, to the sections of its feeder, or to FOUND_FEEDER. -/
theorem test_bus_step_leads_on :
    ((after (.response 0x4100#16 41 .done 0) (restoring [⟨1, none⟩])).ctx.phase = some .feederStep
      ∧ ((after (.response 0x4100#16 41 .done 0) (restoring [⟨1, none⟩])).slot 1).inFlight.map (fun f => f.cmd.kind) = some .opn)
      ∧ (after (.response 0x4100#16 41 .done 0) (restoring [])).ctx = HuntContext.reset := by decide +kernel

/-- A full request queue. -/
def crowded : State :=
  { bare with mgmt := { bare.mgmt with requests := List.replicate 8 ⟨0, rq, 0x0E#8, [], .deferred⟩ } }

/-- A frame to the engine from a source, with its kind, its body length field and its body, padded to 46 bytes. -/
def rawFrame (source : U16) (kind : Byte) (n : Nat) (body : List Byte) : RawFrame :=
  let p := bWord 0x7E00#16 ++ bWord source ++ [kind] ++ b16 n ++ body
  ⟨true, 0x9A50#16, p ++ List.replicate (46 - p.length) 0x00#8⟩

/-- What the body length check and the checks after it read of such a frame. -/
theorem test_witness_ArrivalsAreJudged_frames :
    (∀ x ∈ [rawFrame 0x3000#16 4 0 [], rawFrame 0x3000#16 1 10 [], rawFrame 0x4100#16 2 3 [], rawFrame 0x4100#16 3 5 [],
        rawFrame 0x0900#16 5 2 [], rawFrame 0x0900#16 5 40 []],
      x.checkOk = true ∧ 64 ≤ x.payload.length + 18 ∧ x.etherType = 0x9A50#16 ∧ u16At x.payload 0 = bare.link.table.address)
      ∧ byteAt (rawFrame 0x3000#16 4 0 []).payload 4 = 4 ∧ wordAt (rawFrame 0x3000#16 1 10 []).payload 5 = 10
      ∧ (rawFrame 0x0900#16 5 40 []).payload.length < 7 + 40
      ∧ wordAt (rawFrame 0x3000#16 1 11 []).payload 5 = 11 ∧ bare.streamAt 0x3000#16 = none ∧ line.streamAt 0x3000#16 = some 0
      ∧ byteAt (((rawFrame 0x4100#16 2 2 [3, 0]).payload.drop 7).take 2) 0 = 3
      ∧ byteAt (((rawFrame 0x4100#16 2 2 [2, 0]).payload.drop 7).take 2) 0 = 2 ∧ bare.knownSlot 0x4100#16 = none
      ∧ byteAt (((rawFrame 0x4100#16 3 4 [0, 0, 0, 0]).payload.drop 7).take 4) 1 = 0
      ∧ byteAt (((rawFrame 0x4100#16 3 4 [0, 4, 0, 0]).payload.drop 7).take 4) 1 = 4
      ∧ byteAt (((rawFrame 0x4100#16 3 4 [0, 3, 0, 0]).payload.drop 7).take 4) 1 = 3
      ∧ wordAt (rawFrame 0x0900#16 5 3 [1, 1, 14]).payload 5 = 3 ∧ bare.managementKnown 0x0900#16 = true
      ∧ bare.managementKnown 0xFFFF#16 = false := by decide +kernel

theorem test_witness_ArrivalsAreJudged :
    (bare.managementKnown rq.source = true ∧ bare.mgmt.requests.length < 8)
      ∧ (crowded.managementKnown rq.source = true ∧ 8 ≤ crowded.mgmt.requests.length)
      ∧ bare.managementKnown 0x0000#16 = false
      ∧ (bare.held = false ∧ 64 ≤ (List.replicate 46 0#8).length + 18 ∧ (List.replicate 45 (0#8 : Byte)).length + 18 < 64)
      ∧ bare.Still := ⟨by decide +kernel, by decide +kernel, by decide +kernel, by decide +kernel, bare_still⟩

/-- R150: a position and an answer outside their codes, and a body beyond its kind's length, are counted BAD_LENGTH. -/
theorem test_frames_bad_length :
    ∀ x ∈ [rawFrame 0x4100#16 2 2 [3, 0], rawFrame 0x4100#16 3 4 [0, 4, 0, 0], rawFrame 0x0900#16 5 2 [], rawFrame 0x3000#16 1 10 []],
      (look (after (.frameRejected x) line).link.log 2).count = 1 := by decide +kernel

/-- A reply on the wire, two frames waiting. -/
def sending (kind : Byte) : State :=
  { bare with
    link := { bare.link with
      wire := some (.reply 0 0x0900#16 0x7E00#16 0x0101#16 kind .ok [])
      tx := ⟨[], [.command 0x4100#16 0x7E00#16 .opn 1 false none], [], [.command 0x4101#16 0x7E00#16 .block 1 false none], []⟩ }
    mgmt := { bare.mgmt with requests := [⟨0, rq, kind, [], .replying .ok⟩], nextTicket := 1 } }

theorem test_witness_TransmissionEnds :
    bare.link.wire = none ∧ (sending 0x0C#8).held = false
      ∧ (sending 0x0C#8).link.wire = some (.reply 0 0x0900#16 0x7E00#16 0x0101#16 0x0C#8 .ok [])
      ∧ (sending 0x0C#8).isRestart 0 = false
      ∧ (sending 0x0C#8).link.tx.c1 ++ (sending 0x0C#8).link.tx.c2 ++ (sending 0x0C#8).link.tx.c3 ++ (sending 0x0C#8).link.tx.c4
        ++ (sending 0x0C#8).link.tx.c5
        = [.command 0x4100#16 0x7E00#16 .opn 1 false none, .command 0x4101#16 0x7E00#16 .block 1 false none]
      ∧ (sending 0x11#8).isRestart 0 = true := by decide +kernel

theorem test_witness_NoticesQueueOrDrop :
    (bare.mgmt.notices.length < 32 ∧ bare.link.table.dest = none)
      ∧ (let s : State := { bare with link := { bare.link with table := { bare.link.table with dest := some 0x0900#16 } } }
         s.link.table.dest = some 0x0900#16 ∧ s.noticeClassFree = true ∧ s.mgmt.notices.length < 32)
      ∧ 32 ≤ (List.replicate 32 (⟨.linkError .badCheck 1, false⟩ : NoticeItem)).length := by decide +kernel

theorem test_witness_LoadStreamsStore :
    ((⟨0x3000#16, 4⟩ : StreamFields).Valid ∧ (⟨50, none⟩ : FeederPlant).Valid 0 ∧ (⟨10000, some 1⟩ : FeederPlant).Valid 0
      ∧ bare.Ready rq ∧ bare.mode 0 = .outOfService ∧ bare.involves 0 = false
      ∧ bare.sourceTaken (Feeder.entry 0) 0x3000#16 = false ∧ (bare.stream (Feeder.entry 0)).state = .unconfigured)
      ∧ (let s := bare.setStream 0 liveStream
         s.Ready rq ∧ s.mode 0 = .outOfService ∧ s.sourceTaken (Feeder.entry 0) 0x3000#16 = false
          ∧ (s.stream (Feeder.entry 0)).state = .live ∧ (s.stream (Feeder.entry 0)).source = some 0x3000#16
          ∧ s.sourceTaken (Feeder.entry 0) 0x3001#16 = false)
      ∧ (bare.Calm ∧ (⟨12702, 10⟩ : BusPlant).Valid ∧ bare.sourceTaken busEntry 0x3000#16 = false ∧ bare.active busEntry = none
        ∧ (bare.stream busEntry).state = .unconfigured)
      ∧ ((busLive 44 ⟨.pickedUp, .running 9, false⟩).Ready rq ∧ (busLive 44 ⟨.pickedUp, .running 9, false⟩).Calm
        ∧ ((busLive 44 ⟨.pickedUp, .running 9, false⟩).stream busEntry).state = .live
        ∧ (busLive 44 ⟨.pickedUp, .running 9, false⟩).sourceTaken busEntry 0x3009#16 = false)
      ∧ (line.setEntry busEntry ⟨some 1, none⟩).active busEntry = some (1, profB)
      ∧ (List.replicate 7 (0#8 : Byte)).length = 7 ∧ byteAt (List.replicate 7 0#8) 0 = 0 := by
  refine ⟨⟨⟨by decide, by decide, by decide, by decide⟩, ⟨by decide, by decide, by decide⟩, ⟨by decide, by decide, by decide⟩,
    bare_ready, by decide +kernel⟩, ⟨⟨rfl, rfl, rfl, bare_ready.known⟩, by decide +kernel⟩,
    ⟨bare_calm, ⟨by decide, by decide, by decide, by decide⟩, by decide +kernel⟩,
    ⟨⟨rfl, rfl, rfl, line_ready.known⟩, ⟨⟨rfl, line_calm.noPending, rfl⟩, rfl⟩, by decide +kernel⟩, by decide +kernel⟩

theorem recloser_valid : recloser.Valid 1 := by unfold Loaded.Valid; decide

theorem test_witness_LoadOutstationStores :
    recloser.Valid (SlotId.position 1) ∧ bare.Ready rq ∧ (bare.slot 1).state = .empty ∧ (bare.slot 1).loaded = none
      ∧ bare.slotHas (some 1) recloser.address = false ∧ bare.streamHas none recloser.address = false
      ∧ recloser.address ≠ bare.link.table.address
      ∧ (let s := bare.setSlot 1 { Outstation.reset with state := .outOfService, loaded := some { recloser with refresh := 1 } }
         (s.slot 1).state = .outOfService ∧ s.slotHas (some 1) recloser.address = false)
      ∧ (let s := bare.setSlot 1 { Outstation.reset with state := .outOfService, loaded := some { recloser with address := 7 } }
         (s.slot 1).loaded = some { recloser with address := 7 } ∧ (7 : U16) ≠ recloser.address)
      ∧ breaker.Valid (SlotId.position 8) ∧ bare.mode (SlotId.feeder 8) = .outOfService := by
  exact ⟨recloser_valid, bare_ready, by decide +kernel, by decide +kernel, by decide +kernel, by decide +kernel, by decide +kernel,
    by decide +kernel, by decide +kernel, by unfold Loaded.Valid; decide, by decide +kernel⟩

theorem profA_valid : profA.Valid := by
  refine ⟨by decide, ?_, ?_, by decide, by decide, by decide, by decide, by decide⟩ <;> (unfold ItSettings.Valid; decide)

theorem rates_valid (x : Nat) (h : x < 65536) : curveValid (List.replicate 305 x) :=
  ⟨List.length_replicate, fun _ hy => (List.eq_of_mem_replicate hy) ▸ h, List.pairwise_replicate.2 (Or.inr (le_refl x))⟩

theorem test_witness_LoadBankAndHuntStore :
    bare.Ready rq ∧ ({ profA with ph := { profA.ph with enable := false }, ef := { profA.ef with enable := false } } : Profile).Valid
      ∧ bare.slotInUse 0 = false
      ∧ bare.curveMissing { profA with ph := { profA.ph with enable := false }, ef := { profA.ef with enable := false } } = false
      ∧ curveValid (List.replicate 305 65535) ∧ bare.curveInUse 0 = false
      ∧ planValid [⟨1, none⟩] ∧ bare.involves 0 = false ∧ (∀ x ∈ [(⟨1, none⟩ : PlanStep)], bare.indicatorOk 0 x = true)
      ∧ ([7, 0] : List Feeder).Nodup ∧ bare.busHunting = false := by
  refine ⟨bare_ready, ⟨by decide, ?_, ?_, by decide, by decide, by decide, by decide, by decide⟩, by decide +kernel,
    by decide +kernel, rates_valid _ (by decide), by decide +kernel, ⟨by decide, ?_⟩, by decide +kernel, by decide +kernel,
    by decide, by decide +kernel⟩
  · unfold ItSettings.Valid; decide
  · unfold ItSettings.Valid; decide
  · intro x hx
    cases List.mem_singleton.1 hx
    exact ⟨by decide, nofun⟩

/-- A link table with a destination and one source. -/
def linked : LinkTable := ⟨0x7E01#16, some 0x0900#16, [0x0900#16], Vector.replicate 8 ⟨false, true⟩⟩

theorem linked_valid : linked.Valid := by
  refine ⟨by decide, fun d hd => ?_, by decide, by decide, fun a ha => ?_⟩
  · cases hd; decide
  · cases List.mem_singleton.1 ha; decide

theorem test_witness_LoadLinkStores :
    bare.Ready rq ∧ linked.Valid ∧ bare.streamHas none linked.address = false ∧ bare.slotHas none linked.address = false :=
  ⟨bare_ready, linked_valid, by decide +kernel, by decide +kernel⟩

theorem test_witness_TableRecordsRoundTrip :
    profA.Valid ∧ recloser.Valid 1 ∧ linked.Valid ∧ curveValid (List.replicate 305 0)
      ∧ decodeFeeder 2 [0x01#8, 0x30#8, 0x02#8, 0x04#8, 0x00#8, 0xC8#8, 0xFF#8] = some (⟨0x3002#16, 4⟩, ⟨200, none⟩)
      ∧ decodeBus [0x01#8, 0x30#8, 0x08#8, 0x08#8, 0x31#8, 0x9E#8, 0x0A#8] = some (⟨0x3008#16, 8⟩, ⟨12702, 10⟩)
      ∧ (decodeProfile (encodeProfile profA)).isSome = true ∧ (decodePlan [0x01#8, 0x01#8, 0x07#8]).isSome = true
      ∧ decodeBusOrder [0x02#8, 0x07#8, 0x00#8] = some [7, 0] ∧ (decodeLink (encodeLink linked)).isSome = true
      ∧ (decodeCurve (encodeCurve (List.replicate 305 9))).isSome = true :=
  ⟨profA_valid, recloser_valid, linked_valid, rates_valid _ (by decide), by decide +kernel⟩

theorem encodeProfile_head (x : Profile) : (encodeProfile x).head? = some 0x01#8 := by
  unfold encodeProfile
  simp only [List.head?_append, b8, List.head?_cons, Option.some_or]

/-- A record that begins with 02h is no encoding: five encodings begin with 01h. -/
theorem not_encoded (r : List Byte) (h : r.head? = some 0x02#8) :
    (∀ x : StreamFields × FeederPlant, encodeFeeder x ≠ r) ∧ (∀ x : StreamFields × BusPlant, encodeBus x ≠ r)
      ∧ (∀ l, encodeOutstation l ≠ r) ∧ (∀ p, encodeProfile p ≠ r) ∧ ∀ c, encodeCurve c ≠ r := by
  have key : ∀ e : List Byte, e.head? = some 0x01#8 → e ≠ r := by
    rintro e he rfl
    exact absurd (Option.some.inj (he.symm.trans h)) (by decide)
  exact ⟨fun _ => key _ rfl, fun _ => key _ rfl, fun _ => key _ rfl, fun x => key _ (encodeProfile_head x), fun _ => key _ rfl⟩

theorem plan_not_encoded (p : List PlanStep) (hp : planValid p) : encodePlan p ≠ [0x01#8, 0x00#8, 0x00#8] := by
  rintro h
  match p, hp with
  | [], _ => simp [encodePlan, bList, b8] at h
  | [x], hp =>
    have h0 := (hp.2 x (List.mem_singleton.2 rfl)).1
    have hx := x.position.isLt
    simp only [encodePlan, bList, encodePlanStep, b8, List.length_singleton, List.flatMap_cons, List.flatMap_nil, List.append_nil,
      List.cons_append, List.nil_append, List.cons.injEq] at h
    have := congrArg BitVec.toNat h.2.1
    simp only [BitVec.toNat_ofNat] at this
    omega
  | _ :: _ :: rest, _ =>
    have := congrArg List.length h
    simp [encodePlan, bList, encodePlanStep, b8] at this

theorem order_not_encoded (fs : List Feeder) (hf : fs.Nodup) : encodeBusOrder fs ≠ [0x02#8, 0x03#8, 0x03#8] := by
  rintro h
  match fs, hf with
  | [], _ | [_], _ => simp [encodeBusOrder, bList, b8] at h
  | [a, b], hf =>
    simp only [encodeBusOrder, bList, b8, List.length_cons, List.length_nil, List.flatMap_cons, List.flatMap_nil, List.append_nil,
      List.cons_append, List.nil_append, List.cons.injEq] at h
    have ha := congrArg BitVec.toNat h.2.1
    have hb := congrArg BitVec.toNat h.2.2.1
    simp only [BitVec.toNat_ofNat] at ha hb
    have : a = b := Fin.ext (by omega)
    simp [this] at hf
  | _ :: _ :: _ :: rest, _ =>
    have := congrArg List.length h
    simp [encodeBusOrder, bList, b8] at this

theorem test_witness_LoadsRefusedTablesRead_lengths :
    (bare.Ready rq ∧ bare.Still) ∧ (line.Ready rq ∧ line.Still)
      ∧ (List.replicate 6 (0#8 : Byte)).length ≠ 7 ∧ 8 ≤ (0x08#8 : Byte).toNat ∧ 64 ≤ (0x40#8 : Byte).toNat
      ∧ [0x01#8, 0x01#8].length ≠ 1 + 2 * byteAt [0x01#8, 0x01#8] 0 ∧ [0x02#8, 0x01#8].length ≠ 1 + byteAt [0x02#8, 0x01#8] 0 :=
  ⟨⟨bare_ready, bare_still⟩, ⟨line_ready, line_calm.toStill⟩, by decide⟩

theorem test_witness_LoadsRefusedTablesRead_streams :
    line.mode 0 ≠ .outOfService ∧ hunting.involves 0 = true
      ∧ (bare.mode 0 = .outOfService ∧ bare.involves 0 = false ∧ byteAt (0x02#8 :: List.replicate 6 0#8) 0 ≠ 0
        ∧ ∀ x p, x.Valid → p.Valid 0 → encodeFeeder (x, p) ≠ 0x02#8 :: List.replicate 6 0#8)
      ∧ (line.stream 0).source = some (u16At [0x01#8, 0x30#8, 0x00#8] 1)
      ∧ (line.slot 0).loaded = some breaker ∧ breaker.address = u16At [0x01#8, 0x41#8, 0x00#8] 1
      ∧ u16At [0x01#8, 0x7E#8, 0x00#8] 1 = line.link.table.address
      ∧ ((busHunting .settling []).ctx.state ≠ .idle ∧ (busHunting .settling []).ctx.observed = some .displacement)
      ∧ (¬ (bare.ctx.state ≠ .idle ∧ bare.ctx.observed = some .displacement)
        ∧ ∀ (x : StreamFields) (p : BusPlant), x.Valid → p.Valid → encodeBus (x, p) ≠ 0x02#8 :: List.replicate 6 0#8) :=
  ⟨by decide +kernel, by decide +kernel, ⟨by decide +kernel, by decide +kernel, by decide, fun _ _ _ _ => (not_encoded _ rfl).1 _⟩,
    by decide +kernel, by decide +kernel, by decide +kernel, by decide +kernel, by decide +kernel,
    by decide +kernel, fun _ _ _ _ => (not_encoded _ rfl).2.1 _⟩

theorem test_witness_LoadsRefusedTablesRead_slots :
    ((line.slot 1).state = .inService ∧ (bare.slot 0).state = .empty ∧ SlotId.position 0 = 0
        ∧ bare.mode (SlotId.feeder 0) = .outOfService ∧ ∀ l : Loaded, encodeOutstation l ≠ 0x02#8 :: List.replicate 9 0#8)
      ∧ (line.entry 0).active = some 0
      ∧ ((∀ e, ¬ ((bare.entry e).active = some 0 ∨ (bare.entry e).pend = some 0))
        ∧ (∀ p : Profile, encodeProfile p ≠ 0x02#8 :: List.replicate 49 0#8) ∧ profA.Valid ∧ profA.ph.enable = true
        ∧ bare.curve profA.ph.curve = none)
      ∧ (line.profile 0 = some profA ∧ profA.ph.curve = 0)
      ∧ (∀ c, encodeCurve c ≠ 0x02#8 :: List.replicate 610 0#8) :=
  ⟨⟨by decide +kernel, by decide +kernel, by decide, by decide +kernel, (not_encoded _ rfl).2.2.1⟩, by decide +kernel,
    ⟨by decide +kernel, (not_encoded _ rfl).2.2.2.1, profA_valid, rfl, by decide +kernel⟩, ⟨by decide +kernel, rfl⟩,
    (not_encoded _ rfl).2.2.2.2⟩

theorem test_witness_LoadsRefusedTablesRead :
    (hunting.involves 0 = true ∧ bare.involves 0 = false ∧ (∀ p, planValid p → encodePlan p ≠ [0x01#8, 0x00#8, 0x00#8]))
      ∧ (encodePlan [⟨1, some 7⟩] = [0x01#8, 0x01#8, 0x07#8]
        ∧ ((bare.slot (Feeder.slot 0 7)).loaded.any fun l => l.kind == .indicator) = false)
      ∧ ((busHunting .settling []).ctx.kind = some .bus ∧ ∀ fs : List Feeder, fs.Nodup → encodeBusOrder fs ≠ [0x02#8, 0x03#8, 0x03#8])
      ∧ (u16At (encodeLink { linked with address := 0xFFFF#16 }) 0 = 0xFFFF#16
        ∧ byteAt (encodeLink { linked with sources := [1, 2, 3, 4, 5] }) 4 = 5
        ∧ u16At (encodeLink { linked with sources := [7, 7] }) 5 = u16At (encodeLink { linked with sources := [7, 7] }) 7
        ∧ (encodeLink linked).length = 21) :=
  ⟨⟨by decide +kernel, by decide +kernel, plan_not_encoded⟩, by decide +kernel, ⟨by decide +kernel, order_not_encoded⟩,
    by decide +kernel⟩

/-- 8.5.3: a kind in a READ_STATE payload counts from 00h, so a TRIP in flight is 00h; R123: the hunt context's settle expiry stands in
its place, between open point and last-above. -/
theorem test_snapshot_places :
    (encodeSlot ((flying .inService .trip 0).slot 0)).getLast? = some 0x00#8
      ∧ encodeContext hunting.ctx
        = [2, 1, 1, 1, 0, 0xFF, 0, 0, 0, 27, 1, 0, 0, 0, 0, 8, 0x34, 0, 0, 0, 0, 7, 0xD0, 1, 0xFF, 0] := by decide +kernel

theorem test_witness_ReadsChangeNothing :
    line.Ready rq ∧ (line.tableRecord 0x06#8 0x00#8).isSome = true ∧ line.tableRecord 0x06#8 0x08#8 = none
      ∧ line.tableRecord 0x09#8 0x00#8 = none := ⟨line_ready, by decide +kernel⟩

theorem test_witness_SelectProfileApplies :
    (line.Ready rq ∧ line.Calm ∧ entrySetOf 0x0001#16 = [0] ∧ line.profile 1 = some profB ∧ line.curveMissing profB = false
      ∧ (line.entry 0).active = some 0 ∧ line.profile 0 = some profA ∧ profB.fireLevel < profA.fireLevel ∧ line.quiet 0 = true)
      ∧ (entrySetOf 0x0100#16 = [busEntry] ∧ (line.entry busEntry).active = none)
      ∧ (((line.setRecl 0 ⟨.reclaim 1 0, {}⟩).entry 0).active = some 0 ∧ (line.setRecl 0 ⟨.reclaim 1 0, {}⟩).quiet 0 = false) :=
  ⟨⟨line_ready, line_calm, by decide +kernel⟩, by decide +kernel⟩

theorem test_witness_BlocksJoinAndLeave :
    line.Ready rq ∧ line.Calm
      ∧ ((dead.recl 0).state = .deadTime 1 500 ∧ (dead.recl 0).reasons.has .manual = false ∧ dead.Ready rq ∧ dead.Calm) :=
  ⟨line_ready, line_calm, by decide +kernel, by decide +kernel, ⟨rfl, rfl, rfl, by decide +kernel⟩,
    ⟨⟨rfl, by decide +kernel, rfl⟩, rfl⟩⟩

/-- The line's follower in a block state under a set, with a command in flight or none. -/
def following (st : FollowerState) (reasons : Reasons) (k : Option CmdKind) : State :=
  (((later 5000).setSlot 1 { served recloser with
      inFlight := k.map fun k => ⟨{ kind := k, origin := .reclose }, 7, 6000, 0⟩ }).setFollower 1 ⟨st, none⟩).setRecl 0
    ⟨.ready, reasons⟩

theorem test_witness_BlocksJoinAndLeave_followers :
    ((following .none {} none).Ready rq ∧ (following .none {} none).Calm ∧ SlotId.feeder 1 = 0
      ∧ ((following .none {} none).slot 1).loaded = some recloser ∧ recloser.follower = true ∧ recloser.kind = .recloser
      ∧ ((following .none {} none).recl 0).reasons.isEmpty = true ∧ ((following .none {} none).follower 1).state = .none
      ∧ ((following .none {} none).slot 1).state = .inService ∧ ((following .none {} none).slot 1).queued (· == .block) = false
      ∧ ((following .none {} none).slot 1).flying (· == .block) = false)
      ∧ ((following .releasePending {} (some .block)).slot 1).flying (· == .block) = true
      ∧ (((following .none {} none).setSlot 1 { served recloser with
          queue := [{ kind := .block, origin := .reclose }] }).slot 1).queued (· == .block) = true
      ∧ ((following .blocked { manual := true } none).Ready rq ∧ (following .blocked { manual := true } none).Calm)
      ∧ ((following .blocked { manual := true } none).recl 0).reasons.has .manual = true
      ∧ (((following .blocked { manual := true } none).recl 0).reasons.put false .manual).isEmpty = true
      ∧ ((following .blocked { manual := true } none).follower 1).state = .blocked
      ∧ ((following .blocked { manual := true } none).slot 1).queued (· == .release) = false
      ∧ ((following .blockPending { manual := true } (some .release)).slot 1).flying (· == .release) = true :=
  ⟨⟨⟨rfl, rfl, rfl, by decide +kernel⟩, ⟨⟨rfl, by decide +kernel, rfl⟩, rfl⟩, by decide +kernel⟩, by decide +kernel, by decide +kernel,
    ⟨⟨rfl, rfl, rfl, by decide +kernel⟩, ⟨⟨rfl, by decide +kernel, rfl⟩, rfl⟩⟩, by decide +kernel⟩

/-- R96, R98: BLOCK and RELEASE are sent; R109: where the same word is in flight the command completes at once. -/
theorem test_followers_follow :
    let sent (s : State) := (s.slot 1).inFlight.map fun f => f.cmd.kind
    sent (after (.setBlock rq 0x00#8 0x01#8) (following .none {} none)) = some .block
      ∧ sent (after (.clearBlock rq 0x00#8 0x01#8) (following .blocked { manual := true } none)) = some .release
      ∧ ((after (.setBlock rq 0x00#8 0x01#8) (following .releasePending {} (some .block))).follower 1)
        = ⟨.blocked, some 15000⟩ := by decide +kernel

theorem test_witness_SetModeChanges :
    (line.Ready rq ∧ line.Calm ∧ modeOf 0x02#8 = some .outOfService ∧ modeOf 0x01#8 = some .test ∧ line.mode 0 = .inService
      ∧ (line.recl 0).state.cycling = false)
      ∧ (let s := (line.setMode 0 .outOfService).setRecl 0 ⟨.off, {}⟩
         s.mode 0 = .outOfService ∧ s.mayServe 0 = true ∧ (s.recl 0).state.cycling = false) :=
  ⟨⟨line_ready, line_calm, by decide +kernel⟩, by decide +kernel⟩

theorem test_witness_SetServiceChanges :
    (line.Ready rq ∧ (line.slot 1).state = .inService ∧ (line.slot 1).inFlight = none ∧ SlotId.position 1 ≠ 0
      ∧ line.isOpenPoint 1 = false)
      ∧ (let s := line.setSlot 1 { Outstation.reset with state := .outOfService, loaded := some recloser }
         (s.slot 1).state = .outOfService ∧ (s.slot 1).loaded = some recloser) :=
  ⟨⟨line_ready, by decide +kernel⟩, by decide +kernel⟩

theorem test_witness_OperateIsDeferred :
    line.Ready rq ∧ line.isOpenPoint 0 = false ∧ line.mode (SlotId.feeder 0) ≠ .test
      ∧ line.operateCheck (SlotId.feeder 0) .opn = none
      ∧ (line.setRecl 0 ⟨.lockout .manualOpen, {}⟩).operateCheck (SlotId.feeder 0) .close = none
      ∧ (line.slot 0).state = .inService
      ∧ ((line.slot 0).loaded.any fun l => l.kind == .breaker || l.kind == .recloser || l.kind == .sectionaliser) = true
      ∧ ∀ c ∈ (line.slot 0).queue, c.kind.isSwitch = false := ⟨line_ready, by decide +kernel⟩

theorem test_witness_ResetLockoutReadies :
    (let s := line.setRecl 0 ⟨.lockout .finalTrip, { sefLock := true }⟩
     s.Ready rq ∧ s.Calm ∧ (s.recl 0).state = .lockout .finalTrip ∧ (s.slot (Feeder.head 0)).known = .closed)
      ∧ ((line.setSlot 0 { served breaker with known := .opened }).slot (Feeder.head 0)).known ≠ .closed :=
  ⟨⟨⟨rfl, rfl, rfl, by decide +kernel⟩, ⟨⟨rfl, by decide +kernel, rfl⟩, rfl⟩, by decide +kernel⟩, by decide +kernel⟩

theorem test_witness_AckAndClear :
    line.Ready rq ∧ (line.element 0).sefC = (line.element 0).sefR
      ∧ (leaking.Ready rq ∧ (leaking.element 0).sefC ≠ (leaking.element 0).sefR) :=
  ⟨line_ready, by decide +kernel, ⟨rfl, rfl, rfl, by decide +kernel⟩, by decide +kernel⟩

/-- R49: armed while C and R differ, the element reports at once. -/
theorem test_ack_reports :
    (after (.ackSef rq 0x00#8) leaking).mgmt.notices.map NoticeItem.notice = [.sefChange 0 .pickedUp none] := by decide +kernel

theorem test_witness_SaveRestartUnknown :
    bare.Ready rq ∧ requestCommand rq 0x12#8 [] = .unknownRequest rq 0x12#8 []
      ∧ requestCommand rq 0x0E#8 [0x00#8] = .unknownRequest rq 0x0E#8 [0x00#8] := ⟨bare_ready, rfl, rfl⟩

/-- R180: the line's image: LINK, the entry, two outstations, two profiles, a curve, a plan and the STATE record. -/
theorem test_image_records :
    line.imageRecords.map (fun x => (x.1.toNat, x.2.1.toNat))
      = [(1, 0), (3, 0), (3, 1), (5, 0), (4, 0), (4, 1), (6, 0), (8, 0), (9, 0)] := by decide +kernel

theorem test_witness_ClassifyTable :
    (line.stream 0).lastSeq = some 31 ∧ 32767 = ((32798 : U16).toNat + (65536 - (31 : U16).toNat)) % 65536
      ∧ 32768 = ((32799 : U16).toNat + (65536 - (31 : U16).toNat)) % 65536 ∧ (silent.stream 0).lastSeq = none := by decide +kernel

theorem test_witness_InverseTimeElement :
    profA.ph.enable = true ∧ profA.ph.ip ≤ 300 ∧ 299 < profA.ph.ip
      ∧ 0 < increment (List.replicate 305 2061) profA.ph.tms (ratioIndex 300 profA.ph.ip) := by decide

theorem test_witness_SwitchAdmission :
    (line.slot 0).state = .inService ∧ (line.slot 0).loaded = some breaker ∧ CmdKind.permittedFor .opn breaker.kind = true
      ∧ (∀ q ∈ (line.slot 0).queue, q.kind ≠ .opn ∧ q.kind ≠ .close)
      ∧ ∃ q ∈ ((queued 0 .close).slot 0).queue, q.kind = .opn ∨ q.kind = .close := by decide +kernel

theorem test_witness_FailedTripLocksOut :
    let s := (line.setElement 0 { ElementRecord.reset with latch := some ⟨{ highSet := true }, none⟩ }).setRecl 0
      ⟨.tripping 0 (some .finalTrip), {}⟩
    (s.element 0).latch ≠ none ∧ (s.recl 0).state = .tripping 0 (some .finalTrip) ∧ Completion.isDone .timeout = false := by
  decide +kernel

theorem test_witness_RecordCheckIsCorrect :
    let s := imaged ⟨.records 1, 4, 0, [], 0, false⟩
    SerialMemory.bytes s.serial 4 4 = [9#8, 0#8, 0#8, 2#8] ∧ wordAt [9#8, 0#8, 0#8, 2#8] 2 ≤ 611
      ∧ ((([9#8, 0#8, 0#8, 2#8] ++ [1#8, 2#8] : List Byte).map BitVec.toNat).sum
        + wordAt (SerialMemory.bytes s.serial 10 2) 0) % 65536 = 0 := by decide +kernel

end Sys2Proof.Tests
end

section
/-! Phasor arithmetic (R23 to R27): every stage from a window to a phasor is odd, but the magnitude, which is even. -/

namespace Sys2Proof.Machine

/-! ### Rounding (R24) -/

theorem roundComponent_of_nonneg {x : Int} (hx : 0 ≤ x) : roundComponent x = (x + 131072) / 262144 :=
  if_pos hx

theorem roundComponent_of_neg {x : Int} (hx : x < 0) : roundComponent x = -((-x + 131072) / 262144) :=
  if_neg (Int.not_le.mpr hx)

/-- Halves away from zero is what makes rounding odd; rounding them up would not be. -/
@[simp] theorem roundComponent_neg (x : Int) : roundComponent (-x) = -roundComponent x := by
  obtain hx | rfl | hx := Int.lt_trichotomy x 0
  · rw [roundComponent_of_nonneg (by omega), roundComponent_of_neg hx, Int.neg_neg]
  · rfl
  · rw [roundComponent_of_neg (by omega), roundComponent_of_nonneg hx.le, Int.neg_neg]

/-- The rounded quotient is a nearest integer: it is off by at most half a divisor. -/
theorem two_mul_natAbs_roundComponent_sub_le (x : Int) :
    2 * (262144 * roundComponent x - x).natAbs ≤ 262144 := by
  obtain hx | hx := Int.lt_or_le x 0
  · rw [roundComponent_of_neg hx]; omega
  · rw [roundComponent_of_nonneg hx]; omega

/-! ### The other stages (R23, R25, R26) -/

@[simp] theorem dot_map_neg : ∀ xs cs : List Int, dot (xs.map (- ·)) cs = -dot xs cs
  | [], _ => rfl
  | _ :: _, [] => rfl
  | x :: xs, c :: cs => by
    simp only [List.map_cons, dot, dot_map_neg xs cs]
    ring

@[simp] theorem clampComponent_neg (x : Int) : clampComponent (-x) = -clampComponent x := by
  simp only [clampComponent, Config.componentLimit]
  omega

@[simp] theorem magnitude_neg_neg (re im : Int) : magnitude (-re) (-im) = magnitude re im := by
  simp only [magnitude, neg_mul_neg]

/-! ### The phasor of a negated window -/

/-- A window of the opposite sign turns the phasor by half a turn, whatever the coefficient tables. -/
theorem phasor_map_neg (c sn xs : List Int) :
    phasor c sn (xs.map (- ·)) = ⟨-(phasor c sn xs).re, -(phasor c sn xs).im, (phasor c sn xs).mag⟩ := by
  simp only [phasor, phasorOf, dot_map_neg, roundComponent_neg, clampComponent_neg, magnitude_neg_neg]

/-- Settles O56: rounding is odd and off by at most a half, and both phasors of a window take its sign. -/
theorem roundingIsSymmetric : Obligations.RoundingIsSymmetric := by
  refine ⟨fun _ => roundComponent_of_nonneg, fun x _ => ?_, two_mul_natAbs_roundComponent_sub_le, fun xs => ?_⟩
  · rw [roundComponent_neg, Int.neg_neg]
  · simp only [fundamental, secondHarmonic, phasor_map_neg, and_self]

end Sys2Proof.Machine
end

section
/-! The capacities of accumulators, histories, store, queues and hunt list (R40, R43, R57, R129, R159, R170), and one
inverse-time accumulator from set to set (R39 to R41). -/

namespace Sys2Proof.Machine

/-! ### Capacities -/

/-- Settles O7: a step is a chain of acts, and every act keeps each capacity. -/
theorem capacitiesStayKept : Obligations.CapacitiesStayKept := by
  constructor
  · intro s t he ht h
    have ha := acts_step s t h
    exact ⟨acts_keep _ elementsOk_act ha he, acts_keep _ tripsOk_act ha ht⟩
  · intro s t hq hl h
    have ha := acts_step s t h
    exact ⟨acts_keep _ queuesOk_act ha hq, acts_keep _ huntListOk_act ha hl⟩

/-! ### One accumulator (R39 to R41) -/

/-- Picked up and not held, an accumulator advances (R39, R40). -/
theorem itStep_pickedUp {x : ItSettings} {m : Nat} (rates : List Nat) (acc : Nat) (he : x.enable = true) (hm : x.ip ≤ m) :
    (itStep x rates false m acc).1 = advance x rates m acc ∧ (itStep x rates false m acc).2.1 = true := by
  simp [itStep, he, hm]

/-- Picked up and not held, an accumulator operates when it reaches the top from below (R40). -/
theorem itStep_operates_iff {x : ItSettings} {m : Nat} (rates : List Nat) (acc : Nat) (he : x.enable = true) (hm : x.ip ≤ m) :
    (itStep x rates false m acc).2.2 = true
      ↔ acc < Config.accumulatorTop ∧ advance x rates m acc = Config.accumulatorTop := by
  simp [itStep, he, hm]

/-- Below pickup and not held, an accumulator falls (R41). -/
theorem itStep_dropped {x : ItSettings} {m : Nat} (rates : List Nat) (acc : Nat) (he : x.enable = true) (hm : m < x.ip) :
    itStep x rates false m acc = (resetAccumulator x acc, false, false) := by
  simp [itStep, he, Nat.not_le.2 hm]

/-- Under a steady current an accumulator that starts at 0 holds n increments after n sets, up to the top (R40). -/
theorem iterate_advance (x : ItSettings) (rates : List Nat) (m n : Nat) :
    (advance x rates m)^[n] 0 = min Config.accumulatorTop (n * increment rates x.tms (ratioIndex m x.ip)) := by
  induction n with
  | zero => simp
  | succ n ih =>
    rw [Function.iterate_succ_apply', ih, advance, Nat.add_one_mul]
    omega

/-- n whole increments stay below a bound that n + 1 reach exactly when n + 1 is the bound divided by the increment, rounded up. -/
theorem reached_iff_ceil {top inc n : Nat} (hinc : 0 < inc) :
    n * inc < top ∧ top ≤ (n + 1) * inc ↔ n + 1 = (top + inc - 1) / inc := by
  rw [eq_comm, Nat.div_eq_iff hinc, Nat.add_one_mul]
  omega

/-- Settles O57: the two branches of a set, and the closed form of the accumulator under a steady current. -/
theorem inverseTimeElement : Obligations.InverseTimeElement := by
  constructor
  · intro x rates m acc he _
    constructor
    · intro hm
      obtain ⟨hacc, hpick⟩ := itStep_pickedUp rates acc he hm
      exact ⟨hacc, hpick, by rw [hacc]; exact itStep_operates_iff rates acc he hm⟩
    · exact itStep_dropped rates acc he
  · intro x rates m n he hm hinc acc
    have hstep : (fun a => (itStep x rates false m a).1) = advance x rates m :=
      funext fun a => (itStep_pickedUp rates a he hm).1
    have hacc : acc n = min Config.accumulatorTop (n * increment rates x.tms (ratioIndex m x.ip)) := by
      simp only [acc, hstep, iterate_advance]
    rw [hacc, itStep_operates_iff rates _ he hm, ← reached_iff_ceil hinc, advance, Nat.add_one_mul]
    simp only [Config.accumulatorTop]
    omega

end Sys2Proof.Machine
end

section
/-! The bus delay timer (R50, R52). -/

namespace Sys2Proof.Machine

/-- Once the detector has operated, the rest of the event is a chain of primitive changes (R52). -/
theorem moves_ndExpired (s : State) :
    Moves (fun _ => True) (s.setNd { s.bank.nd with timer := .stopped, operated := true }) s.ndExpired := by
  unfold State.ndExpired
  generalize s.setNd _ = s1
  have hoffer : Moves (fun _ => True) s1 (if s1.ndResult == .huntPlaced then s1.offerTrigger busEntry else s1) :=
    moves_ite (moves_offerTrigger trivial _ _) .rfl
  have hnotice (n : Notice) (b : Bool) := (moves_notify _ n b).peel hoffer
  exact moves_ite ((moves_servePendingHunts working_all _).peel (hnotice _ _)) (hnotice _ _)

/-- What the end of an event settles and sends is a chain of primitive changes. -/
theorem moves_conclude72 (s0 s : State) : Moves (fun _ => True) s (State.conclude72 s0 s) :=
  (moves_settle working_all trivial trivial s).trans (moves_finish trivial trivial s0 _)

theorem ndDue_iff (s : State) : s.ndDue = true ↔ ∃ n, s.bank.nd.timer = .running n ∧ n ≤ s.time := by
  unfold State.ndDue
  split <;> simp_all

/-- Settles O28: the detector changes first, and nothing later in the event touches it. -/
theorem busDelayOperates : Obligations.BusDelayOperates := by
  intro s hheld
  constructor
  · intro n hrun hn
    have hdue : s.ndDue = true := (ndDue_iff s).2 ⟨n, hrun, hn⟩
    refine ⟨State.conclude72 s s.ndExpired, ?_, ?_⟩
    · simp [exec, execBusDelayExpiry, State.unlessHeld, hheld, hdue]
    · exact fixed_moves ((moves_ndExpired s).trans (moves_conclude72 s _))
  · intro hlater
    have hdue : ¬ s.ndDue = true := fun h => by
      obtain ⟨n, hrun, hn⟩ := (ndDue_iff s).1 h
      exact absurd (hlater n hrun) (Nat.not_lt.2 hn)
    simp [exec, execBusDelayExpiry, State.unlessHeld, hheld, hdue]

end Sys2Proof.Machine
end

section
/-! Requests that are answered as they arrive (R160, R161): what the answer of an owner becomes, and the three reads. -/

namespace Sys2Proof.Machine

/-! ### Frames of the port relation -/

theorem State.PortKept.refl (s : State) : s.PortKept s := ⟨rfl, rfl, fun _ h => h, rfl⟩

theorem State.PortKept.trans {s t u : State} (h : s.PortKept t) (h' : t.PortKept u) : s.PortKept u :=
  ⟨h'.table.trans h.table, h'.log.trans h.log, fun f hf => h'.frames f (h.frames f hf), h'.engineOk.trans h.engineOk⟩

/-- The arrival of a request touches neither the port nor the outputs. -/
theorem portKept_arrived (s : State) (req : RequestId) (kind : Byte) (params : List Byte) :
    s.PortKept (s.arrived req kind params) := ⟨rfl, rfl, fun _ h => h, rfl⟩

/-! ### An answer given at once -/

/-- What an owner leaves when it answers a request at once: its state, in which the request is still the only entry, the Exchange
is as before, and nothing is settled at the end of the event. -/
structure State.OwnerLeaves (s u : State) (req : RequestId) (kind : Byte) (params : List Byte) (settles : Bool) : Prop where
  requests : u.mgmt.requests = [s.newEntry req kind params]
  ticket : u.mgmt.nextTicket = s.mgmt.nextTicket + 1
  exchange : u.exchange = s.exchange
  port : s.PortKept u
  settled : settles = true → u.settle = u

/-- What an owner leaves, after which only the reply and the outputs are to come. -/
structure State.RepliedFrom (s u t : State) (req : RequestId) (kind : Byte) (params : List Byte) (r : Result)
    (payload : List Byte) : Prop where
  answered : s.Answered t req kind params r payload
  port : s.PortKept t
  noNotice : u.NoNotice t
  rest : t = { u with link := t.link, mgmt := t.mgmt, outputs := t.outputs }

/-- A request that is served as it arrives and answered at once: the reply is handed, the outputs follow, and nothing else comes
after what the owner has done. -/
theorem requestEvent_replies {s u : State} {req : RequestId} {kind : Byte} {params : List Byte} {settles : Bool}
    {owner : Nat → State → Served} {r : Result} {payload : List Byte} (hr : s.Ready req)
    (ho : owner s.mgmt.nextTicket (s.arrived req kind params) = (u, some (r, payload)))
    (hu : s.OwnerLeaves u req kind params settles) :
    s.RepliedFrom u (s.requestEvent req kind params settles owner) req kind params r payload := by
  obtain ⟨hentry, hreply, hrest, hnotice, hticket⟩ := replyTo_only u (s.newEntry req kind params) r payload (by
    simp [hu.requests, ReqEntry.request, State.newEntry])
  have hport := hu.port.trans (portKept_moves (moves_replyTo (μ := fun _ => True) trivial u s.mgmt.nextTicket r payload))
  have hexchange : (u.replyTo s.mgmt.nextTicket r payload).exchange = s.exchange :=
    (congrArg State.exchange hrest).trans hu.exchange
  have hrun : s.requestEvent req kind params settles owner = (u.replyTo s.mgmt.nextTicket r payload).refreshOutputs := by
    rw [requestEvent_ready s req kind params settles owner hr, ← finish_same s _ hexchange]
    unfold State.serveEntry
    rw [ho]
    cases settles
    · rfl
    · simp [hu.settled rfl, State.giveReply]
  rw [hrun]
  refine ⟨⟨⟨hentry, hticket.trans hu.ticket⟩, ?_⟩, ⟨hport.table, hport.log, hport.frames, hport.engineOk⟩, hnotice, ?_⟩
  · change (u.replyTo s.mgmt.nextTicket r payload).link.Holds
      (.reply _ _ (u.replyTo s.mgmt.nextTicket r payload).link.table.address _ _ r payload)
    rw [hport.table, ← hu.port.table]
    exact hreply
  · exact congrArg
      (fun v : State => { v with outputs := (u.replyTo s.mgmt.nextTicket r payload).refreshOutputs.outputs }) hrest

/-! ### The reads (R58, R162, R167 to R169) -/

/-- An owner that changes nothing leaves the request as it arrived. -/
theorem ownerLeaves_arrived (s : State) (req : RequestId) (kind : Byte) (params : List Byte) :
    s.OwnerLeaves (s.arrived req kind params) req kind params false :=
  ⟨rfl, rfl, rfl, portKept_arrived s req kind params, fun h => by cases h⟩

/-- A request whose owner reads the state and changes nothing. -/
theorem requestEvent_reads {s : State} {req : RequestId} {kind : Byte} {params : List Byte}
    {owner : Nat → State → Served} {r : Result} {payload : List Byte} (hr : s.Ready req)
    (ho : owner s.mgmt.nextTicket (s.arrived req kind params) = (s.arrived req kind params, some (r, payload))) :
    ∃ t, (Host.Outcome.next (s.requestEvent req kind params false owner) : Host.Outcome State Fault Refusal) = .next t
      ∧ s.Answered t req kind params r payload ∧ s.NoNotice t ∧ s.PortKept t ∧ s.SameBut t := by
  have h := requestEvent_replies hr ho (ownerLeaves_arrived s req kind params)
  exact ⟨_, rfl, h.answered, h.noNotice, h.port, h.rest⟩

/-- A byte that holds a number below a bound is that index. -/
theorem indexOf_ofNat {n : Nat} (hn : n ≤ 256) (i : Fin n) : indexOf n (BitVec.ofNat 8 i.val) = some i := by
  have hi : (BitVec.ofNat 8 i.val).toNat = i.val := by rw [BitVec.toNat_ofNat]; omega
  simp [indexOf, hi]

theorem withFeeder_ofNat (s : State) (f : Feeder) (g : Feeder → Served) : withFeeder s (BitVec.ofNat 8 f.val) g = g f := by
  rw [withFeeder, indexOf_ofNat (by decide) f]

/-- No part of a table record is about the requests. -/
theorem tableRecord_arrived (s : State) (req : RequestId) (kind : Byte) (params : List Byte) (table index : Byte) :
    (s.arrived req kind params).tableRecord table index = s.tableRecord table index := rfl

/-- The request being served counts as REPLYING (R168). -/
theorem busSnapshot_arrived (s : State) (req : RequestId) (kind : Byte) (params : List Byte) :
    (s.arrived req kind params).busSnapshot s.mgmt.nextTicket
      = ({ s with mgmt := { s.mgmt with requests := [⟨s.mgmt.nextTicket, req, kind, params, .replying .ok⟩] } } :
          State).busSnapshot s.mgmt.nextTicket := by
  have hcount : (s.arrived req kind params).countEntries s.mgmt.nextTicket
      = ({ s with mgmt := { s.mgmt with requests := [⟨s.mgmt.nextTicket, req, kind, params, .replying .ok⟩] } } :
          State).countEntries s.mgmt.nextTicket := by
    simp [State.countEntries, State.arrived, State.newEntry]
  unfold State.busSnapshot
  rw [hcount]
  rfl

/-- Settles O46: each owner answers with a reading of the state. -/
theorem readsChangeNothing : Obligations.ReadsChangeNothing := by
  intro s req hr
  refine ⟨fun table index r h => ?_, fun table index h => ?_, fun f => ?_, ?_, ?_⟩
  · exact requestEvent_reads hr (by rw [serveRead, tableRecord_arrived, h])
  · exact requestEvent_reads hr (by rw [serveRead, tableRecord_arrived, h]; rfl)
  · exact requestEvent_reads hr (withFeeder_ofNat _ f _)
  · rw [← busSnapshot_arrived]
    exact requestEvent_reads hr rfl
  · exact requestEvent_reads hr rfl

end Sys2Proof.Machine
end

section
/-! The records of PROFILE, CURVE, HUNT_PLAN and BUS_ORDER read back (R158): a decoder finds in an encoded record what was written,
where it is in range. -/

namespace Sys2Proof.Machine

/-! ### Bytes -/

theorem toNat_byte {n : Nat} (h : n ≤ 255) : (BitVec.ofNat 8 n).toNat = n := by
  rw [BitVec.toNat_ofNat]; omega

/-- Two bytes, most significant first, hold a 16-bit number. -/
theorem toNat_word {n : Nat} (h : n ≤ 65535) :
    (BitVec.ofNat 8 (n / 256)).toNat * 256 + (BitVec.ofNat 8 n).toNat = n := by
  simp only [BitVec.toNat_ofNat]; omega

theorem toNat_flag (x : Bool) : (BitVec.ofNat 8 (if x then 1 else 0)).toNat = x.toNat := by
  cases x <;> rfl

theorem byteAt_drop (r : List Byte) (o i : Nat) : byteAt (r.drop o) i = byteAt r (o + i) := by
  simp [byteAt]

theorem flagOk_of_byteAt {r : List Byte} {i : Nat} {x : Bool} (h : byteAt r i = x.toNat) : flagOk r i = true := by
  simp [flagOk, h, Bool.toNat_le]

theorem flagAt_of_byteAt {r : List Byte} {i : Nat} {x : Bool} (h : byteAt r i = x.toNat) : flagAt r i = x := by
  cases x <;> simp [flagAt, h]

theorem within_iff (lo hi n : Nat) : within lo hi n = true ↔ lo ≤ n ∧ n ≤ hi := by simp [within]

/-! ### PROFILE -/

/-- The seven bytes of PH_IT or EF_IT at an offset of a record. -/
structure ItBytes (r : List Byte) (o : Nat) (x : ItSettings) : Prop where
  enable : byteAt r o = x.enable.toNat
  ip : wordAt r (o + 1) = x.ip
  curve : byteAt r (o + 3) = x.curve.val
  tms : byteAt r (o + 4) = x.tms
  timed : byteAt r (o + 5) = x.timed.toNat
  resetTime : byteAt r (o + 6) = x.resetTime

theorem itBytes_of_drop {r ys : List Byte} {o low top : Nat} {x : ItSettings} (hr : r.drop o = encodeIt x ++ ys)
    (hx : x.Valid low top) (htop : top ≤ 65535) : ItBytes r o x := by
  obtain ⟨_, hip, _, htms, _, hreset⟩ := hx
  have hat (i : Nat) : byteAt r (o + i) = byteAt (encodeIt x ++ ys) i := by rw [← byteAt_drop, hr]
  refine ⟨(hat 0).trans (toNat_flag _), ?_, (hat 3).trans (toNat_byte (by omega)), (hat 4).trans (toNat_byte (by omega)),
    (hat 5).trans (toNat_flag _), (hat 6).trans (toNat_byte (by omega))⟩
  rw [wordAt, hat 1, Nat.add_assoc, hat 2]
  exact toNat_word (by omega)

theorem itOk_of_itBytes {r : List Byte} {o low top : Nat} {x : ItSettings} (h : ItBytes r o x) (hx : x.Valid low top) :
    itOk r o low top = true := by
  obtain ⟨hlow, htop, htms, htms', hreset, hreset'⟩ := hx
  have hcurve : x.curve.val ≤ 3 := by omega
  simp [itOk, flagOk_of_byteAt h.enable, flagOk_of_byteAt h.timed, h.ip, h.curve, h.tms, h.resetTime, within_iff, *]

theorem itAt_of_itBytes {r : List Byte} {o : Nat} {x : ItSettings} (h : ItBytes r o x) : itAt r o = x := by
  have hcurve : bankAt r (o + 3) = x.curve := Fin.ext (by simp only [bankAt, h.curve]; exact Nat.mod_eq_of_lt x.curve.isLt)
  simp [itAt, flagAt_of_byteAt h.enable, flagAt_of_byteAt h.timed, h.ip, h.tms, h.resetTime, hcurve]

theorem sefActionOf_code (a : SefAction) : sefActionOf a.code = a := by cases a <;> rfl

theorem sefAction_code_le (a : SefAction) : a.code ≤ 2 := by cases a <;> decide

/-- What stands at each place of a PROFILE record (4.1.1, 8.5.4). -/
structure ProfileBytes (r : List Byte) (p : Profile) : Prop where
  present : byteAt r 0 = true.toNat
  fireLevel : byteAt r 1 = p.fireLevel
  ph : ItBytes r 2 p.ph
  ef : ItBytes r 9 p.ef
  hsEnable : byteAt r 16 = p.hsEnable.toNat
  hsThreshold : wordAt r 17 = p.hsThreshold
  hsDelay : byteAt r 19 = p.hsDelay
  rstEnable : byteAt r 20 = p.rstEnable.toNat
  rstRatio : byteAt r 21 = p.rstRatio
  sefEnable : byteAt r 22 = p.sefEnable.toNat
  sefPair : byteAt r 23 = p.sefPair.toNat
  sefK : byteAt r 24 = p.sefK
  sefF : wordAt r 25 = p.sefF
  sefDelay : wordAt r 27 = p.sefDelay
  sefAction : byteAt r 29 = p.sefAction.code
  sefLock : byteAt r 30 = p.sefLock.toNat
  shots : byteAt r 31 = p.shots
  dead1 : wordAt r 32 = p.dead1
  dead2 : wordAt r 34 = p.dead2
  dead3 : wordAt r 36 = p.dead3
  dead4 : wordAt r 38 = p.dead4
  reclaim : wordAt r 40 = p.reclaim
  fireBlock : byteAt r 42 = p.fireBlock.toNat
  lossTrip : byteAt r 43 = p.lossTrip.toNat
  huntPermitted : byteAt r 44 = p.huntPermitted.toNat
  restorePermitted : byteAt r 45 = p.restorePermitted.toNat
  settle : byteAt r 46 = p.settle
  exhaustedTrip : byteAt r 47 = p.exhaustedTrip.toNat
  ndStep : byteAt r 48 = p.ndStep.val
  busHunt : byteAt r 49 = p.busHunt.toNat

theorem profileBytes_encode {p : Profile} (hp : p.Valid) : ProfileBytes (encodeProfile p) p := by
  obtain ⟨hfire, hph, hef, ⟨_, hthr, hdelay⟩, ⟨_, hrst⟩, ⟨_, hk, _, hf, _, hsef⟩,
    ⟨hshots, _, h1, _, h2, _, h3, _, h4, _, hreclaim⟩, _, hsettle⟩ := hp
  have hcode := sefAction_code_le p.sefAction
  have hstep := p.ndStep.isLt
  unfold encodeProfile
  simp only [List.append_assoc]
  exact {
    present := rfl
    fireLevel := toNat_byte (by omega)
    ph := itBytes_of_drop rfl hph (by decide)
    ef := itBytes_of_drop rfl hef (by decide)
    hsEnable := toNat_flag _
    hsThreshold := toNat_word (by omega)
    hsDelay := toNat_byte (by omega)
    rstEnable := toNat_flag _
    rstRatio := toNat_byte (by omega)
    sefEnable := toNat_flag _
    sefPair := toNat_flag _
    sefK := toNat_byte (by omega)
    sefF := toNat_word (by omega)
    sefDelay := toNat_word (by omega)
    sefAction := toNat_byte (by omega)
    sefLock := toNat_flag _
    shots := toNat_byte (by omega)
    dead1 := toNat_word (by omega)
    dead2 := toNat_word (by omega)
    dead3 := toNat_word (by omega)
    dead4 := toNat_word (by omega)
    reclaim := toNat_word (by omega)
    fireBlock := toNat_flag _
    lossTrip := toNat_flag _
    huntPermitted := toNat_flag _
    restorePermitted := toNat_flag _
    settle := toNat_byte (by omega)
    exhaustedTrip := toNat_flag _
    ndStep := toNat_byte (by omega)
    busHunt := toNat_flag _ }

theorem profileOk_of_profileBytes {r : List Byte} {p : Profile} (h : ProfileBytes r p) (hp : p.Valid) : profileOk r = true := by
  obtain ⟨hfire, hph, hef, ⟨hthr, hthr', hdelay⟩, ⟨hrst, hrst'⟩, ⟨hk, hk', hf, hf', hsef, hsef'⟩,
    ⟨hshots, h1, h1', h2, h2', h3, h3', h4, h4', hreclaim, hreclaim'⟩, hsettle, hsettle'⟩ := hp
  have hcode := sefAction_code_le p.sefAction
  have hstep : p.ndStep.val ≤ 7 := by omega
  simp only [profileOk, flagOk_of_byteAt h.present, h.fireLevel, itOk_of_itBytes h.ph hph, itOk_of_itBytes h.ef hef,
    flagOk_of_byteAt h.hsEnable, h.hsThreshold, h.hsDelay, flagOk_of_byteAt h.rstEnable, h.rstRatio,
    flagOk_of_byteAt h.sefEnable, flagOk_of_byteAt h.sefPair, h.sefK, h.sefF, h.sefDelay, h.sefAction,
    flagOk_of_byteAt h.sefLock, h.shots, h.dead1, h.dead2, h.dead3, h.dead4, h.reclaim, flagOk_of_byteAt h.fireBlock,
    flagOk_of_byteAt h.lossTrip, flagOk_of_byteAt h.huntPermitted, flagOk_of_byteAt h.restorePermitted, h.settle,
    flagOk_of_byteAt h.exhaustedTrip, h.ndStep, flagOk_of_byteAt h.busHunt, Bool.and_eq_true, within_iff, decide_eq_true_eq,
    and_self, *]

theorem profileAt_of_profileBytes {r : List Byte} {p : Profile} (h : ProfileBytes r p) : profileAt r = p := by
  have hstep : (⟨byteAt r 48 % 8, by omega⟩ : Fin 8) = p.ndStep :=
    Fin.ext (by simp only [h.ndStep]; exact Nat.mod_eq_of_lt p.ndStep.isLt)
  simp only [profileAt, h.fireLevel, itAt_of_itBytes h.ph, itAt_of_itBytes h.ef,
    flagAt_of_byteAt h.hsEnable, h.hsThreshold, h.hsDelay, flagAt_of_byteAt h.rstEnable, h.rstRatio,
    flagAt_of_byteAt h.sefEnable, flagAt_of_byteAt h.sefPair, h.sefK, h.sefF, h.sefDelay, h.sefAction, sefActionOf_code,
    flagAt_of_byteAt h.sefLock, h.shots, h.dead1, h.dead2, h.dead3, h.dead4, h.reclaim, flagAt_of_byteAt h.fireBlock,
    flagAt_of_byteAt h.lossTrip, flagAt_of_byteAt h.huntPermitted, flagAt_of_byteAt h.restorePermitted, h.settle,
    flagAt_of_byteAt h.exhaustedTrip, hstep, flagAt_of_byteAt h.busHunt]

/-- A PROFILE record reads back. -/
theorem decodeProfile_encode {p : Profile} (hp : p.Valid) : decodeProfile (encodeProfile p) = some p := by
  have h := profileBytes_encode hp
  rw [decodeProfile, if_pos (profileOk_of_profileBytes h hp), profileAt_of_profileBytes h]

end Sys2Proof.Machine
end

section
/-! The records of CURVE, HUNT_PLAN and BUS_ORDER read back, and what an accepted load of the bank or the hunt tables stores (R38,
R64 to R66, R132, R133). -/

namespace Sys2Proof.Machine

/-! ### CURVE -/

theorem byteAt_cons_succ (b : Byte) (r : List Byte) (i : Nat) : byteAt (b :: r) (i + 1) = byteAt r i := rfl

theorem length_flatMap_b16 (c : List Nat) : (c.flatMap b16).length = 2 * c.length := by
  induction c with
  | nil => rfl
  | cons x rest ih => simp only [List.flatMap_cons, List.length_append, ih, List.length_cons]; simp [b16]; omega

/-- The word at an even place of a list of words. -/
theorem wordAt_flatMap_b16 (c : List Nat) (hc : ∀ x ∈ c, x < 65536) (k : Nat) : wordAt (c.flatMap b16) (2 * k) = c.getD k 0 := by
  induction c generalizing k with
  | nil => simp [wordAt, byteAt]
  | cons x rest ih =>
    cases k with
    | zero => exact toNat_word (Nat.le_of_lt_succ (hc x (by simp)))
    | succ k => exact ih (fun y hy => hc y (by simp [hy])) k

theorem nonDecreasing_of_pairwise {c : List Nat} (hc : c.Pairwise (· ≤ ·)) : nonDecreasing c = true := by
  induction c with
  | nil => rfl
  | cons a rest ih =>
    cases rest with
    | nil => rfl
    | cons b rest =>
      obtain ⟨ha, hrest⟩ := List.pairwise_cons.1 hc
      simp [nonDecreasing, ha b (by simp), ih hrest]

theorem ratesFrom_encode {c : List Nat} (hc : curveValid c) : ratesFrom (encodeCurve c) = c := by
  obtain ⟨hlen, hlt, _⟩ := hc
  refine List.ext_getElem (by simp [ratesFrom, hlen]) fun k h1 h2 => ?_
  have hword : wordAt (encodeCurve c) (1 + 2 * k) = wordAt (c.flatMap b16) (2 * k) := by
    rw [Nat.add_comm]; rfl
  simp [ratesFrom, hword, wordAt_flatMap_b16 c hlt, h2]

/-- A CURVE record reads back. -/
theorem decodeCurve_encode {c : List Nat} (hc : curveValid c) : decodeCurve (encodeCurve c) = some c := by
  have hflag : flagOk (encodeCurve c) 0 = true := rfl
  simp [decodeCurve, ratesFrom_encode hc, hflag, nonDecreasing_of_pairwise hc.2.2]

/-! ### HUNT_PLAN and BUS_ORDER -/

theorem collect_map_some {α : Type} (xs : List α) : collect (xs.map some) = some xs := by
  induction xs with
  | nil => rfl
  | cons x rest ih => simp [collect, ih]

theorem distinct_iff_nodup {α : Type} [DecidableEq α] (xs : List α) : distinct xs = true ↔ xs.Nodup := by
  induction xs with
  | nil => simp [distinct]
  | cons x rest ih => simp [distinct, ih]

theorem length_encodePlan (p : List PlanStep) : (encodePlan p).length = 1 + 2 * p.length := by
  induction p with
  | nil => rfl
  | cons x rest ih =>
    simp only [encodePlan, bList, List.length_append, List.flatMap_cons, List.length_cons] at ih ⊢
    simp only [encodePlanStep, b8, List.length_append, List.length_cons, List.length_nil] at ih ⊢
    omega

/-- The positions of a plan are distinct and none is 0, so there are at most seven. -/
theorem planValid_length {p : List PlanStep} (hp : planValid p) : p.length ≤ 7 := by
  obtain ⟨hnodup, hpos⟩ := hp
  have hzero : (0 : Fin 8) ∉ p.map PlanStep.position := by
    intro h
    obtain ⟨x, hx, h0⟩ := List.mem_map.1 h
    exact (hpos x hx).1 (by rw [h0]; rfl)
  have := (List.nodup_cons.2 ⟨hzero, hnodup⟩).length_le_card
  simp only [List.length_cons, List.length_map, Fintype.card_fin] at this
  omega

/-- The two bytes of a plan step, as the decoder groups them. -/
def PlanStep.bytes (x : PlanStep) : Nat × Nat := (x.position.val, (x.indicator.map Fin.val).getD 0)

theorem pairsOf_flatMap (p : List PlanStep) : pairsOf (p.flatMap encodePlanStep) = p.map PlanStep.bytes := by
  induction p with
  | nil => rfl
  | cons x rest ih =>
    have hpos : (BitVec.ofNat 8 x.position.val).toNat = x.position.val := toNat_byte (by omega)
    have hind : (BitVec.ofNat 8 ((x.indicator.map Fin.val).getD 0)).toNat = (x.indicator.map Fin.val).getD 0 := by
      cases x.indicator with
      | none => rfl
      | some q => exact toNat_byte (by simp; omega)
    have hstep : encodePlanStep x
        = [BitVec.ofNat 8 x.position.val, BitVec.ofNat 8 ((x.indicator.map Fin.val).getD 0)] := by
      unfold encodePlanStep
      cases x.indicator <;> rfl
    simp only [List.flatMap_cons, hstep, List.cons_append, List.nil_append, pairsOf, hpos, hind, ih, List.map_cons,
      PlanStep.bytes]

theorem planStepOf_bytes {x : PlanStep} (hpos : x.position.val ≠ 0) (hind : ∀ q, x.indicator = some q → q.val ≠ 0) :
    planStepOf x.bytes = some x := by
  obtain ⟨pos, ind⟩ := x
  have hrange : 1 ≤ pos.val ∧ pos.val ≤ 7 := ⟨Nat.one_le_iff_ne_zero.2 hpos, by omega⟩
  cases ind with
  | none => simp [planStepOf, PlanStep.bytes, hrange]
  | some q =>
    have hq : q ≠ 0 := fun h => hind q rfl (by rw [h]; rfl)
    have hq7 : q.val ≤ 7 := by omega
    simp [planStepOf, PlanStep.bytes, hrange, hq7, hq]

/-- A HUNT_PLAN record reads back. -/
theorem decodePlan_encode {p : List PlanStep} (hp : planValid p) : decodePlan (encodePlan p) = some p := by
  have hcount : byteAt (encodePlan p) 0 ≤ 7 := by
    have := planValid_length hp
    exact (toNat_byte (n := p.length) (by omega)).trans_le this
  have hsteps : (p.map PlanStep.bytes).map planStepOf = p.map some := by
    rw [List.map_map]
    exact List.map_congr_left fun x hx => planStepOf_bytes (hp.2 x hx).1 (hp.2 x hx).2
  have hdrop : (encodePlan p).drop 1 = p.flatMap encodePlanStep := rfl
  rw [decodePlan, if_pos hcount, hdrop, pairsOf_flatMap, hsteps, collect_map_some]
  exact if_pos ((distinct_iff_nodup _).2 hp.1)

theorem length_encodeBusOrder (fs : List Feeder) : (encodeBusOrder fs).length = 1 + fs.length := by
  simp [encodeBusOrder, bList, b8, Nat.add_comm]

/-- A BUS_ORDER record reads back. -/
theorem decodeBusOrder_encode {fs : List Feeder} (hfs : fs.Nodup) : decodeBusOrder (encodeBusOrder fs) = some fs := by
  have hlen : fs.length ≤ 8 := by simpa using hfs.length_le_card
  have hcount : byteAt (encodeBusOrder fs) 0 ≤ 8 := (toNat_byte (n := fs.length) (by omega)).trans_le hlen
  have hfeeders : ((encodeBusOrder fs).drop 1).map (indexOf 8) = fs.map some := by
    have hdrop : (encodeBusOrder fs).drop 1 = fs.map fun f => BitVec.ofNat 8 f.val := List.map_eq_flatMap.symm
    rw [hdrop, List.map_map]
    exact List.map_congr_left fun f _ => indexOf_ofNat (by decide) f
  rw [decodeBusOrder, if_pos hcount, hfeeders, collect_map_some]
  exact if_pos ((distinct_iff_nodup _).2 hfs)

/-! ### Accepted loads -/

/-- An accepted load of a table that concerns neither the port, the requests nor the Exchange. -/
theorem ownerLeaves_load {s u : State} {req : RequestId} {kind : Byte} {params : List Byte}
    (hmgmt : u.mgmt = (s.arrived req kind params).mgmt) (hexchange : u.exchange = s.exchange) (hlink : u.link = s.link)
    (houtputs : u.outputs = s.outputs) : s.OwnerLeaves u req kind params false :=
  ⟨by rw [hmgmt]; rfl, by rw [hmgmt]; rfl, hexchange, ⟨by rw [hlink], by rw [hlink], fun _ h => by rwa [hlink], by rw [houtputs]⟩,
    fun h => by cases h⟩

/-- With the Image Loader IDLE a load of the right length and an index within its table is judged by its owner. -/
theorem serveLoad_of_applyLoad {s u : State} {table : Nat} {index : Byte} {r : List Byte} (ticket : Nat) (hidle : s.loader = .idle)
    (hlen : lengthOk table r = true) (hload : s.ownerLoad table index r = (u, .ok)) :
    serveLoad table index r ticket s = (u, some (.ok, [])) := by
  have hsave : s.isSaving = false := by rw [State.isSaving, hidle]
  simp [serveLoad, hsave, State.applyLoad, hlen, hload, answer]

theorem loadWithin_ofNat {n : Nat} (hn : n ≤ 256) (s : State) (i : Fin n) (g : Fin n → State × Result) :
    loadWithin n s (BitVec.ofNat 8 i.val) g = g i := by
  rw [loadWithin, indexOf_ofNat hn i]

theorem loadProfileAt_encode {s : State} {k : BankSlot} {p : Profile} (hp : p.Valid) (huse : s.slotInUse k = false)
    (hcurve : s.curveMissing p = false) : s.loadProfileAt k (encodeProfile p) = (s.setProfile k (some p), .ok) := by
  have hpresent : presentClear (encodeProfile p) = false := by simp [presentClear, (profileBytes_encode hp).present]
  simp [State.loadProfileAt, huse, hpresent, decodeProfile_encode hp, hcurve]

theorem loadCurveAt_encode {s : State} {k : BankSlot} {c : List Nat} (hc : curveValid c) (huse : s.curveInUse k = false) :
    s.loadCurveAt k (encodeCurve c) = (s.setCurve k (some c), .ok) := by
  have hpresent : presentClear (encodeCurve c) = false := rfl
  simp [State.loadCurveAt, huse, hpresent, decodeCurve_encode hc]

theorem loadPlanAt_encode {s : State} {f : Feeder} {p : List PlanStep} (hp : planValid p) (hinv : s.involves f = false)
    (hind : ∀ x ∈ p, s.indicatorOk f x = true) : s.loadPlanAt f (encodePlan p) = (s.setPlan f p, .ok) := by
  have hall : (p.all fun x => s.indicatorOk f x) = true := List.all_eq_true.2 hind
  simp [State.loadPlanAt, hinv, decodePlan_encode hp, hall]

theorem loadOrderAt_encode {s : State} {fs : List Feeder} (hfs : fs.Nodup) (hbus : s.busHunting = false) :
    s.loadOrderAt (encodeBusOrder fs) = (s.setBusOrder fs, .ok) := by
  simp [State.loadOrderAt, hbus, decodeBusOrder_encode hfs]

theorem length_b8 (n : Nat) : (b8 n).length = 1 := rfl

theorem length_b16 (n : Nat) : (b16 n).length = 2 := rfl

theorem length_bFlag (x : Bool) : (bFlag x).length = 1 := rfl

theorem length_encodeIt (x : ItSettings) : (encodeIt x).length = 7 := rfl

theorem lengthOk_encodeProfile (p : Profile) : lengthOk 4 (encodeProfile p) = true := by
  have hlen : (encodeProfile p).length = 50 := by
    unfold encodeProfile
    simp only [List.length_append, length_b8, length_b16, length_bFlag, length_encodeIt]
  rw [lengthOk, hlen]
  rfl

theorem lengthOk_encodeCurve {c : List Nat} (hc : curveValid c) : lengthOk 5 (encodeCurve c) = true := by
  have hlen : (encodeCurve c).length = 611 := by rw [encodeCurve, List.length_append, length_flatMap_b16, hc.1]; rfl
  simp [lengthOk, hlen]

theorem lengthOk_encodePlan {p : List PlanStep} (hp : planValid p) : lengthOk 6 (encodePlan p) = true := by
  have hlen := planValid_length hp
  have hcount : byteAt (encodePlan p) 0 = p.length := toNat_byte (by omega)
  simp [lengthOk, length_encodePlan, hcount]

theorem lengthOk_encodeBusOrder {fs : List Feeder} (hfs : fs.Nodup) : lengthOk 7 (encodeBusOrder fs) = true := by
  have hlen : fs.length ≤ 8 := by simpa using hfs.length_le_card
  have hcount : byteAt (encodeBusOrder fs) 0 = fs.length := toNat_byte (by omega)
  simp [lengthOk, length_encodeBusOrder, hcount]

theorem loadProfile_stores {s : State} {req : RequestId} (k : BankSlot) (hr : s.Ready req) {p : Profile} (hp : p.Valid)
    (huse : s.slotInUse k = false) (hcurve : s.curveMissing p = false) :
    ∃ t, exec (.loadProfile req (BitVec.ofNat 8 k.val) (encodeProfile p)) s = .next t
      ∧ s.RepliedFrom ((s.arrived req 0x01#8 (0x04#8 :: BitVec.ofNat 8 k.val :: encodeProfile p)).setProfile k (some p)) t req
        0x01#8 (0x04#8 :: BitVec.ofNat 8 k.val :: encodeProfile p) .ok [] := by
  refine ⟨_, rfl, requestEvent_replies hr (serveLoad_of_applyLoad _ hr.idle (lengthOk_encodeProfile p) ?_)
    (ownerLeaves_load rfl rfl rfl rfl)⟩
  exact (loadWithin_ofNat (by decide) _ k _).trans (loadProfileAt_encode hp huse hcurve)

theorem loadCurve_stores {s : State} {req : RequestId} (k : BankSlot) (hr : s.Ready req) {c : List Nat} (hc : curveValid c)
    (huse : s.curveInUse k = false) :
    ∃ t, exec (.loadCurve req (BitVec.ofNat 8 k.val) (encodeCurve c)) s = .next t
      ∧ s.RepliedFrom ((s.arrived req 0x01#8 (0x05#8 :: BitVec.ofNat 8 k.val :: encodeCurve c)).setCurve k (some c)) t req
        0x01#8 (0x05#8 :: BitVec.ofNat 8 k.val :: encodeCurve c) .ok [] := by
  refine ⟨_, rfl, requestEvent_replies hr (serveLoad_of_applyLoad _ hr.idle (lengthOk_encodeCurve hc) ?_)
    (ownerLeaves_load rfl rfl rfl rfl)⟩
  exact (loadWithin_ofNat (by decide) _ k _).trans (loadCurveAt_encode hc huse)

theorem loadHuntPlan_stores {s : State} {req : RequestId} (f : Feeder) (hr : s.Ready req) {p : List PlanStep} (hp : planValid p)
    (hinv : s.involves f = false) (hind : ∀ x ∈ p, s.indicatorOk f x = true) :
    ∃ t, exec (.loadHuntPlan req (BitVec.ofNat 8 f.val) (encodePlan p)) s = .next t
      ∧ s.RepliedFrom ((s.arrived req 0x01#8 (0x06#8 :: BitVec.ofNat 8 f.val :: encodePlan p)).setPlan f p) t req
        0x01#8 (0x06#8 :: BitVec.ofNat 8 f.val :: encodePlan p) .ok [] := by
  refine ⟨_, rfl, requestEvent_replies hr (serveLoad_of_applyLoad _ hr.idle (lengthOk_encodePlan hp) ?_)
    (ownerLeaves_load rfl rfl rfl rfl)⟩
  exact (loadWithin_ofNat (by decide) _ f _).trans (loadPlanAt_encode hp hinv hind)

theorem loadBusOrder_stores {s : State} {req : RequestId} (hr : s.Ready req) {fs : List Feeder} (hfs : fs.Nodup)
    (hbus : s.busHunting = false) :
    ∃ t, exec (.loadBusOrder req 0x00#8 (encodeBusOrder fs)) s = .next t
      ∧ s.RepliedFrom ((s.arrived req 0x01#8 (0x07#8 :: 0x00#8 :: encodeBusOrder fs)).setBusOrder fs) t req
        0x01#8 (0x07#8 :: 0x00#8 :: encodeBusOrder fs) .ok [] := by
  refine ⟨_, rfl, requestEvent_replies hr (serveLoad_of_applyLoad _ hr.idle (lengthOk_encodeBusOrder hfs) ?_)
    (ownerLeaves_load rfl rfl rfl rfl)⟩
  exact (loadWithin_ofNat (by decide) s (0 : Fin 1) fun _ => State.loadOrderAt _ _).trans
    (loadOrderAt_encode hfs hbus)

/-- Settles O43: each of the four tables is replaced whole by the record that reads back. -/
theorem loadBankAndHuntStore : Obligations.LoadBankAndHuntStore := by
  refine ⟨fun s req k hr => ⟨fun p hp huse hcurve => ?_, fun c hc huse => ?_⟩,
    fun s req hr => ⟨fun f p hp hinv hind => ?_, fun fs hfs hbus => ?_⟩⟩
  · obtain ⟨t, hrun, h⟩ := loadProfile_stores k hr hp huse hcurve
    have hprofiles : t.profiles = { s.profiles with slots := put s.profiles.slots k (some p) } := congrArg State.profiles h.rest
    refine ⟨t, hrun, h.answered, ?_, fun j hj => ?_, by rw [hprofiles],
      by rw [hprofiles], h.noNotice, h.port, ?_⟩
    · rw [State.profile, hprofiles]; exact look_put_self _ _ _
    · rw [State.profile, hprofiles]; exact look_put_ne _ _ hj
    · rw [hprofiles]; exact h.rest
  · obtain ⟨t, hrun, h⟩ := loadCurve_stores k hr hc huse
    have hprofiles : t.profiles = { s.profiles with curves := put s.profiles.curves k (some c) } := congrArg State.profiles h.rest
    refine ⟨t, hrun, h.answered, ?_, fun j hj => ?_, by rw [hprofiles],
      by rw [hprofiles], h.noNotice, h.port, ?_⟩
    · rw [State.curve, hprofiles]; exact look_put_self _ _ _
    · rw [State.curve, hprofiles]; exact look_put_ne _ _ hj
    · rw [hprofiles]; exact h.rest
  · obtain ⟨t, hrun, h⟩ := loadHuntPlan_stores f hr hp hinv hind
    have hhunt : t.hunt = { s.hunt with plans := put s.hunt.plans f p } := congrArg State.hunt h.rest
    refine ⟨t, hrun, h.answered, ?_, fun g hg => ?_, by rw [hhunt], by rw [State.ctx, hhunt]; rfl,
      by rw [hhunt], h.noNotice, h.port, ?_⟩
    · rw [State.plan, hhunt]; exact look_put_self _ _ _
    · rw [State.plan, hhunt]; exact look_put_ne _ _ hg
    · rw [hhunt]; exact h.rest
  · obtain ⟨t, hrun, h⟩ := loadBusOrder_stores hr hfs hbus
    have hhunt : t.hunt = { s.hunt with busOrder := fs } := congrArg State.hunt h.rest
    exact ⟨t, hrun, h.answered, hhunt, h.noNotice, h.port, by rw [hhunt]; exact h.rest⟩

end Sys2Proof.Machine
end

section
/-! What notices, sending and the transitions of the reclose state leave (R94, R111, R170): the layer the rules about answers and
decisions stand on. -/

namespace Sys2Proof.Machine

variable {μ ν : Part → Prop}

/-! ### The parts a chain may change -/

theorem Parted.refl (s : State) : Parted μ s s :=
  ⟨fun _ => rfl, fun _ => rfl, fun _ => rfl, fun _ => rfl, fun _ => rfl, fun _ => rfl, fun _ => rfl, fun _ => rfl, rfl⟩

theorem Parted.trans {s t u : State} (h : Parted μ s t) (h' : Parted μ t u) : Parted μ s u where
  exchange x := (h'.exchange x).trans (h.exchange x)
  reclose x := (h'.reclose x).trans (h.reclose x)
  hunt x := (h'.hunt x).trans (h.hunt x)
  bank x := (h'.bank x).trans (h.bank x)
  threshold x := (h'.threshold x).trans (h.threshold x)
  map x := (h'.map x).trans (h.map x)
  requests x := (h'.requests x).trans (h.requests x)
  outputs x := (h'.outputs x).trans (h.outputs x)
  rest := by rw [h'.rest, h.rest]

/-- What may change fewer parts may change more. -/
theorem Parted.mono {s t : State} (hμ : ∀ p, μ p → ν p) (h : Parted μ s t) : Parted ν s t where
  exchange x := h.exchange fun y => x (hμ _ y)
  reclose x := h.reclose fun y => x (hμ _ y)
  hunt x := h.hunt fun y => x (hμ _ y)
  bank x := h.bank fun y => x (hμ _ y)
  threshold x := h.threshold fun y => x (hμ _ y)
  map x := h.map fun y => x (hμ _ y)
  requests x := h.requests fun y => x (hμ _ y)
  outputs x := h.outputs fun y => x (hμ _ y)
  rest := h.rest

theorem parted_setSlot (he : μ .exchange) (s : State) (i : SlotId) (o : Outstation) : Parted μ s (s.setSlot i o) :=
  { Parted.refl s with exchange := fun h => absurd he h, rest := rfl }

theorem parted_setCtx (hh : μ .hunt) (s : State) (c : HuntContext) : Parted μ s (s.setCtx c) :=
  { Parted.refl s with hunt := fun h => absurd hh h, rest := rfl }

theorem Parted.time {s t : State} (h : Parted μ s t) : t.time = s.time := by rw [h.rest]

theorem Parted.modes {s t : State} (h : Parted μ s t) : t.modes = s.modes := by rw [h.rest]

theorem Parted.intake {s t : State} (h : Parted μ s t) : t.intake = s.intake := by rw [h.rest]

/-! ### Telling -/

/-- What only hands on notices and frames: a chain of changes that may touch no part of the state. -/
abbrev Tells : State → State → Prop := Moves fun _ => False

theorem tells_notify (s : State) (n : Notice) (b : Bool) : Tells s (s.notify n b) := moves_notify s n b

/-- Telling leaves every block but the port and the notices as it was. -/
theorem tells_rest {s t : State} (h : Tells s t) : t = { s with link := t.link, mgmt := t.mgmt } := by
  have hp := parted_moves h
  have hrest := hp.rest
  rw [hp.exchange id, hp.reclose id, hp.hunt id, hp.bank id, hp.threshold id, hp.map id, hp.outputs id] at hrest
  exact hrest

@[simp] theorem notify_intake (s : State) (n : Notice) (b : Bool) : (s.notify n b).intake = s.intake := by
  rw [tells_rest (tells_notify s n b)]

@[simp] theorem notify_phasor (s : State) (n : Notice) (b : Bool) : (s.notify n b).phasor = s.phasor := by
  rw [tells_rest (tells_notify s n b)]

@[simp] theorem notify_bank (s : State) (n : Notice) (b : Bool) : (s.notify n b).bank = s.bank := by
  rw [tells_rest (tells_notify s n b)]

@[simp] theorem notify_profiles (s : State) (n : Notice) (b : Bool) : (s.notify n b).profiles = s.profiles := by
  rw [tells_rest (tells_notify s n b)]

@[simp] theorem notify_reclose (s : State) (n : Notice) (b : Bool) : (s.notify n b).reclose = s.reclose := by
  rw [tells_rest (tells_notify s n b)]

@[simp] theorem notify_exchange (s : State) (n : Notice) (b : Bool) : (s.notify n b).exchange = s.exchange := by
  rw [tells_rest (tells_notify s n b)]

@[simp] theorem notify_hunt (s : State) (n : Notice) (b : Bool) : (s.notify n b).hunt = s.hunt := by
  rw [tells_rest (tells_notify s n b)]

@[simp] theorem notify_modes (s : State) (n : Notice) (b : Bool) : (s.notify n b).modes = s.modes := by
  rw [tells_rest (tells_notify s n b)]

@[simp] theorem notify_time (s : State) (n : Notice) (b : Bool) : (s.notify n b).time = s.time := by
  rw [tells_rest (tells_notify s n b)]

@[simp] theorem recl_notify (s : State) (n : Notice) (b : Bool) (f : Feeder) : (s.notify n b).recl f = s.recl f := by
  rw [State.recl, notify_reclose]; rfl

@[simp] theorem element_notify (s : State) (n : Notice) (b : Bool) (f : Feeder) : (s.notify n b).element f = s.element f := by
  rw [State.element, notify_bank]; rfl

@[simp] theorem slot_notify (s : State) (n : Notice) (b : Bool) (i : SlotId) : (s.notify n b).slot i = s.slot i := by
  rw [State.slot, notify_exchange]; rfl

/-- A notice joins the queue, and at most one more waits than before (R170). -/
theorem length_notices_notify (s : State) (n : Notice) (b : Bool) :
    (s.notify n b).mgmt.notices.length ≤ s.mgmt.notices.length + 1 := by
  unfold State.notify
  split
  · obtain ⟨l, m, h, _, _, _, _, hm⟩ := feedNotice_parts (s.setMgmt { s.mgmt with notices := s.mgmt.notices ++ [⟨n, b⟩] })
    rw [h]
    simpa using hm
  · exact Nat.le_succ _

/-- With no destination a notice that finds room stands at the newest end (R170, R171). -/
theorem notices_notify_of_room {s : State} (n : Notice) (b : Bool) (hroom : s.mgmt.notices.length < 32)
    (hdest : s.link.table.dest = none) : (s.notify n b).mgmt.notices = s.mgmt.notices ++ [⟨n, b⟩] := by
  have hroom : s.mgmt.notices.length < Config.noticeEntries := hroom
  rw [State.notify, if_pos hroom, State.feedNotice]
  split
  · split
    · rename_i d _ _ hd _
      have : s.link.table.dest = some d := hd
      rw [hdest] at this
      cases this
    · rfl
  · rfl

/-! ### The end of an event -/

/-- What a sending may change. -/
def Sending (p : Part) : Prop := p = .exchange ∨ p = .outputs

theorem moves_finish_sending (s0 s : State) : Moves Sending s (State.finish s0 s) := moves_finish (.inl rfl) (.inr rfl) s0 s

/-- Where nothing waits, the end of an event sends and no more. -/
theorem conclude72_still {s0 s : State} (h1 : ∀ e, (s.entry e).pend = none) (h2 : s.ctx.state ≠ .idle ∨ s.hunt.pendingList = []) :
    State.conclude72 s0 s = State.finish s0 s := by
  rw [State.conclude72, settle_still s h1 h2]

theorem parted_finish (s0 s : State) : Parted Sending s (State.finish s0 s) := parted_moves (moves_finish_sending s0 s)

@[simp] theorem finish_bank (s0 s : State) : (State.finish s0 s).bank = s.bank :=
  (parted_finish s0 s).bank (by simp [Sending])

@[simp] theorem finish_reclose (s0 s : State) : (State.finish s0 s).reclose = s.reclose :=
  (parted_finish s0 s).reclose (by simp [Sending])

@[simp] theorem finish_hunt (s0 s : State) : (State.finish s0 s).hunt = s.hunt := (parted_finish s0 s).hunt (by simp [Sending])

@[simp] theorem recl_finish (s0 s : State) (f : Feeder) : (State.finish s0 s).recl f = s.recl f := by
  rw [State.recl, finish_reclose]; rfl

@[simp] theorem element_finish (s0 s : State) (f : Feeder) : (State.finish s0 s).element f = s.element f := by
  rw [State.element, finish_bank]; rfl

@[simp] theorem ctx_finish (s0 s : State) : (State.finish s0 s).ctx = s.ctx := by rw [State.ctx, finish_hunt]; rfl

/-- Where the fixed parts are the same, a slot knows the same. -/
theorem still_of_fixed {s t : State} (h : t.fixed = s.fixed) (i : SlotId) : (t.slot i).still = (s.slot i).still := by
  have hlook := look_congr (congrArg Fixed.still h) i
  simp only [State.fixed, look_map] at hlook
  exact hlook

/-- Sending keeps what a slot knows (R111). -/
theorem still_finish (s0 s : State) (i : SlotId) : ((State.finish s0 s).slot i).still = (s.slot i).still :=
  still_of_fixed (fixed_moves (moves_finish_sending s0 s)) i

/-- The head of a slot's queue is sent, or nothing changes (R111). -/
theorem trySend_cases (s : State) (i : SlotId) :
    s.trySend i = s ∨ ∃ c rest tag d f, (s.slot i).queue = c :: rest ∧
      s.trySend i = (s.setSlot i { s.slot i with queue := rest, tagCounter := tag, inFlight := some ⟨c, tag, d, 0⟩ }).handFrame f := by
  unfold State.trySend
  dsimp only
  split
  · split
    · rename_i c rest l hq _
      exact .inr ⟨c, rest, _, _, _, hq, rfl⟩
    · exact .inl rfl
  · exact .inl rfl

/-- Only a queue whose slot has nothing in flight is sent from. -/
theorem trySend_of_flying {s : State} {i : SlotId} (h : (s.slot i).inFlight ≠ none) : s.trySend i = s := by
  have hno : (s.slot i).canSend s.time = false := by
    unfold Outstation.canSend
    split
    · rfl
    · simp [h]
  simp [State.trySend, hno]

theorem mgmt_handFrame (s : State) (f : TxFrame) : (s.handFrame f).mgmt = s.mgmt := by
  obtain ⟨l, h, _⟩ := handFrame_link s f
  rw [h]; rfl

theorem exchange_handFrame (s : State) (f : TxFrame) : (s.handFrame f).exchange = s.exchange := by
  obtain ⟨l, h, _⟩ := handFrame_link s f
  rw [h]; rfl

theorem mgmt_trySend (s : State) (i : SlotId) : (s.trySend i).mgmt = s.mgmt := by
  obtain h | ⟨c, rest, tag, d, f, _, h⟩ := trySend_cases s i
  · rw [h]
  · rw [h, mgmt_handFrame]; rfl

theorem admissions_trySend (s : State) (i j : SlotId) : (s.trySend i).admissions j = s.admissions j := by
  obtain h | ⟨c, rest, tag, d, f, _, h⟩ := trySend_cases s i
  · rw [h]
  · rw [h, State.admissions, exchange_handFrame]; rfl

theorem slot_trySend_ne (s : State) {i j : SlotId} (hj : j ≠ i) : (s.trySend i).slot j = s.slot j := by
  obtain h | ⟨c, rest, tag, d, f, _, h⟩ := trySend_cases s i
  · rw [h]
  · rw [h, State.slot, exchange_handFrame]; exact look_put_ne _ _ hj

/-- A command that waits or flies still does after a sending. -/
theorem has_trySend {s : State} {j : SlotId} {c : Cmd} (i : SlotId) (hc : (s.slot j).Has c) : ((s.trySend i).slot j).Has c := by
  by_cases hj : j = i
  · subst hj
    obtain h | ⟨c', rest, tag, d, f, hq, h⟩ := trySend_cases s j
    · rwa [h]
    · by_cases hfly : (s.slot j).inFlight = none
      · have hmem : c ∈ c' :: rest := by simpa [Outstation.Has, hfly, hq] using hc
        have hslot : (s.trySend j).slot j
            = { s.slot j with queue := rest, tagCounter := tag, inFlight := some ⟨c', tag, d, 0⟩ } := by
          rw [h, State.slot, exchange_handFrame]; exact look_put_self _ _ _
        rw [hslot]
        obtain rfl | hrest := List.mem_cons.1 hmem
        · exact .inr rfl
        · exact .inl hrest
      · rwa [trySend_of_flying hfly]
  · rwa [slot_trySend_ne s hj]

/-- What each sending that is due keeps, the sendings at the end of an event keep. -/
theorem sendChanged_keeps {P : State → Prop} {s0 s : State} (hs : P s)
    (hstep : ∀ s i, State.sendTestDue s0 s i = true → P s → P (s.trySend i)) : P (State.sendChanged s0 s) := by
  unfold State.sendChanged
  generalize allSlots = l
  induction l generalizing s with
  | nil => exact hs
  | cons i rest ih =>
    simp only [List.foldl_cons]
    split
    · rename_i hdue
      exact ih (hstep s i hdue hs)
    · exact ih hs

/-- What each sending that is due and the outputs keep, the end of an event keeps. -/
theorem finish_keeps {P : State → Prop} {s0 s : State} (hs : P s)
    (hstep : ∀ s i, State.sendTestDue s0 s i = true → P s → P (s.trySend i)) (hout : ∀ s, P s → P s.refreshOutputs) :
    P (State.finish s0 s) := hout _ (sendChanged_keeps hs hstep)

theorem mgmt_finish (s0 s : State) : (State.finish s0 s).mgmt = s.mgmt :=
  finish_keeps (P := fun t => t.mgmt = s.mgmt) rfl (fun t i _ ht => (mgmt_trySend t i).trans ht) fun _ ht => ht

/-- A command that waits or flies is there at the end of the event. -/
theorem has_finish {s : State} {j : SlotId} {c : Cmd} (s0 : State) (hc : (s.slot j).Has c) :
    ((State.finish s0 s).slot j).Has c :=
  finish_keeps (P := fun t => (t.slot j).Has c) hc (fun _ i _ ht => has_trySend i ht) fun _ ht => ht

/-- A slot that is not tested keeps its queue and its command in flight. -/
theorem slot_finish_of_not_due {s0 s : State} {j : SlotId} (hj : State.sendTestDue s0 s j = false) :
    (State.finish s0 s).slot j = s.slot j := by
  refine (finish_keeps (P := fun t => t.slot j = s.slot j ∧ t.admissions j = s.admissions j) ⟨rfl, rfl⟩ ?_ fun _ ht => ht).1
  rintro t i hdue ⟨hslot, hadm⟩
  have hne : j ≠ i := by
    rintro rfl
    rw [State.sendTestDue, hadm, hslot, ← State.sendTestDue, hj] at hdue
    cases hdue
  exact ⟨(slot_trySend_ne t hne).trans hslot, (admissions_trySend t i j).trans hadm⟩

/-! ### Transitions of the reclose state -/

theorem recl_goReclose (s : State) (f g : Feeder) (st : RecloseState) (x : PermissionFailures) :
    (s.goReclose f st x).recl g = if g = f then { s.recl f with state := st } else s.recl g := by
  rw [State.goReclose, recl_notify]
  exact State.recl_setRecl _ _ _ _

/-- The reclose state once the CLOSE of a shot has completed (R86). -/
def RecloseState.afterClose (st : RecloseState) (k : Completion) (now : Nat) : RecloseState :=
  match st with
  | .closing n mark =>
    match k with
    | .done _ _ =>
      match mark with
      | none => .reclaim n now
      | some m => .lockout m.cause
    | .superseded => .closing n mark
    | _ => .lockout .closeFail
  | st => st

/-- The reclose state once the TRIP has failed (R84). -/
def RecloseState.afterTripFailed : RecloseState → RecloseState
  | .tripping _ _ => .lockout .breakerFail
  | st => st

/-- A reclose record whose state stays. -/
theorem recl_stays {s : State} {f : Feeder} {st : RecloseState} (h : (s.recl f).state = st) (g : Feeder) :
    s.recl g = if g = f then { s.recl f with state := st } else s.recl g := by
  split
  · rename_i hg; rw [hg, ← h]
  · rfl

theorem recl_closeCompleted (s : State) (f g : Feeder) (k : Completion) :
    (s.closeCompleted f k).recl g
      = if g = f then { s.recl f with state := (s.recl f).state.afterClose k s.time } else s.recl g := by
  unfold State.closeCompleted
  cases hst : (s.recl f).state with
  | closing n mark =>
    cases k
    case done => cases mark <;> exact recl_goReclose _ _ _ _ _
    case superseded => exact recl_stays hst g
    all_goals exact recl_goReclose _ _ _ _ _
  | _ => exact recl_stays hst g

theorem recl_tellTripFailed (s : State) (f g : Feeder) :
    (s.tellTripFailed f).recl g = if g = f then { s.recl f with state := (s.recl f).state.afterTripFailed } else s.recl g := by
  unfold State.tellTripFailed
  cases hst : (s.recl f).state with
  | tripping used m => exact recl_goReclose _ _ _ _ _
  | _ => exact recl_stays hst g

theorem reasons_goReclose (s : State) (f g : Feeder) (st : RecloseState) (x : PermissionFailures) :
    ((s.goReclose f st x).recl g).reasons = (s.recl g).reasons := by
  rw [recl_goReclose]
  split
  · rename_i h; rw [h]
  · rfl

/-! ### Slots and feeders -/

@[simp] theorem feeder_slot (f : Feeder) (p : Fin 8) : SlotId.feeder (f.slot p) = f :=
  Fin.ext (by simp only [SlotId.feeder, Feeder.slot]; omega)

@[simp] theorem feeder_head (f : Feeder) : SlotId.feeder f.head = f := feeder_slot f 0

theorem slot_ne_head {f : Feeder} {p : Fin 8} (hp : p.val ≠ 0) : f.slot p ≠ f.head := by
  intro h
  have := congrArg Fin.val h
  simp only [Feeder.head, Feeder.slot] at this
  omega

end Sys2Proof.Machine
end

section
/-! SET_MODE (R62, R93, R181): a change of mode replaces the mode, the element record and the reclose state of one feeder, and
beside that it only tells. -/

namespace Sys2Proof.Machine

theorem setElement_self (s : State) (f : Feeder) : s.setElement f (s.element f) = s := by
  have : put s.bank.records f (s.element f) = s.bank.records := put_look _ _
  simp only [State.setElement, this]
  rfl

theorem markReclose_self (s : State) (f : Feeder) : s.markReclose f (s.recl f).state = s := setRecl_self s f

/-- The state with the mode, the element record and the reclose state of a feeder replaced. -/
def State.withMode (s : State) (f : Feeder) (m : Mode) (r : ElementRecord) (st : RecloseState) : State :=
  ((s.setMode f m).setElement f r).markReclose f st

/-- The element record a change of mode leaves (R62). -/
def State.elementUnder (s : State) (f : Feeder) (m : Mode) : ElementRecord :=
  if m = .outOfService then ElementRecord.reset else s.element f

/-- The reclose state a change of mode leaves (R93). -/
def State.recloseUnder (s : State) (f : Feeder) (m : Mode) : RecloseState :=
  if m = .outOfService then .off
  else if s.mode f = .outOfService then
    if (s.slot (Feeder.head f)).known = .closed then .ready else .lockout .start
  else (s.recl f).state

/-- A change of mode replaces the three records, and tells. -/
theorem tells_changeMode (s : State) (f : Feeder) (m : Mode) :
    Tells (s.withMode f m (s.elementUnder f m) (s.recloseUnder f m)) (s.changeMode f m) := by
  unfold State.withMode State.elementUnder State.recloseUnder
  by_cases hm : m = .outOfService
  · subst hm
    rw [changeMode_off, if_pos rfl, if_pos rfl]
    unfold State.recloseOff
    split
    · rename_i hoff
      rw [← hoff, markReclose_self]
    · exact tells_notify _ _ _
  · rw [if_neg hm, if_neg hm]
    have hself : (s.setMode f m).setElement f (s.element f) = s.setMode f m := setElement_self (s.setMode f m) f
    rw [hself]
    by_cases hout : s.mode f = .outOfService
    · rw [changeMode_on s f m hout hm, if_pos hout]
      have hknown : (if (s.slot (Feeder.head f)).known = .closed then RecloseState.ready else .lockout .start)
          = if (s.slot (Feeder.head f)).known == .closed then .ready else .lockout .start := by simp
      rw [hknown]
      exact tells_notify _ _ _
    · rw [changeMode_within s f m hout hm, if_neg hout]
      have hrecl : (s.setMode f m).markReclose f (s.recl f).state = s.setMode f m := markReclose_self (s.setMode f m) f
      rw [hrecl]

/-- No check of SET_MODE stands in the way (R181). -/
theorem setModeRequest_passes {s : State} {f : Feeder} {m : Mode} (hne : s.mode f ≠ m)
    (hcycle : (s.recl f).state.cycling = false) (hinv : s.involves f = false)
    (hserve : s.mode f = .outOfService → s.mayServe f = true) : s.setModeRequest f m = (s.changeMode f m, .ok) := by
  have hstate : (s.mode f == .outOfService && !s.mayServe f) = false := by
    by_cases hout : s.mode f = .outOfService
    · simp [hout, hserve hout]
    · simp [hout]
  simp [State.setModeRequest, hne, hcycle, hinv, hstate]

theorem involves_of_idle {s : State} (h : s.ctx.state = .idle) (f : Feeder) : s.involves f = false := by
  simp [State.involves, h]

/-- A change of mode as the owner of SET_MODE leaves it: nothing waits for the end of the event. -/
theorem ownerLeaves_changeMode {s : State} {req : RequestId} {kind : Byte} {params : List Byte} (f : Feeder) (m : Mode)
    (hc : s.Calm) : s.OwnerLeaves ((s.arrived req kind params).changeMode f m) req kind params true := by
  have htells := tells_changeMode (s.arrived req kind params) f m
  have hparted := parted_moves htells
  have hport := portKept_moves htells
  refine ⟨hparted.requests id, congrArg Fixed.tickets (fixed_moves htells), hparted.exchange id,
    ⟨hport.table, hport.log, hport.frames, hport.engineOk⟩, fun _ => settle_still _ ?_ (.inr ?_)⟩
  · intro e
    rw [State.entry, hparted.map id]
    exact hc.noPending e
  · rw [hparted.hunt id]
    exact hc.noTrigger

/-- Settles O49: the owner changes the mode, and the event has nothing to add but the reply. -/
theorem setModeChanges : Obligations.SetModeChanges := by
  intro s req f m b hr hc hmode hne hcycle hserve
  have howner : serveMode (BitVec.ofNat 8 f.val) b s.mgmt.nextTicket (s.arrived req 0x06#8 [BitVec.ofNat 8 f.val, b])
      = ((s.arrived req 0x06#8 [BitVec.ofNat 8 f.val, b]).changeMode f m, some (.ok, [])) := by
    unfold serveMode
    rw [withFeeder_ofNat, hmode]
    have hpass := setModeRequest_passes (s := s.arrived req 0x06#8 [BitVec.ofNat 8 f.val, b]) hne hcycle
      (involves_of_idle hc.noHunt f) hserve
    exact congrArg answer hpass
  have h := requestEvent_replies hr howner (ownerLeaves_changeMode f m hc)
  have hu := tells_rest (tells_changeMode (s.arrived req 0x06#8 [BitVec.ofNat 8 f.val, b]) f m)
  generalize ((s.arrived req 0x06#8 [BitVec.ofNat 8 f.val, b]).changeMode f m) = u at h hu
  have hrun : exec (.setMode req (BitVec.ofNat 8 f.val) b) s
      = .next (s.requestEvent req 0x06#8 [BitVec.ofNat 8 f.val, b] true (serveMode (BitVec.ofNat 8 f.val) b)) := rfl
  generalize s.requestEvent req 0x06#8 [BitVec.ofNat 8 f.val, b] true (serveMode (BitVec.ofNat 8 f.val) b) = t at h hrun
  have hmodes : t.modes = put s.modes f m := by rw [h.rest, hu]; rfl
  have hbank : t.bank = { s.bank with records := put s.bank.records f (s.elementUnder f m) } := by rw [h.rest, hu]; rfl
  have hreclose : t.reclose
      = { s.reclose with records := put s.reclose.records f { s.recl f with state := s.recloseUnder f m } } := by
    rw [h.rest, hu]; rfl
  have helement : t.element f = s.elementUnder f m := by rw [State.element, hbank]; exact look_put_self _ _ _
  have hrecl : t.recl f = { s.recl f with state := s.recloseUnder f m } := by
    rw [State.recl, hreclose]; exact look_put_self _ _ _
  refine ⟨t, hrun, h.answered, ?_, ?_, ?_, ?_, ?_, ?_, h.port, ?_⟩
  · rw [State.mode, hmodes]; exact look_put_self _ _ _
  · rintro rfl
    rw [helement, hrecl]
    exact ⟨rfl, rfl⟩
  · intro hout
    have hm : m ≠ .outOfService := fun e => hne (hout.trans e.symm)
    rw [helement, hrecl]
    simp [State.elementUnder, State.recloseUnder, hm, hout]
  · intro hm hout
    rw [helement, hrecl]
    simp [State.elementUnder, State.recloseUnder, hm, hout]
  · rw [hrecl]
  · intro g hg
    rw [State.mode, State.element, State.recl, hmodes, hbank, hreclose]
    exact ⟨look_put_ne _ _ hg, look_put_ne _ _ hg, look_put_ne _ _ hg⟩
  · rw [hmodes, hbank, hreclose, h.rest, hu]
    rfl

end Sys2Proof.Machine
end

section
/-! SEF on the set at which its delay is reached (R45, R47, R48), and the decision its cause leads to while no hunt is in progress
(R53). -/

namespace Sys2Proof.Machine

variable {μ : Part → Prop}

/-! ### The Hunt Controller while it is IDLE -/

theorem huntSuperseded_idle {s : State} (hs : s.ctx.state = .idle) (k : CmdKind) : s.huntSuperseded k = s := by
  simp [State.huntSuperseded, hs]

theorem escalateHunt_idle {s : State} (hs : s.ctx.state = .idle) (f : Feeder) : s.escalateHunt f = s := by
  simp [State.escalateHunt, involves_of_idle hs]

theorem settleOnSet_idle {s : State} (hs : s.ctx.state = .idle) (e : EntryId) : s.settleOnSet e = s := by
  simp [State.settleOnSet, hs]

/-- A SWITCH command that is superseded concerns the reclose record and the requests alone. -/
theorem moves_supersededSwitch_idle (hc : μ .reclose) (hr : μ .requests) {s : State} (hs : s.ctx.state = .idle) (d : Delivery) :
    Moves μ s (s.supersededSwitch d) := by
  unfold State.supersededSwitch
  split
  · exact moves_closeCompleted hc _ _ _
  · rw [huntSuperseded_idle hs]
  · exact moves_operateCompleted hc hr _ _ _ _ _
  · exact .rfl
  · exact .rfl

/-- A list of deliveries that each leave the Hunt Controller alone while it is IDLE. -/
theorem moves_foldl_idle {α : Type} (hh : ¬ μ .hunt) (g : State → α → State)
    (hg : ∀ s x, s.ctx.state = .idle → Moves μ s (g s x)) (l : List α) {s : State} (hs : s.ctx.state = .idle) :
    Moves μ s (l.foldl g s) := by
  induction l generalizing s with
  | nil => exact .rfl
  | cons x rest ih =>
    have hx := hg s x hs
    have hidle : (g s x).ctx.state = .idle := by rw [State.ctx, (parted_moves hx).hunt hh]; exact hs
    exact hx.trans (ih hidle)

/-! ### The members of a set through a decision -/

theorem reasons_tellDecision (s : State) (f g : Feeder) : ((s.tellDecision f).recl g).reasons = (s.recl g).reasons := by
  unfold State.tellDecision
  split
  · rfl
  · exact reasons_goReclose _ _ _ _ _

theorem reasons_closeCompleted (s : State) (f g : Feeder) (k : Completion) :
    ((s.closeCompleted f k).recl g).reasons = (s.recl g).reasons := by
  rw [recl_closeCompleted]
  split
  · rename_i h; rw [h]
  · rfl

theorem reasons_operateTold (s : State) (f g : Feeder) (kd : CmdKind) (k : Completion) :
    ((s.operateTold f kd k).recl g).reasons = (s.recl g).reasons := by
  unfold State.operateTold
  split
  · split
    · exact reasons_goReclose _ _ _ _ _
    · exact reasons_goReclose _ _ _ _ _
    · split
      · rfl
      · exact reasons_goReclose _ _ _ _ _
    · exact reasons_goReclose _ _ _ _ _
    · rfl
  · rfl

/-- What an answer to a request leaves alone. -/
theorem parted_replyTo (s : State) (k : Nat) (r : Result) (p : List Byte) : Parted (fun q => q = .requests) s (s.replyTo k r p) :=
  parted_moves (moves_replyTo (μ := fun q => q = .requests) rfl s k r p)

theorem reasons_operateCompleted (s : State) (k : Nat) (i : SlotId) (kd : CmdKind) (c : Completion) (g : Feeder) :
    ((s.operateCompleted k i kd c).recl g).reasons = (s.recl g).reasons := by
  unfold State.operateCompleted
  dsimp only
  rw [State.recl, (parted_replyTo _ _ _ _).reclose (by simp), ← State.recl]
  split
  · exact reasons_operateTold _ _ _ _ _
  · rfl

theorem reasons_supersededSwitch_idle {s : State} (hs : s.ctx.state = .idle) (d : Delivery) (g : Feeder) :
    ((s.supersededSwitch d).recl g).reasons = (s.recl g).reasons := by
  unfold State.supersededSwitch
  split
  · exact reasons_closeCompleted _ _ _ _
  · rw [huntSuperseded_idle hs]
  · exact reasons_operateCompleted _ _ _ _ _ _
  · rfl
  · rfl

theorem reasons_foldl_supersededSwitch (l : List Delivery) {s : State} (hs : s.ctx.state = .idle) (g : Feeder) :
    ((l.foldl State.supersededSwitch s).recl g).reasons = (s.recl g).reasons := by
  induction l generalizing s with
  | nil => rfl
  | cons d rest ih =>
    have hmoves := moves_supersededSwitch_idle (μ := fun p => p = .reclose ∨ p = .requests) (.inl rfl) (.inr rfl) hs d
    have hidle : (s.supersededSwitch d).ctx.state = .idle := by rw [State.ctx, (parted_moves hmoves).hunt (by simp)]; exact hs
    exact (ih hidle).trans (reasons_supersededSwitch_idle hs d g)

/-! ### The decision (R53) -/

/-- A TRIP of the Element Bank is admitted to an IN_SERVICE breaker whose feeder is not in TEST (R106). -/
structure State.TakesTrip (s : State) (f : Feeder) : Prop where
  inService : (s.slot (Feeder.head f)).state = .inService
  breaker : ((s.slot (Feeder.head f)).loaded.any fun l => l.kind == .breaker) = true
  mode : s.mode f = .inService

theorem ownCompletion_supersede (i : SlotId) (q : List Cmd) : ownCompletion tripCmd (supersede i CmdKind.isSwitch q) = none := by
  unfold ownCompletion
  split
  · rfl
  · rename_i d hd
    have hmem := List.mem_of_getLast? hd
    simp only [supersede, List.mem_flatMap, List.mem_filter, deliveries, List.mem_map] at hmem
    obtain ⟨c, ⟨_, hswitch⟩, _, _, rfl⟩ := hmem
    rw [if_neg]
    rintro rfl
    cases hswitch

/-- An admitted TRIP completes nothing at admission but the SWITCH commands it supersedes (R107). -/
theorem handCmd_trip {s : State} {f : Feeder} (h : s.TakesTrip f) :
    (s.handCmd (Feeder.head f) tripCmd).2 = supersede (Feeder.head f) CmdKind.isSwitch (s.slot (Feeder.head f)).queue := by
  have hturn : (s.slot (Feeder.head f)).turnsAway (s.testMark (SlotId.feeder (Feeder.head f))) tripCmd = none := by
    have hbreaker : ((s.slot (Feeder.head f)).loaded.any fun l => tripCmd.kind.permittedFor l.kind) = true := h.breaker
    simp [Outstation.turnsAway, Outstation.admits, h.inService, hbreaker, State.testMark, h.mode]
  have hkind : tripCmd.kind = .trip := rfl
  simp only [State.handCmd, admitCmd, hturn, hkind, admitTrip]
  split
  · rfl
  · split <;> rfl

theorem element_openRecord {s : State} {f : Feeder} (h : (s.element f).latch = none) (r : TripRecord) :
    (s.openRecord r).element f = s.element f := by
  unfold State.openRecord
  split
  · rfl
  · change look (shiftLatches s.bank.records) f = look s.bank.records f
    have h : (look s.bank.records f).latch = none := h
    rw [shiftLatches, look_map, h]
    exact congrArg (fun l => { look s.bank.records f with latch := l }) h.symm

/-- The latch is set with the causes (R53 step 2). -/
theorem element_setLatch {s : State} {f : Feeder} (h : (s.element f).latch = none) (causes : Causes) :
    ∃ k, (s.setLatch f causes).element f = { s.element f with latch := some ⟨causes, k⟩ } := by
  refine ⟨some ((s.openRecord (s.newRecord f causes)).bank.trips.length - 1), ?_⟩
  rw [State.setLatch, State.element_setElement_self, element_openRecord h]

/-- What handing a TRIP may change while no hunt is in progress: not the Element Bank. -/
def Handing (p : Part) : Prop := p = .exchange ∨ p = .reclose ∨ p = .requests

theorem parted_supersededSwitches (l : List Delivery) {s : State} (hs : s.ctx.state = .idle) :
    Parted Handing s (l.foldl State.supersededSwitch s) :=
  parted_moves (moves_foldl_idle (by simp [Handing]) _
    (fun _ d h => moves_supersededSwitch_idle (.inr (.inl rfl)) (.inr (.inr rfl)) h d) l hs)

theorem parted_handCmd (s : State) (i : SlotId) {c : Cmd} (hk : c.kind ≠ .enrol) :
    Parted (fun p => p = .exchange) s (s.handCmd i c).1 :=
  parted_moves (moves_handCmd (μ := fun p => p = .exchange) rfl s i c hk)

/-- Handing the TRIP of a decision: it waits or merges, and what it supersedes is delivered (R53 step 3, R107). -/
theorem handTrip_spec {s : State} {f : Feeder} (hs : s.ctx.state = .idle) (h : s.TakesTrip f) :
    (s.handTrip f).2 = none ∧ Parted Handing s (s.handTrip f).1
      ∧ ∀ g, ((s.handTrip f).1.recl g).reasons = (s.recl g).reasons := by
  have hhand := parted_handCmd s (Feeder.head f) (c := tripCmd) (by decide)
  have hidle : (s.handCmd (Feeder.head f) tripCmd).1.ctx.state = .idle := by
    rw [State.ctx, hhand.hunt (by simp)]; exact hs
  refine ⟨?_, ?_, fun g => ?_⟩
  · rw [State.handTrip, handCmd_trip h]
    exact ownCompletion_supersede _ _
  · exact (hhand.mono fun _ => .inl).trans (parted_supersededSwitches _ hidle)
  · rw [State.handTrip, reasons_foldl_supersededSwitch _ hidle, State.recl, hhand.reclose (by simp)]
    rfl

/-- What a decision with no hunt in progress may change. -/
def Deciding (p : Part) : Prop := p = .bank ∨ Handing p

/-- What an operation leaves: the latch holds its causes, no member joins or leaves a set, and the Hunt Controller has nothing to
do with it. -/
structure State.Decided (s t : State) (f : Feeder) (causes : Causes) : Prop where
  latched : ∃ k, t.element f = { s.element f with latch := some ⟨causes, k⟩ }
  reasons : ∀ g, (t.recl g).reasons = (s.recl g).reasons
  parted : Parted Deciding s t

/-- An operation on a feeder whose latch is clear and whose breaker takes the TRIP (R53). -/
theorem decided_operation {s : State} {f : Feeder} (hs : s.ctx.state = .idle) (hlatch : (s.element f).latch = none)
    (htrip : s.TakesTrip f) (causes : Causes) : s.Decided (s.operation f causes) f causes := by
  have hset : Parted (fun p => p = .bank) s (s.setLatch f causes) :=
    parted_moves (moves_setLatch (μ := fun p => p = .bank) rfl s f causes)
  have hidle : (s.setLatch f causes).ctx.state = .idle := by rw [State.ctx, hset.hunt (by simp)]; exact hs
  have htaken : (s.setLatch f causes).TakesTrip f := by
    refine ⟨?_, ?_, ?_⟩
    · rw [State.slot, hset.exchange (by simp)]; exact htrip.inService
    · rw [State.slot, hset.exchange (by simp)]; exact htrip.breaker
    · rw [State.mode, hset.modes]; exact htrip.mode
  obtain ⟨hown, hhand, hreasons⟩ := handTrip_spec hidle htaken
  have htell : Parted (fun p => p = .reclose) _ (((s.setLatch f causes).handTrip f).1.tellDecision f) :=
    parted_moves (moves_tellDecision (μ := fun p => p = .reclose) rfl _ f)
  have hidle' : (((s.setLatch f causes).handTrip f).1.tellDecision f).ctx.state = .idle := by
    rw [State.ctx, htell.hunt (by simp), hhand.hunt (by simp [Handing])]; exact hidle
  have hop : s.operation f causes = ((s.setLatch f causes).handTrip f).1.tellDecision f := by
    simp [State.operation, htrip.mode, hlatch, State.tripDecision, hown, escalateHunt_idle hidle']
  rw [hop]
  refine ⟨?_, fun g => ?_, ?_⟩
  · obtain ⟨k, hk⟩ := element_setLatch hlatch causes
    exact ⟨k, by rw [State.element, htell.bank (by simp), hhand.bank (by simp [Handing]), ← hk]; rfl⟩
  · rw [reasons_tellDecision, hreasons, State.recl, hset.reclose (by simp)]
    rfl
  · exact ((hset.mono fun _ => .inl).trans (hhand.mono fun _ => .inr)).trans
      (htell.mono fun p hp => .inr (.inr (.inl hp)))

/-! ### Followers and the reclose records -/

theorem records_moveFollower (s : State) (i : SlotId) (st : FollowerState) (r : Option Nat) (k : Option Completion) :
    (s.moveFollower i st r k).reclose.records = s.reclose.records := by
  unfold State.moveFollower
  dsimp only
  split
  · rfl
  · rw [notify_reclose]; rfl

theorem records_blockingCompleted (s : State) (d : Delivery) : (s.blockingCompleted d).reclose.records = s.reclose.records := by
  unfold State.blockingCompleted State.blockCompleted State.releaseCompleted
  dsimp only
  split
  · split
    · rfl
    all_goals split <;> first | exact records_moveFollower _ _ _ _ _ | rfl
  · split <;> first | exact records_moveFollower _ _ _ _ _ | rfl
  · rfl

/-- What each step of a walk leaves of a value, the walk leaves. -/
theorem foldl_leaves {α β : Type} (v : State → β) (g : State → α → State) (hg : ∀ s x, v (g s x) = v s) (l : List α)
    (s : State) : v (l.foldl g s) = v s := by
  induction l generalizing s with
  | nil => rfl
  | cons x rest ih => exact (ih _).trans (hg s x)

theorem records_handBlocking (s : State) (i : SlotId) {k : CmdKind} (hk : k ≠ .enrol) :
    (s.handBlocking i k).reclose.records = s.reclose.records := by
  have hhand := (parted_handCmd s i (c := { kind := k, origin := .reclose }) hk).reclose (by simp)
  exact (foldl_leaves (fun t => t.reclose.records) _ records_blockingCompleted _ _).trans
    (congrArg RecloseController.records hhand)

theorem records_blockFollower (s : State) (i : SlotId) : (s.blockFollower i).reclose.records = s.reclose.records := by
  unfold State.blockFollower
  split
  all_goals first
    | rfl
    | split
      · exact (records_handBlocking _ _ (by decide)).trans (records_moveFollower _ _ _ _ _)
      · rfl

theorem records_releaseFollower (s : State) (i : SlotId) : (s.releaseFollower i).reclose.records = s.reclose.records := by
  unfold State.releaseFollower
  split
  all_goals first
    | rfl
    | exact (records_handBlocking _ _ (by decide)).trans (records_moveFollower _ _ _ _ _)

theorem recl_of_records {s t : State} (h : t.reclose.records = s.reclose.records) (f : Feeder) : t.recl f = s.recl f :=
  look_congr h f

theorem recl_changeReason (s : State) (f g : Feeder) (m : Reason) (x : Bool) :
    (s.changeReason f m x).recl g = if g = f then { s.recl f with reasons := (s.recl f).reasons.put x m } else s.recl g := by
  unfold State.changeReason State.notifyReasons
  dsimp only
  rw [recl_notify]
  exact State.recl_setRecl _ _ _ _

theorem reasons_reasonAdded (s : State) (f g : Feeder) : ((s.reasonAdded f).recl g).reasons = (s.recl g).reasons := by
  unfold State.reasonAdded
  split
  · exact reasons_goReclose _ _ _ _ _
  · rw [State.markReclose, State.recl_setRecl]
    split
    · rename_i h; rw [h]
    · rfl
  · rfl

theorem has_put (r : Reasons) (x : Bool) (m : Reason) : (r.put x m).has m = x := by cases m <;> rfl

/-- An added member is a member (R80). -/
theorem has_addReason (s : State) (f : Feeder) (m : Reason) : ((s.addReason f m).recl f).reasons.has m = true := by
  unfold State.addReason
  dsimp only
  split
  · assumption
  · have hadded : (((s.changeReason f m true).reasonAdded f).recl f).reasons.has m = true := by
      rw [reasons_reasonAdded, recl_changeReason, if_pos rfl]
      exact has_put _ _ _
    split
    · rw [recl_of_records (foldl_leaves (fun t => t.reclose.records) _ records_blockFollower _ _)]
      exact hadded
    · exact hadded

/-! ### SEF on one set (R45 to R47) -/

theorem stepHighSetTimer_sef (d : Nat) (r : ElementRecord) :
    (stepHighSetTimer d r).1.sefC = r.sefC ∧ (stepHighSetTimer d r).1.sefTimer = r.sefTimer
      ∧ (stepHighSetTimer d r).1.latch = r.latch := by
  unfold stepHighSetTimer
  split
  · exact ⟨rfl, rfl, rfl⟩
  split
  · exact ⟨rfl, rfl, rfl⟩
  split
  · exact ⟨rfl, rfl, rfl⟩
  split <;> exact ⟨rfl, rfl, rfl⟩

/-- HIGH_SET leaves the SEF state and the latch alone. -/
theorem stepHighSet_sef (p : Profile) (m : FeederMeasurement) (r : ElementRecord) :
    (stepHighSet p m r).1.sefC = r.sefC ∧ (stepHighSet p m r).1.sefTimer = r.sefTimer
      ∧ (stepHighSet p m r).1.latch = r.latch := by
  unfold stepHighSet
  split
  · exact ⟨rfl, rfl, rfl⟩
  · dsimp only
    split
    · exact stepHighSetTimer_sef _ _
    · exact ⟨rfl, rfl, rfl⟩

theorem pairMagnitude_level {p : Profile} (h : p.sefPair = false) (s : State) (f : Feeder) : s.pairMagnitude f p = none := by
  simp [State.pairMagnitude, h]

/-- In level mode SEF operates on the set at which a running timer reaches the delay, if the magnitude still holds it (R45, R47). -/
theorem stepSef_operates {s : State} {f : Feeder} {p : Profile} {r : ElementRecord} {mn n : Nat} (he : p.sefEnable = true)
    (hp : p.sefPair = false) (hc : r.sefC = .pickedUp) (hmn : sefLevel p.sefK (s.sefBase f) * 15 / 16 ≤ mn)
    (ht : r.sefTimer = some n) (hn : 160 * p.sefDelay ≤ n + 1) :
    stepSef s f p mn r = ({ r with sefC := .pickedUp, sefTimer := none, sefOperated := true }, true) := by
  have hlevel : levelState (s.sefT f p) mn .pickedUp = .pickedUp := by
    rw [levelState, State.sefT, if_neg (Nat.not_lt.2 hmn)]
  simp [stepSef, he, pairMagnitude_level hp, hc, hlevel, stepSefTimer, ht, hn]

/-- What a set leaves of the element record when SEF operates on it. -/
theorem stepElements_sefOperates {s : State} {f : Feeder} {p : Profile} {m : FeederMeasurement} {r : ElementRecord} {n : Nat}
    (he : p.sefEnable = true) (hp : p.sefPair = false) (hc : r.sefC = .pickedUp)
    (hmn : sefLevel p.sefK (s.sefBase f) * 15 / 16 ≤ m.inn.mag) (ht : r.sefTimer = some n) (hn : 160 * p.sefDelay ≤ n + 1) :
    (stepElements s f p m r).2.2 = true ∧ (stepElements s f p m r).1.sefOperated = true
      ∧ (stepElements s f p m r).1.sefTimer = none ∧ (stepElements s f p m r).1.latch = r.latch := by
  obtain ⟨hsefC, hsefTimer, hlatch⟩ := stepHighSet_sef p m (stepInverse s p m r).1
  have hsef := stepSef_operates (s := s) (f := f) (r := (stepHighSet p m (stepInverse s p m r).1).1) he hp (hsefC.trans hc) hmn
    (hsefTimer.trans ht) hn
  unfold stepElements
  dsimp only
  rw [hsef]
  exact ⟨rfl, rfl, rfl, hlatch⟩

/-! ### The action of SEF (R48) -/

/-- What an SEF operation leaves whose action is not HUNT: SEF_LOCK is a member where the profile asks for it. -/
theorem sefOperate_spec {s : State} {f : Feeder} {p : Profile} (h : p.sefAction ≠ .hunt) :
    Parted (fun q => q = .exchange ∨ q = .reclose) s (s.sefOperate f p) ∧ (s.sefOperate f p).fixed = s.fixed
      ∧ (p.sefAction = .trip → p.sefLock = true → ((s.sefOperate f p).recl f).reasons.sefLock = true) := by
  have hnotice : Moves (fun q => q = .exchange ∨ q = .reclose) s (s.notifySef f p) := moves_notifySef s f p
  unfold State.sefOperate
  dsimp only
  split
  · rename_i hact
    exact ⟨parted_moves hnotice, fixed_moves hnotice, fun e => by rw [hact] at e; cases e⟩
  · rename_i hact
    exact absurd hact h
  · split
    · have hadd := (moves_addReason (.inl rfl) (.inr rfl) (s.notifySef f p) f .sefLock trivial).peel hnotice
      exact ⟨parted_moves hadd, fixed_moves hadd, fun _ _ => has_addReason _ f .sefLock⟩
    · rename_i hlock
      exact ⟨parted_moves hnotice, fixed_moves hnotice, fun _ e => absurd e hlock⟩

/-- The evaluation leaves everything about SEF, the latch and the sets as the operation has set them. -/
theorem sefReport_spec (s : State) (f : Feeder) :
    ((s.sefReport f).element f).sefOperated = (s.element f).sefOperated
      ∧ ((s.sefReport f).element f).sefTimer = (s.element f).sefTimer
      ∧ ((s.sefReport f).element f).latch = (s.element f).latch := by
  unfold State.sefReport
  dsimp only
  split
  · rw [element_notify, State.element_setElement_self]
    exact ⟨rfl, rfl, rfl⟩
  · exact ⟨rfl, rfl, rfl⟩

/-! ### The sample set (R12, R35) -/

@[simp] theorem feeder?_entry (f : Feeder) : EntryId.feeder? (Feeder.entry f) = some f := by
  simp [EntryId.feeder?, Feeder.entry]

/-- A LIVE stream with an in-order set at its newest end. -/
def StreamRecord.with (r : StreamRecord) (x : SampleSet) (now : Nat) : StreamRecord :=
  { r with window := pushSet r.window x, lastSeq := some x.seq, expiry := r.restarted now }

/-- An in-order set on a LIVE stream joins the window and is evaluated (R12). -/
theorem takeSample_live {s : State} {e : EntryId} {x : SampleFrame} (hat : s.streamAt x.source = some e)
    (hlive : (s.stream e).state = .live) (hclass : s.classOf e x = .inOrder) :
    s.takeSample x = (s.setStream e ((s.stream e).with (setOf x) s.time)).evaluateSet e x.seq := by
  have hstate : ((s.stream e).with (setOf x) s.time).state = .live := hlive
  have hmove : s.moveStream e ((s.stream e).with (setOf x) s.time) .resumed
      = s.setStream e ((s.stream e).with (setOf x) s.time) := by
    simp [State.moveStream, hlive, hstate]
  have hfull : (s.setStream e ((s.stream e).with (setOf x) s.time)).checkFull e
      = s.setStream e ((s.stream e).with (setOf x) s.time) := by
    simp [State.checkFull, hstate]
  have hon : (s.setStream e ((s.stream e).with (setOf x) s.time)).live e = true := by simp [State.live, hstate]
  have hrec : { s.stream e with state := if (s.stream e).state == .lost then StreamState.filling else (s.stream e).state
                                window := pushSet (s.stream e).window (setOf x), lastSeq := some (setOf x).seq
                                expiry := (s.stream e).restarted s.time } = (s.stream e).with (setOf x) s.time := by
    simp [hlive, StreamRecord.with]
  simp only [State.takeSample, hat, State.takeFrame, hclass, State.takeSet, hrec, hmove, hfull, hon, if_true]
  rfl

/-- The set is measured before it is evaluated (R22). -/
theorem evaluateSet_feeder {s : State} {f : Feeder} {p : Profile} (seq : U16)
    (hmode : s.mode f = .inService) (hp : s.feederProfile f = some p) :
    s.evaluateSet (Feeder.entry f) seq
      = ((s.setMeas f (some (measureFeeder seq (s.stream (Feeder.entry f)).window))).evaluateWith f p
          (measureFeeder seq (s.stream (Feeder.entry f)).window)).settleOnSet (Feeder.entry f) := by
  simp only [State.evaluateSet, feeder?_entry]
  generalize measureFeeder seq (s.stream (Feeder.entry f)).window = m
  have hmode : (s.setMeas f (some m)).mode f = .inService := hmode
  have hp : (s.setMeas f (some m)).feederProfile f = some p := hp
  simp [State.evaluate, hmode, hp]

/-! ### The decision SEF leads to -/

/-- Slots that know the same take the same TRIP. -/
theorem takesTrip_congr {s t : State} {f : Feeder} (hfixed : t.fixed = s.fixed) (hmodes : t.modes = s.modes)
    (h : s.TakesTrip f) : t.TakesTrip f := by
  have hstill := still_of_fixed hfixed (Feeder.head f)
  have hloaded : (t.slot (Feeder.head f)).loaded = (s.slot (Feeder.head f)).loaded := by
    simpa only [Outstation.still] using congrArg Outstation.loaded hstill
  refine ⟨(congrArg Outstation.state hstill).trans h.inService, ?_, ?_⟩
  · rw [hloaded]; exact h.breaker
  · rw [State.mode, hmodes]; exact h.mode

/-- A set on which SEF operates with no hunt in progress (R35 steps 4 and 5): what the element record, the latch and the sets hold
after it. -/
theorem evaluateWith_sefOperates {v : State} {f : Feeder} {p : Profile} {m : FeederMeasurement} {n : Nat}
    (hidle : v.ctx.state = .idle) (htrip : v.TakesTrip f) (hlatch : (v.element f).latch = none) (haction : p.sefAction ≠ .hunt)
    (he : p.sefEnable = true) (hp : p.sefPair = false) (hc : (v.element f).sefC = .pickedUp)
    (hmn : sefLevel p.sefK (v.sefBase f) * 15 / 16 ≤ m.inn.mag) (ht : (v.element f).sefTimer = some n)
    (hn : 160 * p.sefDelay ≤ n + 1) :
    Parted Deciding v (v.evaluateWith f p m) ∧ ((v.evaluateWith f p m).element f).sefOperated = true
      ∧ ((v.evaluateWith f p m).element f).sefTimer = none
      ∧ (p.sefAction = .trip → ∃ l, ((v.evaluateWith f p m).element f).latch = some l ∧ l.causes.sef = true
        ∧ (p.sefLock = true → ((v.evaluateWith f p m).recl f).reasons.sefLock = true)) := by
  obtain ⟨hflag, hoperated, htimer, hlatch'⟩ := stepElements_sefOperates he hp hc hmn ht hn
  set x := stepElements v f p m (v.element f) with hx
  set causes : Causes := { x.2.1 with sef := x.2.2 && p.sefAction == .trip } with hcauses
  have hset : Parted Deciding v (v.setElement f x.1) := { Parted.refl v with bank := fun h => absurd (.inl rfl) h, rest := rfl }
  obtain ⟨hop, hopFixed, hlock⟩ := sefOperate_spec (s := v.setElement f x.1) (f := f) haction
  set s2 := (v.setElement f x.1).sefOperate f p with hs2
  have helement : s2.element f = x.1 := by
    rw [State.element, hop.bank (by simp)]; exact State.element_setElement_self _ _ _
  have hidle2 : s2.ctx.state = .idle := by rw [State.ctx, hop.hunt (by simp)]; exact hidle
  have htrip2 : s2.TakesTrip f := takesTrip_congr hopFixed hop.modes ⟨htrip.inService, htrip.breaker, htrip.mode⟩
  have heq : v.evaluateWith f p m = (s2.operateIf f causes).sefReport f := by
    simp only [State.evaluateWith, ← hx, hflag, if_true, ← hs2, hcauses]
  have hdec : s2.operateIf f causes = s2 ∧ p.sefAction ≠ .trip ∨ s2.Decided (s2.operateIf f causes) f causes := by
    unfold State.operateIf
    split
    · rename_i hempty
      refine .inl ⟨rfl, fun hact => ?_⟩
      simp [Causes.isEmpty, hcauses, hflag, hact] at hempty
    · exact .inr (decided_operation hidle2 (by rw [helement, hlatch', hlatch]) htrip2 causes)
  obtain ⟨hrepOp, hrepTimer, hrepLatch⟩ := sefReport_spec (s2.operateIf f causes) f
  have hrep : Parted (fun q => q = .bank) (s2.operateIf f causes) ((s2.operateIf f causes).sefReport f) :=
    parted_moves (moves_sefReport (μ := fun q => q = .bank) rfl _ f)
  have hparts : Parted Deciding s2 (s2.operateIf f causes) := by
    obtain ⟨h, _⟩ | h := hdec
    · rw [h]; exact Parted.refl s2
    · exact h.parted
  have hkeep : ((s2.operateIf f causes).element f).sefOperated = true ∧ ((s2.operateIf f causes).element f).sefTimer = none := by
    obtain ⟨h, _⟩ | h := hdec
    · rw [h, helement]; exact ⟨hoperated, htimer⟩
    · obtain ⟨k, hk⟩ := h.latched
      rw [hk, helement]; exact ⟨hoperated, htimer⟩
  rw [heq]
  refine ⟨?_, hrepOp.trans hkeep.1, hrepTimer.trans hkeep.2, fun hact => ?_⟩
  · refine ((hset.trans (hop.mono ?_)).trans hparts).trans (hrep.mono fun q h => .inl h)
    rintro q (rfl | rfl)
    · exact .inr (.inl rfl)
    · exact .inr (.inr (.inl rfl))
  · obtain ⟨_, h⟩ | h := hdec
    · exact absurd hact h
    · obtain ⟨k, hk⟩ := h.latched
      refine ⟨⟨causes, k⟩, by rw [hrepLatch, hk], by simp [hcauses, hflag, hact], fun hsl => ?_⟩
      rw [State.recl, hrep.reclose (by simp), ← State.recl, h.reasons]
      exact hlock hact hsl

/-- Settles O26: the set joins the window, SEF operates on it, and its cause is decided (R45, R47, R48, R53). -/
theorem sefDelayOperates : Obligations.SefDelayOperates := by
  unfold Obligations.SefDelayOperates
  intro s f x p n hcalm hat hlive hclass hmode hprof he hp haction hlatch hc hmn ht hn hslot hbreaker
  set w := s.setStream (Feeder.entry f) ((s.stream (Feeder.entry f)).with (setOf x) s.time) with hw
  have hwindow : (w.stream (Feeder.entry f)).window = pushSet (s.stream (Feeder.entry f)).window (setOf x) :=
    congrArg StreamRecord.window (look_put_self _ _ _)
  set m := measureFeeder x.seq (pushSet (s.stream (Feeder.entry f)).window (setOf x)) with hm
  set v := w.setMeas f (some m) with hv
  obtain ⟨hparts, hoperated, htimer, htrip⟩ := evaluateWith_sefOperates (v := v) (f := f) (p := p) (m := m) hcalm.noHunt
    ⟨hslot, hbreaker, hmode⟩ hlatch haction he hp hc hmn ht hn
  have hhunt : (v.evaluateWith f p m).hunt = s.hunt := hparts.hunt (by simp [Deciding, Handing])
  have hprofiles : (v.evaluateWith f p m).profiles = s.profiles := hparts.map (by simp [Deciding, Handing])
  have hidle : (v.evaluateWith f p m).ctx.state = .idle := by rw [State.ctx, hhunt]; exact hcalm.noHunt
  have htake : s.takeSample x = v.evaluateWith f p m := by
    rw [takeSample_live hat hlive hclass, evaluateSet_feeder x.seq (s := w) hmode hprof, hwindow, settleOnSet_idle hidle]
  have hconclude : State.conclude72 s (s.takeSample x) = State.finish s (v.evaluateWith f p m) := by
    rw [htake]
    refine conclude72_still (fun e => ?_) (.inr ?_)
    · rw [State.entry, hprofiles]; exact hcalm.noPending e
    · rw [hhunt]; exact hcalm.noTrigger
  refine ⟨State.finish s (v.evaluateWith f p m), ?_, ?_⟩
  · simp only [exec, execSefDelayExpiry, State.unlessHeld, hcalm.released, hconclude]
    rfl
  · simp only [element_finish, recl_finish]
    exact ⟨hoperated, htimer, htrip⟩

end Sys2Proof.Machine
end

section
/-! What an answer or a timeout leaves of its slot, and what the completions it brings lead to while no hunt is in progress
(R83, R84, R86, R113 to R115, R118). -/

namespace Sys2Proof.Machine

variable {μ : Part → Prop}

/-! ### A slot and its notices -/

/-- A slot has taken a new record, at most `n` notices more wait than before, and nothing else has changed. -/
structure State.Puts (s t : State) (i : SlotId) (o : Outstation) (n : Nat) : Prop where
  parted : Parted (fun p => p = .exchange) s t
  slot : t.slot i = o
  others : ∀ j, j ≠ i → t.slot j = s.slot j
  notices : t.mgmt.notices.length ≤ s.mgmt.notices.length + n
  table : t.link.table = s.link.table

theorem table_notify (s : State) (n : Notice) (b : Bool) : (s.notify n b).link.table = s.link.table :=
  (portKept_moves (tells_notify s n b)).table

theorem puts_setSlot (s : State) (i : SlotId) (o : Outstation) : s.Puts (s.setSlot i o) i o 0 where
  parted := parted_setSlot (μ := fun p => p = .exchange) rfl s i o
  slot := State.slot_setSlot_self s i o
  others _ hj := look_put_ne _ _ hj
  notices := Nat.le_refl _
  table := rfl

namespace State.Puts

variable {s t : State} {i : SlotId} {o : Outstation} {n : Nat}

theorem mono {m : Nat} (h : s.Puts t i o n) (hm : n ≤ m) : s.Puts t i o m :=
  { h with notices := h.notices.trans (by omega) }

theorem set (h : s.Puts t i o n) (o' : Outstation) : s.Puts (t.setSlot i o') i o' n where
  parted := h.parted.trans (parted_setSlot (μ := fun p => p = .exchange) rfl t i o')
  slot := State.slot_setSlot_self t i o'
  others j hj := (look_put_ne _ _ hj).trans (h.others j hj)
  notices := h.notices
  table := h.table

theorem notify (h : s.Puts t i o n) (x : Notice) (b : Bool) : s.Puts (t.notify x b) i o (n + 1) where
  parted := h.parted.trans (parted_moves (moves_notify t x b))
  slot := (slot_notify t x b i).trans h.slot
  others j hj := (slot_notify t x b j).trans (h.others j hj)
  notices := by have := length_notices_notify t x b; have := h.notices; omega
  table := (table_notify t x b).trans h.table

theorem notifySlot (h : s.Puts t i o n) (j : SlotId) (st : SlotState) (x : OutReason) : s.Puts (t.notifySlot j st x) i o (n + 1) :=
  h.notify _ _

theorem element (h : s.Puts t i o n) (f : Feeder) : t.element f = s.element f := look_congr (by rw [h.parted.bank (by simp)]) f

theorem recl (h : s.Puts t i o n) (f : Feeder) : t.recl f = s.recl f := look_congr (by rw [h.parted.reclose (by simp)]) f

theorem ctx (h : s.Puts t i o n) : t.ctx = s.ctx := congrArg HuntController.ctx (h.parted.hunt (by simp))

end State.Puts

/-- A slot that was UNREACHABLE and has answered (R117). -/
def Outstation.reached (o : Outstation) : Outstation :=
  if o.state = .unreachable then { o with state := .inService, failures := 0 } else o

/-- What a DONE sets of a slot (R113 step 3). -/
def Outstation.switched (o : Outstation) (k : CmdKind) : Outstation :=
  match k.sets with
  | none => o
  | some p => { o with known := p, history := [] }

theorem Outstation.reached_known (o : Outstation) : o.reached.known = o.known := by
  unfold Outstation.reached
  split <;> rfl

theorem Outstation.reached_not_enrolling {o : Outstation} (h : o.state ≠ .enrolling) : o.reached.state ≠ .enrolling := by
  unfold Outstation.reached
  split
  · simp
  · exact h

theorem Outstation.switched_state (o : Outstation) (k : CmdKind) : (o.switched k).state = o.state := by
  cases k <;> rfl

theorem State.Puts.reach {s t : State} {i : SlotId} {o : Outstation} {n : Nat} (h : s.Puts t i o n) :
    s.Puts (t.reach i) i o.reached (n + 1) := by
  unfold State.reach Outstation.reached
  simp only [h.slot, beq_iff_eq]
  split
  · exact (h.set _).notify _ _
  · exact h.mono (Nat.le_succ n)

theorem State.Puts.switched {s t : State} {i : SlotId} {o : Outstation} {n : Nat} (h : s.Puts t i o n) (k : CmdKind) :
    s.Puts (t.switched i k) i (o.switched k) (n + 1) := by
  unfold State.switched Outstation.switched
  cases k.sets with
  | none => exact h.mono (Nat.le_succ n)
  | some p =>
    simp only [h.slot]
    split
    · exact (h.set _).mono (Nat.le_succ n)
    · exact (h.set _).notify _ _

/-! ### Answers -/

theorem exec_response {s : State} (hheld : s.held = false) (source : U16) (tag : Byte) (a : AnswerKind) (v : U16) :
    exec (.response source tag a v) s = .next (State.conclude72 s (s.takeResponse source tag a v)) := by
  simp only [exec, execResponse, State.unlessHeld, hheld]
  rfl

section
variable {s : State} {source : U16} {i : SlotId} {fl : InFlight} (hslot : s.knownSlot source = some i)
  (hfly : (s.slot i).inFlight = some fl) (v : U16)
include hslot hfly

theorem takeResponse_done : s.takeResponse source fl.tag .done v = s.answered i fl (.done (some v) false) := by
  simp [State.takeResponse, hslot, hfly]

theorem takeResponse_refused : s.takeResponse source fl.tag .refused v = s.answered i fl (.refused v) := by
  simp [State.takeResponse, hslot, hfly]

theorem takeResponse_wait : s.takeResponse source fl.tag .wait v = s.waited i fl v := by
  simp [State.takeResponse, hslot, hfly]
end

/-- The slot of a command that is answered (R113 steps 1 and 2, R117). -/
def State.answeredSlot (s : State) (i : SlotId) : Outstation :=
  ({ (s.slot i).landed s.time with failures := 0 } : Outstation).reached

/-- A matching DONE: the slot, then the deliveries (R113). -/
theorem answered_done (s : State) (i : SlotId) (fl : InFlight) (x : Option U16) (b : Bool) :
    ∃ u, s.Puts u i ((s.answeredSlot i).switched fl.cmd.kind) 2
      ∧ s.answered i fl (.done x b) = u.deliverAll (deliveries i fl.cmd (.done x b)) :=
  ⟨_, (puts_setSlot s i _).reach.switched fl.cmd.kind, rfl⟩

/-- A matching REFUSED: the slot, then the deliveries (R113). -/
theorem answered_refused (s : State) (i : SlotId) (fl : InFlight) (v : U16) :
    ∃ u, s.Puts u i (s.answeredSlot i) 1 ∧ s.answered i fl (.refused v) = u.deliverAll (deliveries i fl.cmd (.refused v)) :=
  ⟨_, (puts_setSlot s i _).reach, rfl⟩

/-- The fifth WAIT ends the command (R114). -/
theorem waited_fifth (s : State) (i : SlotId) {fl : InFlight} (v : U16) (h : 5 ≤ fl.waits + 1) :
    ∃ u o, s.Puts u i o 1 ∧ s.waited i fl v = u.deliverAll (deliveries i fl.cmd .waitLimit) := by
  have hlimit : ¬ fl.waits + 1 < Config.waitLimit := Nat.not_lt.2 h
  rw [State.waited, if_neg hlimit]
  exact ⟨_, _, (puts_setSlot s i _).reach, rfl⟩

/-- The end of an event that touched neither the map nor the Hunt Controller, from a state in which nothing waits. -/
theorem conclude72_of_parted {s t : State} (hs : s.Still) (h : Parted μ s t) (hmap : ¬ μ .map) (hhunt : ¬ μ .hunt) :
    State.conclude72 s t = State.finish s t := by
  refine conclude72_still (fun e => ?_) (.inr ?_)
  · rw [State.entry, h.map hmap]; exact hs.noPending e
  · rw [h.hunt hhunt]; exact hs.noTrigger

/-! ### The TRIP of a latched feeder (R55, R83) -/

/-- Why a dead time is not permitted, and whether, rest on the sets, the profile, the stream and the causes alone (R83). -/
theorem isPermitted_iff {s : State} {f : Feeder} {p : Profile} (hp : s.feederProfile f = some p) (used : Nat) (causes : Causes) :
    (s.permissionFailures f used causes).isPermitted = true ↔
      (s.recl f).reasons.isEmpty = true ∧ used + 1 ≤ p.shots ∧ causes.streamLoss = false
        ∧ ¬ (causes.sef = true ∧ p.sefLock = true) ∧ (s.stream (Feeder.entry f)).state = .live := by
  simp [PermissionFailures.isPermitted, State.permissionFailures, hp, State.live, and_assoc, imp_iff_not_or]

theorem deadTime_succ (p : Profile) (used : Nat) : p.deadTime (used + 1)
    = if used = 0 then p.dead1 else if used = 1 then p.dead2 else if used = 2 then p.dead3 else p.dead4 := by
  simp [Profile.deadTime]

theorem tellTripDone_marked {s : State} {f : Feeder} {used : Nat} {m : FinalMark} (h : (s.recl f).state = .tripping used (some m))
    (causes : Causes) : s.tellTripDone f causes = s.goReclose f (.lockout m.cause) := by
  simp [State.tellTripDone, h]

theorem tellTripDone_permitted {s : State} {f : Feeder} {used : Nat} {p : Profile} {causes : Causes}
    (h : (s.recl f).state = .tripping used none) (hp : s.feederProfile f = some p)
    (hperm : (s.permissionFailures f used causes).isPermitted = true) :
    s.tellTripDone f causes = s.goReclose f (.deadTime (used + 1) (s.time + 100 * p.deadTime (used + 1))) := by
  simp [State.tellTripDone, h, hp, hperm]

theorem tellTripDone_refused {s : State} {f : Feeder} {used : Nat} {causes : Causes}
    (h : (s.recl f).state = .tripping used none) (hperm : (s.permissionFailures f used causes).isPermitted = false) :
    s.tellTripDone f causes = s.goReclose f (.lockout .notPermitted) (s.permissionFailures f used causes) := by
  simp [State.tellTripDone, h, hperm]

theorem tellTripDone_elsewhere {s : State} {f : Feeder} (h : ∀ used m, (s.recl f).state ≠ .tripping used m) (causes : Causes) :
    s.tellTripDone f causes = s := by
  unfold State.tellTripDone
  split
  · rename_i hst; exact absurd hst (h _ _)
  · rename_i hst; exact absurd hst (h _ _)
  · rfl

theorem recl_tellTripDone_ne (s : State) {f g : Feeder} (hg : g ≠ f) (causes : Causes) :
    (s.tellTripDone f causes).recl g = s.recl g := by
  unfold State.tellTripDone
  dsimp only
  split
  · rw [recl_goReclose, if_neg hg]
  · split <;> rw [recl_goReclose, if_neg hg]
  · rfl

theorem bank_setElement (s : State) (f : Feeder) (r : ElementRecord) :
    (s.setElement f r).bank = { s.bank with records := put s.bank.records f r } := rfl

theorem parted_setElement (hb : μ .bank) (s : State) (f : Feeder) (r : ElementRecord) : Parted μ s (s.setElement f r) :=
  { Parted.refl s with bank := fun h => absurd hb h, rest := rfl }

/-- The trip record a latch names, with its outcome OPENED (R55). -/
def Latch.opened (l : Latch) (trips : List TripRecord) : List TripRecord :=
  match l.record with
  | none => trips
  | some n => trips.modify n fun r => { r with outcome := some .opened }

theorem bank_closeLatch (s : State) (f : Feeder) (l : Latch) : (s.closeLatch f l .opened).bank
    = { s.bank with trips := l.opened s.bank.trips, records := put s.bank.records f { s.element f with latch := none } } := by
  obtain ⟨causes, record⟩ := l
  cases record <;> rfl

/-- The element record of a feeder whose TRIP is done (R55). -/
def ElementRecord.tripped (r : ElementRecord) : ElementRecord := { r with latch := none }.zeroed

/-- The latch of a feeder is closed and its element record zeroed (R55 steps 1 to 3). -/
def State.opened (s : State) (f : Feeder) (l : Latch) : State :=
  (s.closeLatch f l .opened).setElement f ((s.closeLatch f l .opened).element f).zeroed

theorem bank_opened (s : State) (f : Feeder) (l : Latch) : (s.opened f l).bank
    = { s.bank with trips := l.opened s.bank.trips, records := put s.bank.records f (s.element f).tripped } := by
  have helement : (s.closeLatch f l .opened).element f = { s.element f with latch := none } := by
    rw [State.element, bank_closeLatch]
    exact look_put_self _ _ _
  have hput : put (put s.bank.records f { s.element f with latch := none }) f (s.element f).tripped
      = put s.bank.records f (s.element f).tripped := look_ext fun j => by
    rw [look_put, look_put, look_put]; split <;> rfl
  rw [State.opened, helement, bank_setElement, bank_closeLatch]
  exact congrArg (fun v => { s.bank with trips := l.opened s.bank.trips, records := v }) hput

theorem parted_opened (s : State) (f : Feeder) (l : Latch) : Parted (fun p => p = .bank) s (s.opened f l) := by
  refine (parted_moves (moves_closeLatch (μ := fun p => p = .bank) rfl s f l .opened)).trans ?_
  exact parted_setElement (μ := fun p => p = .bank) rfl _ _ _

/-- DONE of the TRIP of a latched feeder (R55). -/
theorem tripCompleted_done {s : State} {f : Feeder} {l : Latch} (h : (s.element f).latch = some l) (x : Option U16) (b : Bool) :
    s.tripCompleted f (.done x b) = ((s.opened f l).tellTripDone f l.causes).notifyTrip f l .opened := by
  simp only [State.tripCompleted, h]
  rfl

theorem tripCompleted_none {s : State} {f : Feeder} (h : (s.element f).latch = none) (k : Completion) :
    s.tripCompleted f k = s := by
  simp [State.tripCompleted, h]

theorem huntCompleted_idle {s : State} (hs : s.ctx.state = .idle) (kind : CmdKind) (k : Completion) :
    s.huntCompleted kind k = s := by
  unfold State.huntCompleted
  rw [hs]

/-- What a command's other originators are told once its TRIP is done concerns the requests alone. -/
theorem parted_deliver_trip {s : State} {d : Delivery} (hidle : s.ctx.state = .idle) (hstate : (s.slot d.slot).state ≠ .enrolling)
    (hlatch : (s.element (SlotId.feeder d.slot)).latch = none) (hkind : d.cmd.kind = .trip) :
    Parted (fun p => p = .requests) s (s.deliver d) := by
  unfold State.deliver
  split
  · rw [tripCompleted_none hlatch]; exact Parted.refl s
  · simp only [hkind, State.blockingCompleted]; exact Parted.refl s
  · rw [huntCompleted_idle hidle]; exact Parted.refl s
  · have htold : s.operateTold (SlotId.feeder d.slot) .trip d.completion = s := by
      unfold State.operateTold
      split <;> rfl
    rw [hkind, State.operateCompleted, htold, ite_self]
    exact parted_replyTo _ _ _ _
  · simp only [State.enrolCompleted, beq_iff_eq, hstate, if_false]; exact Parted.refl s

theorem parted_deliverAll_trip {i : SlotId} (l : List Delivery) (hl : ∀ d ∈ l, d.slot = i ∧ d.cmd.kind = .trip) {s : State}
    (hidle : s.ctx.state = .idle) (hstate : (s.slot i).state ≠ .enrolling) (hlatch : (s.element (SlotId.feeder i)).latch = none) :
    Parted (fun p => p = .requests) s (s.deliverAll l) := by
  refine List.foldlRecOn l State.deliver (motive := fun t => Parted (fun p => p = .requests) s t) (Parted.refl s)
    fun t ht d hd => ht.trans ?_
  obtain ⟨rfl, hkind⟩ := hl d hd
  refine parted_deliver_trip ?_ ?_ ?_ hkind
  · rw [State.ctx, ht.hunt (by simp)]; exact hidle
  · rw [State.slot, ht.exchange (by simp)]; exact hstate
  · rw [State.element, ht.bank (by simp)]; exact hlatch

/-- What a done TRIP may change while no hunt is in progress. -/
def Opening (p : Part) : Prop := p = .exchange ∨ p = .reclose ∨ p = .bank ∨ p = .requests

/-- DONE of the TRIP of a latched feeder: the Element Bank, and the reclose records as they stand once the Reclose Controller is
told (R55, R83). -/
theorem answered_trip {s : State} {f : Feeder} {fl : InFlight} {l : Latch} (hs : s.Calm) (hkind : fl.cmd.kind = .trip)
    (horigin : fl.cmd.origin = .elementBank) (hstate : (s.slot (Feeder.head f)).state ≠ .enrolling)
    (hlatch : (s.element f).latch = some l) (x : Option U16) (b : Bool) :
    ∃ u, Parted (fun p => p = .exchange) s u ∧ Parted Opening s (s.answered (Feeder.head f) fl (.done x b))
      ∧ (s.answered (Feeder.head f) fl (.done x b)).bank
        = { s.bank with trips := l.opened s.bank.trips, records := put s.bank.records f (s.element f).tripped }
      ∧ ∀ g, (s.answered (Feeder.head f) fl (.done x b)).recl g = ((u.opened f l).tellTripDone f l.causes).recl g := by
  obtain ⟨u, hu, heq⟩ := answered_done s (Feeder.head f) fl x b
  rw [heq]
  have hulatch : (u.element f).latch = some l := by rw [hu.element]; exact hlatch
  have hopened := parted_opened u f l
  have htell : Parted (fun p => p = .reclose) (u.opened f l) ((u.opened f l).tellTripDone f l.causes) :=
    parted_moves (moves_tellTripDone (μ := fun p => p = .reclose) rfl _ f _)
  have hnotify : Parted (fun _ => False) _ (((u.opened f l).tellTripDone f l.causes).notifyTrip f l .opened) :=
    parted_moves (moves_notifyTrip _ f l .opened)
  have hfirst : u.deliverAll (deliveries (Feeder.head f) fl.cmd (.done x b))
      = (((u.opened f l).tellTripDone f l.causes).notifyTrip f l .opened).deliverAll
          (fl.cmd.merged.map fun o => ⟨Feeder.head f, o, fl.cmd, .done x b⟩) := by
    rw [← tripCompleted_done hulatch x b]
    simp only [deliveries, State.deliverAll, List.map_cons, List.foldl_cons, State.deliver, horigin, feeder_head]
  set w := ((u.opened f l).tellTripDone f l.causes).notifyTrip f l .opened
  have hwbank : w.bank
      = { s.bank with trips := l.opened s.bank.trips, records := put s.bank.records f (s.element f).tripped } := by
    rw [hnotify.bank (by simp), htell.bank (by simp), bank_opened, hu.element, hu.parted.bank (by simp)]
  have hsw : Parted Opening s w := by
    refine ((hu.parted.mono ?_).trans (hopened.mono ?_)).trans ((htell.mono ?_).trans (hnotify.mono ?_)) <;>
      simp [Opening]
  have hrest : Parted (fun p => p = .requests) w
      (w.deliverAll (fl.cmd.merged.map fun o => ⟨Feeder.head f, o, fl.cmd, .done x b⟩)) := by
    refine parted_deliverAll_trip (i := Feeder.head f) _ (fun d hd => ?_) ?_ ?_ ?_
    · obtain ⟨o, _, rfl⟩ := List.mem_map.1 hd
      exact ⟨rfl, hkind⟩
    · rw [State.ctx, hsw.hunt (by simp [Opening])]; exact hs.noHunt
    · rw [State.slot, hnotify.exchange (by simp), htell.exchange (by simp), hopened.exchange (by simp), ← State.slot, hu.slot,
        Outstation.switched_state]
      exact Outstation.reached_not_enrolling hstate
    · rw [feeder_head, State.element, hwbank]
      exact congrArg ElementRecord.latch (look_put_self _ _ _)
  refine ⟨u, hu.parted, ?_, ?_, fun g => ?_⟩
  · rw [hfirst]; exact hsw.trans (hrest.mono (by simp [Opening]))
  · rw [hfirst, hrest.bank (by simp), hwbank]
  · rw [hfirst, State.recl, hrest.reclose (by simp), hnotify.reclose (by simp)]
    rfl

/-- The first clause of O36: DONE of the TRIP of a latched feeder. -/
theorem tripDone_leadsOn {s : State} {f : Feeder} {source : U16} {fl : InFlight} {la : Latch} (v : U16) (hs : s.Calm)
    (hslot : s.knownSlot source = some (Feeder.head f)) (hfly : (s.slot (Feeder.head f)).inFlight = some fl)
    (hkind : fl.cmd.kind = .trip) (horigin : fl.cmd.origin = .elementBank)
    (hstate : (s.slot (Feeder.head f)).state ≠ .enrolling) (hlatch : (s.element f).latch = some la) :
    ∃ t, exec (.response source fl.tag .done v) s = .next t
      ∧ t.bank.trips = (match la.record with
        | none => s.bank.trips
        | some n => s.bank.trips.modify n fun r => { r with outcome := some .opened })
      ∧ t.element f = { s.element f with
          latch := none, phAcc := ⟨0, 0, 0⟩, phPickup := ⟨false, false, false⟩, efAcc := 0, efPickup := false
          restraint := false, histories := ⟨[], [], []⟩, hsCond := false, hsTimer := none, hsOperated := false
          sefTimer := none, sefOperated := false }
      ∧ (∀ g, g ≠ f → t.element g = s.element g)
      ∧ (∀ used m, (s.recl f).state = .tripping used (some m) → t.recl f = { s.recl f with state := .lockout (match m with
        | .switchOntoFault => .switchOntoFault
        | .finalTrip => .finalTrip) })
      ∧ (∀ used p, (s.recl f).state = .tripping used none → s.feederProfile f = some p →
        (((s.recl f).reasons.isEmpty = true ∧ used + 1 ≤ p.shots ∧ la.causes.streamLoss = false
            ∧ ¬ (la.causes.sef = true ∧ p.sefLock = true) ∧ (s.stream (Feeder.entry f)).state = .live) →
          t.recl f = { s.recl f with state := .deadTime (used + 1) (s.time + 100 *
            (if used = 0 then p.dead1 else if used = 1 then p.dead2 else if used = 2 then p.dead3 else p.dead4)) })
          ∧ (((s.recl f).reasons.isEmpty = false ∨ p.shots < used + 1 ∨ la.causes.streamLoss = true
              ∨ (la.causes.sef = true ∧ p.sefLock = true) ∨ (s.stream (Feeder.entry f)).state ≠ .live) →
            t.recl f = { s.recl f with state := .lockout .notPermitted }))
      ∧ ((∀ used m, (s.recl f).state ≠ .tripping used m) → t.recl f = s.recl f)
      ∧ ∀ g, g ≠ f → t.recl g = s.recl g := by
  obtain ⟨u, hu, hparts, hbank, hrecl⟩ := answered_trip hs hkind horigin hstate hlatch (some v) false
  have hend := conclude72_of_parted hs.toStill hparts (by simp [Opening]) (by simp [Opening])
  have hexec : exec (.response source fl.tag .done v) s
      = .next (State.finish s (s.answered (Feeder.head f) fl (.done (some v) false))) := by
    rw [exec_response hs.released, takeResponse_done hslot hfly, hend]
  have hopened := hu.mono (ν := Opening) (by simp [Opening]) |>.trans ((parted_opened u f la).mono (by simp [Opening]))
  have hurecl : ∀ g, (u.opened f la).recl g = s.recl g := fun g =>
    look_congr (by rw [(parted_opened u f la).reclose (by simp), hu.reclose (by simp)]) g
  have huprofile : (u.opened f la).feederProfile f = s.feederProfile f := by
    unfold State.feederProfile State.active State.entry State.profile
    rw [hopened.map (by simp [Opening])]
  have hustream : (u.opened f la).stream (Feeder.entry f) = s.stream (Feeder.entry f) := by
    rw [State.stream, hopened.intake]; rfl
  refine ⟨_, hexec, ?_, ?_, fun g hg => ?_, fun used m hst => ?_, fun used p hst hp => ⟨fun hperm => ?_, fun hperm => ?_⟩,
    fun hst => ?_, fun g hg => ?_⟩
  · rw [finish_bank, hbank]; rfl
  · rw [element_finish, State.element, hbank]; exact look_put_self _ _ _
  · rw [element_finish, State.element, hbank]; exact look_put_ne _ _ hg
  · rw [recl_finish, hrecl, tellTripDone_marked (by rw [hurecl]; exact hst), recl_goReclose, if_pos rfl, hurecl]
    cases m <;> rfl
  · rw [recl_finish, hrecl, tellTripDone_permitted (by rw [hurecl]; exact hst) (huprofile.trans hp), recl_goReclose, if_pos rfl,
      hurecl, deadTime_succ, hopened.time]
    rw [isPermitted_iff (huprofile.trans hp), hurecl, hustream]
    exact hperm
  · rw [recl_finish, hrecl, tellTripDone_refused (by rw [hurecl]; exact hst), recl_goReclose, if_pos rfl, hurecl]
    rw [← Bool.not_eq_true, isPermitted_iff (huprofile.trans hp), hurecl, hustream]
    rintro ⟨hempty, hshots, hloss, hsef, hlive⟩
    obtain h | h | h | h | h := hperm
    · rw [hempty] at h; cases h
    · omega
    · rw [hloss] at h; cases h
    · exact hsef h
    · exact h hlive
  · rw [recl_finish, hrecl, tellTripDone_elsewhere (by rw [hurecl]; exact hst), hurecl]
  · rw [recl_finish, hrecl, recl_tellTripDone_ne _ hg, hurecl]

end Sys2Proof.Machine
end

section
/-! The CLOSE of a shot completes (R86), and a TIMEOUT that leaves the slot UNREACHABLE with the TRIP queued behind it
(R84, R115). -/

namespace Sys2Proof.Machine

/-! ### The deliveries of a CLOSE of a shot -/

/-- What the CLOSE of a shot may change. -/
def Closing (p : Part) : Prop := p = .exchange ∨ p = .reclose

theorem deliverAll_close {i : SlotId} {c : Cmd} (hkind : c.kind = .close) (horigin : c.origin = .reclose) (hmerged : c.merged = [])
    (u : State) (k : Completion) : u.deliverAll (deliveries i c k) = u.closeCompleted (SlotId.feeder i) k := by
  simp [deliveries, hmerged, State.deliverAll, State.deliver, horigin, hkind]

theorem parted_closeCompleted (s : State) (f : Feeder) (k : Completion) : Parted (fun p => p = .reclose) s (s.closeCompleted f k) :=
  parted_moves (moves_closeCompleted (μ := fun p => p = .reclose) rfl s f k)

/-- A slot has answered or timed out, and the CLOSE of the shot has completed to the Reclose Controller. -/
theorem closed_spec {s u : State} {f : Feeder} {o : Outstation} {n : Nat} (hs : s.Still) (hu : s.Puts u (Feeder.head f) o n)
    (k : Completion) :
    State.conclude72 s (u.closeCompleted f k) = State.finish s (u.closeCompleted f k)
      ∧ Parted Closing s (u.closeCompleted f k) ∧ (u.closeCompleted f k).slot (Feeder.head f) = o
      ∧ (∀ g, (u.closeCompleted f k).recl g
        = if g = f then { s.recl f with state := (s.recl f).state.afterClose k s.time } else s.recl g) := by
  have hclose := parted_closeCompleted u f k
  have hparts : Parted Closing s (u.closeCompleted f k) :=
    (hu.parted.mono fun _ => .inl).trans (hclose.mono fun _ => .inr)
  refine ⟨conclude72_of_parted hs hparts (by simp [Closing]) (by simp [Closing]), hparts, ?_, fun g => ?_⟩
  · rw [State.slot, hclose.exchange (by simp), ← State.slot, hu.slot]
  · rw [recl_closeCompleted, hu.recl f, hu.recl g, hu.parted.time]

/-- The CLOSE of a shot and the sending after it. -/
def ClosingSending (p : Part) : Prop := Closing p ∨ Sending p

theorem rest_of_closingSending {s t : State} (h : Parted ClosingSending s t) :
    t = { s with reclose := t.reclose, exchange := t.exchange, link := t.link, mgmt := t.mgmt, outputs := t.outputs } := by
  have hrest := h.rest
  rw [h.hunt (by simp [ClosingSending, Closing, Sending]), h.bank (by simp [ClosingSending, Closing, Sending]),
    h.threshold (by simp [ClosingSending, Closing, Sending]), h.map (by simp [ClosingSending, Closing, Sending])] at hrest
  exact hrest

theorem known_finish (s0 s : State) (i : SlotId) : ((State.finish s0 s).slot i).known = (s.slot i).known := by
  simpa only [Outstation.still] using congrArg Outstation.known (still_finish s0 s i)

/-- The reclose record once the CLOSE of a shot has failed (R86). -/
def RecloseRecord.closeFailed (r : RecloseRecord) : RecloseRecord :=
  { r with state := match r.state with
    | .closing _ _ => .lockout .closeFail
    | st => st }

/-- Completions of a CLOSE that went to its outstation and did not close it (R86). -/
def Completion.failsClose (k : Completion) : Prop := (∃ v, k = .refused v) ∨ k = .waitLimit ∨ k = .timeout

theorem closeFailed_eq {r : RecloseRecord} {k : Completion} (hk : k.failsClose) (now : Nat) :
    { r with state := r.state.afterClose k now } = r.closeFailed := by
  obtain ⟨v, rfl⟩ | rfl | rfl := hk
  all_goals
    unfold RecloseRecord.closeFailed RecloseState.afterClose
    cases r.state <;> rfl

/-! ### A slot that becomes UNREACHABLE (R115) -/

/-- What the deliveries of an UNREACHABLE slot may change while no hunt is in progress. -/
def Failing (p : Part) : Prop := p = .reclose ∨ p = .bank ∨ p = .requests

/-- The TRIP of a latched feeder fails: the latch is clear, and the Reclose Controller is told (R56, R84). -/
theorem tripCompleted_failed {s : State} {f : Feeder} {l : Latch} (hlatch : (s.element f).latch = some l) {k : Completion}
    (hk : k.isDone = false) :
    Parted Failing s (s.tripCompleted f k) ∧ ((s.tripCompleted f k).element f).latch = none
      ∧ ∀ g, (s.tripCompleted f k).recl g
        = if g = f then { s.recl f with state := (s.recl f).state.afterTripFailed } else s.recl g := by
  have hfail : s.tripCompleted f k
      = ((s.closeLatch f l (TripOutcome.breakerFail k)).tellTripFailed f).notifyTrip f l (TripOutcome.breakerFail k) := by
    simp [State.tripCompleted, hlatch, hk]
  rw [hfail]
  set o := TripOutcome.breakerFail k
  have hlatched : Parted (fun p => p = .bank) s (s.closeLatch f l o) :=
    parted_moves (moves_closeLatch (μ := fun p => p = .bank) rfl s f l o)
  have htell : Parted (fun p => p = .reclose) (s.closeLatch f l o) ((s.closeLatch f l o).tellTripFailed f) :=
    parted_moves (moves_tellTripFailed (μ := fun p => p = .reclose) rfl _ f)
  have hnotify : Parted (fun _ => False) _ (((s.closeLatch f l o).tellTripFailed f).notifyTrip f l o) :=
    parted_moves (moves_notifyTrip _ f l o)
  have hrecl : ∀ g, (s.closeLatch f l o).recl g = s.recl g := look_congr (by rw [hlatched.reclose (by simp)])
  refine ⟨((hlatched.mono ?_).trans (htell.mono ?_)).trans (hnotify.mono ?_), ?_, fun g => ?_⟩
  · simp [Failing]
  · simp [Failing]
  · simp [Failing]
  · rw [State.element, hnotify.bank (by simp), htell.bank (by simp), ← State.element, State.closeLatch,
      State.element_setElement_self]
  · rw [State.recl, hnotify.reclose (by simp), ← State.recl, recl_tellTripFailed, hrecl f, hrecl g]

/-- A change that leaves the reclose records and one element record alone. -/
structure State.Aside (s t : State) (f : Feeder) : Prop where
  parted : Parted Failing s t
  recl : ∀ g, t.recl g = s.recl g
  element : t.element f = s.element f

theorem State.Aside.refl (s : State) (f : Feeder) : s.Aside s f := ⟨Parted.refl s, fun _ => rfl, rfl⟩

/-- A CLOSE that completes UNREACHABLE finds its feeder in another state than CLOSING, and is not its concern (R86). -/
theorem aside_closeCompleted {s : State} {f : Feeder} (hclosing : ∀ n m, (s.recl f).state ≠ .closing n m) (k : Completion) :
    s.Aside (s.closeCompleted f k) f := by
  have hparts := parted_closeCompleted s f k
  refine ⟨hparts.mono fun _ => .inl, fun g => ?_, look_congr (by rw [hparts.bank (by simp)]) f⟩
  have hstay : (s.recl f).state.afterClose k s.time = (s.recl f).state := by
    unfold RecloseState.afterClose
    split
    · rename_i h; exact absurd h (hclosing _ _)
    · rfl
  rw [recl_closeCompleted, hstay]
  split
  · rename_i hg; rw [hg]
  · rfl

theorem aside_blockingCompleted (s : State) (d : Delivery) (f : Feeder) : s.Aside (s.blockingCompleted d) f := by
  have hparts := parted_moves (moves_blockingCompleted (μ := fun p => p = .reclose) rfl s d)
  exact ⟨hparts.mono fun _ => .inl, fun g => recl_of_records (records_blockingCompleted s d) g,
    look_congr (by rw [hparts.bank (by simp)]) f⟩

theorem aside_replyTo (s : State) (f : Feeder) (k : Nat) (r : Result) (p : List Byte) : s.Aside (s.replyTo k r p) f := by
  have hreply := parted_replyTo s k r p
  exact ⟨hreply.mono fun _ h => .inr (.inr h), look_congr (by rw [hreply.reclose (by simp)]),
    look_congr (by rw [hreply.bank (by simp)]) f⟩

/-- A command that is not the Element Bank's and completes UNREACHABLE (R115). -/
theorem aside_deliver {s : State} {f : Feeder} {d : Delivery} (hidle : s.ctx.state = .idle)
    (hstate : (s.slot (Feeder.head f)).state ≠ .enrolling) (hslot : d.slot = Feeder.head f) (hk : d.completion = .unreachable)
    (hclosing : ∀ n m, (s.recl f).state ≠ .closing n m) (horigin : d.origin ≠ .elementBank) : s.Aside (s.deliver d) f := by
  obtain ⟨i, o, c, k⟩ := d
  obtain rfl : i = Feeder.head f := hslot
  obtain rfl : k = .unreachable := hk
  cases o with
  | elementBank => exact absurd rfl horigin
  | reclose =>
    simp only [State.deliver, feeder_head]
    split
    · exact aside_closeCompleted hclosing _
    · exact aside_blockingCompleted s _ f
  | hunt =>
    have hsame : s.deliver ⟨Feeder.head f, .hunt, c, .unreachable⟩ = s := by
      rw [State.deliver]; exact huntCompleted_idle hidle _ _
    rw [hsame]
    exact State.Aside.refl s f
  | management n =>
    have htold : s.operateTold (SlotId.feeder (Feeder.head f)) c.kind .unreachable = s := rfl
    simp only [State.deliver, State.operateCompleted, htold, ite_self]
    exact aside_replyTo s f _ _ _
  | exchange =>
    have hsame : s.deliver ⟨Feeder.head f, .exchange, c, .unreachable⟩ = s := by
      simp [State.deliver, State.enrolCompleted, hstate]
    rw [hsame]
    exact State.Aside.refl s f

theorem afterTripFailed_not_closing {st : RecloseState} (h : ∀ n m, st ≠ .closing n m) (n : Nat) (m : Option CloseMark) :
    st.afterTripFailed ≠ .closing n m := by
  cases st with
  | tripping used x => exact RecloseState.noConfusion
  | _ => exact h n m

/-- The queue of a slot completes UNREACHABLE: the first TRIP of a latched feeder fails, and that is all its reclose state takes
from it (R84, R115). -/
theorem recl_deliverAll_unreachable {f : Feeder} (l : List Delivery)
    (hl : ∀ d ∈ l, d.slot = Feeder.head f ∧ d.completion = .unreachable) {s : State} (hidle : s.ctx.state = .idle)
    (hstate : (s.slot (Feeder.head f)).state ≠ .enrolling) (hclosing : ∀ n m, (s.recl f).state ≠ .closing n m) :
    Parted Failing s (s.deliverAll l)
      ∧ ∀ g, (s.deliverAll l).recl g
        = if g = f ∧ (s.element f).latch ≠ none ∧ (∃ d ∈ l, d.origin = .elementBank) then
            { s.recl f with state := (s.recl f).state.afterTripFailed }
          else s.recl g := by
  induction l generalizing s with
  | nil => exact ⟨Parted.refl s, fun g => by simp [State.deliverAll]⟩
  | cons d rest ih =>
    obtain ⟨hslot, hk⟩ := hl d List.mem_cons_self
    have hrest : ∀ d ∈ rest, d.slot = Feeder.head f ∧ d.completion = .unreachable := fun x hx => hl x (List.mem_cons_of_mem _ hx)
    have next : ∀ {t : State}, Parted Failing s t → (∀ n m, (t.recl f).state ≠ .closing n m) →
        Parted Failing s (t.deliverAll rest) ∧ ∀ g, (t.deliverAll rest).recl g
          = if g = f ∧ (t.element f).latch ≠ none ∧ (∃ d ∈ rest, d.origin = .elementBank) then
              { t.recl f with state := (t.recl f).state.afterTripFailed }
            else t.recl g := by
      intro t ht hclosing'
      have hidle' : t.ctx.state = .idle := by rw [State.ctx, ht.hunt (by simp [Failing])]; exact hidle
      have hstate' : (t.slot (Feeder.head f)).state ≠ .enrolling := by
        rw [State.slot, ht.exchange (by simp [Failing])]; exact hstate
      obtain ⟨hparts, hrecl⟩ := ih hrest hidle' hstate' hclosing'
      exact ⟨ht.trans hparts, hrecl⟩
    change Parted Failing s ((s.deliver d).deliverAll rest) ∧ ∀ g, ((s.deliver d).deliverAll rest).recl g = _
    by_cases horigin : d.origin = .elementBank
    · have hdeliver : s.deliver d = s.tripCompleted f .unreachable := by
        simp only [State.deliver, horigin, hslot, hk, feeder_head]
      rw [hdeliver]
      cases hlatch : (s.element f).latch with
      | none =>
        rw [tripCompleted_none hlatch]
        obtain ⟨hparts, hrecl⟩ := next (Parted.refl s) hclosing
        exact ⟨hparts, fun g => by rw [hrecl g, hlatch]; simp⟩
      | some la =>
        obtain ⟨hparts, hclear, hfailed⟩ := tripCompleted_failed hlatch (k := .unreachable) rfl
        have hclosing' : ∀ n m, ((s.tripCompleted f .unreachable).recl f).state ≠ .closing n m := by
          rw [hfailed f, if_pos rfl]; exact afterTripFailed_not_closing hclosing
        obtain ⟨hparts', hrecl⟩ := next hparts hclosing'
        refine ⟨hparts', fun g => ?_⟩
        rw [hrecl g, hclear, hfailed g]
        simp [horigin]
    · have haside := aside_deliver hidle hstate hslot hk hclosing horigin
      obtain ⟨hparts, hrecl⟩ := next haside.parted (by rw [haside.recl]; exact hclosing)
      refine ⟨hparts, fun g => ?_⟩
      rw [hrecl g, haside.element, haside.recl f, haside.recl g]
      simp [horigin]

/-! ### The deadline of the CLOSE (R86, R115) -/

/-- The queued commands of a slot that becomes UNREACHABLE, as they are delivered (R115). -/
def Outstation.unreached (o : Outstation) (i : SlotId) : List Delivery :=
  (o.queue.filter fun c => !c.kind.isBlocking).flatMap fun c => deliveries i c .unreachable

theorem slot_of_mem_unreached {o : Outstation} {i : SlotId} :
    ∀ d ∈ o.unreached i, d.slot = i ∧ d.completion = .unreachable := by
  intro d hd
  obtain ⟨c, _, hc⟩ := List.mem_flatMap.1 hd
  obtain ⟨x, _, rfl⟩ := List.mem_map.1 hc
  exact ⟨rfl, rfl⟩

/-- A TRIP of the Element Bank that is queued is told (R115, R118). -/
theorem exists_unreached {o : Outstation} {i : SlotId} {c : Cmd} (hc : c ∈ o.queue) (hkind : c.kind = .trip)
    (horigin : c.origin = .elementBank) : ∃ d ∈ o.unreached i, d.origin = .elementBank := by
  refine ⟨⟨i, c.origin, c, .unreachable⟩, List.mem_flatMap.2 ⟨c, ?_, ?_⟩, horigin⟩
  · exact List.mem_filter.2 ⟨hc, by rw [hkind]; rfl⟩
  · exact List.mem_map.2 ⟨c.origin, List.mem_cons_self, rfl⟩

/-- What is told of a queue comes from an originator in it (R118). -/
theorem origin_of_mem_unreached {o : Outstation} {i : SlotId} {d : Delivery} (hd : d ∈ o.unreached i) :
    ∃ c ∈ o.queue, d.origin = c.origin ∨ d.origin ∈ c.merged := by
  obtain ⟨c, hc, hd⟩ := List.mem_flatMap.1 hd
  obtain ⟨x, hx, rfl⟩ := List.mem_map.1 hd
  exact ⟨c, (List.mem_filter.1 hc).1, List.mem_cons.1 hx⟩

/-- One more failure of a slot: the count, or UNREACHABLE and the end of what is queued (R115). -/
theorem countFailure_spec {s : State} {f : Feeder} (hidle : s.ctx.state = .idle)
    (hclosing : ∀ n m, (s.recl f).state ≠ .closing n m) :
    Parted (fun p => p = .exchange ∨ Failing p) s (s.countFailure (Feeder.head f))
      ∧ ∀ g, (s.countFailure (Feeder.head f)).recl g
        = if g = f ∧ 3 ≤ (s.slot (Feeder.head f)).failures + 1 ∧ (s.element f).latch ≠ none
            ∧ (∃ d ∈ (s.slot (Feeder.head f)).unreached (Feeder.head f), d.origin = .elementBank) then
            { s.recl f with state := (s.recl f).state.afterTripFailed }
          else s.recl g := by
  unfold State.countFailure
  dsimp only
  split
  · rename_i hcount
    have hcount : (s.slot (Feeder.head f)).failures + 1 < 3 := hcount
    refine ⟨parted_setSlot (μ := fun p => p = .exchange ∨ Failing p) (.inl rfl) _ _ _, fun g => ?_⟩
    rw [if_neg (by omega)]
    rfl
  · rename_i hcount
    have hcount : 3 ≤ (s.slot (Feeder.head f)).failures + 1 := Nat.not_lt.1 hcount
    have hu := (puts_setSlot s (Feeder.head f) { s.slot (Feeder.head f) with
      state := .unreachable, failures := Config.failureLimit
      queue := (s.slot (Feeder.head f)).queue.filter fun c => c.kind.isBlocking }).notifySlot (Feeder.head f)
        (s.slot (Feeder.head f)).state .unreachable
    obtain ⟨hparts, hrecl⟩ := recl_deliverAll_unreachable ((s.slot (Feeder.head f)).unreached (Feeder.head f))
      (slot_of_mem_unreached) (by rw [hu.ctx]; exact hidle) (by rw [hu.slot]; simp) (by rw [hu.recl]; exact hclosing)
    refine ⟨(hu.parted.mono fun _ => .inl).trans (hparts.mono fun _ => .inr), fun g => ?_⟩
    have hg := hrecl g
    rw [hu.element, hu.recl, hu.recl] at hg
    simp only [hcount, true_and]
    exact hg

theorem closeFailed_not_closing (r : RecloseRecord) (n : Nat) (m : Option CloseMark) : r.closeFailed.state ≠ .closing n m := by
  unfold RecloseRecord.closeFailed
  dsimp only
  split
  · simp
  · rename_i h; exact h n m

theorem closeFailed_not_tripping {r : RecloseRecord} (h : ∀ used m, r.state ≠ .tripping used m) (used : Nat)
    (m : Option FinalMark) : r.closeFailed.state ≠ .tripping used m := by
  unfold RecloseRecord.closeFailed
  dsimp only
  split
  · simp
  · exact h used m

theorem afterTripFailed_of_not_tripping {st : RecloseState} (h : ∀ used m, st ≠ .tripping used m) : st.afterTripFailed = st := by
  cases st with
  | tripping used m => exact absurd rfl (h used m)
  | _ => rfl

/-- A done CLOSE: RECLAIM, or LOCKOUT with the mark's cause (R86). -/
theorem afterClose_done (st : RecloseState) (x : Option U16) (b : Bool) (now : Nat) :
    st.afterClose (.done x b) now = match st with
      | .closing n none => .reclaim n now
      | .closing _ (some .blocked) => .lockout .blocked
      | .closing _ (some .profile) => .lockout .profile
      | st => st := by
  cases st with
  | closing n m =>
    cases m with
    | none => rfl
    | some m => cases m <;> rfl
  | _ => rfl

theorem exec_timeout {s t : State} {i : SlotId} {fl : InFlight} (hheld : s.held = false) (hfly : (s.slot i).inFlight = some fl)
    (hdue : fl.deadline ≤ s.time) (hend : State.conclude72 s (s.timedOut i fl) = t) : exec (.timeout i) s = .next t := by
  have hdeadline : s.deadlineDue i = some fl := by simp [State.deadlineDue, hfly, hdue]
  simp only [exec, execTimeout, State.unlessHeld, hheld, hdeadline, hend]
  rfl

/-- The deadline of the CLOSE of a shot (R86, R115). -/
theorem timedOut_close {s : State} {f : Feeder} {fl : InFlight} (hs : s.Calm) (hkind : fl.cmd.kind = .close)
    (horigin : fl.cmd.origin = .reclose) (hmerged : fl.cmd.merged = []) :
    Parted (fun p => p = .exchange ∨ Failing p) s (s.timedOut (Feeder.head f) fl)
      ∧ ∀ g, (s.timedOut (Feeder.head f) fl).recl g
        = if g = f then
            if (s.slot (Feeder.head f)).state = .inService ∧ 3 ≤ (s.slot (Feeder.head f)).failures + 1
                ∧ (s.element f).latch ≠ none
                ∧ (∃ d ∈ (s.slot (Feeder.head f)).unreached (Feeder.head f), d.origin = .elementBank) then
              { (s.recl f).closeFailed with state := (s.recl f).closeFailed.state.afterTripFailed }
            else (s.recl f).closeFailed
          else s.recl g := by
  set o : Outstation := { (s.slot (Feeder.head f)).landed s.time with expiredTag := some fl.tag }
  have hputs := puts_setSlot s (Feeder.head f) o
  set u := (s.setSlot (Feeder.head f) o).closeCompleted f .timeout
  obtain ⟨_, hparts, hslot, hrecl⟩ := closed_spec hs.toStill hputs .timeout
  have hrecl : ∀ g, u.recl g = if g = f then (s.recl f).closeFailed else s.recl g := fun g => by
    rw [hrecl g, closeFailed_eq (.inr (.inr rfl))]
  have hparts : Parted (fun p => p = .exchange ∨ Failing p) s u := hparts.mono fun p hp => hp.imp_right .inl
  have helement : u.element f = s.element f := by
    rw [State.element, (parted_closeCompleted _ f _).bank (by simp)]
    rfl
  have heq : s.timedOut (Feeder.head f) fl
      = if (s.slot (Feeder.head f)).state = .inService then u.countFailure (Feeder.head f) else u := by
    simp only [State.timedOut, deliverAll_close hkind horigin hmerged, feeder_head, beq_iff_eq]
    rfl
  rw [heq]
  split
  · rename_i hstate
    have hidle : u.ctx.state = .idle := by rw [State.ctx, hparts.hunt (by simp [Failing])]; exact hs.noHunt
    obtain ⟨hcount, hreclCount⟩ := countFailure_spec hidle (f := f) (by rw [hrecl, if_pos rfl]; exact closeFailed_not_closing _)
    refine ⟨hparts.trans hcount, fun g => ?_⟩
    rw [hreclCount g, hslot, helement, hrecl f, if_pos rfl, hrecl g]
    by_cases hg : g = f
    · simp only [hg, hstate, true_and, if_true]; rfl
    · simp only [hg, false_and, if_false]
  · rename_i hstate
    refine ⟨hparts, fun g => ?_⟩
    simp only [hrecl g, hstate, false_and, if_false]

/-- The second clause of O36: the CLOSE of a shot completes. -/
theorem closeCompleted_leadsOn {s : State} {f : Feeder} {source : U16} {fl : InFlight} (v : U16) {failed : RecloseRecord}
    (hs : s.Calm) (hslot : s.knownSlot source = some (Feeder.head f)) (hfly : (s.slot (Feeder.head f)).inFlight = some fl)
    (hkind : fl.cmd.kind = .close) (horigin : fl.cmd.origin = .reclose) (hmerged : fl.cmd.merged = [])
    (hfailed : failed = { s.recl f with state := match (s.recl f).state with
      | .closing _ _ => .lockout .closeFail
      | st => st }) :
    (∃ t, exec (.response source fl.tag .done v) s = .next t ∧ (t.slot (Feeder.head f)).known = .closed
      ∧ t.recl f = { s.recl f with state := match (s.recl f).state with
        | .closing n none => .reclaim n s.time
        | .closing _ (some .blocked) => .lockout .blocked
        | .closing _ (some .profile) => .lockout .profile
        | st => st }
      ∧ (∀ g, g ≠ f → t.recl g = s.recl g)
      ∧ t = { s with reclose := t.reclose, exchange := t.exchange, link := t.link, mgmt := t.mgmt, outputs := t.outputs })
      ∧ (∃ t, exec (.response source fl.tag .refused v) s = .next t ∧ t.recl f = failed ∧ (∀ g, g ≠ f → t.recl g = s.recl g)
        ∧ (t.slot (Feeder.head f)).known = (s.slot (Feeder.head f)).known)
      ∧ (5 ≤ fl.waits + 1 → ∃ t, exec (.response source fl.tag .wait v) s = .next t ∧ t.recl f = failed
        ∧ ∀ g, g ≠ f → t.recl g = s.recl g)
      ∧ (fl.deadline ≤ s.time → ∃ t, exec (.timeout (Feeder.head f)) s = .next t
        ∧ ((s.slot (Feeder.head f)).state ≠ .inService ∨ (s.slot (Feeder.head f)).failures + 1 < 3
            ∨ (∀ used m, (s.recl f).state ≠ .tripping used m) ∨ (s.element f).latch = none
            ∨ (∀ c ∈ (s.slot (Feeder.head f)).queue, c.origin ≠ .elementBank ∧ .elementBank ∉ c.merged) →
          t.recl f = failed)
        ∧ (∀ used m c, (s.slot (Feeder.head f)).state = .inService → 3 ≤ (s.slot (Feeder.head f)).failures + 1 →
          (s.recl f).state = .tripping used m → (s.element f).latch ≠ none → c ∈ (s.slot (Feeder.head f)).queue →
          c.kind = .trip → c.origin = .elementBank → t.recl f = { s.recl f with state := .lockout .breakerFail })
        ∧ ∀ g, g ≠ f → t.recl g = s.recl g) := by
  obtain rfl : failed = (s.recl f).closeFailed := hfailed
  refine ⟨?_, ?_, fun hwaits => ?_, fun hdue => ?_⟩
  · obtain ⟨u, hu, heq⟩ := answered_done s (Feeder.head f) fl (some v) false
    obtain ⟨hend, hparts, hslot', hrecl⟩ := closed_spec hs.toStill hu (.done (some v) false)
    have hexec : exec (.response source fl.tag .done v) s
        = .next (State.finish s (u.closeCompleted f (.done (some v) false))) := by
      rw [exec_response hs.released, takeResponse_done hslot hfly, heq, deliverAll_close hkind horigin hmerged, feeder_head, hend]
    refine ⟨_, hexec, ?_, ?_, fun g hg => ?_, ?_⟩
    · rw [known_finish, hslot', hkind]; rfl
    · rw [recl_finish, hrecl, if_pos rfl, afterClose_done]
    · rw [recl_finish, hrecl, if_neg hg]
    · exact rest_of_closingSending ((hparts.mono fun _ => .inl).trans ((parted_finish s _).mono fun _ => .inr))
  · obtain ⟨u, hu, heq⟩ := answered_refused s (Feeder.head f) fl v
    obtain ⟨hend, _, hslot', hrecl⟩ := closed_spec hs.toStill hu (.refused v)
    have hexec : exec (.response source fl.tag .refused v) s = .next (State.finish s (u.closeCompleted f (.refused v))) := by
      rw [exec_response hs.released, takeResponse_refused hslot hfly, heq, deliverAll_close hkind horigin hmerged, feeder_head,
        hend]
    refine ⟨_, hexec, ?_, fun g hg => ?_, ?_⟩
    · rw [recl_finish, hrecl, if_pos rfl, closeFailed_eq (.inl ⟨v, rfl⟩)]
    · rw [recl_finish, hrecl, if_neg hg]
    · rw [known_finish, hslot', State.answeredSlot, Outstation.reached_known]; rfl
  · obtain ⟨u, o, hu, heq⟩ := waited_fifth s (Feeder.head f) v hwaits
    obtain ⟨hend, _, _, hrecl⟩ := closed_spec hs.toStill hu .waitLimit
    have hexec : exec (.response source fl.tag .wait v) s = .next (State.finish s (u.closeCompleted f .waitLimit)) := by
      rw [exec_response hs.released, takeResponse_wait hslot hfly, heq, deliverAll_close hkind horigin hmerged, feeder_head, hend]
    refine ⟨_, hexec, ?_, fun g hg => ?_⟩
    · rw [recl_finish, hrecl, if_pos rfl, closeFailed_eq (.inr (.inl rfl))]
    · rw [recl_finish, hrecl, if_neg hg]
  · obtain ⟨hparts, hrecl⟩ := timedOut_close hs hkind horigin hmerged
    have hend := conclude72_of_parted hs.toStill hparts (by simp [Failing]) (by simp [Failing])
    refine ⟨_, exec_timeout hs.released hfly hdue hend, fun hstays => ?_, fun used m c hst hcount htrip hlatch hc hck hco => ?_,
      fun g hg => ?_⟩
    · rw [recl_finish, hrecl, if_pos rfl]
      split
      · rename_i hcond
        obtain ⟨hst, hcount, hlatch, d, hd, hdo⟩ := hcond
        obtain h | h | h | h | h := hstays
        · exact absurd hst h
        · omega
        · rw [afterTripFailed_of_not_tripping (closeFailed_not_tripping h)]
        · exact absurd h hlatch
        · obtain ⟨c, hc, horig⟩ := origin_of_mem_unreached hd
          obtain ⟨h1, h2⟩ := h c hc
          rw [hdo] at horig
          exact absurd horig (not_or.2 ⟨fun e => h1 e.symm, h2⟩)
      · rfl
    · rw [recl_finish, hrecl, if_pos rfl, if_pos ⟨hst, hcount, hlatch, exists_unreached hc hck hco⟩]
      unfold RecloseRecord.closeFailed
      rw [htrip]
      rfl
    · rw [recl_finish, hrecl, if_neg hg]

end Sys2Proof.Machine
end

section
/-! The end of a hunt (R142, R145): HUNT leaves the sets, the notice of the result is the newest, the hunt context is reset. -/

namespace Sys2Proof.Machine

variable {μ : Part → Prop}

/-! ### A member leaves a set (R81) -/

theorem put_of_not_has {r : Reasons} {m : Reason} (h : r.has m = false) : r.put false m = r := by
  cases r
  cases m <;> simp_all [Reasons.has, Reasons.put]

theorem records_releaseFollowers (l : List SlotId) (s : State) :
    (l.foldl State.releaseFollower s).reclose.records = s.reclose.records :=
  foldl_leaves (fun t => t.reclose.records) _ records_releaseFollower _ _

theorem recl_removeReason (s : State) (f g : Feeder) (m : Reason) :
    (s.removeReason f m).recl g
      = if g = f then { s.recl f with reasons := (s.recl f).reasons.put false m } else s.recl g := by
  unfold State.removeReason
  dsimp only
  split
  · split
    · rw [recl_of_records (records_releaseFollowers _ _), recl_changeReason]
    · rw [recl_changeReason]
  · rename_i habsent
    rw [put_of_not_has (by simpa using habsent)]
    split
    · rename_i h; rw [h]
    · rfl

/-- HUNT leaves the sets of the feeders involved, and no other record changes. -/
theorem recl_removeHunt (l : List Feeder) (s : State) (g : Feeder) :
    (l.foldl (fun s f => s.removeReason f .hunt) s).recl g
      = if g ∈ l then { s.recl g with reasons := (s.recl g).reasons.put false .hunt } else s.recl g := by
  induction l generalizing s with
  | nil => rfl
  | cons f rest ih =>
    rw [List.foldl_cons, ih, recl_removeReason]
    by_cases hg : g = f
    · subst hg
      simp [Reasons.put]
    · simp [hg]

/-! ### How many notices a member that leaves hands on -/

theorem blockingCompleted_superseded (s : State) {d : Delivery} (h : d.completion = .superseded) : s.blockingCompleted d = s := by
  unfold State.blockingCompleted
  rw [h]
  split <;> rfl

theorem length_notices_moveFollower (s : State) (i : SlotId) (st : FollowerState) (r : Option Nat) (k : Option Completion) :
    (s.moveFollower i st r k).mgmt.notices.length ≤ s.mgmt.notices.length + 1 := by
  unfold State.moveFollower
  dsimp only
  split
  · exact Nat.le_succ _
  · exact length_notices_notify _ _ _

theorem length_notices_blockingCompleted (s : State) (d : Delivery) :
    (s.blockingCompleted d).mgmt.notices.length ≤ s.mgmt.notices.length + 1 := by
  unfold State.blockingCompleted State.blockCompleted State.releaseCompleted
  dsimp only
  split
  · split
    · exact Nat.le_succ _
    all_goals
      split
      all_goals first
        | exact length_notices_moveFollower _ _ _ _ _
        | exact Nat.le_succ _
  · split
    all_goals first
      | exact length_notices_moveFollower _ _ _ _ _
      | exact Nat.le_succ _
  · exact Nat.le_succ _

/-- The deliveries at the admission of a BLOCK or a RELEASE: what it supersedes, and at most its own completion (R109). -/
theorem admitCmd_blocking (b : Bool) (i : SlotId) (o : Outstation) {k : CmdKind} (hk : k.isBlocking = true) :
    ∃ gone own, (admitCmd b i o { kind := k, origin := .reclose }).2 = gone ++ own
      ∧ (∀ d ∈ gone, d.completion = .superseded) ∧ own.length ≤ 1 := by
  have hgone : ∀ d ∈ supersede i CmdKind.isBlocking o.queue, d.completion = .superseded := by
    intro d hd
    obtain ⟨c, _, hc⟩ := List.mem_flatMap.1 hd
    obtain ⟨x, _, rfl⟩ := List.mem_map.1 hc
    rfl
  have hadmit : ∃ gone own, (admitBlocking i o { kind := k, origin := .reclose }).2 = gone ++ own
      ∧ (∀ d ∈ gone, d.completion = .superseded) ∧ own.length ≤ 1 := by
    unfold admitBlocking
    dsimp only
    split
    · exact ⟨[], [], rfl, by simp, by simp⟩
    · split
      · exact ⟨_, _, rfl, hgone, by simp [deliveries]⟩
      · exact ⟨_, [], (List.append_nil _).symm, hgone, by simp⟩
  unfold admitCmd
  split
  · exact ⟨[], _, rfl, by simp, Nat.le_refl 1⟩
  · cases k with
    | block => exact hadmit
    | release => exact hadmit
    | _ => cases hk

theorem foldl_superseded (l : List Delivery) (hl : ∀ d ∈ l, d.completion = .superseded) (s : State) :
    l.foldl State.blockingCompleted s = s :=
  List.foldlRecOn l State.blockingCompleted (motive := fun t => t = s) rfl
    fun _ ht d hd => ht ▸ blockingCompleted_superseded _ (hl d hd)

theorem mgmt_handCmd (s : State) (i : SlotId) (c : Cmd) : (s.handCmd i c).1.mgmt = s.mgmt := by
  unfold State.handCmd
  dsimp only
  split <;> rfl

theorem length_notices_handBlocking (s : State) (i : SlotId) {k : CmdKind} (hk : k.isBlocking = true) :
    (s.handBlocking i k).mgmt.notices.length ≤ s.mgmt.notices.length + 1 := by
  set c : Cmd := { kind := k, origin := .reclose } with hc
  obtain ⟨gone, own, heq, hgone, hown⟩ := admitCmd_blocking (s.testMark (SlotId.feeder i)) i (s.slot i) hk
  have hds : (s.handCmd i c).2 = gone ++ own := heq
  have hhand : s.handBlocking i k = own.foldl State.blockingCompleted (s.handCmd i c).1 := by
    rw [State.handBlocking, ← hc, hds, List.foldl_append, foldl_superseded gone hgone]
  rw [hhand, ← mgmt_handCmd s i c]
  generalize (s.handCmd i c).1 = u
  obtain _ | ⟨d, _ | ⟨x, rest⟩⟩ := own
  · exact Nat.le_succ _
  · exact length_notices_blockingCompleted u d
  · simp at hown

theorem length_notices_releaseFollower (s : State) (i : SlotId) :
    (s.releaseFollower i).mgmt.notices.length ≤ s.mgmt.notices.length + 2 := by
  unfold State.releaseFollower
  split
  all_goals first
    | exact Nat.le_add_right _ 2
    | have hmove := length_notices_moveFollower s i .releasePending none none
      have hhand := length_notices_handBlocking (s.moveFollower i .releasePending none) i (k := .release) rfl
      omega

/-- A walk whose steps each hand on at most `n` notices. -/
theorem length_notices_foldl {α : Type} (n : Nat) (g : State → α → State)
    (hg : ∀ s x, (g s x).mgmt.notices.length ≤ s.mgmt.notices.length + n) (l : List α) (s : State) :
    (l.foldl g s).mgmt.notices.length ≤ s.mgmt.notices.length + n * l.length := by
  induction l generalizing s with
  | nil => exact Nat.le_refl _
  | cons x rest ih =>
    calc ((x :: rest).foldl g s).mgmt.notices.length
        ≤ (g s x).mgmt.notices.length + n * rest.length := ih _
      _ ≤ s.mgmt.notices.length + n + n * rest.length := Nat.add_le_add_right (hg s x) _
      _ = s.mgmt.notices.length + n * (x :: rest).length := by rw [List.length_cons, Nat.mul_succ]; omega

/-- A member that leaves hands on its own notice and at most two for each follower. -/
theorem length_notices_removeReason (s : State) (f : Feeder) (m : Reason) :
    (s.removeReason f m).mgmt.notices.length ≤ s.mgmt.notices.length + 17 := by
  have hchange : (s.changeReason f m false).mgmt.notices.length ≤ s.mgmt.notices.length + 1 := length_notices_notify _ _ _
  have hslots : (Feeder.slots f).length = 8 := rfl
  have hrelease := length_notices_foldl 2 State.releaseFollower length_notices_releaseFollower (Feeder.slots f)
    (s.changeReason f m false)
  unfold State.removeReason
  dsimp only
  split
  · split <;> omega
  · omega

/-! ### The end of a hunt -/

/-- What the end of a hunt may change. -/
def Ending (p : Part) : Prop := p = .exchange ∨ p = .reclose ∨ p = .hunt

/-- The point a result names, with what has become of it. -/
def HuntContext.pointOutcome (c : HuntContext) (x : Option PointOutcome) : Option (SlotId × PointOutcome) :=
  match c.openPoint, x with
  | some i, some o => some (i, o)
  | _, _ => none

/-- The notice of a result. -/
def HuntContext.resultNotice (c : HuntContext) (r : HuntResult) (x : Option PointOutcome) : Notice :=
  .huntResult c.kind c.origin c.involved r (c.pointOutcome x) c.observed c.clearLevel c.results

/-- What the end of a hunt leaves. -/
structure State.HuntEnds (s t : State) (n : Notice) : Prop where
  moves : Moves Ending s t
  ctx : t.ctx = HuntContext.reset
  list : t.hunt.pendingList = s.hunt.pendingList
  removed : ∀ g ∈ s.ctx.involved, (t.recl g).reasons.hunt = false
  others : ∀ g, g ∉ s.ctx.involved → t.recl g = s.recl g
  newest : s.link.table.dest = none → s.mgmt.notices.length + 17 * s.ctx.involved.length < 32 →
    t.mgmt.notices.getLast? = some ⟨n, false⟩

theorem finishHunt_spec (s : State) (r : HuntResult) (x : Option PointOutcome) :
    s.HuntEnds (s.finishHunt r x) (s.ctx.resultNotice r x) := by
  set u := s.ctx.involved.foldl (fun s f => s.removeReason f .hunt) s with hu
  have hmoves : Moves (fun p => p = .exchange ∨ p = .reclose) s u :=
    moves_foldl _ (fun s f => moves_removeReason (.inl rfl) (.inr rfl) s f .hunt trivial) _ _
  have hhunt : u.hunt = s.hunt := (parted_moves hmoves).hunt (by simp)
  have hctx : u.ctx = s.ctx := congrArg HuntController.ctx hhunt
  have heq : s.finishHunt r x = (u.notify (s.ctx.resultNotice r x) false).setCtx HuntContext.reset := by
    unfold HuntContext.resultNotice HuntContext.pointOutcome
    rw [← hctx]
    rfl
  have hrecl : ∀ g, (s.finishHunt r x).recl g = u.recl g := fun g => by rw [heq]; exact recl_notify _ _ _ g
  refine ⟨moves_finishHunt (.inl rfl) (.inr (.inl rfl)) (.inr (.inr rfl)) s r x, by rw [heq]; rfl, ?_, fun g hg => ?_,
    fun g hg => ?_, fun hdest hroom => ?_⟩
  · rw [heq]
    change (u.notify _ _).hunt.pendingList = _
    rw [notify_hunt, hhunt]
  · rw [hrecl, hu, recl_removeHunt, if_pos hg]
    rfl
  · rw [hrecl, hu, recl_removeHunt, if_neg hg]
  · have hlength := length_notices_foldl 17 (fun s f => State.removeReason s f .hunt)
      (fun s f => length_notices_removeReason s f .hunt) s.ctx.involved s
    have htable : u.link.table.dest = none := by rw [(portKept_moves hmoves).table]; exact hdest
    rw [heq]
    change (u.notify _ _).mgmt.notices.getLast? = _
    rw [notices_notify_of_room _ _ (lt_of_le_of_lt hlength hroom) htable, List.getLast?_append, List.getLast?_singleton]
    rfl

end Sys2Proof.Machine
end

section
/-! The bus step that has CLEARED, its restoring CLOSE and what follows (R125, R138, R139, R141, R142, R144, R145), and the clauses
of O36 together. -/

namespace Sys2Proof.Machine

variable {μ : Part → Prop}

/-! ### An admitted OPEN or CLOSE -/

/-- An OPEN or CLOSE that finds its slot free waits at the end of the queue (R106, R108). -/
theorem handCmd_switch {s : State} {i : SlotId} {c : Cmd} (hkind : c.kind.isSwitch = true)
    (hstate : (s.slot i).state = .inService) (hloaded : ((s.slot i).loaded.any fun l => c.kind.permittedFor l.kind) = true)
    (htest : s.mode (SlotId.feeder i) ≠ .test) (hfree : ∀ x ∈ (s.slot i).queue, x.kind.isSwitch = false) :
    s.handCmd i c
      = ((s.setSlot i { s.slot i with queue := (s.slot i).queue ++ [c] }).countAdmission i, []) := by
  have hturn : (s.slot i).turnsAway (s.testMark (SlotId.feeder i)) c = none := by
    simp [Outstation.turnsAway, Outstation.admits, hstate, hloaded, State.testMark, htest]
  have hqueued : (s.slot i).queued CmdKind.isSwitch = false := by
    rw [Outstation.queued, List.any_eq_false]
    intro x hx
    rw [hfree x hx]
    exact Bool.false_ne_true
  have hadmit : admitCmd (s.testMark (SlotId.feeder i)) i (s.slot i) c
      = ({ s.slot i with queue := (s.slot i).queue ++ [c] }, []) := by
    have hswitch : admitSwitch i (s.slot i) c = ({ s.slot i with queue := (s.slot i).queue ++ [c] }, []) := by
      simp [admitSwitch, hqueued]
    unfold admitCmd
    rw [hturn]
    cases hk : c.kind with
    | opn => exact hswitch
    | close => exact hswitch
    | _ => simp [hk, CmdKind.isSwitch] at hkind
  simp [State.handCmd, hadmit, hturn]

/-- A command of a hunt is with a slot: it waits at the end of the queue, and no other slot knows of it. -/
structure State.Handed (s t : State) (i : SlotId) (c : Cmd) : Prop where
  parted : Parted (fun p => p = .exchange) s t
  slot : t.slot i = { s.slot i with queue := (s.slot i).queue ++ [c] }
  others : ∀ j, j ≠ i → t.slot j = s.slot j
  admissions : ∀ j, j ≠ i → t.admissions j = s.admissions j

theorem handed_switch (s : State) (i : SlotId) (c : Cmd) :
    s.Handed ((s.setSlot i { s.slot i with queue := (s.slot i).queue ++ [c] }).countAdmission i) i c where
  parted := (parted_setSlot (μ := fun p => p = .exchange) rfl s i _).trans (parted_prim (.admission _ i rfl))
  slot := State.slot_setSlot_self s i _
  others _ hj := look_put_ne _ _ hj
  admissions _ hj := look_put_ne _ _ hj

/-- A command that waits at the end of the queue is there at the end of the event. -/
theorem State.Handed.has {s t : State} {i : SlotId} {c : Cmd} (h : s.Handed t i c) (s0 : State) :
    ((State.finish s0 t).slot i).Has c :=
  has_finish s0 (by rw [h.slot]; exact .inl (List.mem_append_right _ List.mem_cons_self))

/-! ### The settle expiry of a bus step (R125, R138) -/

/-- The context of a hunt whose bus step has CLEARED, the restoring CLOSE being handed. -/
def HuntContext.restoringCleared (c : HuntContext) (f : Feeder) (last : Bool) : HuntContext :=
  { c with
    state := .restoring, settle := none, outstanding := some .close
    results := c.results ++ [⟨.busStep, f, 0, .cleared, last⟩] }

/-- What restoring a bus step may change. -/
def Restoring (p : Part) : Prop := p = .hunt ∨ p = .exchange

/-- The settle time of a bus step ends CLEARED: its outcome, and a CLOSE for its open point (R138, R139). -/
theorem settleExpired_busCleared {s : State} {f : Feeder} {d k a : Nat} (hphase : s.ctx.phase = some .busStep)
    (hindex : s.ctx.busIndex = some k) (hfeeder : s.hunt.busOrder[k]? = some f) (hmag : s.observedMag.isSome = true)
    (habove : s.ctx.lastAbove = some a) (hclear : a + 100 ≤ d) (hpoint : s.ctx.openPoint = some (Feeder.head f))
    (hstate : (s.slot (Feeder.head f)).state = .inService) (hmode : s.mode f ≠ .test)
    (hbreaker : ((s.slot (Feeder.head f)).loaded.any fun l => l.kind == .breaker) = true)
    (hfree : ∀ c ∈ (s.slot (Feeder.head f)).queue, c.kind.isSwitch = false) :
    (s.setCtx (s.ctx.restoringCleared f (k + 1 == s.hunt.busOrder.length))).Handed (s.settleExpired d) (Feeder.head f)
      { kind := .close, origin := .hunt } := by
  have hcleared : s.isCleared d = true := by
    have : a + Config.clearTime ≤ d := hclear
    simp [State.isCleared, hmag, habove, this]
  set c1 : HuntContext := { s.ctx with settle := none } with hc1
  have hstep : ∀ c : HuntContext, c.phase = some .busStep → c.busIndex = some k →
      (s.setCtx c).currentStep = some (.busStep, f, 0, k + 1 == s.hunt.busOrder.length) := by
    intro c hp hi
    have hp : (s.setCtx c).ctx.phase = some .busStep := hp
    have hi : (s.setCtx c).ctx.busIndex = some k := hi
    have hf : (s.setCtx c).hunt.busOrder[k]? = some f := hfeeder
    simp only [State.currentStep, hp, hi, hf, Option.map_some]
    rfl
  set c2 : HuntContext :=
    { c1 with results := c1.results ++ [⟨.busStep, f, 0, .cleared, k + 1 == s.hunt.busOrder.length⟩] } with hc2
  have happend : (s.setCtx c1).appendOutcome .cleared = s.setCtx c2 := by
    rw [State.appendOutcome, hstep c1 hphase hindex]
    rfl
  have hrestore : s.settleExpired d = (s.setCtx c2).restore := by
    have hfirst : s.mapCtx (fun c => { c with settle := none }) = s.setCtx c1 := rfl
    simp only [State.settleExpired, hcleared, if_true, hfirst, happend, hstep c2 hphase hindex]
  have hopen : (s.setCtx c2).ctx.openPoint = some (Feeder.head f) := hpoint
  have hmap : (s.setCtx c2).mapCtx (fun x => { x with state := .restoring, outstanding := some .close })
      = s.setCtx (s.ctx.restoringCleared f (k + 1 == s.hunt.busOrder.length)) := rfl
  have hclose : ((s.slot (Feeder.head f)).loaded.any fun l => CmdKind.close.permittedFor l.kind) = true := by
    rw [Option.any_eq_true] at hbreaker ⊢
    obtain ⟨l, hl, hk⟩ := hbreaker
    exact ⟨l, hl, by simp [CmdKind.permittedFor, hk]⟩
  set v := s.setCtx (s.ctx.restoringCleared f (k + 1 == s.hunt.busOrder.length))
  have hhand := handCmd_switch (s := v) (i := Feeder.head f) (c := huntCmd .close) rfl hstate hclose
    (by rw [feeder_head]; exact hmode) hfree
  have hown : s.settleExpired d = (v.handCmd (Feeder.head f) (huntCmd .close)).1 := by
    rw [hrestore, State.restore, hopen]
    simp only [hmap, hhand]
    rfl
  rw [hown, hhand]
  exact handed_switch v (Feeder.head f) (huntCmd .close)

/-- A restoring CLOSE and the sending after it. -/
def RestoringSending (p : Part) : Prop := Restoring p ∨ Sending p

theorem rest_of_restoringSending {s t : State} (h : Parted RestoringSending s t) :
    t = { s with hunt := t.hunt, exchange := t.exchange, link := t.link, mgmt := t.mgmt, outputs := t.outputs } := by
  have hrest := h.rest
  rw [h.reclose (by simp [RestoringSending, Restoring, Sending]), h.bank (by simp [RestoringSending, Restoring, Sending]),
    h.threshold (by simp [RestoringSending, Restoring, Sending]), h.map (by simp [RestoringSending, Restoring, Sending])] at hrest
  exact hrest

/-- The third clause of O36: the settle expiry of a bus step that has CLEARED. -/
theorem settleExpiry_leadsOn {s : State} {d k a : Nat} {f : Feeder} (hs : s.Still) (hsettling : s.ctx.state = .settling)
    (hsettle : s.ctx.settle = some d) (hdue : d ≤ s.time) (hphase : s.ctx.phase = some .busStep)
    (hindex : s.ctx.busIndex = some k) (hfeeder : s.hunt.busOrder[k]? = some f) (hmag : s.observedMag.isSome = true)
    (habove : s.ctx.lastAbove = some a) (hclear : a + 100 ≤ d) (hpoint : s.ctx.openPoint = some (Feeder.head f))
    (hstate : (s.slot (Feeder.head f)).state = .inService) (hmode : s.mode f ≠ .test)
    (hbreaker : ((s.slot (Feeder.head f)).loaded.any fun l => l.kind == .breaker) = true)
    (hfree : ∀ c ∈ (s.slot (Feeder.head f)).queue, c.kind.isSwitch = false) :
    ∃ t, exec .settleExpiry s = .next t
      ∧ t.ctx = { s.ctx with
          state := .restoring, settle := none, outstanding := some .close
          results := s.ctx.results ++ [⟨.busStep, f, 0, .cleared, k + 1 == s.hunt.busOrder.length⟩] }
      ∧ (t.slot (Feeder.head f)).Has { kind := .close, origin := .hunt } ∧ (∀ j, j ≠ Feeder.head f → t.slot j = s.slot j)
      ∧ t = { s with hunt := t.hunt, exchange := t.exchange, link := t.link, mgmt := t.mgmt, outputs := t.outputs } := by
  have hhanded := settleExpired_busCleared hphase hindex hfeeder hmag habove hclear hpoint hstate hmode hbreaker hfree
  set c := s.ctx.restoringCleared f (k + 1 == s.hunt.busOrder.length) with hc
  have hparts : Parted Restoring s (s.settleExpired d) :=
    (parted_setCtx (.inl rfl) s c).trans (hhanded.parted.mono fun _ => .inr)
  have hctx : (s.settleExpired d).ctx = c := congrArg HuntController.ctx (hhanded.parted.hunt (by simp))
  have hend : State.conclude72 s (s.settleExpired d) = State.finish s (s.settleExpired d) := by
    refine conclude72_still (fun e => ?_) (.inl ?_)
    · rw [State.entry, hparts.map (by simp [Restoring])]; exact hs.noPending e
    · rw [hctx, hc]; simp [HuntContext.restoringCleared]
  have hexec : exec .settleExpiry s = .next (State.finish s (s.settleExpired d)) := by
    have hsettleDue : s.settleDue = some d := by simp [State.settleDue, hsettling, hsettle, hdue]
    simp only [exec, execSettleExpiry, State.unlessHeld, hs.released, hsettleDue, hend]
    rfl
  refine ⟨_, hexec, ?_, hhanded.has s, fun j hj => ?_, ?_⟩
  · rw [ctx_finish, hctx]; rfl
  · have hslot : (s.settleExpired d).slot j = s.slot j := hhanded.others j hj
    have hadm : (s.settleExpired d).admissions j = s.admissions j := hhanded.admissions j hj
    rw [slot_finish_of_not_due, hslot]
    simp [State.sendTestDue, hslot, hadm]
  · exact rest_of_restoringSending ((hparts.mono fun _ => .inl).trans ((parted_finish s _).mono fun _ => .inr))

/-! ### The restoring CLOSE completes (R139) -/

theorem deliverAll_hunt {i : SlotId} {c : Cmd} (horigin : c.origin = .hunt) (hmerged : c.merged = []) (u : State)
    (k : Completion) : u.deliverAll (deliveries i c k) = u.huntCompleted c.kind k := by
  simp [deliveries, hmerged, State.deliverAll, State.deliver, horigin]

theorem huntCompleted_restoring {s : State} (hs : s.ctx.state = .restoring) (kind : CmdKind) (k : Completion) :
    s.huntCompleted kind k = s.closeInRestoring k := by
  unfold State.huntCompleted
  rw [hs]

/-- The restoring CLOSE of a bus step that has CLEARED is done: the feeder found is looked at (R139). -/
theorem restored_cleared {s : State} {f : Feeder} {k : Nat} {x : StepOutcome} (hphase : s.ctx.phase = some .busStep)
    (hindex : s.ctx.busIndex = some k) (hfeeder : s.hunt.busOrder[k]? = some f) (hlast : s.ctx.results.getLast? = some x)
    (hcleared : x.value = .cleared) :
    s.restored = (s.setCtx { s.ctx with outstanding := none, openPoint := none }).chain f := by
  set v := s.setCtx { s.ctx with outstanding := none, openPoint := none } with hv
  have hmap : s.mapCtx (fun c => { c with outstanding := none, openPoint := none }) = v := rfl
  have hphase : v.ctx.phase = some .busStep := hphase
  have hindex : v.ctx.busIndex = some k := hindex
  have hfeeder : v.hunt.busOrder[k]? = some f := hfeeder
  have hlast : v.ctx.lastCleared = true := by
    have hlast : v.ctx.results.getLast? = some x := hlast
    simp [HuntContext.lastCleared, hlast, hcleared]
  simp only [State.restored, hmap, hphase, hindex, hlast, hfeeder]

/-- The context of a hunt that opens the point of a feeder's first step. -/
def HuntContext.openingFirst (c : HuntContext) (f : Feeder) (i : SlotId) : HuntContext :=
  { c with
    state := .opening, phase := some .feederStep, feeder := some f, busIndex := none, planIndex := some 0
    openPoint := some i, outstanding := some .opn }

/-- A feeder with a plan is sectioned: an OPEN for the point of its first step (R141). -/
theorem chain_opens {s : State} {f : Feeder} {c : HuntContext} {y : PlanStep} {rest : List PlanStep} (hplan : s.plan f = y :: rest)
    (hclear : s.indicatorClear f y = false) (hmode : s.mode f ≠ .test)
    (hpoint : (s.slot (Feeder.slot f y.position)).huntPoint = true)
    (hkind : ((s.slot (Feeder.slot f y.position)).loaded.any fun l => l.kind == .recloser || l.kind == .sectionaliser) = true)
    (hfree : ∀ x ∈ (s.slot (Feeder.slot f y.position)).queue, x.kind.isSwitch = false) :
    (s.setCtx (c.openingFirst f (Feeder.slot f y.position))).Handed ((s.setCtx c).chain f) (Feeder.slot f y.position)
      { kind := .opn, origin := .hunt } := by
  set i := Feeder.slot f y.position
  set v := s.setCtx (c.openingFirst f i)
  set w := s.setCtx { c with phase := some .feederStep, feeder := some f, busIndex := none, planIndex := some 0 }
  have hstate : (s.slot i).state = .inService := by
    simp only [Outstation.huntPoint, Bool.and_eq_true, beq_iff_eq] at hpoint
    exact hpoint.1.1
  have hloaded : ((s.slot i).loaded.any fun l => CmdKind.opn.permittedFor l.kind) = true := by
    rw [Option.any_eq_true] at hkind ⊢
    obtain ⟨l, hl, hk⟩ := hkind
    refine ⟨l, hl, ?_⟩
    rw [CmdKind.permittedFor, Bool.or_assoc, hk, Bool.or_true]
  have hhand := handCmd_switch (s := v) (i := i) (c := huntCmd .opn) rfl hstate hloaded
    (by rw [feeder_slot]; exact hmode) hfree
  have hopen : w.openPointAt i = ((v.handCmd i (huntCmd .opn)).1, none) := by
    have hmap : w.mapCtx (fun x => { x with state := .opening, openPoint := some i, outstanding := some .opn }) = v := rfl
    simp only [State.openPointAt, hmap, hhand]
    rfl
  have hclear : w.indicatorClear f y = false := hclear
  have hpoint : (w.slot i).huntPoint = true := hpoint
  have hplan : (s.setCtx c).plan f = y :: rest := hplan
  have hsteps : State.feederSteps f (y :: rest) 0 w = (v.handCmd i (huntCmd .opn)).1 := by
    have hmap : (w.mapCtx fun c => { c with planIndex := some 0 }) = w := rfl
    rw [State.feederSteps, hmap]
    dsimp only
    rw [hclear, hpoint, hopen]
    rfl
  have hchain : (s.setCtx c).chain f = (v.handCmd i (huntCmd .opn)).1 := by
    rw [State.chain, hplan, ← hsteps]
    rfl
  rw [hchain, hhand]
  exact handed_switch v i (huntCmd .opn)

/-- A feeder without a plan is the result (R142). -/
theorem chain_concludes {s : State} {f : Feeder} (hplan : s.plan f = []) :
    s.chain f = (s.setCtx { s.ctx with state := .concluded }).finishHunt (.foundFeeder f) (some .leftOpen) := by
  simp only [State.chain, hplan]
  rfl

/-- A restoring CLOSE that is refused aborts the hunt, its point UNKNOWN (R139, R144, R145). -/
theorem closeInRestoring_refused {s : State} (hs : s.ctx.state = .restoring) (v : U16) :
    s.closeInRestoring (.refused v)
      = (s.setCtx { s.ctx with
          state := .aborting, outstanding := none, abortCause := some .restoreFailed, settle := none }).finishHunt
          (.aborted .restoreFailed) (some .unknown) := by
  set w := s.setCtx { s.ctx with outstanding := none }
  set a := s.setCtx { s.ctx with state := .aborting, outstanding := none, abortCause := some .restoreFailed, settle := none }
  have hstate : (w.ctx.state == HuntState.restoring) = true := beq_iff_eq.2 hs
  have habort : w.abortHunt .restoreFailed = a.settlePoint := by
    unfold State.abortHunt
    rw [hstate]
    rfl
  have hcause : a.ctx.abortCause = some .restoreFailed := rfl
  calc s.closeInRestoring (.refused v)
      = w.abortHunt .restoreFailed := rfl
    _ = a.settlePoint := habort
    _ = a.endAbort (some .unknown) := by rw [State.settlePoint, hcause]
    _ = a.finishHunt (.aborted .restoreFailed) (some .unknown) := by rw [State.endAbort, hcause]; rfl

/-! ### The answer to a restoring CLOSE -/

theorem known_moves {s t : State} (h : Moves μ s t) (i : SlotId) : (t.slot i).known = (s.slot i).known := by
  simpa only [Outstation.still] using congrArg Outstation.known (still_of_fixed (fixed_moves h) i)

/-- What an answer that ends a hunt leaves; the answer itself hands on at most two notices. -/
structure State.HuntOver (s t : State) (n : Notice) : Prop where
  ctx : t.ctx = HuntContext.reset
  removed : ∀ g ∈ s.ctx.involved, (t.recl g).reasons.hunt = false
  others : ∀ g, g ∉ s.ctx.involved → t.recl g = s.recl g
  newest : s.link.table.dest = none → s.mgmt.notices.length + 17 * s.ctx.involved.length + 2 < 32 →
    t.mgmt.notices.getLast? = some ⟨n, false⟩

/-- An answer after which the hunt ends. -/
theorem conclude72_huntEnds {s u : State} {i : SlotId} {o : Outstation} (hs : s.Still) (hu : s.Puts u i o 2) {c : HuntContext}
    (hc : c.involved = s.ctx.involved) (r : HuntResult) (x : Option PointOutcome) :
    ∃ t, State.conclude72 s ((u.setCtx c).finishHunt r x) = t ∧ (t.slot i).known = o.known
      ∧ s.HuntOver t (c.resultNotice r x) := by
  obtain ⟨hmoves, hctx, hlist, hremoved, hothers, hnewest⟩ := finishHunt_spec (u.setCtx c) r x
  have hparts := parted_moves hmoves
  have hinvolved : (u.setCtx c).ctx.involved = s.ctx.involved := hc
  rw [hinvolved] at hremoved hothers hnewest
  have hend : State.conclude72 s ((u.setCtx c).finishHunt r x) = State.finish s ((u.setCtx c).finishHunt r x) := by
    refine conclude72_still (fun e => ?_) (.inr ?_)
    · rw [State.entry, hparts.map (by simp [Ending])]
      change (look u.profiles.map e).pend = none
      rw [hu.parted.map (by simp)]
      exact hs.noPending e
    · rw [hlist]
      change u.hunt.pendingList = []
      rw [hu.parted.hunt (by simp)]
      exact hs.noTrigger
  refine ⟨_, hend, ?_, by rw [ctx_finish, hctx], fun g hg => ?_, fun g hg => ?_, fun hdest hroom => ?_⟩
  · rw [known_finish, known_moves hmoves]
    exact congrArg Outstation.known hu.slot
  · rw [recl_finish]; exact hremoved g hg
  · rw [recl_finish, hothers g hg]; exact hu.recl g
  · rw [mgmt_finish]
    refine hnewest ?_ ?_
    · rw [show (u.setCtx c).link = u.link from rfl, hu.table]; exact hdest
    · have := hu.notices
      change u.mgmt.notices.length + _ < 32
      omega

/-- A slot that has answered holds what was loaded and the passage it reported. -/
theorem answeredSlot_reports (s : State) (i : SlotId) (k : CmdKind) :
    ((s.answeredSlot i).switched k).loaded = (s.slot i).loaded ∧ ((s.answeredSlot i).switched k).passage = (s.slot i).passage := by
  have hreach : (s.answeredSlot i).loaded = (s.slot i).loaded ∧ (s.answeredSlot i).passage = (s.slot i).passage := by
    unfold State.answeredSlot Outstation.reached
    split <;> exact ⟨rfl, rfl⟩
  cases k <;> exact hreach

/-- The indicator of a step reads what was loaded and reported alone. -/
theorem indicatorClear_answered {s u : State} {i : SlotId} {k : CmdKind} {n : Nat}
    (hu : s.Puts u i ((s.answeredSlot i).switched k) n) (f : Feeder) (y : PlanStep) :
    u.indicatorClear f y = s.indicatorClear f y := by
  have hreports : ∀ j, (u.slot j).loaded = (s.slot j).loaded ∧ (u.slot j).passage = (s.slot j).passage := by
    intro j
    by_cases hj : j = i
    · rw [hj, hu.slot]; exact answeredSlot_reports s i k
    · rw [hu.others j hj]; exact ⟨rfl, rfl⟩
  unfold State.indicatorClear
  split
  · rfl
  · rename_i p _
    obtain ⟨hloaded, hpassage⟩ := hreports (Feeder.slot f p)
    simp only [hloaded, hpassage, hu.parted.time]

section
variable {s : State} {source : U16} {fl : InFlight} {i : SlotId} (v : U16) (hs : s.Still)
  (hslot : s.knownSlot source = some i) (hfly : (s.slot i).inFlight = some fl) (hkind : fl.cmd.kind = .close)
  (horigin : fl.cmd.origin = .hunt) (hmerged : fl.cmd.merged = []) (hrestoring : s.ctx.state = .restoring)
include hs hslot hfly horigin hmerged hrestoring

/-- REFUSED of a restoring CLOSE: the hunt is aborted (R139). -/
theorem exec_notRestored : ∃ u, s.Puts u i (s.answeredSlot i) 1
    ∧ exec (.response source fl.tag .refused v) s = .next (State.conclude72 s (u.closeInRestoring (.refused v))) := by
  obtain ⟨u, hu, heq⟩ := answered_refused s i fl v
  refine ⟨u, hu, ?_⟩
  rw [exec_response hs.released, takeResponse_refused hslot hfly, heq, deliverAll_hunt horigin hmerged,
    huntCompleted_restoring (by rw [hu.ctx]; exact hrestoring)]

/-- REFUSED of a restoring CLOSE. -/
theorem restoreRefused_aborts (hpoint : s.ctx.openPoint = some i) :
    ∃ t, exec (.response source fl.tag .refused v) s = .next t
      ∧ s.HuntOver t (.huntResult s.ctx.kind s.ctx.origin s.ctx.involved (.aborted .restoreFailed) (some (i, .unknown))
          s.ctx.observed s.ctx.clearLevel s.ctx.results) := by
  obtain ⟨u, hu, hexec⟩ := exec_notRestored v hs hslot hfly horigin hmerged hrestoring
  set c : HuntContext :=
    { s.ctx with state := .aborting, outstanding := none, abortCause := some .restoreFailed, settle := none } with hc
  have habort : u.closeInRestoring (.refused v) = (u.setCtx c).finishHunt (.aborted .restoreFailed) (some .unknown) := by
    rw [closeInRestoring_refused (by rw [hu.ctx]; exact hrestoring), hu.ctx]
  obtain ⟨t, ht, _, hover⟩ := conclude72_huntEnds hs (hu.mono (Nat.le_succ 1)) (c := c) rfl (.aborted .restoreFailed)
    (some .unknown)
  have hresult : c.resultNotice (.aborted .restoreFailed) (some .unknown)
      = .huntResult s.ctx.kind s.ctx.origin s.ctx.involved (.aborted .restoreFailed) (some (i, .unknown))
          s.ctx.observed s.ctx.clearLevel s.ctx.results := by
    have hopen : c.openPoint = some i := hpoint
    have houtcome : c.pointOutcome (some .unknown) = some (i, .unknown) := by
      unfold HuntContext.pointOutcome
      rw [hopen]
    rw [HuntContext.resultNotice, houtcome]
  rw [habort, ht] at hexec
  exact ⟨t, hexec, hresult ▸ hover⟩

include hkind

/-- DONE of a restoring CLOSE: its slot is known CLOSED, and the hunt goes on (R139). -/
theorem exec_restored : ∃ u, s.Puts u i ((s.answeredSlot i).switched .close) 2
    ∧ exec (.response source fl.tag .done v) s = .next (State.conclude72 s u.restored) := by
  obtain ⟨u, hu, heq⟩ := answered_done s i fl (some v) false
  rw [hkind] at hu
  refine ⟨u, hu, ?_⟩
  rw [exec_response hs.released, takeResponse_done hslot hfly, heq, deliverAll_hunt horigin hmerged,
    huntCompleted_restoring (by rw [hu.ctx]; exact hrestoring)]
  rfl

/-- DONE of the CLOSE for the head of a feeder with a plan. -/
theorem restoredDone_opens {k : Nat} {f : Feeder} {x : StepOutcome} {y : PlanStep} {rest : List PlanStep}
    (hphase : s.ctx.phase = some .busStep) (hindex : s.ctx.busIndex = some k) (hfeeder : s.hunt.busOrder[k]? = some f)
    (hhead : i = Feeder.head f) (hlast : s.ctx.results.getLast? = some x) (hcleared : x.value = .cleared)
    (hplan : s.plan f = y :: rest) (hposition : y.position.val ≠ 0) (hclear : s.indicatorClear f y = false)
    (hmode : s.mode f ≠ .test) (hpoint : (s.slot (Feeder.slot f y.position)).huntPoint = true)
    (hloaded : ((s.slot (Feeder.slot f y.position)).loaded.any fun l => l.kind == .recloser || l.kind == .sectionaliser) = true)
    (hfree : ∀ c ∈ (s.slot (Feeder.slot f y.position)).queue, c.kind.isSwitch = false) :
    ∃ t, exec (.response source fl.tag .done v) s = .next t
      ∧ t.ctx = { s.ctx with
          state := .opening, phase := some .feederStep, feeder := some f, busIndex := none, planIndex := some 0
          openPoint := some (Feeder.slot f y.position), outstanding := some .opn }
      ∧ (t.slot (Feeder.slot f y.position)).Has { kind := .opn, origin := .hunt } ∧ (t.slot i).known = .closed
      ∧ t.reclose = s.reclose := by
  obtain ⟨u, hu, hexec⟩ := exec_restored v hs hslot hfly hkind horigin hmerged hrestoring
  have hne : Feeder.slot f y.position ≠ i := hhead ▸ slot_ne_head hposition
  have hhunt : u.hunt = s.hunt := hu.parted.hunt (by simp)
  set c : HuntContext := { u.ctx with outstanding := none, openPoint := none }
  have hrestored : u.restored = (u.setCtx c).chain f :=
    restored_cleared (by rw [hu.ctx]; exact hphase) (by rw [hu.ctx]; exact hindex) (by rw [hhunt]; exact hfeeder)
      (by rw [hu.ctx]; exact hlast) hcleared
  have hhanded := chain_opens (s := u) (f := f) (c := c) (y := y) (rest := rest) (by rw [State.plan, hhunt]; exact hplan)
    (by rw [indicatorClear_answered hu]; exact hclear) (by rw [State.mode, hu.parted.modes]; exact hmode)
    (by rw [hu.others _ hne]; exact hpoint) (by rw [hu.others _ hne]; exact hloaded) (by rw [hu.others _ hne]; exact hfree)
  rw [← hrestored] at hhanded
  have hctx : u.restored.ctx = c.openingFirst f (Feeder.slot f y.position) :=
    congrArg HuntController.ctx (hhanded.parted.hunt (by simp))
  have hend : State.conclude72 s u.restored = State.finish s u.restored := by
    refine conclude72_still (fun e => ?_) (.inl ?_)
    · rw [State.entry, hhanded.parted.map (by simp)]
      change (look u.profiles.map e).pend = none
      rw [hu.parted.map (by simp)]
      exact hs.noPending e
    · rw [hctx]; simp [HuntContext.openingFirst]
  rw [hend] at hexec
  refine ⟨_, hexec, ?_, hhanded.has s, ?_, ?_⟩
  · rw [ctx_finish, hctx, ← hu.ctx]; rfl
  · have hsame : u.restored.slot i = u.slot i := hhanded.others i hne.symm
    rw [known_finish, hsame, hu.slot]
    rfl
  · rw [finish_reclose, hhanded.parted.reclose (by simp)]
    exact hu.parted.reclose (by simp)

/-- DONE of the CLOSE for the head of a feeder without a plan. -/
theorem restoredDone_concludes {k : Nat} {f : Feeder} {x : StepOutcome}
    (hphase : s.ctx.phase = some .busStep) (hindex : s.ctx.busIndex = some k) (hfeeder : s.hunt.busOrder[k]? = some f)
    (hlast : s.ctx.results.getLast? = some x) (hcleared : x.value = .cleared) (hplan : s.plan f = []) :
    ∃ t, exec (.response source fl.tag .done v) s = .next t ∧ (t.slot i).known = .closed
      ∧ s.HuntOver t (.huntResult s.ctx.kind s.ctx.origin s.ctx.involved (.foundFeeder f) none s.ctx.observed s.ctx.clearLevel
          s.ctx.results) := by
  obtain ⟨u, hu, hexec⟩ := exec_restored v hs hslot hfly hkind horigin hmerged hrestoring
  have hhunt : u.hunt = s.hunt := hu.parted.hunt (by simp)
  set c : HuntContext := { s.ctx with outstanding := none, openPoint := none, state := .concluded }
  have hrestored : u.restored = (u.setCtx c).finishHunt (.foundFeeder f) (some .leftOpen) := by
    have hempty : u.plan f = [] := by rw [State.plan, hhunt]; exact hplan
    rw [restored_cleared (by rw [hu.ctx]; exact hphase) (by rw [hu.ctx]; exact hindex) (by rw [hhunt]; exact hfeeder)
      (by rw [hu.ctx]; exact hlast) hcleared,
      chain_concludes (s := u.setCtx { u.ctx with outstanding := none, openPoint := none }) hempty, hu.ctx]
    rfl
  obtain ⟨t, ht, hknown, hover⟩ := conclude72_huntEnds hs hu (c := c) rfl (.foundFeeder f) (some .leftOpen)
  rw [hrestored, ht] at hexec
  exact ⟨t, hexec, hknown, hover⟩
end

/-- Settles O36: what the answers to a TRIP, to the CLOSE of a shot and to a restoring CLOSE lead to, and the CLOSE that follows a
bus step. -/
theorem answersLeadOn : Obligations.AnswersLeadOn := by
  unfold Obligations.AnswersLeadOn
  refine ⟨?_, ?_, ?_, ?_⟩
  · intro s f source fl v la hs hslot hfly hkind horigin hstate hlatch
    exact tripDone_leadsOn v hs hslot hfly hkind horigin hstate hlatch
  · intro s f source fl v failed hs hslot hfly hkind horigin hmerged hfailed
    exact closeCompleted_leadsOn v hs hslot hfly hkind horigin hmerged hfailed
  · intro s d k f a hs hsettling hsettle hdue hphase hindex hfeeder hmag habove hclear hpoint hstate hmode hbreaker hfree
    exact settleExpiry_leadsOn hs hsettling hsettle hdue hphase hindex hfeeder hmag habove hclear hpoint hstate hmode hbreaker hfree
  · intro s source fl v i hs hslot hfly hkind horigin hmerged _ hrestoring hpoint
    refine ⟨fun k f x hphase hindex hfeeder hhead hlast hcleared => ⟨fun y rest hplan hposition hclear hmode hp hl hfree => ?_,
      fun hplan => ?_⟩, ?_⟩
    · exact restoredDone_opens v hs hslot hfly hkind horigin hmerged hrestoring hphase hindex hfeeder hhead hlast hcleared hplan
        hposition hclear hmode hp hl hfree
    · obtain ⟨t, hexec, hknown, hover⟩ := restoredDone_concludes v hs hslot hfly hkind horigin hmerged hrestoring hphase
        hindex hfeeder hlast hcleared hplan
      exact ⟨t, hexec, hover.ctx, hknown, hover.removed, hover.others, hover.newest⟩
    · obtain ⟨t, hexec, hover⟩ := restoreRefused_aborts v hs hslot hfly horigin hmerged hrestoring hpoint
      exact ⟨t, hexec, hover.ctx, hover.removed, hover.others, hover.newest⟩

end Sys2Proof.Machine
end

section
/-! The reclose state and the mode (R93), and a TRIP that failed (R84). -/

namespace Sys2Proof.Machine

/-- Settles O9: no act moves a reclose state into or out of OFF but with the mode. -/
theorem offWhileOutOfService : Obligations.OffWhileOutOfService :=
  fun s t hs hstep => acts_keep State.OffOk offOk_act (acts_step s t hstep) hs

/-- A TRIP that failed: the Reclose Controller is told, and beside that only the Element Bank changes (R56). -/
theorem tripCompleted_not_done {s : State} {f : Feeder} {k : Completion} (hlatch : (s.element f).latch ≠ none)
    (hfailed : k.isDone = false) :
    ∃ u, Parted (fun p => p = .bank) s u ∧ Tells (u.tellTripFailed f) (s.tripCompleted f k) := by
  obtain ⟨l, hl⟩ := Option.ne_none_iff_exists'.1 hlatch
  refine ⟨s.closeLatch f l (.breakerFail k), parted_moves (moves_closeLatch (μ := fun p => p = .bank) rfl _ _ _ _), ?_⟩
  simp only [State.tripCompleted, hl, hfailed, Bool.false_eq_true, if_false]
  exact moves_notifyTrip _ _ _ _

/-- Settles O59: the Reclose Controller is told of the failure, and nothing else of the completion concerns a reclose record. -/
theorem failedTripLocksOut : Obligations.FailedTripLocksOut := by
  intro s f k hlatch hfailed
  obtain ⟨u, hu, htells⟩ := tripCompleted_not_done hlatch hfailed
  have hrecl : ∀ g, (s.tripCompleted f k).recl g
      = if g = f then { s.recl f with state := (s.recl f).state.afterTripFailed } else s.recl g := by
    intro g
    have hsame : ∀ g, u.recl g = s.recl g := fun g => look_congr (congrArg RecloseController.records (hu.reclose (by simp))) g
    rw [tells_rest htells, ← hsame f, ← hsame g]
    exact recl_tellTripFailed u f g
  refine ⟨fun n m hst => ?_, fun hst => ?_, fun g hg => ?_, ?_⟩
  · rw [hrecl, if_pos rfl, hst]
    rfl
  · rw [hrecl, if_pos rfl, afterTripFailed_of_not_tripping hst]
  · rw [hrecl, if_neg hg]
  · rw [(parted_moves htells).exchange id, (parted_moves (moves_tellTripFailed (μ := fun p => p = .reclose) rfl u f)).exchange (by simp)]
    exact hu.exchange (by simp)

end Sys2Proof.Machine
end

section
/-! DEAD_TIME stays unblocked and within the active profile's shots (R83, R88, R89): each operation that can reach a reclose record
or the map keeps the promise. A takeover breaks it for its own feeder until the Reclose Controller is presented with the profile. -/

namespace Sys2Proof.Machine

/-! ### What DEAD_TIME hangs on -/

/-- The reclose records, the profile slots and the map. -/
def State.shotView (s : State) : Vector RecloseRecord 8 × Vector (Option Profile) 4 × Vector MapEntry 9 :=
  (s.reclose.records, s.profiles.slots, s.profiles.map)

theorem shotView_of {s t : State} (hr : t.reclose.records = s.reclose.records) (hp : t.profiles = s.profiles) :
    t.shotView = s.shotView := by rw [State.shotView, hr, hp]; rfl

theorem recl_of_shotView {s t : State} (h : t.shotView = s.shotView) (f : Feeder) : t.recl f = s.recl f :=
  look_congr (congrArg Prod.fst h) f

theorem feederProfile_congr {s t : State} (hslots : t.profiles.slots = s.profiles.slots) {f : Feeder}
    (hentry : t.entry (Feeder.entry f) = s.entry (Feeder.entry f)) : t.feederProfile f = s.feederProfile f := by
  have hprofile : ∀ k, t.profile k = s.profile k := look_congr hslots
  simp only [State.feederProfile, State.active, hentry, hprofile]

theorem feederProfile_of_profiles {s t : State} (h : t.profiles = s.profiles) (f : Feeder) :
    t.feederProfile f = s.feederProfile f :=
  feederProfile_congr (by rw [h]) (look_congr (by rw [h]) _)

theorem feederProfile_of_shotView {s t : State} (h : t.shotView = s.shotView) (f : Feeder) :
    t.feederProfile f = s.feederProfile f :=
  feederProfile_congr (congrArg (fun v => v.2.1) h) (look_congr (congrArg (fun v => v.2.2) h : t.profiles.map = s.profiles.map) _)

/-- The parts DEAD_TIME does not hang on. -/
def Beside (p : Part) : Prop := p ≠ .reclose ∧ p ≠ .map

theorem shotView_moves {s t : State} (h : Moves Beside s t) : t.shotView = s.shotView :=
  shotView_of (congrArg _ ((parted_moves h).reclose fun hp => hp.1 rfl)) ((parted_moves h).map fun hp => hp.2 rfl)

@[simp] theorem shotView_notify (s : State) (n : Notice) (b : Bool) : (s.notify n b).shotView = s.shotView :=
  shotView_moves (moves_notify s n b)

theorem shotView_handCmd (s : State) (i : SlotId) (c : Cmd) : (s.handCmd i c).1.shotView = s.shotView := by
  unfold State.handCmd
  dsimp only
  split <;> rfl

theorem shotView_replyTo (s : State) (k : Nat) (r : Result) (p : List Byte) : (s.replyTo k r p).shotView = s.shotView :=
  shotView_moves (moves_replyTo (by simp [Beside]) s k r p)

/-- The end of an event but for what it settles. -/
theorem shotView_finish (s0 s : State) : (State.finish s0 s).shotView = s.shotView :=
  shotView_moves (moves_finish (by simp [Beside]) (by simp [Beside]) s0 s)

/-! ### Followers -/

theorem shotView_closing {s t : State} (hr : t.reclose.records = s.reclose.records) (h : Moves Closing s t) :
    t.shotView = s.shotView := shotView_of hr ((parted_moves h).map (by simp [Closing]))

theorem shotView_moveFollower (s : State) (i : SlotId) (st : FollowerState) (r : Option Nat) (k : Option Completion) :
    (s.moveFollower i st r k).shotView = s.shotView :=
  shotView_closing (records_moveFollower s i st r k) (moves_moveFollower (.inr rfl) s i st r k)

theorem shotView_blockingCompleted (s : State) (d : Delivery) : (s.blockingCompleted d).shotView = s.shotView :=
  shotView_closing (records_blockingCompleted s d) (moves_blockingCompleted (.inr rfl) s d)

theorem shotView_handBlocking (s : State) (i : SlotId) {k : CmdKind} (hk : k ≠ .enrol) :
    (s.handBlocking i k).shotView = s.shotView :=
  shotView_closing (records_handBlocking s i hk) (moves_handBlocking (.inl rfl) (.inr rfl) s i k hk)

theorem shotView_blockFollower (s : State) (i : SlotId) : (s.blockFollower i).shotView = s.shotView :=
  shotView_closing (records_blockFollower s i) (moves_blockFollower (.inl rfl) (.inr rfl) s i)

theorem shotView_refreshExpired (s : State) (i : SlotId) : (s.refreshExpired i).shotView = s.shotView := by
  unfold State.refreshExpired
  dsimp only
  split
  · exact shotView_handBlocking _ _ (by decide)
  · rfl

theorem shotView_followerEntered (s : State) (i : SlotId) : (s.followerEntered i).shotView = s.shotView := by
  unfold State.followerEntered
  split
  · rfl
  · split
    · exact shotView_blockFollower _ _
    · rfl

/-! ### Streams, slots and tables -/

theorem shotView_occur (s : State) (c : ErrorClass) : (s.occur c).shotView = s.shotView := by
  unfold State.occur
  dsimp only
  split
  · exact shotView_notify _ _ _
  · rfl

theorem shotView_moveStream (s : State) (e : EntryId) (r : StreamRecord) (y : StreamReason) :
    (s.moveStream e r y).shotView = s.shotView := by
  unfold State.moveStream
  dsimp only
  split
  · rfl
  · exact shotView_notify _ _ _

theorem shotView_holdElements (s : State) (e : EntryId) : (s.holdElements e).shotView = s.shotView := by
  unfold State.holdElements State.dropMeas
  dsimp only
  cases EntryId.feeder? e <;> rfl

theorem shotView_refill (s : State) (e : EntryId) (y : SampleSet) : (s.refill e y).shotView = s.shotView := by
  unfold State.refill
  dsimp only
  have hheld := (shotView_holdElements _ e).trans (shotView_moveStream s e
    { s.stream e with state := .filling, window := [y], lastSeq := some y.seq, expiry := (s.stream e).restarted s.time } .gap)
  split
  · exact (shotView_moves (moves_settleOnGap (by simp [Beside]) _ e)).trans hheld
  · exact hheld

theorem shotView_evaluateBus (s : State) (vn : Nat) : (s.evaluateBus vn).shotView = s.shotView := by
  unfold State.evaluateBus
  split <;> rfl

theorem shotView_restartStream (s : State) (e : EntryId) (st : StreamState) (y : Option StreamFields) (z : StreamReason) :
    (s.restartStream e st y z).shotView = s.shotView := by
  unfold State.restartStream
  dsimp only
  split
  · exact (shotView_holdElements _ _).trans (shotView_moveStream _ _ _ _)
  · exact shotView_moveStream _ _ _ _

theorem shotView_configureStream (s : State) (e : EntryId) (y : StreamFields) :
    (s.configureStream e y).shotView = s.shotView := by
  unfold State.configureStream
  dsimp only
  split
  · rfl
  · exact shotView_restartStream _ _ _ _ _

theorem shotView_removeStream (s : State) (e : EntryId) : (s.removeStream e).shotView = s.shotView := by
  unfold State.removeStream
  split
  · rfl
  · exact shotView_restartStream _ _ _ _ _

theorem shotView_removeBus (s : State) : s.removeBus.shotView = s.shotView := by
  unfold State.removeBus
  split
  · rfl
  · exact shotView_removeStream s busEntry

theorem shotView_notifySlot (s : State) (i : SlotId) (prev : SlotState) (y : OutReason) (v : Option U16) (k : Option Completion) :
    (s.notifySlot i prev y v k).shotView = s.shotView := shotView_notify _ _ _

theorem shotView_placeSlot (s : State) (i : SlotId) (o : Outstation) : (s.placeSlot i o).shotView = s.shotView := by
  unfold State.placeSlot
  dsimp only
  split
  · rfl
  · exact shotView_notifySlot _ _ _ _ _ _

theorem shotView_feedNotice (s : State) : s.feedNotice.shotView = s.shotView := by
  obtain ⟨l, m, h, _⟩ := feedNotice_parts s
  rw [h]
  rfl

theorem shotView_placeLink (s : State) (t : LinkTable) : (s.placeLink t).shotView = s.shotView := by
  unfold State.placeLink
  dsimp only
  split
  · exact shotView_feedNotice _
  · rfl

theorem shotView_reach (s : State) (i : SlotId) : (s.reach i).shotView = s.shotView := by
  unfold State.reach
  dsimp only
  split
  · exact shotView_notifySlot _ _ _ _ _ _
  · rfl

theorem shotView_switched (s : State) (i : SlotId) (k : CmdKind) : (s.switched i k).shotView = s.shotView := by
  unfold State.switched
  split
  · rfl
  · dsimp only
    split
    · rfl
    · exact shotView_notifySlot _ _ _ _ _ _

theorem shotView_takeFlags (s : State) (i : SlotId) (b : Byte) : (s.takeFlags i b).shotView = s.shotView := by
  unfold State.takeFlags
  dsimp only
  split
  · rfl
  · exact shotView_notifySlot _ _ _ _ _ _

theorem shotView_endEnrol (s : State) (i : SlotId) (o : Outstation) (y : OutReason) (v : Option U16) (k : Option Completion) :
    (s.endEnrol i o y v k).shotView = s.shotView := shotView_notifySlot _ _ _ _ _ _

theorem shotView_enrolCompleted (s : State) (d : Delivery) : (s.enrolCompleted d).shotView = s.shotView := by
  unfold State.enrolCompleted
  dsimp only
  split
  · split
    · split
      · split
        · exact (shotView_followerEntered _ _).trans (shotView_endEnrol _ _ _ _ _ _)
        · exact shotView_endEnrol _ _ _ _ _ _
      · exact shotView_endEnrol _ _ _ _ _ _
    · exact shotView_endEnrol _ _ _ _ _ _
  · rfl

theorem shotView_serviceOn (s : State) (i : SlotId) : (s.serviceOn i).1.shotView = s.shotView := by
  unfold State.serviceOn
  split
  · rfl
  · exact (shotView_handCmd _ _ _).trans (shotView_notifySlot _ _ _ _ _ _)
  · rfl

theorem shotView_arrive (s : State) (req : RequestId) (kind : Byte) (params : List Byte) :
    (s.arrive req kind params).shotView = s.shotView := by
  unfold State.arrive
  split
  · exact shotView_occur _ _
  · split
    · rfl
    · exact shotView_occur _ _

theorem shotView_readImage (s : State) (a : Bool) : (s.readImage a).shotView = s.shotView := by
  have hnotify : ∀ p y pos k z r, ((s.setReading p).notifyImage y pos k z r).shotView = s.shotView := fun _ _ _ _ _ _ =>
    shotView_notify _ _ _
  unfold State.readImage
  split
  · split
    · unfold State.readHeader
      dsimp only
      split
      · exact hnotify _ _ _ _ _ _
      · split
        · exact hnotify _ _ _ _ _ _
        · rfl
    · unfold State.readRecord State.discard
      dsimp only
      split; · exact hnotify _ _ _ _ _ _
      split; · exact hnotify _ _ _ _ _ _
      split; · exact hnotify _ _ _ _ _ _
      split; · exact hnotify _ _ _ _ _ _
      split; · exact hnotify _ _ _ _ _ _
      rfl
    · rfl
  · rfl
  · rfl

theorem shotView_endSave (s : State) (n : Option Nat) : (s.endSave n).shotView = s.shotView := by
  unfold State.endSave
  split
  · exact shotView_replyTo _ _ _ _
  · rfl
  · rfl

theorem shotView_assertReset (s : State) (n : Nat) : (s.assertReset n).shotView = s.shotView := by
  unfold State.assertReset
  cases s.loader <;> rfl

end Sys2Proof.Machine
end

section
/-! What decisions, hunts and takeovers leave of DEAD_TIME (R83, R88, R89), operation by operation. -/

namespace Sys2Proof.Machine

/-- DEAD_TIME is unblocked and within the active profile's shots, but for the shots of one feeder: in the midst of a takeover its new
profile has not been presented to the Reclose Controller (R75). -/
def State.DeadBut (s : State) (x : Option Feeder) : Prop :=
  ∀ f n d, (s.recl f).state = .deadTime n d →
    (s.recl f).reasons.isEmpty = true ∧ (x ≠ some f → ∃ p, s.feederProfile f = some p ∧ n ≤ p.shots)

theorem deadTimeOk_iff (s : State) : s.DeadTimeOk ↔ s.DeadBut none := by
  simp [State.DeadTimeOk, State.DeadBut]

theorem isEmpty_put_false {r : Reasons} (h : r.isEmpty = true) (m : Reason) : (r.put false m).isEmpty = true := by
  cases m <;> simp_all [Reasons.isEmpty, Reasons.put]

theorem afterDecision_ne_deadTime {st st' : RecloseState} (h : st.afterDecision = some st') (n d : Nat) : st' ≠ .deadTime n d := by
  rintro rfl
  unfold RecloseState.afterDecision at h
  split at h <;> cases h

/-- A member added leaves no DEAD_TIME (R88). -/
theorem reasonAdded_ne_deadTime (s : State) (f : Feeder) (n d : Nat) : ((s.reasonAdded f).recl f).state ≠ .deadTime n d := by
  unfold State.reasonAdded
  split
  · rw [recl_goReclose, if_pos rfl]; simp
  · simp [State.markReclose]
  · rename_i hst _; exact hst n d

theorem recl_reasonAdded_ne (s : State) {f g : Feeder} (hg : g ≠ f) : (s.reasonAdded f).recl g = s.recl g := by
  unfold State.reasonAdded
  split
  · rw [recl_goReclose, if_neg hg]
  · exact look_put_ne _ _ hg
  · rfl

namespace State.DeadBut

variable {s : State} {x : Option Feeder}

/-! ### Records and profiles -/

theorem congr {t : State} (h : s.DeadBut x) (ht : t.shotView = s.shotView) : t.DeadBut x := by
  intro f n d hst
  rw [recl_of_shotView ht] at hst ⊢
  rw [feederProfile_of_shotView ht]
  exact h f n d hst

theorem moves {t : State} (h : s.DeadBut x) (ht : Moves Beside s t) : t.DeadBut x := h.congr (shotView_moves ht)

theorem ite {c : Prop} [Decidable c] {a b : State} (ha : a.DeadBut x) (hb : b.DeadBut x) : (if c then a else b).DeadBut x := by
  split <;> assumption

theorem foldl {α : Type} (h : s.DeadBut x) (g : State → α → State) (hg : ∀ t y, t.DeadBut x → (g t y).DeadBut x) (l : List α) :
    (l.foldl g s).DeadBut x :=
  List.foldlRecOn l g (motive := fun t => t.DeadBut x) h fun t ht y _ => hg t y ht

/-- A change of one feeder's record. -/
theorem change {t : State} (h : s.DeadBut x) (f : Feeder) (hp : t.profiles = s.profiles) (hne : ∀ g, g ≠ f → t.recl g = s.recl g)
    (hf : ∀ n d, (t.recl f).state = .deadTime n d →
      (t.recl f).reasons.isEmpty = true ∧ (x ≠ some f → ∃ p, s.feederProfile f = some p ∧ n ≤ p.shots)) : t.DeadBut x := by
  intro g n d hst
  rw [feederProfile_of_profiles hp]
  by_cases hg : g = f
  · subst hg
    exact hf n d hst
  · rw [hne g hg] at hst ⊢
    exact h g n d hst

theorem goReclose (h : s.DeadBut x) (f : Feeder) (st : RecloseState) (y : PermissionFailures)
    (hst : ∀ n d, st = .deadTime n d → (s.recl f).reasons.isEmpty = true ∧ ∃ p, s.feederProfile f = some p ∧ n ≤ p.shots) :
    (s.goReclose f st y).DeadBut x := by
  refine h.change f (notify_profiles _ _ _) (fun g hg => by rw [recl_goReclose, if_neg hg]) fun n d hd => ?_
  rw [recl_goReclose, if_pos rfl] at hd ⊢
  exact (hst n d hd).imp_right fun hp _ => hp

/-- A transition to another state than DEAD_TIME. -/
theorem leave (h : s.DeadBut x) (f : Feeder) {st : RecloseState} (hst : ∀ n d, st ≠ .deadTime n d) (y : PermissionFailures := {}) :
    (s.goReclose f st y).DeadBut x := h.goReclose f st y fun n d he => absurd he (hst n d)

theorem mark (h : s.DeadBut x) (f : Feeder) {st : RecloseState} (hst : ∀ n d, st ≠ .deadTime n d) : (s.markReclose f st).DeadBut x := by
  refine h.change f rfl (fun g hg => look_put_ne _ _ hg) fun n d hd => ?_
  simp only [State.markReclose, State.recl_setRecl_self] at hd
  exact absurd hd (hst n d)

/-- The feeder left out is as the others again once its DEAD_TIME is within the shots. -/
theorem fill {f : Feeder} (h : s.DeadBut (some f))
    (hf : ∀ n d, (s.recl f).state = .deadTime n d → ∃ p, s.feederProfile f = some p ∧ n ≤ p.shots) : s.DeadBut none := by
  intro g n d hst
  refine (h g n d hst).imp_right fun hp _ => ?_
  by_cases hg : g = f
  · subst hg; exact hf n d hst
  · exact hp fun e => hg (Option.some.inj e).symm

/-! ### The reclose state -/

theorem tellDecision (h : s.DeadBut x) (f : Feeder) : (s.tellDecision f).DeadBut x := by
  unfold State.tellDecision
  split
  · exact h
  · rename_i hst; exact h.leave f (afterDecision_ne_deadTime hst)

/-- The one way into DEAD_TIME asks for an empty set and for a shot within the profile's count (R83). -/
theorem tellTripDone (h : s.DeadBut x) (f : Feeder) (c : Causes) : (s.tellTripDone f c).DeadBut x := by
  unfold State.tellTripDone
  split
  · exact h.leave f (by simp)
  · dsimp only
    split
    · rename_i p hperm hp
      obtain ⟨hempty, hshots, _⟩ := (isPermitted_iff hp _ _).1 hperm
      refine h.goReclose f _ _ fun n d hd => ?_
      cases hd
      exact ⟨hempty, p, hp, hshots⟩
    · exact h.leave f (by simp) _
  · exact h

theorem tellTripFailed (h : s.DeadBut x) (f : Feeder) : (s.tellTripFailed f).DeadBut x := by
  unfold State.tellTripFailed
  split
  · exact h.leave f (by simp)
  · exact h

theorem closeCompleted (h : s.DeadBut x) (f : Feeder) (k : Completion) : (s.closeCompleted f k).DeadBut x := by
  unfold State.closeCompleted
  split
  · rename_i mark _
    cases k
    case done => cases mark <;> exact h.leave f (by simp)
    case superseded => exact h
    all_goals exact h.leave f (by simp)
  · exact h

theorem deadExpired (h : s.DeadBut x) (f : Feeder) (n : Nat) : (s.deadExpired f n).DeadBut x := by
  unfold State.deadExpired
  dsimp only
  have hhand := (h.leave f (st := .closing n none) (by simp)).congr
    (shotView_handCmd _ (Feeder.head f) { kind := .close, origin := .reclose, shot := n })
  split
  · exact hhand
  · exact hhand.closeCompleted f _

theorem reclaimExpired (h : s.DeadBut x) (f : Feeder) : (s.reclaimExpired f).DeadBut x := h.leave f (by simp)

theorem externalOpen (h : s.DeadBut x) (f : Feeder) : (s.externalOpen f).DeadBut x := by
  unfold State.externalOpen
  split
  · exact h.leave f (by simp)
  · exact h

theorem operateTold (h : s.DeadBut x) (f : Feeder) (kd : CmdKind) (k : Completion) : (s.operateTold f kd k).DeadBut x := by
  unfold State.operateTold
  split
  · split
    · exact h.leave f (by simp)
    · exact h.leave f (by simp)
    · exact .ite h (h.leave f (by simp))
    · exact h.leave f (by simp)
    · exact h
  · exact h

/-- The Reclose Controller presented with the profile now active leaves no DEAD_TIME beyond its shots (R89). -/
theorem presentReclose {f : Feeder} {p : Profile} (h : s.DeadBut (some f)) (hp : s.feederProfile f = some p) :
    (s.presentReclose f p).DeadBut none := by
  have hgo : ∀ {st}, (∀ n d, st ≠ .deadTime n d) → (s.goReclose f st).DeadBut none := fun {st} hst =>
    (h.leave f hst).fill fun n d hd => by rw [recl_goReclose, if_pos rfl] at hd; exact absurd hd (hst n d)
  have hstay : (∀ n d, (s.recl f).state ≠ .deadTime n d) → s.DeadBut none := fun hst => h.fill fun n d hd => absurd hd (hst n d)
  unfold State.presentReclose
  split
  · rename_i n d hst
    split
    · exact hgo (by simp)
    · rename_i hshots
      refine h.fill fun n' d' hd => ?_
      rw [hst] at hd
      cases hd
      exact ⟨p, hp, Nat.le_of_not_gt hshots⟩
  · rename_i n hst
    split
    · exact (h.mark f (by simp)).fill fun n d hd => by simp [State.markReclose] at hd
    · exact hstay (by simp [hst])
  · rename_i hst
    split
    · exact hgo (by simp)
    · exact hstay (by simp [hst])
  · rename_i hst _ _
    exact hstay hst

/-! ### Block reason sets -/

theorem addReason (h : s.DeadBut x) (f : Feeder) (m : Reason) : (s.addReason f m).DeadBut x := by
  unfold State.addReason
  dsimp only
  split
  · exact h
  · have hadded : ((s.changeReason f m true).reasonAdded f).DeadBut x := by
      refine h.change f ?_ (fun g hg => ?_) fun n d hd => absurd hd (reasonAdded_ne_deadTime _ f n d)
      · rw [(parted_moves (moves_reasonAdded (μ := fun p => p = .reclose) rfl _ f)).map (by simp)]
        exact notify_profiles _ _ _
      · rw [recl_reasonAdded_ne _ hg, recl_changeReason, if_neg hg]
    split
    · exact hadded.congr (foldl_leaves State.shotView _ shotView_blockFollower _ _)
    · exact hadded

theorem removeReason (h : s.DeadBut x) (f : Feeder) (m : Reason) : (s.removeReason f m).DeadBut x := by
  refine h.change f ?_ (fun g hg => by rw [recl_removeReason, if_neg hg]) fun n d hd => ?_
  · unfold State.removeReason
    dsimp only
    split
    · split
      · rw [(parted_moves (moves_foldl _ (moves_releaseFollower (μ := Closing) (.inl rfl) (.inr rfl)) _ _)).map (by simp [Closing])]
        exact notify_profiles _ _ _
      · exact notify_profiles _ _ _
    · rfl
  · rw [recl_removeReason, if_pos rfl] at hd ⊢
    exact (h f n d hd).imp_left fun he => isEmpty_put_false he m

/-! ### The end of a hunt -/

theorem mapCtx (h : s.DeadBut x) (g : HuntContext → HuntContext) : (s.mapCtx g).DeadBut x := h

theorem appendOutcome (h : s.DeadBut x) (v : OutcomeValue) : (s.appendOutcome v).DeadBut x :=
  h.moves (moves_appendOutcome (by simp [Beside]) s v)

theorem handCmd (h : s.DeadBut x) (i : SlotId) (c : Cmd) : (s.handCmd i c).1.DeadBut x := h.congr (shotView_handCmd s i c)

theorem notify (h : s.DeadBut x) (n : Notice) (b : Bool) : (s.notify n b).DeadBut x := h.congr (shotView_notify s n b)

theorem finishHunt (h : s.DeadBut x) (r : HuntResult) (o : Option PointOutcome) : (s.finishHunt r o).DeadBut x :=
  (h.foldl _ (fun _ f ht => ht.removeReason f .hunt) s.ctx.involved).notify _ _

theorem endAbort (h : s.DeadBut x) (o : Option PointOutcome) : (s.endAbort o).DeadBut x := h.finishHunt _ o

theorem abortCloseDone (h : s.DeadBut x) (k : Completion) : (s.abortCloseDone k).DeadBut x := by
  cases k <;> exact (h.mapCtx _).endAbort _

theorem decideRestoration (h : s.DeadBut x) : s.decideRestoration.DeadBut x := by
  unfold State.decideRestoration
  split
  · exact h.endAbort _
  · rename_i i _
    split
    · dsimp only
      split
      · exact (h.mapCtx _).handCmd i _
      · exact ((h.mapCtx _).handCmd i _).abortCloseDone _
    · exact h.endAbort _

theorem settlePoint (h : s.DeadBut x) : s.settlePoint.DeadBut x := by
  unfold State.settlePoint
  split
  · exact h.endAbort _
  · exact h.endAbort _
  · exact h.endAbort _
  · exact h.decideRestoration
  · exact h.decideRestoration
  · exact h

theorem abortHunt (h : s.DeadBut x) (c : AbortCause) : (s.abortHunt c).DeadBut x := by
  unfold State.abortHunt
  dsimp only
  have hout := DeadBut.ite (c := (s.ctx.state == .restoring) = true) h (h.appendOutcome .interrupted)
  split
  · exact hout.mapCtx _
  · exact (hout.mapCtx _).settlePoint

theorem huntCause (h : s.DeadBut x) (c : AbortCause) : (s.huntCause c).DeadBut x := by
  unfold State.huntCause
  exact .ite (h.abortHunt c) (.ite (h.mapCtx _) h)

theorem escalateHunt (h : s.DeadBut x) (f : Feeder) : (s.escalateHunt f).DeadBut x := .ite (h.huntCause _) h

theorem huntStreamLost (h : s.DeadBut x) (e : EntryId) : (s.huntStreamLost e).DeadBut x := .ite (h.huntCause _) h

theorem huntAbortingDone (h : s.DeadBut x) (kd : CmdKind) (k : Completion) : (s.huntAbortingDone kd k).DeadBut x := by
  unfold State.huntAbortingDone
  split
  · exact .ite (h.mapCtx _).settlePoint ((h.mapCtx _).mapCtx _ |>.endAbort _)
  · exact h.abortCloseDone k

theorem huntSuperseded (h : s.DeadBut x) (kd : CmdKind) : (s.huntSuperseded kd).DeadBut x := by
  unfold State.huntSuperseded
  split
  · exact (h.mapCtx _).abortHunt _
  · exact (h.mapCtx _).abortHunt _
  · exact h.huntAbortingDone kd _
  · exact h

/-! ### Trips -/

theorem tripCompleted (h : s.DeadBut x) (f : Feeder) (k : Completion) : (s.tripCompleted f k).DeadBut x := by
  have hclose : ∀ l o, (s.closeLatch f l o).DeadBut x := fun l o => h.moves (moves_closeLatch (by simp [Beside]) s f l o)
  have htold : ∀ (t : State) l o, t.DeadBut x → (t.notifyTrip f l o).DeadBut x := fun t l o ht => ht.moves (moves_notifyTrip t f l o)
  unfold State.tripCompleted
  split
  · exact h
  · rename_i l _
    split
    · refine htold _ l _ (tellTripDone ?_ f l.causes)
      exact hclose l .opened
    · exact htold _ l _ ((hclose l _).tellTripFailed f)

theorem operateCompleted (h : s.DeadBut x) (n : Nat) (i : SlotId) (kd : CmdKind) (k : Completion) :
    (s.operateCompleted n i kd k).DeadBut x :=
  (DeadBut.ite (h.operateTold _ kd k) h).congr (shotView_replyTo _ _ _ _)

theorem supersededSwitch (h : s.DeadBut x) (d : Delivery) : (s.supersededSwitch d).DeadBut x := by
  unfold State.supersededSwitch
  split
  · exact h.closeCompleted _ _
  · exact h.huntSuperseded _
  · exact h.operateCompleted _ _ _ _
  · exact h
  · exact h

theorem handTrip (h : s.DeadBut x) (f : Feeder) : (s.handTrip f).1.DeadBut x :=
  (h.handCmd _ _).foldl _ (fun _ d ht => ht.supersededSwitch d) _

theorem tripDecision (h : s.DeadBut x) (f : Feeder) (c : Causes) : (s.tripDecision f c).DeadBut x := by
  have hlatch : (s.setLatch f c).DeadBut x := h.moves (moves_setLatch (by simp [Beside]) s f c)
  unfold State.tripDecision
  dsimp only
  split
  · exact ((hlatch.handTrip f).tellDecision f).escalateHunt f
  · exact (((hlatch.handTrip f).tellDecision f).escalateHunt f).tripCompleted f _

theorem operation (h : s.DeadBut x) (f : Feeder) (c : Causes) : (s.operation f c).DeadBut x := by
  unfold State.operation
  split
  · exact h
  all_goals
    split
    · exact h.tripDecision f c
    · exact h.moves (moves_addCauses (by simp [Beside]) _ _ _ _)

/-! ### Hunts -/

theorem conclude (h : s.DeadBut x) (r : HuntResult) : (s.conclude r).DeadBut x := by
  unfold State.conclude
  dsimp only
  split
  · exact ((h.mapCtx _).operation _ _).finishHunt _ _
  · exact (h.mapCtx _).finishHunt _ _

theorem openPointAt (h : s.DeadBut x) (i : SlotId) : (s.openPointAt i).1.DeadBut x := (h.mapCtx _).handCmd i _

theorem openDone (h : s.DeadBut x) : s.openDone.DeadBut x := h.moves (moves_openDone (by simp [Beside]) s)

theorem openFailed (h : s.DeadBut x) : s.openFailed.DeadBut x := (h.mapCtx _).appendOutcome _

theorem feederSteps (h : s.DeadBut x) (f : Feeder) (l : List PlanStep) (k : Nat) : (State.feederSteps f l k s).DeadBut x := by
  induction l generalizing k s with
  | nil => exact h.conclude _
  | cons y rest ih =>
    unfold State.feederSteps
    dsimp only
    have hstep := h.mapCtx fun c => { c with planIndex := some k }
    split
    · exact ih (hstep.appendOutcome _) _
    · split
      · exact ih (hstep.appendOutcome _) _
      · split
        · exact hstep.openPointAt _
        · exact (hstep.openPointAt _).openDone
        · exact ih (hstep.openPointAt _).openFailed _

theorem busSteps (h : s.DeadBut x) (l : List Feeder) (k : Nat) : (State.busSteps l k s).DeadBut x := by
  induction l generalizing k s with
  | nil => exact h.conclude _
  | cons y rest ih =>
    unfold State.busSteps
    dsimp only
    have hstep := h.mapCtx fun c => { c with busIndex := some k }
    split
    · exact ih (hstep.appendOutcome _) _
    · split
      · exact hstep.openPointAt _
      · exact (hstep.openPointAt _).openDone
      · exact ih (hstep.openPointAt _).openFailed _

theorem nextStep (h : s.DeadBut x) : s.nextStep.DeadBut x := by
  unfold State.nextStep
  split
  · exact h.feederSteps _ _ _
  · exact h.busSteps _ _
  · exact h

theorem chain (h : s.DeadBut x) (f : Feeder) : (s.chain f).DeadBut x := by
  unfold State.chain
  split
  · exact h.conclude _
  · exact (h.mapCtx _).feederSteps _ _ _

theorem restored (h : s.DeadBut x) : s.restored.DeadBut x := by
  unfold State.restored
  dsimp only
  split
  · split
    · exact (h.mapCtx _).chain _
    · exact (h.mapCtx _).nextStep
  · exact (h.mapCtx _).nextStep

theorem closeInRestoring (h : s.DeadBut x) (k : Completion) : (s.closeInRestoring k).DeadBut x := by
  cases k
  case done => exact h.restored
  case superseded => exact h.huntSuperseded _
  all_goals exact (h.mapCtx _).abortHunt _

theorem restore (h : s.DeadBut x) : s.restore.DeadBut x := by
  unfold State.restore
  split
  · exact h
  · rename_i i _
    dsimp only
    split
    · exact (h.mapCtx _).handCmd i _
    · exact ((h.mapCtx _).handCmd i _).closeInRestoring _

theorem huntCompleted (h : s.DeadBut x) (kd : CmdKind) (k : Completion) : (s.huntCompleted kd k).DeadBut x := by
  unfold State.huntCompleted
  split
  · cases k
    case done => exact h.openDone
    case superseded => exact h.huntSuperseded kd
    all_goals exact h.openFailed.nextStep
  · exact h.closeInRestoring k
  · exact h.huntAbortingDone kd k
  all_goals exact h

theorem settleExpired (h : s.DeadBut x) (t : Nat) : (s.settleExpired t).DeadBut x := by
  unfold State.settleExpired
  dsimp only
  split
  · split
    · exact ((h.mapCtx _).appendOutcome _).conclude _
    · exact ((h.mapCtx _).appendOutcome _).restore
  · exact ((h.mapCtx _).appendOutcome _).restore

theorem startHunt (h : s.DeadBut x) (e : EntryId) (o : HuntOrigin) : (s.startHunt e o).DeadBut x := by
  unfold State.startHunt
  dsimp only
  have hblocked : ∀ (l : List Feeder) (t : State), t.DeadBut x → (l.foldl (fun s f => s.addReason f .hunt) t).DeadBut x :=
    fun l _ ht => ht.foldl _ (fun _ f hu => hu.addReason f .hunt) l
  split
  · refine feederSteps (hblocked _ _ ?_) _ _ _
    exact h
  · refine busSteps (hblocked _ _ ?_) _ _
    exact h

theorem serveFrom (h : s.DeadBut x) (l : List EntryId) : (State.serveFrom l s).DeadBut x := by
  induction l generalizing s with
  | nil => exact h
  | cons e rest ih =>
    have hrest : (s.setHuntList rest).DeadBut x := h
    exact .ite (hrest.startHunt e _) (ih hrest)

theorem servePendingHunts (h : s.DeadBut x) : s.servePendingHunts.DeadBut x := .ite (h.serveFrom _) h

theorem offerTrigger (h : s.DeadBut x) (e : EntryId) : (s.offerTrigger e).DeadBut x :=
  h.moves (moves_offerTrigger (by simp [Beside]) s e)

theorem triggerArrives (h : s.DeadBut x) (e : EntryId) : (s.triggerArrives e).DeadBut x :=
  .ite h (h.offerTrigger e).servePendingHunts

theorem presentHunt (h : s.DeadBut x) (f : Feeder) (p : Profile) : (s.presentHunt f p).DeadBut x := .ite (h.huntCause _) h

/-! ### Elements -/

theorem sefOperate (h : s.DeadBut x) (f : Feeder) (p : Profile) : (s.sefOperate f p).DeadBut x := by
  have hsef : (s.notifySef f p).DeadBut x := h.moves (moves_notifySef s f p)
  unfold State.sefOperate
  dsimp only
  split
  · exact hsef
  · exact hsef.triggerArrives _
  · exact .ite (hsef.addReason f .sefLock) hsef

theorem operateIf (h : s.DeadBut x) (f : Feeder) (c : Causes) : (s.operateIf f c).DeadBut x := .ite h (h.operation f c)

theorem sefReport (h : s.DeadBut x) (f : Feeder) : (s.sefReport f).DeadBut x := h.moves (moves_sefReport (by simp [Beside]) s f)

theorem evaluate (h : s.DeadBut x) (f : Feeder) (m : FeederMeasurement) : (s.evaluate f m).DeadBut x := by
  unfold State.evaluate
  split
  · exact h
  · exact h
  · rename_i p _ _
    have hset : (s.setElement f (stepElements s f p m (s.element f)).1).DeadBut x := h
    exact ((DeadBut.ite (hset.sefOperate f p) hset).operateIf f _).sefReport f

theorem presentElements (h : s.DeadBut x) (f : Feeder) (p : Profile) : (s.presentElements f p).DeadBut x := by
  unfold State.presentElements
  split
  · exact h
  all_goals
    have hset : ∀ r, (s.setElement f r).DeadBut x := fun _ => h
    exact (DeadBut.ite ((hset _).sefOperate f p) (hset _)).operateIf f _

/-! ### Takeovers -/

theorem agreeFire (h : s.DeadBut x) (f : Feeder) (p : Profile) : (s.agreeFire f p).DeadBut x :=
  .ite (h.addReason f .fire) (h.removeReason f .fire)

end State.DeadBut

end Sys2Proof.Machine
end

section
/-! DEAD_TIME through takeovers, streams, answers, loads and requests, and so through every step (R83, R88, R89). -/

namespace Sys2Proof.Machine

theorem entry_of_feeder? {e : EntryId} {f : Feeder} (h : EntryId.feeder? e = some f) : e = Feeder.entry f := by
  unfold EntryId.feeder? at h
  split at h
  · cases h; rfl
  · cases h

/-- The profile a map entry brings into force on its feeder. -/
theorem feederProfile_setEntry {s : State} {f : Feeder} {k : BankSlot} {p : Profile} (hk : s.profile k = some p) :
    (s.setEntry (Feeder.entry f) ⟨some k, none⟩).feederProfile f = some p := by
  have hp : (s.setEntry (Feeder.entry f) ⟨some k, none⟩).profile k = some p := hk
  simp [State.feederProfile, State.active, hp]

/-- What a takeover may change until the Reclose Controller is presented with the profile, the slot made active. -/
theorem profiles_presentElements (s : State) (f : Feeder) (p : Profile) : (s.presentElements f p).profiles = s.profiles :=
  (parted_moves (moves_presentElements (μ := fun q => q ≠ .map) ⟨by simp, by simp, by simp, by simp, by simp⟩ s f p)).map (by simp)

theorem profiles_agreeFire (s : State) (f : Feeder) (p : Profile) : (s.agreeFire f p).profiles = s.profiles :=
  (parted_moves (moves_agreeFire (μ := Closing) (.inl rfl) (.inr rfl) s f p)).map (by simp [Closing])

namespace State.DeadBut

variable {s : State}

/-! ### Takeovers -/

/-- A map entry that changes puts the shots of its own feeder in question. -/
theorem setEntry (h : s.DeadBut none) (e : EntryId) (m : MapEntry) : (s.setEntry e m).DeadBut (EntryId.feeder? e) := by
  intro f n d hst
  refine (h f n d hst).imp_right fun hp hne => ?_
  have hentry : (s.setEntry e m).entry (Feeder.entry f) = s.entry (Feeder.entry f) :=
    look_put_ne _ _ fun he => hne (he ▸ feeder?_entry f)
  rw [feederProfile_congr (s := s) (t := s.setEntry e m) rfl hentry]
  exact hp (by simp)

/-- An entry whose active slot stays changes no profile in force. -/
theorem setPending (h : s.DeadBut none) (e : EntryId) {m : MapEntry} (hm : m.active = (s.entry e).active) :
    (s.setEntry e m).DeadBut none := by
  have hprofile : ∀ f, (s.setEntry e m).feederProfile f = s.feederProfile f := by
    intro f
    have hactive : ((s.setEntry e m).entry (Feeder.entry f)).active = (s.entry (Feeder.entry f)).active := by
      rw [State.entry_setEntry]
      split
      · rename_i he; rw [hm, he]
      · rfl
    simp only [State.feederProfile, State.active, hactive]
    rfl
  intro f n d hst
  rw [hprofile]
  exact h f n d hst

theorem takeover (h : s.DeadBut none) (e : EntryId) (k : BankSlot) (o : TakeoverOrigin) : (s.takeover e k o).DeadBut none := by
  unfold State.takeover
  split
  · exact h
  · rename_i p hk
    have hset := h.setEntry e ⟨some k, none⟩
    unfold State.activate State.present
    cases hf : EntryId.feeder? e with
    | none =>
      rw [hf] at hset
      exact (hset.notify _ _).moves (moves_formThreshold (by simp [Beside]) _)
    | some f =>
      rw [hf] at hset
      obtain rfl := entry_of_feeder? hf
      refine DeadBut.presentHunt (DeadBut.presentReclose (((hset.agreeFire f p).notify _ _).presentElements f p) ?_) f p
      rw [feederProfile_of_profiles (profiles_presentElements _ f p), feederProfile_of_profiles (notify_profiles _ _ _),
        feederProfile_of_profiles (profiles_agreeFire _ f p), feederProfile_setEntry hk]

theorem takeoverPending (h : s.DeadBut none) (e : EntryId) : (s.takeoverPending e).DeadBut none := by
  unfold State.takeoverPending
  split
  · exact h
  · exact h.takeover _ _ _

theorem settleRounds (h : s.DeadBut none) (n : Nat) : (State.settleRounds n s).DeadBut none := by
  induction n generalizing s with
  | zero => exact h
  | succ n ih =>
    unfold State.settleRounds
    split
    · exact ih (h.takeoverPending _)
    · exact .ite (ih h.servePendingHunts) h

theorem settle (h : s.DeadBut none) : s.settle.DeadBut none := h.settleRounds 28

theorem finish (h : s.DeadBut none) (s0 : State) : (State.finish s0 s).DeadBut none := h.congr (shotView_finish s0 s)

theorem conclude72 (h : s.DeadBut none) (s0 : State) : (State.conclude72 s0 s).DeadBut none := h.settle.finish s0

theorem selectEntry (h : s.DeadBut none) (k : BankSlot) (e : EntryId) : (s.selectEntry k e).1.DeadBut none := by
  unfold State.selectEntry
  split
  · exact h.takeover _ _ _
  · rename_i a ha
    split
    · exact h.setPending e ha.symm
    · split
      · exact h.takeover _ _ _
      · exact h.setPending e ha.symm

theorem selectAll (h : s.DeadBut none) (k : BankSlot) (es : List EntryId) : (State.selectAll k es s).1.DeadBut none := by
  induction es generalizing s with
  | nil => exact h
  | cons e rest ih => exact ih (h.selectEntry k e)

theorem imageTakeover (h : s.DeadBut none) (e : EntryId) (r : Option BankSlot) : (s.imageTakeover e r).DeadBut none := by
  unfold State.imageTakeover
  split
  · exact h
  · split
    · exact h
    · exact .ite h (h.takeover _ _ _)

/-! ### Streams -/

theorem checkFull (h : s.DeadBut none) (e : EntryId) : (s.checkFull e).DeadBut none := by
  unfold State.checkFull
  dsimp only
  split
  · have hmoved := h.congr (shotView_moveStream s e { s.stream e with state := .live } .full)
    split
    · exact hmoved.removeReason _ _
    · exact hmoved
  · exact h

theorem evaluateSet (h : s.DeadBut none) (e : EntryId) (q : U16) : (s.evaluateSet e q).DeadBut none := by
  have hsettle : ∀ t : State, t.DeadBut none → (t.settleOnSet e).DeadBut none := fun t ht =>
    ht.moves (moves_settleOnSet (by simp [Beside]) t e)
  unfold State.evaluateSet
  dsimp only
  split
  · refine hsettle _ (evaluate ?_ _ _)
    exact h
  · refine hsettle _ (congr ?_ (shotView_evaluateBus _ _))
    exact h

theorem takeSet (h : s.DeadBut none) (e : EntryId) (y : SampleSet) : (s.takeSet e y).DeadBut none := by
  unfold State.takeSet
  dsimp only
  have hfull := (h.congr (shotView_moveStream s e { s.stream e with
    state := (if (s.stream e).state == .lost then .filling else (s.stream e).state), window := pushSet (s.stream e).window y
    lastSeq := some y.seq, expiry := (s.stream e).restarted s.time } .resumed)).checkFull e
  exact .ite (hfull.evaluateSet e _) hfull

theorem holdRepeat (h : s.DeadBut none) (e : EntryId) : (s.holdRepeat e).DeadBut none := by
  unfold State.holdRepeat
  dsimp only
  split
  · refine checkFull ?_ e
    exact h
  · exact h

theorem takeFrame (h : s.DeadBut none) (e : EntryId) (y : SampleFrame) : (s.takeFrame e y).DeadBut none := by
  unfold State.takeFrame
  split
  · exact h.congr (shotView_occur _ _)
  · exact h
  · exact h.takeSet e _
  · exact h.takeSet e _
  · exact (h.holdRepeat e).takeSet e _
  · exact h.congr (shotView_refill _ _ _)

theorem takeSample (h : s.DeadBut none) (y : SampleFrame) : (s.takeSample y).DeadBut none := by
  unfold State.takeSample
  split
  · exact h.congr (shotView_occur _ _)
  · exact h.takeFrame _ y

theorem lossAction (h : s.DeadBut none) (f : Feeder) : (s.lossAction f).DeadBut none :=
  .ite ((h.addReason f _).operation f _) (h.addReason f _)

theorem loseStream (h : s.DeadBut none) (e : EntryId) : (s.loseStream e).DeadBut none := by
  unfold State.loseStream
  dsimp only
  have hlost := ((h.congr (shotView_moveStream s e { s.stream e with state := .lost, window := [], lastSeq := none, expiry := none }
    .silence)).congr (shotView_holdElements _ e)).huntStreamLost e
  split
  · exact hlost.lossAction _
  · exact hlost

theorem ndExpired (h : s.DeadBut none) : s.ndExpired.DeadBut none := by
  unfold State.ndExpired
  dsimp only
  have hset : (s.setNd { s.bank.nd with timer := .stopped, operated := true }).DeadBut none := h
  have htold := fun n b => (DeadBut.ite (c := ((s.setNd { s.bank.nd with timer := .stopped, operated := true }).ndResult
    == .huntPlaced) = true) (hset.offerTrigger busEntry) hset).notify n b
  exact .ite (htold _ _).servePendingHunts (htold _ _)

/-! ### Answers -/

theorem deliver (h : s.DeadBut none) (d : Delivery) : (s.deliver d).DeadBut none := by
  unfold State.deliver
  split
  · exact h.tripCompleted _ _
  · split
    · exact h.closeCompleted _ _
    · exact h.congr (shotView_blockingCompleted _ _)
  · exact h.huntCompleted _ _
  · exact h.operateCompleted _ _ _ _
  · exact h.congr (shotView_enrolCompleted _ _)

theorem deliverAll (h : s.DeadBut none) (ds : List Delivery) : (s.deliverAll ds).DeadBut none :=
  h.foldl _ (fun _ d ht => ht.deliver d) ds

theorem setSlot (h : s.DeadBut none) (i : SlotId) (o : Outstation) : (s.setSlot i o).DeadBut none := h

theorem notifySlot (h : s.DeadBut none) (i : SlotId) (prev : SlotState) (y : OutReason) : (s.notifySlot i prev y).DeadBut none :=
  h.congr (shotView_notifySlot _ _ _ _ _ _)

theorem reach (h : s.DeadBut none) (i : SlotId) : (s.reach i).DeadBut none := h.congr (shotView_reach s i)

theorem answered (h : s.DeadBut none) (i : SlotId) (fl : InFlight) (k : Completion) : (s.answered i fl k).DeadBut none := by
  have hreach := (h.setSlot i { (s.slot i).landed s.time with failures := 0 }).reach i
  exact (DeadBut.ite (hreach.congr (shotView_switched _ i fl.cmd.kind)) hreach).deliverAll _

theorem waited (h : s.DeadBut none) (i : SlotId) (fl : InFlight) (w : U16) : (s.waited i fl w).DeadBut none :=
  .ite ((h.setSlot i _).reach i) (((h.setSlot i _).reach i).deliverAll _)

theorem takeResponse (h : s.DeadBut none) (src : U16) (tag : Byte) (a : AnswerKind) (v : U16) :
    (s.takeResponse src tag a v).DeadBut none := by
  unfold State.takeResponse
  split
  · exact h.congr (shotView_occur _ _)
  · split
    · exact h.congr (shotView_occur _ _)
    · split
      · split
        · exact h.answered _ _ _
        · exact h.answered _ _ _
        · exact h.waited _ _ _
      · exact h.congr (shotView_occur _ _)

theorem becomeUnreachable (h : s.DeadBut none) (i : SlotId) : (s.becomeUnreachable i).DeadBut none :=
  ((h.setSlot i _).notifySlot i _ _).deliverAll _

theorem timedOut (h : s.DeadBut none) (i : SlotId) (fl : InFlight) : (s.timedOut i fl).DeadBut none := by
  have hover := (h.setSlot i { (s.slot i).landed s.time with expiredTag := some fl.tag }).deliverAll (deliveries i fl.cmd .timeout)
  exact .ite (.ite (hover.setSlot i _) (hover.becomeUnreachable i)) hover

theorem filterReport (h : s.DeadBut none) (i : SlotId) (b : Bool) : (s.filterReport i b).DeadBut none := by
  unfold State.filterReport
  dsimp only
  split
  · exact h
  · exact .ite h (.ite (((h.setSlot i _).notifySlot i _ _).externalOpen _) ((h.setSlot i _).notifySlot i _ _))

theorem handleReport (h : s.DeadBut none) (i : SlotId) (p : ReportPosition) (b : Byte) : (s.handleReport i p b).DeadBut none := by
  have hflags := h.congr (shotView_takeFlags s i b)
  unfold State.handleReport
  dsimp only
  refine .ite hflags ?_
  split
  · exact hflags
  · exact hflags.filterReport i _
  · exact hflags.filterReport i _

theorem takeReport (h : s.DeadBut none) (src : U16) (p : ReportPosition) (b : Byte) : (s.takeReport src p b).DeadBut none := by
  unfold State.takeReport
  split
  · exact h.congr (shotView_occur _ _)
  · split
    · exact (h.reach _).handleReport _ p b
    · exact (h.reach _).handleReport _ p b
    all_goals exact h

/-! ### Loads -/

/-- A slot that is not in use governs no feeder (R66). -/
theorem setProfile (h : s.DeadBut none) {k : BankSlot} (hk : s.slotInUse k = false) (p : Option Profile) :
    (s.setProfile k p).DeadBut none := by
  have hprofile : ∀ f, (s.setProfile k p).feederProfile f = s.feederProfile f := by
    intro f
    have hentry : (s.setProfile k p).entry (Feeder.entry f) = s.entry (Feeder.entry f) := rfl
    simp only [State.feederProfile, State.active, hentry]
    cases ha : (s.entry (Feeder.entry f)).active with
    | none => rfl
    | some a =>
      have hne : a ≠ k := by
        rintro rfl
        rw [slotInUse_of (.inl ha)] at hk
        cases hk
      have hsame : (s.setProfile k p).profile a = s.profile a := look_put_ne _ _ hne
      dsimp only
      rw [hsame]
  intro f n d hst
  rw [hprofile]
  exact h f n d hst

theorem loadProfileAt (h : s.DeadBut none) (k : BankSlot) (r : List Byte) : (s.loadProfileAt k r).1.DeadBut none := by
  unfold State.loadProfileAt
  split
  · exact h
  · rename_i hk
    have hk : s.slotInUse k = false := by simpa using hk
    split
    · exact h.setProfile hk _
    · split
      · exact h
      · split
        · exact h
        · exact h.setProfile hk _

theorem loadFeederAt (h : s.DeadBut none) (f : Feeder) (r : List Byte) : (s.loadFeederAt f r).1.DeadBut none := by
  unfold State.loadFeederAt
  split; · exact h
  split; · exact h.congr (shotView_removeStream s _)
  split; · exact h
  split; · exact h
  exact h.congr (shotView_configureStream s _ _)

theorem loadBusAt (h : s.DeadBut none) (r : List Byte) : (s.loadBusAt r).1.DeadBut none := by
  unfold State.loadBusAt
  split; · exact h
  split; · exact h.congr (shotView_removeBus s)
  split; · exact h
  split; · exact h
  exact h.congr (shotView_configureStream s _ _)

theorem loadSlotAt (h : s.DeadBut none) (i : SlotId) (r : List Byte) : (s.loadSlotAt i r).1.DeadBut none := by
  unfold State.loadSlotAt
  dsimp only
  split; · exact h
  split; · exact h.congr ((shotView_moveFollower _ _ _ _ _).trans (shotView_placeSlot s i _))
  split; · exact h
  split; · exact h
  exact h.congr (shotView_placeSlot s i _)

theorem loadCurveAt (h : s.DeadBut none) (k : BankSlot) (r : List Byte) : (s.loadCurveAt k r).1.DeadBut none := by
  unfold State.loadCurveAt
  split; · exact h
  split; · exact h.congr rfl
  split; · exact h
  exact h.congr rfl

theorem loadPlanAt (h : s.DeadBut none) (f : Feeder) (r : List Byte) : (s.loadPlanAt f r).1.DeadBut none := by
  unfold State.loadPlanAt
  split; · exact h
  split; · exact h
  split <;> exact h

theorem loadOrderAt (h : s.DeadBut none) (r : List Byte) : (s.loadOrderAt r).1.DeadBut none := by
  unfold State.loadOrderAt
  split; · exact h
  split <;> exact h

theorem loadLinkAt (h : s.DeadBut none) (r : List Byte) : (s.loadLinkAt r).1.DeadBut none := by
  unfold State.loadLinkAt
  split; · exact h
  split; · exact h
  exact h.congr (shotView_placeLink s _)

theorem loadWithin (h : s.DeadBut none) (n : Nat) (y : Byte) (g : Fin n → State × Result) (hg : ∀ i, (g i).1.DeadBut none) :
    (Machine.loadWithin n s y g).1.DeadBut none := by
  unfold Machine.loadWithin
  split
  · exact h
  · exact hg _

theorem applyLoad (h : s.DeadBut none) (table : Nat) (index : Byte) (r : List Byte) :
    (s.applyLoad table index r).1.DeadBut none := by
  unfold State.applyLoad State.ownerLoad
  split
  · split
    · exact h.loadWithin _ _ _ fun f => h.loadFeederAt f r
    · exact h.loadWithin _ _ _ fun _ => h.loadBusAt r
    · exact h.loadWithin _ _ _ fun i => h.loadSlotAt i r
    · exact h.loadWithin _ _ _ fun k => h.loadProfileAt k r
    · exact h.loadWithin _ _ _ fun k => h.loadCurveAt k r
    · exact h.loadWithin _ _ _ fun f => h.loadPlanAt f r
    · exact h.loadWithin _ _ _ fun _ => h.loadOrderAt r
    · exact h.loadWithin _ _ _ fun _ => h.loadLinkAt r
    · exact h
  · exact h

/-! ### Service, modes and the Image Loader -/

theorem serviceOff (h : s.DeadBut none) (i : SlotId) : (s.serviceOff i).1.DeadBut none := by
  have hleft : (s.leaveService i).DeadBut none :=
    (((h.setSlot i _).notifySlot i _ _).congr (shotView_moveFollower _ i _ _ _)).deliverAll _
  unfold State.serviceOff
  dsimp only
  split
  · exact h
  · exact h
  all_goals
    split; · exact h
    split; · exact h
    split; · exact h
    exact hleft

theorem changeMode (h : s.DeadBut none) (f : Feeder) (m : Mode) : (s.changeMode f m).DeadBut none := by
  have hmode : (s.setMode f m).DeadBut none := h
  unfold State.changeMode
  dsimp only
  split
  · unfold State.recloseOff
    split
    · exact hmode
    · refine leave ?_ f (by simp)
      exact h
  · refine leave hmode f ?_
    split <;> simp
  · exact hmode

theorem setModeRequest (h : s.DeadBut none) (f : Feeder) (m : Mode) : (s.setModeRequest f m).1.DeadBut none := by
  unfold State.setModeRequest
  split; · exact h
  split; · exact h
  split; · exact h
  exact h.changeMode f m

theorem resetLockout (h : s.DeadBut none) (f : Feeder) : (s.resetLockout f).1.DeadBut none := by
  unfold State.resetLockout
  split
  · split
    · exact (h.removeReason f .sefLock).leave f (by simp)
    · exact h
  · exact h.removeReason f .sefLock
  · exact h.removeReason f .sefLock
  · exact h.removeReason f .sefLock
  all_goals exact h

theorem applyKept (h : s.DeadBut none) (kept : List KeptRecord) : (s.applyKept kept).1.1.DeadBut none := by
  have htables : ∀ l : List KeptRecord, (l.foldl applyRecord (s, 0)).1.DeadBut none := fun l => by
    refine List.foldlRecOn l applyRecord (motive := fun a : Applied => a.1.DeadBut none) h fun a ha y _ => ?_
    have hload := ha.applyLoad y.kind.toNat y.index y.contents
    unfold applyRecord
    dsimp only
    split
    · exact hload
    · exact hload.notify _ _
  refine List.foldlRecOn (recordsOf 9 kept) takeStateRecord (motive := fun a : Applied × Wishes => a.1.1.DeadBut none)
    (htables _) fun a ha y _ => ?_
  unfold takeStateRecord
  split
  · exact ha
  · exact ha.notify _ _

theorem wishSlot (h : s.DeadBut none) (w : Wishes) (i : SlotId) : (State.wishSlot w s i).DeadBut none :=
  .ite (h.congr (shotView_serviceOn s i)) h

theorem wishMode (h : s.DeadBut none) (w : Wishes) (f : Feeder) : (State.wishMode w s f).DeadBut none := .ite (h.changeMode f _) h

theorem restoreWishes (h : s.DeadBut none) (w : Wishes) : (s.restoreWishes w).DeadBut none := by
  have hslots := h.foldl (State.wishSlot w) (fun _ i ht => ht.wishSlot w i) allSlots
  have hentries := hslots.foldl (fun s e => s.imageTakeover e (w.entry e)) (fun _ e ht => ht.imageTakeover e _) entries
  exact hentries.foldl (State.wishMode w) (fun _ f ht => ht.wishMode w f) feeders

theorem startUp (h : s.DeadBut none) (p : Reading) : (s.startUp p).DeadBut none := by
  have hwished := (h.applyKept p.kept).restoreWishes (s.applyKept p.kept).2
  unfold State.startUp
  dsimp only
  generalize (s.applyKept p.kept).1.1.restoreWishes (s.applyKept p.kept).2 = u at hwished ⊢
  have hready : ((u.setOutputs { u.outputs with engineOk := true }).refreshOutputs).DeadBut none := hwished
  have htold := fun n b => hready.notify n b
  exact (htold _ _).congr rfl

/-- The reclose records of a reset machine are all OFF (R79, R173). -/
theorem of_reset {t : State} (ht : t.reclose = State.reset.reclose) : t.DeadBut none := by
  intro f n d hst
  have hreset : t.recl f = RecloseRecord.reset := by rw [State.recl, ht]; exact look_replicate _ _
  rw [hreset] at hst
  cases hst

theorem endTransmission (h : s.DeadBut none) : s.endTransmission.DeadBut none := by
  have hview : ∀ fr, ((s.frameLeft fr).beginTx).shotView = s.shotView := by
    intro fr
    obtain ⟨l, hl, _⟩ := beginTx_link (s.frameLeft fr)
    rw [hl]
    cases fr <;> rfl
  unfold State.endTransmission
  split
  · exact h
  · exact .ite (of_reset rfl) (.ite (h.congr ((shotView_feedNotice _).trans (hview _))) (h.congr (hview _)))

theorem receive (h : s.DeadBut none) (y : RawFrame) : (s.receive y).DeadBut none := by
  unfold State.receive
  split
  · exact h.congr (shotView_occur _ _)
  · exact h
  · unfold State.dispatch
    split
    · exact h.takeSample _
    · exact h.takeReport _ _ _
    · exact h.takeResponse _ _ _ _
    · exact h.congr (shotView_arrive _ _ _ _)

end State.DeadBut

/-! ### Requests -/

/-- An owner keeps DEAD_TIME unblocked and within its shots. -/
def KeepsDeadTime (owner : Nat → State → Served) : Prop := ∀ k t, State.DeadBut t none → (owner k t).1.DeadBut none

variable {s : State}

theorem deadBut_requestEvent (h : s.DeadBut none) (req : RequestId) (k : Byte) (p : List Byte) (b : Bool) {owner : Nat → State → Served}
    (ho : KeepsDeadTime owner) : (s.requestEvent req k p b owner).DeadBut none := by
  have hentry : ∀ (t : State) n, t.DeadBut none → (State.serveEntry s t n b owner).DeadBut none := by
    intro t n ht
    unfold State.serveEntry State.giveReply
    dsimp only
    have hsettled := State.DeadBut.ite (c := b = true) (ho n t ht).settle (ho n t ht)
    split
    · exact (hsettled.congr (shotView_replyTo _ _ _ _)).finish s
    · exact hsettled.finish s
  have hserve : ∀ t : State, t.DeadBut none → (State.serveIfOldest s t req k p b owner).DeadBut none := by
    intro t ht
    unfold State.serveIfOldest
    split
    · exact ht
    · exact .ite (hentry t _ ht) ht
  have harrived := h.congr (shotView_arrive s req k p)
  exact .ite h (.ite (hserve s h) (.ite harrived (hserve _ harrived)))

theorem keepsDeadTime_withFeeder (b : Byte) {g : State → Feeder → Served} (hg : ∀ t f, State.DeadBut t none → (g t f).1.DeadBut none) :
    KeepsDeadTime fun _ t => withFeeder t b (g t) := by
  intro _ t ht
  dsimp only
  unfold withFeeder
  split
  · exact ht
  · exact hg t _ ht

theorem keepsDeadTime_withSlot (b : Byte) {g : Nat → State → SlotId → Served}
    (hg : ∀ n t i, State.DeadBut t none → (g n t i).1.DeadBut none) : KeepsDeadTime fun n t => withSlot t b (g n t) := by
  intro n t ht
  dsimp only
  unfold withSlot
  split
  · exact ht
  · exact hg n t _ ht

theorem keepsDeadTime_load (table : Nat) (index : Byte) (r : List Byte) : KeepsDeadTime (serveLoad table index r) := by
  intro _ t ht
  unfold serveLoad
  split
  · exact ht
  · exact ht.applyLoad _ _ _

theorem keepsDeadTime_read (a b : Byte) : KeepsDeadTime (serveRead a b) := by
  intro _ t ht
  unfold serveRead
  split <;> exact ht

theorem keepsDeadTime_select (a : Byte) (w : U16) : KeepsDeadTime (serveSelect a w) := by
  intro _ t ht
  unfold serveSelect
  dsimp only
  split
  · exact ht
  · exact ht.selectAll _ _

theorem keepsDeadTime_block (add : Bool) (a b : Byte) : KeepsDeadTime (serveBlock add a b) := by
  refine keepsDeadTime_withFeeder a fun t f ht => ?_
  split
  · exact ht
  · split
    · exact .ite (ht.addReason f _) (ht.removeReason f _)
    · exact ht

theorem keepsDeadTime_mode (a b : Byte) : KeepsDeadTime (serveMode a b) := by
  refine keepsDeadTime_withFeeder a fun t f ht => ?_
  split
  · exact ht
  · exact ht.setModeRequest f _

theorem keepsDeadTime_operate (k : CmdKind) (a : Byte) : KeepsDeadTime (serveOperate k a) := by
  refine keepsDeadTime_withSlot a fun n t i ht => ?_
  split
  · exact ht
  · dsimp only
    split
    · exact ht.handCmd i _
    · exact ht.handCmd i _

theorem keepsDeadTime_startHunt (a : Byte) : KeepsDeadTime (serveStartHunt a) := by
  intro _ t ht
  unfold serveStartHunt
  split
  · exact ht
  · split
    · exact ht
    · exact ht.startHunt _ _

theorem keepsDeadTime_abortHunt : KeepsDeadTime serveAbortHunt := by
  intro _ t ht
  unfold serveAbortHunt State.abortRequest
  split
  · exact ht
  · exact ht.huntCause _

theorem keepsDeadTime_save : KeepsDeadTime serveSave := by
  intro _ t ht
  unfold serveSave
  split <;> exact ht

theorem keepsDeadTime_restart : KeepsDeadTime serveRestart := by
  intro _ t ht
  unfold serveRestart
  split <;> exact ht

theorem keepsDeadTime_unknown (a : Byte) (p : List Byte) : KeepsDeadTime (serveUnknown a p) := by
  intro _ t ht
  unfold serveUnknown
  split
  · exact ht
  · split <;> exact ht

/-! ### Commands and steps -/

/-- Every command keeps DEAD_TIME unblocked and within the profile's shots. -/
theorem deadBut_exec (h : s.DeadBut none) (c : Instr) : ∃ t, exec c s = .next t ∧ t.DeadBut none := by
  have hr : ∀ {req k p b} {owner : Nat → State → Served}, KeepsDeadTime owner →
      ∃ t, (Host.Outcome.next (s.requestEvent req k p b owner) : Host.Outcome State Fault Refusal) = .next t ∧ t.DeadBut none :=
    fun ho => ⟨_, rfl, deadBut_requestEvent h _ _ _ _ ho⟩
  have hu : ∀ t : State, t.DeadBut none →
      ∃ u, (Host.Outcome.next (s.unlessHeld t) : Host.Outcome State Fault Refusal) = .next u ∧ u.DeadBut none :=
    fun t ht => ⟨_, rfl, .ite h ht⟩
  have hc : ∀ t : State, t.DeadBut none → ∃ u, (Host.Outcome.next (s.unlessHeld (State.conclude72 s t)) :
      Host.Outcome State Fault Refusal) = .next u ∧ u.DeadBut none := fun t ht => hu _ (ht.conclude72 s)
  cases c with
  | powerUpReset n => exact ⟨_, rfl, h.congr (shotView_assertReset s n)⟩
  | resetRelease => exact ⟨_, rfl, .ite (.of_reset rfl) h⟩
  | imageRecordRead a => exact hu _ (h.congr (shotView_readImage s a))
  | startUp =>
    refine hu _ ?_
    split
    · exact h
    · exact (h.startUp _).finish s
  | saveEnd n => exact hu _ (h.congr (shotView_endSave s n))
  | sample y => exact hc _ (h.takeSample y)
  | highSetDelayExpiry y => exact hc _ (h.takeSample y)
  | sefDelayExpiry y => exact hc _ (h.takeSample y)
  | statusReport a p b => exact hc _ (h.takeReport a p b)
  | response a g k v => exact hc _ (h.takeResponse a g k v)
  | managementRequest req k p => exact hu _ (h.congr (shotView_arrive s req k p))
  | frameRejected y => exact hc _ (h.receive y)
  | transmissionEnd => exact hu _ h.endTransmission
  | silenceExpiry e => exact hu _ (.ite ((h.loseStream e).conclude72 s) h)
  | busDelayExpiry => exact hu _ (.ite (h.ndExpired.conclude72 s) h)
  | deadTimerExpiry f =>
    refine hu _ ?_
    split
    · exact h
    · exact (h.deadExpired f _).conclude72 s
  | reclaimExpiry f => exact hu _ (.ite ((h.reclaimExpired f).conclude72 s) h)
  | refreshExpiry i => exact hu _ (.ite ((h.congr (shotView_refreshExpired s i)).finish s) h)
  | timeout i =>
    refine hu _ ?_
    split
    · exact h
    · exact (h.timedOut i _).conclude72 s
  | turnaroundGapEnd i => exact hu _ (h.moves (moves_trySend (by simp [Beside]) s i))
  | settleExpiry =>
    refine hu _ ?_
    split
    · exact h
    · exact (h.settleExpired _).conclude72 s
  | loadFeeder req y r => exact hr (keepsDeadTime_load _ _ _)
  | loadBus req y r => exact hr (keepsDeadTime_load _ _ _)
  | loadOutstation req y r => exact hr (keepsDeadTime_load _ _ _)
  | loadProfile req y r => exact hr (keepsDeadTime_load _ _ _)
  | loadCurve req y r => exact hr (keepsDeadTime_load _ _ _)
  | loadHuntPlan req y r => exact hr (keepsDeadTime_load _ _ _)
  | loadBusOrder req y r => exact hr (keepsDeadTime_load _ _ _)
  | loadLink req y r => exact hr (keepsDeadTime_load _ _ _)
  | readTable req a b => exact hr (keepsDeadTime_read _ _)
  | selectProfile req a w => exact hr (keepsDeadTime_select _ _)
  | setBlock req a b => exact hr (keepsDeadTime_block _ _ _)
  | clearBlock req a b => exact hr (keepsDeadTime_block _ _ _)
  | setMode req a b => exact hr (keepsDeadTime_mode _ _)
  | setServiceOn req a => exact hr (keepsDeadTime_withSlot a fun _ t i ht => ht.congr (shotView_serviceOn t i))
  | setServiceOff req a => exact hr (keepsDeadTime_withSlot a fun _ _ i ht => ht.serviceOff i)
  | operateOpen req a => exact hr (keepsDeadTime_operate _ _)
  | operateClose req a => exact hr (keepsDeadTime_operate _ _)
  | resetLockout req a => exact hr (keepsDeadTime_withFeeder a fun _ f ht => ht.resetLockout f)
  | startHunt req a => exact hr (keepsDeadTime_startHunt _)
  | abortHunt req => exact hr keepsDeadTime_abortHunt
  | ackSef req a => exact hr (keepsDeadTime_withFeeder a fun t f ht => ht.moves (moves_ackSef (by simp [Beside]) t f))
  | readStateFeeder req a => exact hr (keepsDeadTime_withFeeder a fun _ _ ht => ht)
  | readStateBus req => exact hr fun _ _ ht => ht
  | readTrips req => exact hr fun _ _ ht => ht
  | clearCounters req => exact hr fun _ _ ht => ht
  | saveImage req => exact hr keepsDeadTime_save
  | restart req => exact hr keepsDeadTime_restart
  | unknownRequest req k p => exact hr (keepsDeadTime_unknown _ _)

/-- Settles O10: each command keeps DEAD_TIME unblocked and within the shots, and an idle step changes no record. -/
theorem deadTimeUnblocked : Obligations.DeadTimeUnblocked := by
  intro s t hs hstep
  rw [deadTimeOk_iff] at hs ⊢
  unfold step at hstep
  split at hstep
  · cases hstep
    refine .ite hs ?_
    split <;> exact hs
  · rename_i c rest _
    have hrest : (s.setPending rest).DeadBut none := hs
    obtain ⟨u, hu, hkept⟩ := deadBut_exec hrest c
    rw [hu] at hstep
    cases hstep
    exact hkept

end Sys2Proof.Machine
end

section
/-! What timers and requests leave of the fixed parts of the state (R49, R68, R81, R85, R87, R92, R97, R111, R131, R138, R143, R164). -/

namespace Sys2Proof.Machine

/-! ### Timers -/

/-- A chain of primitive changes, whatever the part. -/
abbrev Works : State → State → Prop := Moves fun _ => True

theorem works_unlessHeld {s t : State} (h : Works s t) : Works s (s.unlessHeld t) := moves_ite .rfl h

theorem works_conclude72 {s t : State} (s0 : State) (h : Works s t) : Works s (State.conclude72 s0 t) :=
  h.trans (moves_conclude72 s0 t)

/-- The timers of the Reclose Controller, the Exchange and the Hunt Controller. -/
theorem works_timer {c : Instr} (s : State) (hc : (∃ f, c = .deadTimerExpiry f) ∨ (∃ f, c = .reclaimExpiry f)
    ∨ (∃ i, c = .refreshExpiry i) ∨ (∃ i, c = .turnaroundGapEnd i) ∨ c = .settleExpiry) :
    ∃ t, exec c s = .next t ∧ Works s t := by
  have hnext : ∀ t, Works s t →
      ∃ u, (Host.Outcome.next (s.unlessHeld t) : Host.Outcome State Fault Refusal) = .next u ∧ Works s u :=
    fun t ht => ⟨_, rfl, works_unlessHeld ht⟩
  rcases hc with ⟨f, rfl⟩ | ⟨f, rfl⟩ | ⟨i, rfl⟩ | ⟨i, rfl⟩ | rfl
  · refine hnext _ ?_
    split
    · exact .rfl
    · rename_i n hdue
      refine works_conclude72 s (moves_deadExpired trivial trivial s f n fun hoff => ?_)
      simp [State.deadDue, hoff] at hdue
  · refine hnext _ ?_
    split
    · rename_i hdue
      refine works_conclude72 s (moves_reclaimExpired trivial s f fun hoff => ?_)
      simp [State.reclaimDue, hoff] at hdue
    · exact .rfl
  · exact hnext _ (moves_ite ((moves_refreshExpired trivial trivial s i).trans (moves_finish trivial trivial s _)) .rfl)
  · exact hnext _ (moves_trySend trivial s i)
  · refine hnext _ ?_
    split
    · exact .rfl
    · exact works_conclude72 s (moves_settleExpired working_all s _)

/-! ### Requests -/

/-- A relation of two states that holds of the arrival of a request and of every primitive change, and is transitive. -/
structure Framing (R : State → State → Prop) : Prop where
  works : ∀ s t, Works s t → R s t
  arrive : ∀ s req kind params, R s (State.arrive s req kind params)
  trans : ∀ s t u, R s t → R t u → R s u

/-- What arrivals, primitive changes and the owner keep, a request keeps. -/
theorem Framing.requestEvent {R : State → State → Prop} (hR : Framing R) {owner : Nat → State → Machine.Served}
    (howner : ∀ k s, R s (owner k s).1) (s : State) (req : RequestId) (kind : Byte) (params : List Byte) (b : Bool) :
    R s (s.requestEvent req kind params b owner) := by
  have hrefl : ∀ t, R t t := fun t => hR.works t t .rfl
  have hentry : ∀ t n, R t (State.serveEntry s t n b owner) := by
    intro t n
    have hend : ∀ u, Works u (State.finish s (u.giveReply n (owner n t).2)) := by
      intro u
      unfold State.giveReply
      split
      · exact (moves_replyTo trivial _ _ _ _).trans (moves_finish trivial trivial s _)
      · exact moves_finish trivial trivial s _
    have hsettled : Works (owner n t).1 (if b = true then (owner n t).1.settle else (owner n t).1) :=
      moves_ite (moves_settle working_all trivial trivial _) .rfl
    exact hR.trans _ _ _ (howner n t) (hR.works _ _ (hsettled.trans (hend _)))
  have hserve : ∀ t, R t (State.serveIfOldest s t req kind params b owner) := by
    intro t
    unfold State.serveIfOldest
    split
    · exact hrefl t
    · split
      · exact hentry t _
      · exact hrefl t
  unfold State.requestEvent State.unlessHeld
  split; · exact hrefl s
  split; · exact hserve s
  split; · exact hR.arrive _ _ _ _
  exact hR.trans _ _ _ (hR.arrive _ _ _ _) (hserve _)

/-- The fixed parts but for the arrival of a request. -/
def State.WorksAside (s t : State) : Prop :=
  t.fixed = { s.fixed with requests := t.fixed.requests, tickets := t.fixed.tickets, log := t.fixed.log }

/-- The fixed parts but for the arrival of a request and the members of the block reason sets. -/
def State.MembersAside (s t : State) : Prop :=
  t.fixed = { s.fixed with requests := t.fixed.requests, tickets := t.fixed.tickets, log := t.fixed.log
                           outside := t.fixed.outside }

theorem fixed_notify (s : State) (n : Notice) (b : Bool) : (s.notify n b).fixed = s.fixed := fixed_moves (tells_notify s n b)

theorem worksAside_occur (s : State) (c : ErrorClass) : s.WorksAside (s.occur c) := by
  unfold State.occur State.WorksAside
  dsimp only
  split
  · rw [fixed_notify]; rfl
  · rfl

theorem worksAside_arrive (s : State) (req : RequestId) (kind : Byte) (params : List Byte) :
    s.WorksAside (s.arrive req kind params) := by
  unfold State.arrive
  split
  · exact worksAside_occur s _
  · split
    · rfl
    · exact worksAside_occur s _

theorem framing_worksAside : Framing State.WorksAside where
  works _ _ h := by rw [State.WorksAside, fixed_moves h]
  arrive := worksAside_arrive
  trans _ _ u h h' := h'.trans (congrArg
    (fun x : Fixed => { x with requests := u.fixed.requests, tickets := u.fixed.tickets, log := u.fixed.log }) h)

theorem framing_membersAside : Framing State.MembersAside where
  works _ _ h := by rw [State.MembersAside, fixed_moves h]
  arrive s req kind params := (worksAside_arrive s req kind params).trans
    (congrArg (fun o => { s.fixed with
      requests := (s.arrive req kind params).fixed.requests, tickets := (s.arrive req kind params).fixed.tickets
      log := (s.arrive req kind params).fixed.log, outside := o }) (congrArg Fixed.outside (worksAside_arrive s req kind params)).symm)
  trans _ _ u h h' := h'.trans (congrArg
    (fun x : Fixed => { x with requests := u.fixed.requests, tickets := u.fixed.tickets, log := u.fixed.log, outside := u.fixed.outside }) h)

/-! ### The owners that only set decisions, selections and hunts going -/

theorem works_withFeeder (b : Byte) (s : State) (g : Feeder → Machine.Served) (h : ∀ f, Works s (g f).1) :
    Works s (withFeeder s b g).1 := by
  unfold withFeeder
  split
  · exact .rfl
  · exact h _

/-- A selection that passes its checks names a LOADED slot (R68). -/
theorem selectCheck_loaded {s : State} {slot : Byte} {es : List EntryId} {k : BankSlot} (h : s.selectCheck slot es = .ok k) :
    (s.profile k).isSome = true := by
  unfold State.selectCheck at h
  split at h; · cases h
  split at h; · cases h
  split at h; · cases h
  rename_i hp
  split at h
  · cases h
  · cases h; simp [hp]

theorem works_selectAll {k : BankSlot} (es : List EntryId) {s : State} (h : (s.profile k).isSome = true) :
    Works s (State.selectAll k es s).1 := by
  induction es generalizing s with
  | nil => exact .rfl
  | cons e rest ih =>
    have hentry := moves_selectEntry (μ := fun _ => True) working_all trivial trivial s k e h
    have hloaded : (s.selectEntry k e).1.profile k = s.profile k := look_congr (congrArg Fixed.slots (fixed_moves hentry)) k
    exact hentry.trans (ih (hloaded ▸ h))

theorem works_select (slot : Byte) (w : U16) (n : Nat) (s : State) : Works s (serveSelect slot w n s).1 := by
  unfold serveSelect
  dsimp only
  split
  · exact .rfl
  · rename_i hk
    exact works_selectAll _ (selectCheck_loaded hk)

theorem works_resetLockout (b : Byte) (n : Nat) (s : State) : Works s (serveResetLockout b n s).1 := by
  refine works_withFeeder b s _ fun f => ?_
  have hleft := moves_removeReason (μ := fun _ => True) trivial trivial s f .sefLock trivial
  change Works s (s.resetLockout f).1
  unfold State.resetLockout
  split
  · rename_i hst
    split
    · refine hleft.trans (moves_goReclose trivial _ f .ready {} ?_ (by simp))
      exact moves_keep (fun t => (t.recl f).state ≠ .off) (off_prim f) hleft (by simp [hst])
    · exact .rfl
  · exact hleft
  · exact hleft
  · exact hleft
  all_goals exact .rfl

theorem works_startHunt (b : Byte) (n : Nat) (s : State) : Works s (serveStartHunt b n s).1 := by
  unfold serveStartHunt
  split
  · exact .rfl
  · split
    · exact .rfl
    · exact moves_startHunt working_all _ _ _

theorem works_abortHunt (n : Nat) (s : State) : Works s (serveAbortHunt n s).1 := by
  unfold serveAbortHunt State.abortRequest
  split
  · exact .rfl
  · exact moves_huntCause trivial trivial trivial _ _

theorem works_ackSef (b : Byte) (n : Nat) (s : State) : Works s (serveAckSef b n s).1 :=
  works_withFeeder b s _ fun f => moves_ackSef trivial s f

theorem works_operate {k : CmdKind} (hk : k ≠ .enrol) (b : Byte) (n : Nat) (s : State) : Works s (serveOperate k b n s).1 := by
  unfold serveOperate withSlot
  split
  · exact .rfl
  · dsimp only
    split
    · exact .rfl
    · have hhand := fun i => moves_handCmd (μ := fun _ => True) trivial s i (operateCmd k n) hk
      split
      · exact hhand _
      · exact .pone (.mark _ _ _ trivial) (hhand _)

/-! ### The members of a set -/

theorem membersAside_changeReason (s : State) (f : Feeder) (m : Reason) (b : Bool) : s.MembersAside (s.changeReason f m b) := by
  unfold State.changeReason State.notifyReasons State.MembersAside
  dsimp only
  rw [fixed_notify]
  rfl

theorem membersAside_addReason (s : State) (f : Feeder) (m : Reason) : s.MembersAside (s.addReason f m) := by
  cases hm : (s.recl f).reasons.has m with
  | false =>
    exact framing_membersAside.trans _ _ _ (membersAside_changeReason s f m true)
      (framing_membersAside.works _ _ (moves_addReason_from trivial trivial s f m hm))
  | true => rw [addReason_present s f m hm]; exact framing_membersAside.works _ _ .rfl

theorem membersAside_removeReason (s : State) (f : Feeder) (m : Reason) : s.MembersAside (s.removeReason f m) := by
  cases hm : (s.recl f).reasons.has m with
  | false => rw [removeReason_absent s f m hm]; exact framing_membersAside.works _ _ .rfl
  | true =>
    exact framing_membersAside.trans _ _ _ (membersAside_changeReason s f m false)
      (framing_membersAside.works _ _ (moves_removeReason_from trivial trivial s f m hm))

theorem membersAside_block (add : Bool) (a b : Byte) (n : Nat) (s : State) : s.MembersAside (serveBlock add a b n s).1 := by
  have hrefl : s.MembersAside s := framing_membersAside.works _ _ .rfl
  unfold serveBlock withFeeder
  split
  · exact hrefl
  · split
    · exact hrefl
    · split
      · cases add
        · exact membersAside_removeReason s _ _
        · exact membersAside_addReason s _ _
      · exact hrefl

/-- Settles O16: timers are chains of primitive changes, and a request is its arrival, its owner and such a chain. -/
theorem workingLeavesTheRest : Obligations.WorkingLeavesTheRest := by
  intro s t
  refine ⟨fun c hc h => ?_, fun c hc h => ?_, fun c hc h => ?_⟩
  · obtain ⟨u, hu, hworks⟩ := works_timer s hc
    cases hu.symm.trans h
    exact fixed_moves hworks
  · have hserved : ∀ {req kind params b} {owner : Nat → State → Machine.Served}, (∀ k s, Works s (owner k s).1) →
        (Host.Outcome.next (s.requestEvent req kind params b owner) : Host.Outcome State Fault Refusal) = .next t →
        s.WorksAside t := fun howner ht => by
      cases ht
      exact framing_worksAside.requestEvent (fun k s => framing_worksAside.works _ _ (howner k s)) s _ _ _ _
    rcases hc with ⟨r, k, w, rfl⟩ | ⟨r, f, rfl⟩ | ⟨r, e, rfl⟩ | ⟨r, rfl⟩ | ⟨r, f, rfl⟩ | ⟨r, i, rfl⟩ | ⟨r, i, rfl⟩
    · exact hserved (works_select k w) h
    · exact hserved (works_resetLockout f) h
    · exact hserved (works_startHunt e) h
    · exact hserved works_abortHunt h
    · exact hserved (works_ackSef f) h
    · exact hserved (works_operate (by decide) i) h
    · exact hserved (works_operate (by decide) i) h
  · rcases hc with ⟨r, f, m, rfl⟩ | ⟨r, f, m, rfl⟩
    · cases h
      exact framing_membersAside.requestEvent (membersAside_block true f m) s _ _ _ _
    · cases h
      exact framing_membersAside.requestEvent (membersAside_block false f m) s _ _ _ _

end Sys2Proof.Machine
end

section
/-! Followers: what handing a BLOCK or a RELEASE does to its slot and leaves of every other (R96 to R98, R109), and REFRESH_EXPIRY
(R97). -/

namespace Sys2Proof.Machine

variable {μ : Part → Prop}

/-! ### One slot at a time -/

/-- A slot, its follower record and its count of admissions are as they were, and so is the time. -/
structure State.Spares (s t : State) (i : SlotId) : Prop where
  slot : t.slot i = s.slot i
  follower : t.follower i = s.follower i
  admissions : t.admissions i = s.admissions i
  time : t.time = s.time

theorem State.Spares.refl (s : State) (i : SlotId) : s.Spares s i := ⟨rfl, rfl, rfl, rfl⟩

theorem State.Spares.trans {s t u : State} {i : SlotId} (h : s.Spares t i) (h' : t.Spares u i) : s.Spares u i :=
  ⟨h'.slot.trans h.slot, h'.follower.trans h.follower, h'.admissions.trans h.admissions, h'.time.trans h.time⟩

theorem spares_of_parted {s t : State} (h : Parted μ s t) (he : ¬ μ .exchange) (hf : t.reclose.followers = s.reclose.followers)
    (i : SlotId) : s.Spares t i :=
  ⟨look_congr (congrArg OutstationExchange.slots (h.exchange he)) i, look_congr hf i,
    look_congr (congrArg OutstationExchange.admitted (h.exchange he)) i, h.time⟩

theorem spares_tells {s t : State} (h : Tells s t) (i : SlotId) : s.Spares t i :=
  spares_of_parted (parted_moves h) id (congrArg RecloseController.followers ((parted_moves h).reclose id)) i

/-- A walk over other slots spares a slot. -/
theorem spares_foldl_of_not_mem {g : State → SlotId → State} {i : SlotId} (hg : ∀ s j, j ≠ i → State.Spares s (g s j) i)
    {l : List SlotId} (hi : i ∉ l) (s : State) : s.Spares (l.foldl g s) i :=
  List.foldlRecOn l g (motive := fun t => s.Spares t i) (.refl s i) fun t ht j hj => ht.trans (hg t j fun e => hi (e ▸ hj))

/-- A walk that comes to a slot once does there what its step does. -/
theorem spares_foldl_of_mem {g : State → SlotId → State} {i : SlotId} (hg : ∀ s j, j ≠ i → State.Spares s (g s j) i)
    {l : List SlotId} (hl : l.Nodup) (hi : i ∈ l) (s : State) : ∃ u, s.Spares u i ∧ (g u i).Spares (l.foldl g s) i := by
  induction l generalizing s with
  | nil => cases hi
  | cons j rest ih =>
    obtain ⟨hj, hrest⟩ := List.nodup_cons.1 hl
    rw [List.foldl_cons]
    by_cases he : j = i
    · subst he
      exact ⟨s, .refl s j, spares_foldl_of_not_mem hg hj _⟩
    · obtain ⟨u, hu, ht⟩ := ih hrest ((List.mem_cons.1 hi).resolve_left (Ne.symm he)) (g s j)
      exact ⟨u, (hg s j he).trans hu, ht⟩

theorem mem_slots {f : Feeder} {i : SlotId} : i ∈ Feeder.slots f ↔ SlotId.feeder i = f := by
  have hall : ∀ p : Fin 8, p ∈ feeders := by decide
  simp only [Feeder.slots, List.mem_map]
  constructor
  · rintro ⟨p, _, rfl⟩
    exact feeder_slot f p
  · rintro rfl
    refine ⟨⟨i.val % 8, by omega⟩, hall _, Fin.ext ?_⟩
    simp only [Feeder.slot, SlotId.feeder]
    omega

theorem nodup_slots (f : Feeder) : (Feeder.slots f).Nodup := by
  refine List.Nodup.map (fun p q h => ?_) (by decide)
  have hval := congrArg Fin.val h
  simp only [Feeder.slot] at hval
  exact Fin.ext (by omega)

/-! ### Moving a follower -/

theorem exchange_moveFollower (s : State) (i : SlotId) (st : FollowerState) (r : Option Nat) (k : Option Completion) :
    (s.moveFollower i st r k).exchange = s.exchange :=
  (parted_moves (moves_moveFollower (μ := fun p => p = .reclose) rfl s i st r k)).exchange (by simp)

theorem time_moveFollower (s : State) (i : SlotId) (st : FollowerState) (r : Option Nat) (k : Option Completion) :
    (s.moveFollower i st r k).time = s.time :=
  (parted_moves (moves_moveFollower (μ := fun p => p = .reclose) rfl s i st r k)).time

theorem follower_moveFollower (s : State) (i j : SlotId) (st : FollowerState) (r : Option Nat) (k : Option Completion) :
    (s.moveFollower i st r k).follower j = if j = i then ⟨st, r⟩ else s.follower j := by
  have hset : (s.setFollower i ⟨st, r⟩).follower j = if j = i then ⟨st, r⟩ else s.follower j := State.follower_setFollower _ _ _ _
  unfold State.moveFollower
  dsimp only
  split
  · exact hset
  · rw [State.follower, notify_reclose]
    exact hset

theorem spares_moveFollower (s : State) {i j : SlotId} (hj : j ≠ i) (st : FollowerState) (r : Option Nat) (k : Option Completion) :
    s.Spares (s.moveFollower j st r k) i where
  slot := by rw [State.slot, exchange_moveFollower]; rfl
  follower := by rw [follower_moveFollower, if_neg (Ne.symm hj)]
  admissions := by rw [State.admissions, exchange_moveFollower]; rfl
  time := time_moveFollower s j st r k

theorem spares_blockingCompleted (s : State) {d : Delivery} {i : SlotId} (hd : d.slot ≠ i) : s.Spares (s.blockingCompleted d) i := by
  unfold State.blockingCompleted State.blockCompleted State.releaseCompleted
  dsimp only
  split
  · split
    · exact .refl s i
    all_goals
      split
      · exact spares_moveFollower s hd _ _ _
      · exact spares_moveFollower s hd _ _ _
      · exact .refl s i
      · exact .refl s i
  · split
    · exact .refl s i
    · exact spares_moveFollower s hd _ _ _
    · exact .refl s i
  · exact .refl s i

/-! ### Handing a BLOCK or a RELEASE -/

/-- The command the Reclose Controller hands (R96, R98). -/
def blockingCmd (k : CmdKind) : Cmd := { kind := k, origin := .reclose }

/-- A follower that is IN_SERVICE or UNREACHABLE takes a BLOCKING command (R106). -/
structure Outstation.Follows (o : Outstation) (l : Loaded) : Prop where
  loaded : o.loaded = some l
  follower : l.follower = true
  recloser : l.kind = .recloser
  state : o.state = .inService ∨ o.state = .unreachable

theorem Outstation.Follows.admitted {o : Outstation} {l : Loaded} (h : o.Follows l) {k : CmdKind} (hk : k.isBlocking = true)
    (test : Bool) : o.turnsAway test (blockingCmd k) = none := by
  have hadmits : o.admits k = true := by
    rcases h.state with hst | hst <;> simp [Outstation.admits, hst, hk, h.loaded, h.follower]
  have hpermitted : k.permittedFor l.kind = true ∧ k.isSwitching = false := by
    rw [h.recloser]
    cases k <;> first | exact ⟨rfl, rfl⟩ | cases hk
  simp [Outstation.turnsAway, blockingCmd, hadmits, h.loaded, hpermitted]

theorem slot_of_mem_supersede {i : SlotId} {p : CmdKind → Bool} {q : List Cmd} {d : Delivery} (hd : d ∈ supersede i p q) :
    d.slot = i ∧ d.completion = .superseded := by
  obtain ⟨c, _, hc⟩ := List.mem_flatMap.1 hd
  obtain ⟨_, _, rfl⟩ := List.mem_map.1 hc
  exact ⟨rfl, rfl⟩

theorem slot_of_mem_admitBlocking {i : SlotId} {o : Outstation} {c : Cmd} {d : Delivery} (hd : d ∈ (admitBlocking i o c).2) :
    d.slot = i := by
  unfold admitBlocking at hd
  split at hd
  · cases hd
  · dsimp only at hd
    split at hd
    · rcases List.mem_append.1 hd with hd | hd
      · exact (slot_of_mem_supersede hd).1
      · exact slot_deliveries i c _ d hd
    · exact (slot_of_mem_supersede hd).1

theorem admitCmd_of_blocking {o : Outstation} {k : CmdKind} (hk : k.isBlocking = true) (test : Bool) (i : SlotId) :
    admitCmd test i o (blockingCmd k) = match o.turnsAway test (blockingCmd k) with
      | some x => (o, deliveries i (blockingCmd k) x)
      | none => admitBlocking i o (blockingCmd k) := by
  unfold admitCmd
  cases k <;> first | rfl | cases hk

/-- Handing a BLOCKING command spares every other slot. -/
theorem spares_handBlocking (s : State) {i j : SlotId} (hj : j ≠ i) {k : CmdKind} (hk : k.isBlocking = true) :
    s.Spares (s.handBlocking j k) i := by
  have hslots : ∀ d ∈ (s.handCmd j (blockingCmd k)).2, d.slot = j := by
    intro d hd
    have hd : d ∈ (admitCmd (s.testMark (SlotId.feeder j)) j (s.slot j) (blockingCmd k)).2 := hd
    rw [admitCmd_of_blocking hk] at hd
    split at hd
    · exact slot_deliveries j _ _ d hd
    · exact slot_of_mem_admitBlocking hd
  have hhand : s.Spares (s.handCmd j (blockingCmd k)).1 i := by
    have hset : s.Spares (s.setSlot j (admitCmd (s.testMark (SlotId.feeder j)) j (s.slot j) (blockingCmd k)).1) i :=
      ⟨look_put_ne _ _ (Ne.symm hj), rfl, rfl, rfl⟩
    unfold State.handCmd
    dsimp only
    split
    · exact hset.trans ⟨rfl, rfl, look_put_ne _ _ (Ne.symm hj), rfl⟩
    · exact hset
  exact List.foldlRecOn _ State.blockingCompleted (motive := fun t => s.Spares t i) hhand
    fun t ht d hd => ht.trans (spares_blockingCompleted t (by rw [hslots d hd]; exact hj))

section

variable {s : State} {i : SlotId} {k : CmdKind} {l : Loaded}

/-- A BLOCKING command that a follower takes is handed to the rule of its group, and its admission is counted. -/
theorem handBlocking_admitted (h : (s.slot i).Follows l) (hk : k.isBlocking = true) :
    s.handBlocking i k = (admitBlocking i (s.slot i) (blockingCmd k)).2.foldl State.blockingCompleted
      ((s.setSlot i (admitBlocking i (s.slot i) (blockingCmd k)).1).countAdmission i) := by
  have hadmitted := h.admitted hk (s.testMark (SlotId.feeder i))
  change (s.handCmd i (blockingCmd k)).2.foldl State.blockingCompleted (s.handCmd i (blockingCmd k)).1 = _
  simp [State.handCmd, admitCmd_of_blocking hk, hadmitted]

/-- Behind one of its kind that waits it joins that one (R109). -/
theorem handBlocking_joins (h : (s.slot i).Follows l) (hk : k.isBlocking = true) (hq : (s.slot i).queued (· == k) = true) :
    s.handBlocking i k
      = (s.setSlot i { s.slot i with queue := mergeQueued k .reclose (s.slot i).queue }).countAdmission i := by
  have hq : (s.slot i).queued (· == (blockingCmd k).kind) = true := hq
  rw [handBlocking_admitted h hk, admitBlocking, if_pos hq]
  rfl

/-- What it supersedes concerns no follower record (R97, R98). -/
theorem foldl_supersede (q : List Cmd) (t : State) :
    (supersede i CmdKind.isBlocking q).foldl State.blockingCompleted t = t :=
  foldl_superseded _ (fun _ hd => (slot_of_mem_supersede hd).2) t

/-- Behind one of its kind in flight it is done at once (R109). -/
theorem handBlocking_done (h : (s.slot i).Follows l) (hk : k.isBlocking = true) (hq : (s.slot i).queued (· == k) = false)
    (hfly : (s.slot i).flying (· == k) = true) :
    s.handBlocking i k
      = ((s.setSlot i { s.slot i with queue := withoutGroup CmdKind.isBlocking (s.slot i).queue }).countAdmission i).blockingCompleted
          ⟨i, .reclose, blockingCmd k, .done none false⟩ := by
  have hq : ¬ (s.slot i).queued (· == (blockingCmd k).kind) = true := by rw [Bool.not_eq_true]; exact hq
  have hfly : (s.slot i).flying (· == (blockingCmd k).kind) = true := hfly
  rw [handBlocking_admitted h hk, admitBlocking, if_neg hq]
  dsimp only
  rw [if_pos hfly, List.foldl_append, foldl_supersede]
  rfl

/-- Otherwise it waits in the place of those of its group (R109). -/
theorem handBlocking_waits (h : (s.slot i).Follows l) (hk : k.isBlocking = true) (hq : (s.slot i).queued (· == k) = false)
    (hfly : (s.slot i).flying (· == k) = false) :
    s.handBlocking i k = (s.setSlot i { s.slot i with
      queue := withoutGroup CmdKind.isBlocking (s.slot i).queue ++ [blockingCmd k] }).countAdmission i := by
  have hq : ¬ (s.slot i).queued (· == (blockingCmd k).kind) = true := by rw [Bool.not_eq_true]; exact hq
  have hfly : ¬ (s.slot i).flying (· == (blockingCmd k).kind) = true := by rw [Bool.not_eq_true]; exact hfly
  rw [handBlocking_admitted h hk, admitBlocking, if_neg hq]
  dsimp only
  rw [if_neg hfly, foldl_supersede]

end

/-- A BLOCKING command has been handed to a slot that takes it: it waits, it is done at once behind one of its kind in flight, or it
has joined one that waits (R109). -/
def State.HandedTo (s t : State) (i : SlotId) (k : CmdKind) (waiting done : FollowerRecord) : Prop :=
  ((s.slot i).queued (· == k) = false → (s.slot i).flying (· == k) = false →
      t.follower i = waiting ∧ (t.slot i).Has { kind := k, origin := .reclose })
    ∧ ((s.slot i).queued (· == k) = false → (s.slot i).flying (· == k) = true → t.follower i = done)
    ∧ ((s.slot i).queued (· == k) = true → t.follower i = waiting ∧ ∃ c, c.kind = k ∧ (t.slot i).Has c)

theorem State.HandedTo.mono {s s' t t' : State} {i : SlotId} {k : CmdKind} {waiting done : FollowerRecord}
    (h : s.HandedTo t i k waiting done) (hs : s.slot i = s'.slot i) (hf : t'.follower i = t.follower i)
    (hhas : ∀ c, (t.slot i).Has c → (t'.slot i).Has c) : s'.HandedTo t' i k waiting done := by
  unfold State.HandedTo at h ⊢
  rw [← hs, hf]
  obtain ⟨hwaits, hdone, hjoins⟩ := h
  exact ⟨fun hq hfly => (hwaits hq hfly).imp_right (hhas _), hdone,
    fun hq => (hjoins hq).imp_right fun ⟨c, hc, hin⟩ => ⟨c, hc, hhas c hin⟩⟩

theorem exists_kind_of_queued {q : List Cmd} {k : CmdKind} (h : q.any (fun c => c.kind == k) = true) (o : Originator) :
    ∃ c ∈ mergeQueued k o q, c.kind = k := by
  obtain ⟨c, hc, hck⟩ := List.any_eq_true.1 h
  have hmem : k ∈ (mergeQueued k o q).map Cmd.kind := by
    rw [kinds_mergeQueued]
    exact List.mem_map.2 ⟨c, hc, by simpa using hck⟩
  exact List.mem_map.1 hmem

/-- Handing a BLOCKING command to a follower that takes it; `done` is what its own completion makes of the follower record. -/
theorem handedTo_handBlocking {s : State} {i : SlotId} {k : CmdKind} {l : Loaded} {waiting done : FollowerRecord}
    (h : (s.slot i).Follows l) (hk : k.isBlocking = true) (hw : s.follower i = waiting)
    (hdone : ∀ u : State, u.follower i = waiting → (u.slot i).loaded = some l → u.time = s.time →
      (u.blockingCompleted ⟨i, .reclose, blockingCmd k, .done none false⟩).follower i = done) :
    s.HandedTo (s.handBlocking i k) i k waiting done := by
  refine ⟨fun hq hfly => ?_, fun hq hfly => ?_, fun hq => ?_⟩
  · rw [handBlocking_waits h hk hq hfly]
    exact ⟨hw, .inl (by simp [blockingCmd])⟩
  · rw [handBlocking_done h hk hq hfly]
    exact hdone _ hw (by simpa using h.loaded) rfl
  · rw [handBlocking_joins h hk hq]
    obtain ⟨c, hc, hck⟩ := exists_kind_of_queued hq .reclose
    exact ⟨hw, c, hck, .inl (by simpa using hc)⟩

theorem follower_blockDone {u : State} {i : SlotId} {l : Loaded} (hst : (u.follower i).state = .blockPending)
    (hl : (u.slot i).loaded = some l) :
    (u.blockingCompleted ⟨i, .reclose, blockingCmd .block, .done none false⟩).follower i
      = ⟨.blocked, some (u.time + 1000 * l.refresh)⟩ := by
  simp [State.blockingCompleted, blockingCmd, State.blockCompleted, hst, follower_moveFollower, State.refreshExpiry, hl]

theorem follower_releaseDone {u : State} {i : SlotId} (hst : (u.follower i).state = .releasePending) :
    (u.blockingCompleted ⟨i, .reclose, blockingCmd .release, .done none false⟩).follower i = ⟨.none, none⟩ := by
  simp [State.blockingCompleted, blockingCmd, State.releaseCompleted, hst, follower_moveFollower]

/-! ### REFRESH_EXPIRY (R97) -/

/-- Settles O33: the refresh timer stops, and the BLOCK waits for the test of R111. -/
theorem refreshBlocksAgain : Obligations.RefreshBlocksAgain := by
  intro s i n l hheld hrefresh hdue hstate hloaded hfollower hkind hservice hqueued hflying
  set s1 := s.setFollower i ⟨(s.follower i).state, none⟩ with hs1
  have hfollows : (s1.slot i).Follows l := ⟨hloaded, hfollower, hkind, hservice⟩
  have hdue : s.refreshDue i = true := by
    rcases hstate with hst | hst <;> simpa [State.refreshDue, hst, hrefresh] using hdue
  have hservice' : ((s.slot i).state == .inService || (s.slot i).state == .unreachable) = true := by
    rcases hservice with hst | hst <;> simp [hst]
  have hexpired : s.refreshExpired i = s1.handBlocking i .block := by
    simp only [State.refreshExpired, hservice', if_true, hs1]
  have hexec : exec (.refreshExpiry i) s = .next (State.finish s (s1.handBlocking i .block)) := by
    change execRefreshExpiry i s = _
    simp [execRefreshExpiry, State.unlessHeld, hheld, hdue, hexpired]
  have hhand := handBlocking_waits hfollows (k := .block) rfl hqueued hflying
  have hparted := parted_moves (moves_handBlocking (μ := Closing) (.inl rfl) (.inr rfl) s1 i .block (by decide))
  have hspares : ∀ j, j ≠ i → s.Spares (s1.handBlocking i .block) j := fun j hj =>
    State.Spares.trans (t := s1) ⟨rfl, look_put_ne _ _ hj, rfl, rfl⟩ (spares_handBlocking s1 (Ne.symm hj) rfl)
  refine ⟨_, hexec, ?_, has_finish s ?_, fun j hj => ?_, fun j hj => ?_, ?_⟩
  · rw [State.follower, finish_reclose, hhand]
    exact State.follower_setFollower_self s i _
  · rw [hhand]
    exact .inl (by simp [blockingCmd])
  · rw [State.follower, finish_reclose]
    exact (hspares j hj).follower
  · have hslot := (hspares j hj).slot
    refine (slot_finish_of_not_due ?_).trans hslot
    simp [State.sendTestDue, hslot, (hspares j hj).admissions]
  · have hset : Parted Closing s s1 := { Parted.refl s with reclose := fun h => absurd (.inr rfl) h, rest := rfl }
    exact rest_of_closingSending (((hset.trans hparted).mono fun _ => .inl).trans ((parted_finish s _).mono fun _ => .inr))

end Sys2Proof.Machine
end

section
/-! The timers of the reclose state (R85, R86, R87): the CLOSE of a shot, and what each expiry leaves. -/

namespace Sys2Proof.Machine

variable {s : State} {f : Feeder} {n : Nat}

/-! ### Transitions of the reclose state, and the end of their event -/

/-- A transition between states other than OFF changes reclose records and tells. -/
theorem parted_goReclose {st : RecloseState} (h : (s.recl f).state ≠ .off) (h' : st ≠ .off) (x : PermissionFailures) :
    Parted (fun p => p = .reclose) s (s.goReclose f st x) :=
  parted_moves (moves_goReclose (μ := fun p => p = .reclose) rfl s f st x h h')

theorem rest_of_reclose {s t : State} (h : Parted (fun p => p = .reclose) s t) :
    t = { s with reclose := t.reclose, link := t.link, mgmt := t.mgmt } := by
  have hrest := h.rest
  rw [h.exchange (by simp), h.hunt (by simp), h.bank (by simp), h.threshold (by simp), h.map (by simp), h.outputs (by simp)] at hrest
  exact hrest

/-- An event that changed reclose records alone, from a state in which nothing waits, sends nothing. -/
theorem conclude72_of_reclose {s t : State} (hs : s.Still) (h : Parted (fun p => p = .reclose) s t) :
    State.conclude72 s t = t.refreshOutputs := by
  rw [conclude72_of_parted hs h (by simp) (by simp), finish_same _ _ (h.exchange (by simp))]

theorem rest_refreshOutputs {s t : State} (h : Parted (fun p => p = .reclose) s t) :
    t.refreshOutputs = { s with
      reclose := t.refreshOutputs.reclose, link := t.refreshOutputs.link, mgmt := t.refreshOutputs.mgmt
      outputs := t.refreshOutputs.outputs } := by
  have hrest : ∀ o, t.setOutputs o = { s with reclose := t.reclose, link := t.link, mgmt := t.mgmt, outputs := o } := fun o =>
    congrArg (State.setOutputs · o) (rest_of_reclose h)
  exact hrest _

/-! ### DEAD_TIMER_EXPIRY -/

theorem exec_deadTimerExpiry {d : Nat} (hheld : s.held = false) (hstate : (s.recl f).state = .deadTime n d) (hdue : d ≤ s.time) :
    exec (.deadTimerExpiry f) s = .next (State.conclude72 s (s.deadExpired f n)) := by
  change execDeadTimerExpiry f s = _
  simp [execDeadTimerExpiry, State.unlessHeld, hheld, State.deadDue, hstate, hdue]

/-- The CLOSE of a shot. -/
def shotClose (n : Nat) : Cmd := { kind := .close, origin := .reclose, shot := n }

theorem ownCompletion_deliveries {i : SlotId} {c : Cmd} (hmerged : c.merged = []) (k : Completion) :
    ownCompletion c (deliveries i c k) = some k := by
  simp [ownCompletion, deliveries, hmerged]

/-- A command that the checks of R106 turn away leaves its slot as it is. -/
theorem handCmd_turned {i : SlotId} {c : Cmd} {k : Completion}
    (h : (s.slot i).turnsAway (s.testMark (SlotId.feeder i)) c = some k) : s.handCmd i c = (s, deliveries i c k) := by
  have hset : s.setSlot i (s.slot i) = s := by
    have hput : put s.exchange.slots i (s.slot i) = s.exchange.slots := put_look _ _
    simp only [State.setSlot, hput]
    rfl
  simp [State.handCmd, admitCmd, h, hset]

theorem deadExpired_of_waiting
    (h : ownCompletion (shotClose n) ((s.goReclose f (.closing n none)).handCmd (Feeder.head f) (shotClose n)).2 = none) :
    s.deadExpired f n = ((s.goReclose f (.closing n none)).handCmd (Feeder.head f) (shotClose n)).1 := by
  unfold shotClose at h ⊢
  simp only [State.deadExpired, h]

theorem deadExpired_of_completed {k : Completion}
    (h : ownCompletion (shotClose n) ((s.goReclose f (.closing n none)).handCmd (Feeder.head f) (shotClose n)).2 = some k) :
    s.deadExpired f n = ((s.goReclose f (.closing n none)).handCmd (Feeder.head f) (shotClose n)).1.closeCompleted f k := by
  unfold shotClose at h ⊢
  simp only [State.deadExpired, h]

/-- The dead timer expires with a breaker that takes the CLOSE (R85). -/
theorem deadExpired_hands (hservice : (s.slot (Feeder.head f)).state = .inService) (htest : s.mode f ≠ .test)
    (hfree : ∀ c ∈ (s.slot (Feeder.head f)).queue, c.kind.isSwitch = false)
    (hbreaker : ((s.slot (Feeder.head f)).loaded.any fun l => l.kind == .breaker) = true) :
    (s.goReclose f (.closing n none)).Handed (s.deadExpired f n) (Feeder.head f) (shotClose n) := by
  have hslot : (s.goReclose f (.closing n none)).slot (Feeder.head f) = s.slot (Feeder.head f) := slot_notify _ _ _ _
  have hmode : (s.goReclose f (.closing n none)).mode f = s.mode f := by
    rw [State.mode, State.goReclose, notify_modes]; rfl
  have hclose : ((s.slot (Feeder.head f)).loaded.any fun l => CmdKind.close.permittedFor l.kind) = true := by
    rw [Option.any_eq_true] at hbreaker ⊢
    obtain ⟨l, hl, hk⟩ := hbreaker
    exact ⟨l, hl, by simp [CmdKind.permittedFor, hk]⟩
  have hhand := handCmd_switch (s := s.goReclose f (.closing n none)) (i := Feeder.head f) (c := shotClose n) rfl
    (by rw [hslot]; exact hservice) (by rw [hslot]; exact hclose) (by rw [feeder_head, hmode]; exact htest)
    (by rw [hslot]; exact hfree)
  rw [deadExpired_of_waiting (by rw [hhand]; rfl), hhand]
  exact handed_switch _ _ _

/-- The dead timer expires with a breaker that is not IN_SERVICE (R85, R86, R106). -/
theorem deadExpired_refused (hservice : (s.slot (Feeder.head f)).state ≠ .inService) :
    s.deadExpired f n = (s.goReclose f (.closing n none)).goReclose f (.lockout .closeFail) := by
  have hslot : (s.goReclose f (.closing n none)).slot (Feeder.head f) = s.slot (Feeder.head f) := slot_notify _ _ _ _
  have hturned := handCmd_turned (s := s.goReclose f (.closing n none)) (i := Feeder.head f) (c := shotClose n) (k := .unavailable)
    (by simp [Outstation.turnsAway, Outstation.admits, hslot, hservice, shotClose, CmdKind.isBlocking])
  have hstate : ((s.goReclose f (.closing n none)).recl f).state = .closing n none := by
    rw [recl_goReclose, if_pos rfl]
  rw [deadExpired_of_completed (by rw [hturned]; exact ownCompletion_deliveries rfl _), hturned]
  simp [State.closeCompleted, hstate]

theorem deadTimerExpiry_closes {d : Nat} (hs : s.Still) (hstate : (s.recl f).state = .deadTime n d) (hdue : d ≤ s.time)
    (hservice : (s.slot (Feeder.head f)).state = .inService) (htest : s.mode f ≠ .test)
    (hfree : ∀ c ∈ (s.slot (Feeder.head f)).queue, c.kind.isSwitch = false)
    (hbreaker : ((s.slot (Feeder.head f)).loaded.any fun l => l.kind == .breaker) = true) :
    ∃ t, exec (.deadTimerExpiry f) s = .next t ∧ t.recl f = { s.recl f with state := .closing n none }
      ∧ (t.slot (Feeder.head f)).Has { kind := .close, origin := .reclose, shot := n }
      ∧ (∀ g, g ≠ f → t.recl g = s.recl g) ∧ (∀ j, j ≠ Feeder.head f → t.slot j = s.slot j)
      ∧ t = { s with reclose := t.reclose, exchange := t.exchange, link := t.link, mgmt := t.mgmt, outputs := t.outputs } := by
  have hgo := parted_goReclose (s := s) (f := f) (st := .closing n none) (by simp [hstate]) (by simp) {}
  have hhanded := deadExpired_hands (n := n) hservice htest hfree hbreaker
  have hparts : Parted Closing s (s.deadExpired f n) :=
    (hgo.mono fun _ => .inr).trans (hhanded.parted.mono fun _ => .inl)
  have hrecl : ∀ g, (s.deadExpired f n).recl g = if g = f then { s.recl f with state := .closing n none } else s.recl g := by
    intro g
    rw [← recl_goReclose s f g (.closing n none) {}, State.recl, hhanded.parted.reclose (by simp)]
    rfl
  have hslot : ∀ j, j ≠ Feeder.head f → (s.deadExpired f n).slot j = s.slot j := fun j hj =>
    (hhanded.others j hj).trans (slot_notify _ _ _ _)
  have hexec := exec_deadTimerExpiry hs.released hstate hdue
  rw [conclude72_of_parted hs hparts (by simp [Closing]) (by simp [Closing])] at hexec
  refine ⟨_, hexec, ?_, hhanded.has s, fun g hg => ?_, fun j hj => ?_, ?_⟩
  · rw [recl_finish, hrecl, if_pos rfl]
  · rw [recl_finish, hrecl, if_neg hg]
  · refine (slot_finish_of_not_due ?_).trans (hslot j hj)
    have hadmitted : (s.deadExpired f n).admissions j = s.admissions j :=
      (hhanded.admissions j hj).trans (by rw [State.admissions, hgo.exchange (by simp)]; rfl)
    simp [State.sendTestDue, hslot j hj, hadmitted]
  · exact rest_of_closingSending ((hparts.mono fun _ => .inl).trans ((parted_finish s _).mono fun _ => .inr))

theorem deadTimerExpiry_fails {d : Nat} (hs : s.Still) (hstate : (s.recl f).state = .deadTime n d) (hdue : d ≤ s.time)
    (hservice : (s.slot (Feeder.head f)).state ≠ .inService) :
    ∃ t, exec (.deadTimerExpiry f) s = .next t ∧ t.recl f = { s.recl f with state := .lockout .closeFail }
      ∧ (∀ g, g ≠ f → t.recl g = s.recl g)
      ∧ t = { s with reclose := t.reclose, link := t.link, mgmt := t.mgmt, outputs := t.outputs } := by
  have hclosing : ∀ g, (s.goReclose f (.closing n none)).recl g = if g = f then { s.recl f with state := .closing n none } else s.recl g :=
    fun g => recl_goReclose s f g _ _
  have hparts : Parted (fun p => p = .reclose) s (s.deadExpired f n) := by
    rw [deadExpired_refused hservice]
    exact (parted_goReclose (by simp [hstate]) (by simp) {}).trans (parted_goReclose (by simp [hclosing]) (by simp) {})
  have hrecl : ∀ g, (s.deadExpired f n).recl g = if g = f then { s.recl f with state := .lockout .closeFail } else s.recl g := by
    intro g
    rw [deadExpired_refused hservice, recl_goReclose, hclosing, hclosing]
    by_cases hg : g = f <;> simp [hg]
  have hexec := exec_deadTimerExpiry hs.released hstate hdue
  rw [conclude72_of_reclose hs hparts] at hexec
  refine ⟨_, hexec, ?_, fun g hg => ?_, rest_refreshOutputs hparts⟩
  · exact (hrecl f).trans (if_pos rfl)
  · exact (hrecl g).trans (if_neg hg)

/-! ### RECLAIM_EXPIRY -/

theorem reclaimDue_iff {start : Nat} {p : Profile} (hstate : (s.recl f).state = .reclaim n start) (hp : s.feederProfile f = some p) :
    s.reclaimDue f = true ↔ start + 100 * p.reclaim ≤ s.time := by
  simp [State.reclaimDue, hstate, hp]

theorem exec_reclaimExpiry (hheld : s.held = false) :
    exec (.reclaimExpiry f) s = .next (if s.reclaimDue f then State.conclude72 s (s.reclaimExpired f) else s) := by
  change execReclaimExpiry f s = _
  simp [execReclaimExpiry, State.unlessHeld, hheld]

theorem reclaimExpiry_readies {start : Nat} {p : Profile} (hs : s.Still) (hstate : (s.recl f).state = .reclaim n start)
    (hp : s.feederProfile f = some p) (hdue : start + 100 * p.reclaim ≤ s.time) :
    ∃ t, exec (.reclaimExpiry f) s = .next t ∧ t.recl f = { s.recl f with state := .ready } ∧ (∀ g, g ≠ f → t.recl g = s.recl g)
      ∧ t = { s with reclose := t.reclose, link := t.link, mgmt := t.mgmt, outputs := t.outputs } := by
  have hparts : Parted (fun p => p = .reclose) s (s.reclaimExpired f) := parted_goReclose (by simp [hstate]) (by simp) {}
  have hrecl : ∀ g, (s.reclaimExpired f).recl g = if g = f then { s.recl f with state := .ready } else s.recl g :=
    fun g => recl_goReclose s f g _ _
  have hexec := exec_reclaimExpiry (f := f) hs.released
  rw [if_pos ((reclaimDue_iff hstate hp).2 hdue), conclude72_of_reclose hs hparts] at hexec
  exact ⟨_, hexec, (hrecl f).trans (if_pos rfl), fun g hg => (hrecl g).trans (if_neg hg), rest_refreshOutputs hparts⟩

/-- Settles O32: the dead timer closes the shot or locks out, and the reclaim timer readies at its time and not before. -/
theorem recloseTimersExpire : Obligations.RecloseTimersExpire := by
  refine ⟨fun s f n d hs hstate hdue => ⟨fun hservice htest hfree hbreaker => ?_, fun hservice => ?_⟩,
    fun s f n start p hs hstate hp => ⟨fun hdue => ?_, fun hearly => ?_⟩⟩
  · exact deadTimerExpiry_closes hs.toStill hstate hdue hservice htest hfree hbreaker
  · exact deadTimerExpiry_fails hs.toStill hstate hdue hservice
  · exact reclaimExpiry_readies hs.toStill hstate hp hdue
  · rw [exec_reclaimExpiry hs.released, if_neg]
    rw [reclaimDue_iff hstate hp]
    exact Nat.not_le.2 hearly

end Sys2Proof.Machine
end

section
/-! A request answered at once whose owner changes reclose records and hands commands (R160, R161), and RESET_LOCKOUT (R92). -/

namespace Sys2Proof.Machine

/-! ### An owner that hands commands -/

/-- What may have changed is the Exchange, the reclose records, the notices and the frames at the port. -/
structure State.Changes (s u : State) : Prop where
  parted : Parted Closing s u
  ticket : u.mgmt.nextTicket = s.mgmt.nextTicket
  port : s.PortKept u

theorem State.Changes.trans {s t u : State} (h : s.Changes t) (h' : t.Changes u) : s.Changes u :=
  ⟨h.parted.trans h'.parted, h'.ticket.trans h.ticket, h.port.trans h'.port⟩

theorem State.Changes.refl (s : State) : s.Changes s := ⟨.refl s, rfl, .refl s⟩

theorem changes_moves {s t : State} (h : Moves Closing s t) : s.Changes t :=
  ⟨parted_moves h, congrArg Fixed.tickets (fixed_moves h), portKept_moves h⟩

theorem changes_changeReason (s : State) (f : Feeder) (m : Reason) (x : Bool) : s.Changes (s.changeReason f m x) := by
  have hset : s.Changes (s.setRecl f { s.recl f with reasons := (s.recl f).reasons.put x m }) :=
    ⟨{ Parted.refl s with reclose := fun h => absurd (.inr rfl) h, rest := rfl }, rfl, rfl, rfl, fun _ h => h, rfl⟩
  exact hset.trans (changes_moves (moves_notify _ _ _))

theorem changes_addReason (s : State) (f : Feeder) (m : Reason) : s.Changes (s.addReason f m) := by
  cases hm : (s.recl f).reasons.has m
  · exact (changes_changeReason s f m true).trans (changes_moves (moves_addReason_from (.inl rfl) (.inr rfl) s f m hm))
  · rw [addReason_present s f m hm]
    exact .refl s

theorem changes_removeReason (s : State) (f : Feeder) (m : Reason) : s.Changes (s.removeReason f m) := by
  cases hm : (s.recl f).reasons.has m
  · rw [removeReason_absent s f m hm]
    exact .refl s
  · exact (changes_changeReason s f m false).trans (changes_moves (moves_removeReason_from (.inl rfl) (.inr rfl) s f m hm))

/-- What an owner that hands commands, the reply and the end of the event may change. -/
def Replying (p : Part) : Prop := p = .requests ∨ ClosingSending p

theorem rest_of_replying {s t : State} (h : Parted Replying s t) :
    t = { s with reclose := t.reclose, exchange := t.exchange, link := t.link, mgmt := t.mgmt, outputs := t.outputs } := by
  have hrest := h.rest
  rw [h.hunt (by simp [Replying, ClosingSending, Closing, Sending]), h.bank (by simp [Replying, ClosingSending, Closing, Sending]),
    h.threshold (by simp [Replying, ClosingSending, Closing, Sending]),
    h.map (by simp [Replying, ClosingSending, Closing, Sending])] at hrest
  exact hrest

/-- What the reply and the end of the event leave of what the owner has done. -/
structure State.RepliedAfter (s u t : State) (req : RequestId) (kind : Byte) (params : List Byte) (r : Result)
    (payload : List Byte) : Prop where
  answered : s.Answered t req kind params r payload
  port : s.PortKept t
  reclose : t.reclose = u.reclose
  slot : ∀ i, State.sendTestDue s u i = false → t.slot i = u.slot i
  has : ∀ i c, (u.slot i).Has c → (t.slot i).Has c
  rest : t = { s with reclose := t.reclose, exchange := t.exchange, link := t.link, mgmt := t.mgmt, outputs := t.outputs }

/-- A request that is served as it arrives and answered at once, by an owner that may have handed commands. -/
theorem requestEvent_changes {s u : State} {req : RequestId} {kind : Byte} {params : List Byte} (settles : Bool)
    {owner : Nat → State → Served} {r : Result} {payload : List Byte} (hr : s.Ready req) (hs : s.Still)
    (ho : owner s.mgmt.nextTicket (s.arrived req kind params) = (u, some (r, payload)))
    (hu : (s.arrived req kind params).Changes u) :
    s.RepliedAfter u (s.requestEvent req kind params settles owner) req kind params r payload := by
  have hrequests : u.mgmt.requests = [s.newEntry req kind params] := hu.parted.requests (by simp [Closing])
  obtain ⟨hentry, hreply, _, _, hticket⟩ := replyTo_only u (s.newEntry req kind params) r payload (by
    simp [hrequests, ReqEntry.request, State.newEntry])
  have hsettled : u.settle = u := by
    refine settle_still _ (fun e => ?_) (.inr ?_)
    · rw [State.entry, hu.parted.map (by simp [Closing])]; exact hs.noPending e
    · rw [hu.parted.hunt (by simp [Closing])]; exact hs.noTrigger
  set v := u.replyTo s.mgmt.nextTicket r payload with hv
  have hrun : s.requestEvent req kind params settles owner = State.finish s v := by
    rw [requestEvent_ready s req kind params settles owner hr]
    unfold State.serveEntry
    rw [ho]
    cases settles <;> simp [hsettled, State.giveReply, hv]
  have hreplied : Parted (fun p => p = .requests) u v :=
    parted_moves (moves_replyTo (μ := fun p => p = .requests) rfl u s.mgmt.nextTicket r payload)
  have hexchange : v.exchange = u.exchange := hreplied.exchange (by simp)
  have hport := (hu.port.trans (portKept_moves (moves_replyTo (μ := fun _ => True) trivial u s.mgmt.nextTicket r payload)))
  have hend := portKept_moves (moves_finish_sending s v)
  rw [hrun]
  refine ⟨⟨⟨?_, ?_⟩, ?_⟩, ?_, ?_, fun i hi => ?_, fun i c hc => ?_, ?_⟩
  · rw [mgmt_finish]; exact hentry
  · rw [mgmt_finish]; exact hticket.trans hu.ticket
  · rw [hend.table, hport.table, ← hu.port.table]
    exact hend.frames _ hreply
  · exact (portKept_arrived s req kind params).trans (hport.trans hend)
  · rw [finish_reclose]
    exact hreplied.reclose (by simp)
  · have hslot : v.slot i = u.slot i := congrArg (fun x : OutstationExchange => look x.slots i) hexchange
    refine (slot_finish_of_not_due ?_).trans hslot
    rw [State.sendTestDue, State.admissions, hexchange, hslot]
    exact hi
  · refine has_finish s ?_
    rw [State.slot, hexchange]
    exact hc
  · exact rest_of_replying (s := s.arrived req kind params) (((hu.parted.mono fun _ hp => .inr (.inl hp)).trans
      (hreplied.mono fun _ => .inl)).trans ((parted_finish s v).mono fun _ hp => .inr (.inr hp)))

/-! ### RESET_LOCKOUT -/

theorem serveResetLockout_eq (f : Feeder) (n : Nat) (s : State) :
    serveResetLockout (BitVec.ofNat 8 f.val) n s = answer (s.resetLockout f) := by
  rw [serveResetLockout, withFeeder_ofNat]

theorem resetLockout_closed {s : State} {f : Feeder} {c : LockoutCause} (hstate : (s.recl f).state = .lockout c)
    (hknown : (s.slot (Feeder.head f)).known = .closed) :
    s.resetLockout f = ((s.removeReason f .sefLock).goReclose f .ready, .ok) := by
  simp [State.resetLockout, hstate, hknown]

theorem resetLockout_notClosed {s : State} {f : Feeder} {c : LockoutCause} (hstate : (s.recl f).state = .lockout c)
    (hknown : (s.slot (Feeder.head f)).known ≠ .closed) : s.resetLockout f = (s, .state) := by
  simp [State.resetLockout, hstate, hknown]

/-- Settles O52: READY, with SEF_LOCK removed, where slot 0 is known CLOSED, and STATE elsewhere. -/
theorem resetLockoutReadies : Obligations.ResetLockoutReadies := by
  intro s req f c hr hs hstate
  set s1 := s.arrived req 0x09#8 [BitVec.ofNat 8 f.val] with hs1
  have hstate1 : (s1.recl f).state = .lockout c := hstate
  refine ⟨fun hknown => ?_, fun hknown => ?_⟩
  · have howner := serveResetLockout_eq f s.mgmt.nextTicket s1
    rw [resetLockout_closed hstate1 hknown] at howner
    have hremoved : ((s1.removeReason f .sefLock).recl f).state = .lockout c := by
      rw [recl_removeReason, if_pos rfl]; exact hstate1
    have hu : s1.Changes ((s1.removeReason f .sefLock).goReclose f .ready) := (changes_removeReason s1 f .sefLock).trans
      (changes_moves (moves_goReclose (.inr rfl) _ f .ready {} (by simp [hremoved]) (by simp)))
    have h := requestEvent_changes true hr hs.toStill howner hu
    have hrecl : ∀ g, (s.requestEvent req 0x09#8 [BitVec.ofNat 8 f.val] true (serveResetLockout (BitVec.ofNat 8 f.val))).recl g
        = if g = f then ⟨.ready, (s.recl f).reasons.put false .sefLock⟩ else s.recl g := by
      intro g
      rw [State.recl, h.reclose, ← State.recl, recl_goReclose, recl_removeReason, recl_removeReason, if_pos rfl]
      by_cases hg : g = f
      · rw [if_pos hg, if_pos hg]; rfl
      · rw [if_neg hg, if_neg hg, if_neg hg]; rfl
    exact ⟨_, rfl, h.answered, (hrecl f).trans (if_pos rfl), fun g hg => (hrecl g).trans (if_neg hg), h.port, h.rest⟩
  · have howner := serveResetLockout_eq f s.mgmt.nextTicket s1
    rw [resetLockout_notClosed hstate1 hknown] at howner
    have hleaves : s.OwnerLeaves s1 req 0x09#8 [BitVec.ofNat 8 f.val] true :=
      { ownerLeaves_arrived s req _ _ with settled := fun _ => settle_still _ hs.noPending (.inr hs.noTrigger) }
    have h := requestEvent_replies hr howner hleaves
    exact ⟨_, rfl, h.answered, h.noNotice, h.port, h.rest⟩

end Sys2Proof.Machine
end

section
/-! SET_BLOCK and CLEAR_BLOCK (R80, R81, R88, R96 to R98): the member of the set, the reclose state, and the followers that are
blocked and released. -/

namespace Sys2Proof.Machine

/-! ### Walks over the slots of a feeder -/

section

variable {g : State → SlotId → State} (hg : ∀ s i j, j ≠ i → State.Spares s (g s j) i) {s : State} {f : Feeder} {i : SlotId}
include hg

/-- A slot of another feeder, or one at which the step does nothing, is spared by the walk. -/
theorem spares_walk (h : SlotId.feeder i ≠ f ∨ ∀ u, s.Spares u i → g u i = u) : s.Spares ((Feeder.slots f).foldl g s) i := by
  by_cases hf : SlotId.feeder i = f
  · obtain ⟨u, hu, ht⟩ := spares_foldl_of_mem (fun s j => hg s i j) (nodup_slots f) (mem_slots.2 hf) s
    rw [h.resolve_left (not_not.2 hf) u hu] at ht
    exact hu.trans ht
  · exact spares_foldl_of_not_mem (fun s j => hg s i j) (fun hi => hf (mem_slots.1 hi)) s

/-- What the step hands a slot of the feeder, the walk hands it. -/
theorem handedTo_walk (hf : SlotId.feeder i = f) {k : CmdKind} {waiting done : FollowerRecord}
    (h : ∀ u, s.Spares u i → u.HandedTo (g u i) i k waiting done) : s.HandedTo ((Feeder.slots f).foldl g s) i k waiting done := by
  obtain ⟨u, hu, ht⟩ := spares_foldl_of_mem (fun s j => hg s i j) (nodup_slots f) (mem_slots.2 hf) s
  exact (h u hu).mono hu.slot ht.follower fun c hc => by rw [ht.slot]; exact hc

end

/-! ### One follower -/

theorem spares_blockFollower (s : State) (i j : SlotId) (hj : j ≠ i) : s.Spares (s.blockFollower j) i := by
  have hblocked := (spares_moveFollower s hj .blockPending none none).trans (spares_handBlocking _ hj (k := .block) rfl)
  unfold State.blockFollower
  cases (s.follower j).state with
  | none | releasePending =>
    dsimp only
    split
    · exact hblocked
    · exact .refl s i
  | _ => exact .refl s i

theorem spares_releaseFollower (s : State) (i j : SlotId) (hj : j ≠ i) : s.Spares (s.releaseFollower j) i := by
  have hreleased := (spares_moveFollower s hj .releasePending none none).trans (spares_handBlocking _ hj (k := .release) rfl)
  unfold State.releaseFollower
  cases (s.follower j).state with
  | blockPending | blocked => exact hreleased
  | _ => exact .refl s i

section

variable {s : State} {i : SlotId} {l : Loaded}

theorem slot_moveFollower (s : State) (i j : SlotId) (st : FollowerState) (r : Option Nat) (k : Option Completion) :
    (s.moveFollower i st r k).slot j = s.slot j := by
  rw [State.slot, exchange_moveFollower]; rfl

/-- Blocking a follower that takes a BLOCK (R96, R97, R109). -/
theorem handedTo_blockFollower (h : (s.slot i).Follows l)
    (hst : (s.follower i).state = .none ∨ (s.follower i).state = .releasePending) :
    s.HandedTo (s.blockFollower i) i .block ⟨.blockPending, none⟩ ⟨.blocked, some (s.time + 1000 * l.refresh)⟩ := by
  have htakes : (s.slot i).takesBlocking = true := by
    rcases h.state with hs | hs <;> simp [Outstation.takesBlocking, h.loaded, h.follower, hs]
  have hblocks : s.blockFollower i = (s.moveFollower i .blockPending none).handBlocking i .block := by
    rcases hst with hs | hs <;> simp [State.blockFollower, hs, htakes]
  have hslot := slot_moveFollower s i i .blockPending none none
  rw [hblocks]
  refine (handedTo_handBlocking (k := .block) (l := l) (hslot ▸ h) rfl (by rw [follower_moveFollower, if_pos rfl]) ?_).mono
    hslot rfl fun _ hc => hc
  intro u hfollower hloaded htime
  rw [follower_blockDone (by rw [hfollower]) hloaded, htime, time_moveFollower]

/-- A follower in NONE whose slot takes nothing is left alone (R96). -/
theorem blockFollower_out (hst : (s.follower i).state = .none) (hservice : (s.slot i).state ≠ .inService)
    (hreach : (s.slot i).state ≠ .unreachable) : s.blockFollower i = s := by
  simp [State.blockFollower, hst, Outstation.takesBlocking, hservice, hreach]

/-- Releasing a follower that takes a RELEASE (R98, R109). -/
theorem handedTo_releaseFollower (h : (s.slot i).Follows l)
    (hst : (s.follower i).state = .blockPending ∨ (s.follower i).state = .blocked) :
    s.HandedTo (s.releaseFollower i) i .release ⟨.releasePending, none⟩ ⟨.none, none⟩ := by
  have hreleases : s.releaseFollower i = (s.moveFollower i .releasePending none).handBlocking i .release := by
    rcases hst with hs | hs <;> simp [State.releaseFollower, hs]
  have hslot := slot_moveFollower s i i .releasePending none none
  rw [hreleases]
  refine (handedTo_handBlocking (k := .release) (l := l) (hslot ▸ h) rfl (by rw [follower_moveFollower, if_pos rfl]) ?_).mono
    hslot rfl fun _ hc => hc
  intro u hfollower _ _
  exact follower_releaseDone (by rw [hfollower])

/-- A follower in NONE has nothing to release (R98). -/
theorem releaseFollower_none (hst : (s.follower i).state = .none) : s.releaseFollower i = s := by
  simp [State.releaseFollower, hst]

end

/-! ### The set, before its followers -/

theorem has_of_isEmpty {r : Reasons} (h : r.isEmpty = true) (m : Reason) : r.has m = false := by
  cases r
  cases m <;> simp_all [Reasons.isEmpty, Reasons.has]

theorem put_of_has {r : Reasons} {m : Reason} (h : r.has m = true) : r.put true m = r := by
  cases r
  cases m <;> simp_all [Reasons.has, Reasons.put]

theorem followers_goReclose (s : State) (f : Feeder) (st : RecloseState) (x : PermissionFailures) :
    (s.goReclose f st x).reclose.followers = s.reclose.followers := by
  rw [State.goReclose, notify_reclose]; rfl

theorem spares_changeReason (s : State) (f : Feeder) (m : Reason) (x : Bool) (i : SlotId) : s.Spares (s.changeReason f m x) i :=
  .trans (t := s.setRecl f { s.recl f with reasons := (s.recl f).reasons.put x m }) ⟨rfl, rfl, rfl, rfl⟩
    (spares_tells (tells_notify _ _ _) i)

theorem spares_reasonAdded (s : State) (f : Feeder) (i : SlotId) : s.Spares (s.reasonAdded f) i := by
  refine spares_of_parted (parted_moves (moves_reasonAdded (μ := fun p => p = .reclose) rfl s f)) (by simp) ?_ i
  unfold State.reasonAdded
  split
  · exact followers_goReclose _ _ _ _
  · rfl
  · rfl

/-- The member has joined the set, and the reclose state has responded (R80, R88). -/
def State.joined (s : State) (f : Feeder) (m : Reason) : State := (s.changeReason f m true).reasonAdded f

theorem addReason_absent {s : State} {f : Feeder} {m : Reason} (h : (s.recl f).reasons.has m = false) :
    s.addReason f m
      = if (s.recl f).reasons.isEmpty then (Feeder.slots f).foldl State.blockFollower (s.joined f m) else s.joined f m := by
  simp [State.addReason, h, State.joined]

theorem spares_joined (s : State) (f : Feeder) (m : Reason) (i : SlotId) : s.Spares (s.joined f m) i :=
  (spares_changeReason s f m true i).trans (spares_reasonAdded _ f i)

theorem removeReason_present {s : State} {f : Feeder} {m : Reason} (h : (s.recl f).reasons.has m = true) :
    s.removeReason f m = if ((s.recl f).reasons.put false m).isEmpty
      then (Feeder.slots f).foldl State.releaseFollower (s.changeReason f m false) else s.changeReason f m false := by
  simp [State.removeReason, h]

/-! ### A member is added -/

section

variable {s : State} {f : Feeder} {m : Reason}

theorem recl_addReason (h : (s.recl f).reasons.has m = false) (g : Feeder) : (s.addReason f m).recl g = (s.joined f m).recl g := by
  rw [addReason_absent h]
  split
  · exact recl_of_records (foldl_leaves (fun t => t.reclose.records) _ records_blockFollower _ _) g
  · rfl

theorem recl_addReason_ne {g : Feeder} (hg : g ≠ f) : (s.addReason f m).recl g = s.recl g := by
  cases hm : (s.recl f).reasons.has m
  · rw [recl_addReason hm, State.joined, recl_reasonAdded_ne _ hg, recl_changeReason, if_neg hg]
  · rw [addReason_present s f m hm]

theorem reasons_addReason : ((s.addReason f m).recl f).reasons = (s.recl f).reasons.put true m := by
  cases hm : (s.recl f).reasons.has m
  · rw [recl_addReason hm, State.joined, reasons_reasonAdded, recl_changeReason, if_pos rfl]
  · rw [addReason_present s f m hm, put_of_has hm]

/-- A member added in DEAD_TIME locks out (R88). -/
theorem addReason_deadTime {n d : Nat} (hstate : (s.recl f).state = .deadTime n d) (hm : (s.recl f).reasons.has m = false) :
    ((s.addReason f m).recl f).state = .lockout .blocked := by
  have hchanged : ((s.changeReason f m true).recl f).state = .deadTime n d := by
    rw [recl_changeReason, if_pos rfl]; exact hstate
  rw [recl_addReason hm, State.joined, State.reasonAdded, hchanged]
  dsimp only
  rw [recl_goReclose, if_pos rfl]

/-- A set that becomes non-empty blocks its followers (R96). -/
theorem handedTo_addReason {i : SlotId} {l : Loaded} (hf : SlotId.feeder i = f) (hempty : (s.recl f).reasons.isEmpty = true)
    (h : (s.slot i).Follows l) (hst : (s.follower i).state = .none ∨ (s.follower i).state = .releasePending) :
    s.HandedTo (s.addReason f m) i .block ⟨.blockPending, none⟩ ⟨.blocked, some (s.time + 1000 * l.refresh)⟩ := by
  have hjoined := spares_joined s f m i
  rw [addReason_absent (has_of_isEmpty hempty m), if_pos hempty]
  refine (handedTo_walk spares_blockFollower hf fun u hu => ?_).mono hjoined.slot rfl fun _ hc => hc
  have hu := hjoined.trans hu
  rw [← hu.time]
  exact handedTo_blockFollower (hu.slot.symm ▸ h) (by rw [hu.follower]; exact hst)

/-- The slots and followers that an added member leaves alone (R80, R96). -/
theorem spares_addReason {i : SlotId} (h : SlotId.feeder i ≠ f ∨ (s.recl f).reasons.isEmpty = false ∨ (s.follower i).state = .none
    ∧ (s.slot i).state ≠ .inService ∧ (s.slot i).state ≠ .unreachable) : s.Spares (s.addReason f m) i := by
  cases hm : (s.recl f).reasons.has m with
  | true => rw [addReason_present s f m hm]; exact .refl s i
  | false =>
    have hjoined := spares_joined s f m i
    rw [addReason_absent hm]
    split
    · rename_i hempty
      refine hjoined.trans (spares_walk spares_blockFollower ?_)
      obtain hf | hne | ⟨hst, hservice, hreach⟩ := h
      · exact .inl hf
      · rw [hne] at hempty; cases hempty
      · refine .inr fun u hu => ?_
        have hu := hjoined.trans hu
        exact blockFollower_out (by rw [hu.follower]; exact hst) (by rw [hu.slot]; exact hservice) (by rw [hu.slot]; exact hreach)
    · exact hjoined

/-! ### A member is removed -/

/-- A set that becomes empty releases its followers (R98). -/
theorem handedTo_removeReason {i : SlotId} {l : Loaded} (hf : SlotId.feeder i = f) (hm : (s.recl f).reasons.has m = true)
    (hempty : ((s.recl f).reasons.put false m).isEmpty = true) (h : (s.slot i).Follows l)
    (hst : (s.follower i).state = .blockPending ∨ (s.follower i).state = .blocked) :
    s.HandedTo (s.removeReason f m) i .release ⟨.releasePending, none⟩ ⟨.none, none⟩ := by
  have hleft := spares_changeReason s f m false i
  rw [removeReason_present hm, if_pos hempty]
  refine (handedTo_walk spares_releaseFollower hf fun u hu => ?_).mono hleft.slot rfl fun _ hc => hc
  have hu := hleft.trans hu
  exact handedTo_releaseFollower (hu.slot.symm ▸ h) (by rw [hu.follower]; exact hst)

/-- The slots and followers that a removed member leaves alone (R80, R98). -/
theorem spares_removeReason {i : SlotId} (h : SlotId.feeder i ≠ f ∨ (s.recl f).reasons.has m = false
    ∨ ((s.recl f).reasons.put false m).isEmpty = false ∨ (s.follower i).state = .none) : s.Spares (s.removeReason f m) i := by
  cases hm : (s.recl f).reasons.has m with
  | false => rw [removeReason_absent s f m hm]; exact .refl s i
  | true =>
    have hleft := spares_changeReason s f m false i
    rw [removeReason_present hm]
    split
    · rename_i hempty
      refine hleft.trans (spares_walk spares_releaseFollower ?_)
      obtain hf | habsent | hne | hst := h
      · exact .inl hf
      · rw [hm] at habsent; cases habsent
      · rw [hne] at hempty; cases hempty
      · exact .inr fun u hu => releaseFollower_none (by rw [hu.follower, hleft.follower]; exact hst)
    · exact hleft

end

/-! ### The two requests -/

theorem serveBlock_operator {f : Feeder} {b : Byte} {m : Reason} (h : b = 0x01#8 ∧ m = .manual ∨ b = 0x02#8 ∧ m = .hotLine)
    (add : Bool) (n : Nat) (s : State) :
    serveBlock add (BitVec.ofNat 8 f.val) b n s = answer (if add then s.addReason f m else s.removeReason f m, .ok) := by
  have hmember : memberOf b = some m ∧ m.operator = true := by
    obtain ⟨rfl, rfl⟩ | ⟨rfl, rfl⟩ := h <;> exact ⟨rfl, rfl⟩
  rw [serveBlock, withFeeder_ofNat, hmember.1]
  exact if_pos hmember.2

section

variable {s u t : State} {req : RequestId} {kind : Byte} {params : List Byte} {r : Result} {payload : List Byte}

/-- What the owner handed a slot is handed at the end of the event. -/
theorem State.RepliedAfter.handedTo (h : s.RepliedAfter u t req kind params r payload) {i : SlotId} {k : CmdKind}
    {waiting done : FollowerRecord} (hu : (s.arrived req kind params).HandedTo u i k waiting done) :
    s.HandedTo t i k waiting done :=
  hu.mono rfl (look_congr (congrArg RecloseController.followers h.reclose) i) (h.has i)

/-- What the owner spared is as it was at the end of the event. -/
theorem State.RepliedAfter.spares (h : s.RepliedAfter u t req kind params r payload) {i : SlotId}
    (hu : (s.arrived req kind params).Spares u i) : t.slot i = s.slot i ∧ t.follower i = s.follower i := by
  have hslot : u.slot i = s.slot i := hu.slot
  have hadmitted : u.admissions i = s.admissions i := hu.admissions
  have hdue : State.sendTestDue s u i = false := by simp [State.sendTestDue, hslot, hadmitted]
  exact ⟨(h.slot i hdue).trans hslot, (look_congr (congrArg RecloseController.followers h.reclose) i).trans hu.follower⟩

theorem State.RepliedAfter.recl (h : s.RepliedAfter u t req kind params r payload) (g : Feeder) : t.recl g = u.recl g :=
  recl_of_records (congrArg RecloseController.records h.reclose) g

end

/-- Settles O48: the owner adds or removes the member, and what it hands its followers stands at the end of the event. -/
theorem blocksJoinAndLeave : Obligations.BlocksJoinAndLeave := by
  intro s req f m b hr hs hb
  constructor
  · set s1 := s.arrived req 0x04#8 [BitVec.ofNat 8 f.val, b] with hs1
    have h := requestEvent_changes true hr hs.toStill (serveBlock_operator hb true s.mgmt.nextTicket s1) (changes_addReason s1 f m)
    refine ⟨_, rfl, h.answered, ?_, fun n d hstate hm => ?_, fun i l hf hloaded hfollower hkind hempty hst hservice => ?_,
      fun i hi => ?_, fun g hg => ?_, h.port, h.rest⟩
    · rw [h.recl]; exact reasons_addReason
    · rw [h.recl]; exact addReason_deadTime hstate hm
    · exact h.handedTo (handedTo_addReason (s := s1) (l := l) hf hempty ⟨hloaded, hfollower, hkind, hservice⟩ hst)
    · exact h.spares (spares_addReason hi)
    · rw [h.recl]; exact recl_addReason_ne hg
  · set s1 := s.arrived req 0x05#8 [BitVec.ofNat 8 f.val, b] with hs1
    have h := requestEvent_changes false hr hs.toStill (serveBlock_operator hb false s.mgmt.nextTicket s1)
      (changes_removeReason s1 f m)
    refine ⟨_, rfl, h.answered, ?_, fun i l hf hloaded hfollower hkind hm hempty hst hservice => ?_, fun i hi => ?_,
      fun g hg => ?_, h.port, h.rest⟩
    · exact (h.recl f).trans ((recl_removeReason s1 f f m).trans (if_pos rfl))
    · exact h.handedTo (handedTo_removeReason (s := s1) (l := l) hf hm hempty ⟨hloaded, hfollower, hkind, hservice⟩ hst)
    · exact h.spares (spares_removeReason hi)
    · exact (h.recl g).trans ((recl_removeReason s1 f g m).trans (if_neg hg))

end Sys2Proof.Machine
end

section
/-! STATUS_REPORT (R117, R119 to R121): the slot that a report leaves, and EXTERNAL_OPEN (R90). -/

namespace Sys2Proof.Machine

/-! ### What a report leaves alone -/

/-- Of the fixed parts, only what the slots know has changed. -/
def State.StillAside (s t : State) : Prop := t.fixed = { s.fixed with still := t.fixed.still }

theorem State.StillAside.trans {s t u : State} (h : s.StillAside t) (h' : t.StillAside u) : s.StillAside u :=
  Eq.trans h' (congrArg (fun x : Fixed => { x with still := u.fixed.still }) h)

theorem stillAside_moves {μ : Part → Prop} {s t : State} (h : Moves μ s t) : s.StillAside t := by
  rw [State.StillAside, fixed_moves h]

/-- A slot has taken a new record, and beside that there are only notices. -/
structure State.Records (s t : State) (i : SlotId) (o : Outstation) : Prop where
  puts : ∃ n, s.Puts t i o n
  aside : s.StillAside t

namespace State.Records

variable {s t : State} {i : SlotId} {o : Outstation}

theorem refl (s : State) (i : SlotId) : s.Records s i (s.slot i) :=
  ⟨⟨0, .refl s, rfl, fun _ _ => rfl, Nat.le_refl _, rfl⟩, rfl⟩

theorem set (h : s.Records t i o) (o' : Outstation) : s.Records (t.setSlot i o') i o' := by
  obtain ⟨⟨n, hputs⟩, haside⟩ := h
  exact ⟨⟨n, hputs.set o'⟩, haside.trans rfl⟩

theorem notifySlot (h : s.Records t i o) (st : SlotState) (x : OutReason) : s.Records (t.notifySlot i st x) i o := by
  obtain ⟨⟨n, hputs⟩, haside⟩ := h
  exact ⟨⟨n + 1, hputs.notifySlot i st x⟩, haside.trans (stillAside_moves (tells_notify _ _ _))⟩

theorem slot (h : s.Records t i o) : t.slot i = o := h.puts.choose_spec.slot

theorem parted (h : s.Records t i o) : Parted (fun p => p = .exchange) s t := h.puts.choose_spec.parted

theorem recl (h : s.Records t i o) (f : Feeder) : t.recl f = s.recl f := h.puts.choose_spec.recl f

theorem others (h : s.Records t i o) {j : SlotId} (hj : j ≠ i) : t.slot j = s.slot j := h.puts.choose_spec.others j hj

/-- An UNREACHABLE slot that reports is IN_SERVICE (R117). -/
theorem reach (h : s.Records t i o) : s.Records (t.reach i) i o.reached := by
  unfold State.reach Outstation.reached
  simp only [h.slot, beq_iff_eq]
  split
  · exact (h.set _).notifySlot _ _
  · exact h

end State.Records

/-! ### Flags, passage report and position -/

/-- A slot whose latest flags and passage report have been replaced (R119, R120). -/
def Outstation.flagged (o : Outstation) (b : Byte) (now : Nat) : Outstation :=
  { o with flags := some (reportFlags b), passage := some (reportPassage b now) }

/-- A slot into whose known position a reported one has been filtered (R119, R121). -/
def Outstation.filtered (o : Outstation) (opn : Bool) : Outstation :=
  { o with history := pushReport o.history opn, known := (agreed (pushReport o.history opn)).getD o.known }

/-- The report makes the slot known OPEN. -/
def Outstation.opens (o : Outstation) (opn : Bool) : Prop :=
  o.known ≠ .opened ∧ agreed (pushReport o.history opn) = some .opened

section

variable {s t : State} {i : SlotId} {o : Outstation}

theorem records_takeFlags (h : s.Records t i o) (b : Byte) : s.Records (t.takeFlags i b) i (o.flagged b s.time) := by
  unfold State.takeFlags
  simp only [h.slot, h.parted.time]
  split
  · exact h.set _
  · exact (h.set _).notifySlot _ _

/-- A report that brings no new known position (R119). -/
theorem filterReport_kept {opn : Bool} (h : agreed (pushReport (s.slot i).history opn) = none
    ∨ agreed (pushReport (s.slot i).history opn) = some (s.slot i).known) :
    s.filterReport i opn = s.setSlot i ((s.slot i).filtered opn) := by
  rcases h with h | h <;> simp [State.filterReport, Outstation.filtered, h]

/-- A report that changes the known position (R119, R121). -/
theorem filterReport_changed {opn : Bool} {p : Position} (h : agreed (pushReport (s.slot i).history opn) = some p)
    (hp : (s.slot i).known ≠ p) : s.filterReport i opn
      = if SlotId.position i = 0 ∧ p = .opened
        then ((s.setSlot i ((s.slot i).filtered opn)).notifySlot i (s.slot i).state .reported).externalOpen (SlotId.feeder i)
        else (s.setSlot i ((s.slot i).filtered opn)).notifySlot i (s.slot i).state .reported := by
  simp [State.filterReport, Outstation.filtered, h, hp]

/-- A reported position, filtered; where it makes the head of a feeder known OPEN the Reclose Controller is told. -/
theorem filterReport_cases (h : s.Records t i o) (opn : Bool) : ∃ v, s.Records v i (o.filtered opn)
    ∧ (SlotId.position i = 0 ∧ o.opens opn → t.filterReport i opn = v.externalOpen (SlotId.feeder i))
    ∧ (¬ (SlotId.position i = 0 ∧ o.opens opn) → t.filterReport i opn = v) := by
  obtain rfl := h.slot
  have hset := h.set ((t.slot i).filtered opn)
  by_cases hkept : agreed (pushReport (t.slot i).history opn) = none
      ∨ agreed (pushReport (t.slot i).history opn) = some (t.slot i).known
  · refine ⟨_, hset, fun ⟨_, hknown, hagreed⟩ => ?_, fun _ => filterReport_kept hkept⟩
    rw [hagreed] at hkept
    exact absurd (Option.some.inj (hkept.resolve_left (by simp))).symm hknown
  · obtain ⟨hne, hknown⟩ := not_or.1 hkept
    obtain ⟨p, hp⟩ := Option.ne_none_iff_exists'.1 hne
    have hknown : (t.slot i).known ≠ p := fun he => hknown (by rw [hp, he])
    have hopens : (t.slot i).opens opn ↔ p = .opened := by
      rw [Outstation.opens, hp, Option.some.injEq]
      exact ⟨And.right, fun he => ⟨he ▸ hknown, he⟩⟩
    rw [filterReport_changed hp hknown, hopens]
    exact ⟨_, hset.notifySlot _ _, fun hx => if_pos hx, fun hx => if_neg hx⟩

/-- While a switching command is in flight, or where no position is reported, the known position stays (R119). -/
theorem handleReport_flags {pos : ReportPosition} (h : (s.slot i).flying CmdKind.isSwitching = true ∨ pos = .none) (b : Byte) :
    s.handleReport i pos b = s.takeFlags i b := by
  unfold State.handleReport
  obtain h | rfl := h
  · exact if_pos h
  · dsimp only
    split <;> rfl

theorem handleReport_position {pos : ReportPosition} (h : (s.slot i).flying CmdKind.isSwitching = false) (hpos : pos ≠ .none)
    (b : Byte) : s.handleReport i pos b = (s.takeFlags i b).filterReport i (pos == .opened) := by
  unfold State.handleReport
  rw [h]
  cases pos with
  | none => exact absurd rfl hpos
  | opened | closed => rfl

end

/-! ### EXTERNAL_OPEN -/

theorem recl_externalOpen (s : State) (f g : Feeder) : (s.externalOpen f).recl g
    = if g = f ∧ (s.recl f).state = .ready then { s.recl f with state := .lockout .externalOpen } else s.recl g := by
  unfold State.externalOpen
  cases hst : (s.recl f).state with
  | ready => rw [recl_goReclose]; simp
  | _ => simp

theorem eq_head_iff {i : SlotId} {g : Feeder} : i = Feeder.head g ↔ SlotId.position i = 0 ∧ SlotId.feeder i = g := by
  simp only [Fin.ext_iff, Feeder.head, Feeder.slot, SlotId.position, SlotId.feeder]
  have : ((0 : Fin 8) : Nat) = 0 := rfl
  omega

/-! ### The end of the event -/

section

variable {s u v : State} {i : SlotId} {o : Outstation}

/-- Once a slot has taken its record, the rest of the event changes nothing that the fixed parts hold. -/
theorem State.Records.concluded (h : s.Records v i o) (hu : Moves (fun _ => True) v u) :
    (∀ j, j ≠ i → ((State.conclude72 s u).slot j).still = (s.slot j).still) ∧ s.StillAside (State.conclude72 s u)
      ∧ ((State.conclude72 s u).slot i).still = o.still := by
  have hmoves := hu.trans (moves_conclude72 s u)
  refine ⟨fun j hj => ?_, h.aside.trans (stillAside_moves hmoves), ?_⟩
  · rw [still_of_fixed (fixed_moves hmoves), h.others hj]
  · rw [still_of_fixed (fixed_moves hmoves), h.slot]

theorem recl_conclude72 (hs : s.Still) (h : Parted Closing s u) (g : Feeder) : (State.conclude72 s u).recl g = u.recl g := by
  rw [conclude72_of_parted hs h (by simp [Closing]) (by simp [Closing]), recl_finish]

end

/-! ### A report -/

theorem exec_statusReport {s : State} (hheld : s.held = false) (source : U16) (pos : ReportPosition) (b : Byte) :
    exec (.statusReport source pos b) s = .next (State.conclude72 s (s.takeReport source pos b)) := by
  change execStatusReport source pos b s = _
  simp [execStatusReport, State.unlessHeld, hheld]

theorem takeReport_reached {s : State} {source : U16} {i : SlotId} (hslot : s.knownSlot source = some i)
    (hservice : (s.slot i).state = .inService ∨ (s.slot i).state = .unreachable) (pos : ReportPosition) (b : Byte) :
    s.takeReport source pos b = (s.reach i).handleReport i pos b := by
  rcases hservice with hst | hst <;> simp [State.takeReport, hslot, hst]

theorem takeReport_out {s : State} {source : U16} {i : SlotId} (hslot : s.knownSlot source = some i)
    (hservice : ¬ ((s.slot i).state = .inService ∨ (s.slot i).state = .unreachable)) (pos : ReportPosition) (b : Byte) :
    s.takeReport source pos b = s := by
  cases hst : (s.slot i).state with
  | inService | unreachable => simp [hst] at hservice
  | _ => simp [State.takeReport, hslot, hst]

theorem Outstation.reached_keeps (o : Outstation) : o.reached.inFlight = o.inFlight ∧ o.reached.history = o.history := by
  unfold Outstation.reached
  split <;> exact ⟨rfl, rfl⟩

theorem Outstation.opens_reached (o : Outstation) (opn : Bool) : o.reached.opens opn ↔ o.opens opn := by
  rw [Outstation.opens, Outstation.opens, o.reached_known, o.reached_keeps.2]

theorem reach_flying (s : State) (i : SlotId) :
    ((s.reach i).slot i).flying CmdKind.isSwitching = (s.slot i).flying CmdKind.isSwitching := by
  rw [(State.Records.refl s i).reach.slot, Outstation.flying, (s.slot i).reached_keeps.1]
  rfl

section

variable {s : State} {source : U16} {i : SlotId} (hslot : s.knownSlot source = some i)
  (hservice : (s.slot i).state = .inService ∨ (s.slot i).state = .unreachable)
include hslot hservice

/-- A report that leaves the known position alone. -/
theorem takeReport_flags {pos : ReportPosition} (h : (s.slot i).flying CmdKind.isSwitching = true ∨ pos = .none) (b : Byte) :
    s.Records (s.takeReport source pos b) i ((s.slot i).reached.flagged b s.time) := by
  rw [takeReport_reached hslot hservice, handleReport_flags (by rw [reach_flying]; exact h)]
  exact records_takeFlags (State.Records.refl s i).reach b

/-- A report whose position is filtered. -/
theorem takeReport_position {pos : ReportPosition} (h : (s.slot i).flying CmdKind.isSwitching = false) (hpos : pos ≠ .none)
    (b : Byte) : ∃ v, s.Records v i (((s.slot i).reached.flagged b s.time).filtered (pos == .opened))
      ∧ (SlotId.position i = 0 ∧ (s.slot i).opens (pos == .opened) →
        s.takeReport source pos b = v.externalOpen (SlotId.feeder i))
      ∧ (¬ (SlotId.position i = 0 ∧ (s.slot i).opens (pos == .opened)) → s.takeReport source pos b = v) := by
  rw [takeReport_reached hslot hservice, handleReport_position (by rw [reach_flying]; exact h) hpos,
    ← Outstation.opens_reached]
  exact filterReport_cases (records_takeFlags (State.Records.refl s i).reach b) _

end

/-! ### What the slot knows after a report -/

section

variable {o : Outstation} (h : o.state = .inService ∨ o.state = .unreachable) (b : Byte) (now : Nat)
include h

theorem still_flagged : (o.reached.flagged b now).still = { o.still with
    state := .inService
    failures := if o.state = .unreachable then 0 else o.failures
    flags := some ⟨b.getLsbD 0, b.getLsbD 1⟩, passage := some ⟨b.getLsbD 2, b.getLsbD 3, now⟩ } := by
  rcases h with hst | hst <;>
    simp [Outstation.flagged, Outstation.reached, Outstation.still, hst, reportFlags, reportPassage]

theorem still_filtered (opn : Bool) : ((o.reached.flagged b now).filtered opn).still = { o.still with
    state := .inService
    failures := if o.state = .unreachable then 0 else o.failures
    flags := some ⟨b.getLsbD 0, b.getLsbD 1⟩, passage := some ⟨b.getLsbD 2, b.getLsbD 3, now⟩
    history := pushReport o.history opn
    known := (agreed (pushReport o.history opn)).getD o.known } := by
  rcases h with hst | hst <;>
    simp [Outstation.filtered, Outstation.flagged, Outstation.reached, Outstation.still, hst, reportFlags, reportPassage]

end

/-- A report whose event changed nothing but its slot changes no reclose record. -/
theorem State.Records.recl_conclude72 {s u : State} {i : SlotId} {o : Outstation} (h : s.Records u i o) (hs : s.Still) (g : Feeder) :
    (State.conclude72 s u).recl g = s.recl g :=
  (Machine.recl_conclude72 hs (h.parted.mono fun _ => .inl) g).trans (h.recl g)

/-- The reclose records after a report whose position is filtered (R90, R121). -/
theorem recl_reported {s u v : State} {i : SlotId} {o : Outstation} (hs : s.Still) (hv : s.Records v i o) {x : Prop} [Decidable x]
    (hopen : SlotId.position i = 0 ∧ x → u = v.externalOpen (SlotId.feeder i)) (hkept : ¬ (SlotId.position i = 0 ∧ x) → u = v)
    (g : Feeder) : (State.conclude72 s u).recl g
      = if i = Feeder.head g ∧ x ∧ (s.recl g).state = .ready then { s.recl g with state := .lockout .externalOpen }
        else s.recl g := by
  by_cases hx : SlotId.position i = 0 ∧ x
  · obtain rfl := hopen hx
    have hparted : Parted Closing s (v.externalOpen (SlotId.feeder i)) :=
      (hv.parted.mono fun _ => .inl).trans (parted_moves (moves_externalOpen (.inr rfl) v _))
    rw [Machine.recl_conclude72 hs hparted, recl_externalOpen, hv.recl, hv.recl]
    by_cases hg : g = SlotId.feeder i
    · subst hg
      simp [eq_head_iff, hx.1, hx.2]
    · rw [if_neg fun h => hg h.1, if_neg fun h => hg (eq_head_iff.1 h.1).2.symm]
  · obtain rfl := hkept hx
    rw [hv.recl_conclude72 hs, if_neg fun h => hx ⟨(eq_head_iff.1 h.1).1, h.2.1⟩]

/-- Settles O29, by what the report finds: a slot that is not in service, a report of flags alone, or a position. -/
theorem statusReportTaken : Obligations.StatusReportTaken := by
  intro s i source pos b hheld hslot
  refine ⟨_, exec_statusReport hheld source pos b, ?_⟩
  by_cases hservice : (s.slot i).state = .inService ∨ (s.slot i).state = .unreachable
  · by_cases hflags : (s.slot i).flying CmdKind.isSwitching = true ∨ pos = .none
    · have hrecords := takeReport_flags hslot hservice hflags b
      obtain ⟨hothers, haside, hstill⟩ := hrecords.concluded .rfl
      refine ⟨hothers, haside, fun _ => ⟨fun _ => hstill.trans (still_flagged hservice b s.time), fun hfly hpos => ?_⟩,
        fun hin hout => absurd hservice (not_or.2 ⟨hin, hout⟩), fun hs g => ?_⟩
      · rw [hfly] at hflags
        exact absurd (hflags.resolve_left Bool.false_ne_true) hpos
      · rw [hrecords.recl_conclude72 hs.toStill, if_neg]
        rintro ⟨_, _, hfly, hpos, _⟩
        rw [hfly] at hflags
        exact absurd (hflags.resolve_left Bool.false_ne_true) hpos
    · obtain ⟨hfly, hpos⟩ := not_or.1 hflags
      have hfly : (s.slot i).flying CmdKind.isSwitching = false := by simpa using hfly
      obtain ⟨v, hrecords, hopen, hkept⟩ := takeReport_position hslot hservice hfly hpos b
      have hmoves : Moves (fun _ => True) v (s.takeReport source pos b) := by
        by_cases hx : SlotId.position i = 0 ∧ (s.slot i).opens (pos == .opened)
        · rw [hopen hx]; exact moves_externalOpen trivial v _
        · rw [hkept hx]
      obtain ⟨hothers, haside, hstill⟩ := hrecords.concluded hmoves
      refine ⟨hothers, haside,
        fun _ => ⟨fun h => absurd h hflags, fun _ _ => hstill.trans (still_filtered hservice b s.time _)⟩,
        fun hin hout => absurd hservice (not_or.2 ⟨hin, hout⟩), fun hs g => ?_⟩
      have : Decidable ((s.slot i).opens (pos == .opened)) := inferInstanceAs (Decidable (_ ∧ _))
      rw [recl_reported hs.toStill hrecords hopen hkept]
      simp only [Outstation.opens, hservice, hfly, hpos, true_and, ne_eq, not_false_eq_true, and_assoc]
  · rw [takeReport_out hslot hservice]
    obtain ⟨hothers, haside, _⟩ := (State.Records.refl s i).concluded .rfl
    refine ⟨hothers, haside, fun h => absurd h hservice, fun _ _ => fixed_moves (moves_conclude72 s s), fun hs g => ?_⟩
    rw [(State.Records.refl s i).recl_conclude72 hs.toStill, if_neg fun h => hservice h.2.1]

end Sys2Proof.Machine
end

section
/-! The slots of the outstation table: what R110 asks of them holds at every step, and the rule of the SWITCH group (R106, R108). -/

namespace Sys2Proof.Machine

/-- Settles O12: a step is a chain of acts, and in a state whose slots are sound every act keeps them so. -/
theorem slotsStaySound : Obligations.SlotsStaySound :=
  fun s t hs hstep => acts_keep State.SlotsOk (fun u v hact => slotsOk_act u v hact hs) (acts_step s t hstep) hs

/-! ### The SWITCH group (R106, R108) -/

theorem isSwitch_iff {k : CmdKind} : k.isSwitch = true ↔ k = .opn ∨ k = .close := by
  cases k <;> simp [CmdKind.isSwitch]

theorem turnsAway_of_permitted {o : Outstation} {c : Cmd} (hstate : o.state = .inService)
    (hpermitted : (o.loaded.any fun l => c.kind.permittedFor l.kind) = true) : o.turnsAway false c = none := by
  simp [Outstation.turnsAway, Outstation.admits, hstate, hpermitted]

/-- An OPEN or CLOSE that no check turns away comes to the rule of its group (R106). -/
theorem admitCmd_of_switch {test : Bool} {o : Outstation} {c : Cmd} (hkind : c.kind.isSwitch = true)
    (hadmitted : o.turnsAway test c = none) (i : SlotId) : admitCmd test i o c = admitSwitch i o c := by
  unfold admitCmd
  rw [hadmitted]
  obtain hk | hk := isSwitch_iff.1 hkind <;> simp only [hk]

theorem queued_isSwitch_iff {o : Outstation} :
    o.queued CmdKind.isSwitch = true ↔ ∃ q ∈ o.queue, q.kind = .opn ∨ q.kind = .close := by
  simp only [Outstation.queued, List.any_eq_true, isSwitch_iff]

/-- Settles O58: the two branches of the rule of the SWITCH group. -/
theorem switchAdmission : Obligations.SwitchAdmission := by
  rintro test i o c hkind hstate ⟨l, hloaded, hpermitted⟩ rfl
  have hadmitted : o.turnsAway false c = none := turnsAway_of_permitted hstate (by simp [hloaded, hpermitted])
  rw [admitCmd_of_switch (isSwitch_iff.2 hkind) hadmitted, admitSwitch]
  constructor
  · intro hqueued
    exact if_pos (queued_isSwitch_iff.2 hqueued)
  · intro hfree
    refine if_neg fun hqueued => ?_
    obtain ⟨q, hq, hswitch⟩ := queued_isSwitch_iff.1 hqueued
    exact hswitch.elim (hfree q hq).1 (hfree q hq).2

end Sys2Proof.Machine
end

section
/-! What the working of an event does to the Outstation Exchange: it hands commands, and beside that it leaves the slots alone. Every
operation from the followers up to the settling of an event is a chain of such steps (R53, R96, R98, R135 to R145). -/

namespace Sys2Proof.Machine

/-- The parts that do not belong to the Exchange. -/
abbrev Outside (p : Part) : Prop := p ≠ .exchange

/-- One step of a working event as the slots see it: it does not concern them, or a command is handed to one of them. -/
inductive HandStep : State → State → Prop
  | aside {s t : State} (h : Moves Outside s t) : HandStep s t
  | hand (s : State) (i : SlotId) (c : Cmd) (hk : c.kind ≠ .enrol) : HandStep s (s.handCmd i c).1

/-- A chain of such steps. -/
abbrev Hands : State → State → Prop := Relation.ReflTransGen HandStep

theorem Hands.rfl {s : State} : Hands s s := Relation.ReflTransGen.refl

theorem Hands.aside {s t : State} (h : Moves Outside s t) : Hands s t := Relation.ReflTransGen.single (.aside h)

/-- The last part of a chain, then what came before it. -/
theorem Hands.after {s t u : State} (h : Hands t u) (h0 : Hands s t) : Hands s u := h0.trans h

/-- A last part that does not concern the slots. -/
theorem Hands.asideAfter {s t u : State} (h : Moves Outside t u) (h0 : Hands s t) : Hands s u := h0.trans (Hands.aside h)

theorem hands_foldl {α : Type} (g : State → α → State) (h : ∀ s x, Hands s (g s x)) (l : List α) (s : State) :
    Hands s (l.foldl g s) :=
  List.foldlRecOn l g (motive := fun t => Hands s t) .rfl fun t ht x _ => ht.trans (h t x)

theorem hands_ite {s : State} {c : Prop} [Decidable c] {a b : State} (ha : Hands s a) (hb : Hands s b) :
    Hands s (if c then a else b) := by split <;> assumption

theorem hands_handCmd (s : State) (i : SlotId) (c : Cmd) (hk : c.kind ≠ .enrol) : Hands s (s.handCmd i c).1 :=
  Relation.ReflTransGen.single (.hand s i c hk)

theorem hands_mapCtx (s : State) (g : HuntContext → HuntContext) : Hands s (s.mapCtx g) := .aside (moves_mapCtx (by decide) s g)

theorem hands_appendOutcome (s : State) (v : OutcomeValue) : Hands s (s.appendOutcome v) :=
  .aside (moves_appendOutcome (by decide) s v)

/-! ### Followers and block reason sets -/

theorem hands_handBlocking (s : State) (i : SlotId) {k : CmdKind} (hk : k ≠ .enrol) : Hands s (s.handBlocking i k) :=
  .asideAfter (moves_foldl _ (moves_blockingCompleted (by decide)) _ _) (hands_handCmd s i _ hk)

/-- A follower moves and is handed a BLOCKING command (R96, R98). -/
theorem hands_moveFollower_handBlocking (s : State) (i : SlotId) (st : FollowerState) {k : CmdKind} (hk : k ≠ .enrol) :
    Hands s ((s.moveFollower i st none).handBlocking i k) :=
  .after (hands_handBlocking _ i hk) (.aside (moves_moveFollower (by decide) s i st none none))

theorem hands_blockFollower (s : State) (i : SlotId) : Hands s (s.blockFollower i) := by
  unfold State.blockFollower
  split
  · exact hands_ite (hands_moveFollower_handBlocking s i _ (by decide)) .rfl
  · exact hands_ite (hands_moveFollower_handBlocking s i _ (by decide)) .rfl
  · exact .rfl
  · exact .rfl

theorem hands_releaseFollower (s : State) (i : SlotId) : Hands s (s.releaseFollower i) := by
  unfold State.releaseFollower
  split
  · exact hands_moveFollower_handBlocking s i _ (by decide)
  · exact hands_moveFollower_handBlocking s i _ (by decide)
  · exact .rfl
  · exact .rfl

theorem hands_followerEntered (s : State) (i : SlotId) : Hands s (s.followerEntered i) := by
  unfold State.followerEntered
  split
  · exact .rfl
  · split
    · exact hands_blockFollower s i
    · exact .rfl

theorem hands_addReason (s : State) (f : Feeder) {m : Reason} (hm : m.inner) : Hands s (s.addReason f m) := by
  have hchange : Hands s (s.changeReason f m true) := .aside (moves_changeReason (by decide) s f m true hm)
  have hadded (t : State) : Hands t (t.reasonAdded f) := .aside (moves_reasonAdded (by decide) t f)
  unfold State.addReason
  dsimp only
  split
  · exact .rfl
  · exact hands_ite (.after (hands_foldl _ hands_blockFollower _ _) (.after (hadded _) hchange)) (.after (hadded _) hchange)

theorem hands_removeReason (s : State) (f : Feeder) {m : Reason} (hm : m.inner) : Hands s (s.removeReason f m) := by
  have hchange : Hands s (s.changeReason f m false) := .aside (moves_changeReason (by decide) s f m false hm)
  unfold State.removeReason
  dsimp only
  exact hands_ite (hands_ite (.after (hands_foldl _ hands_releaseFollower _ _) hchange) hchange) .rfl

/-! ### The end of a hunt -/

theorem hands_finishHunt (s : State) (r : HuntResult) (o : Option PointOutcome) : Hands s (s.finishHunt r o) :=
  .asideAfter (Moves.one (.ctx _ _ (by decide))) (.asideAfter (moves_notify _ _ _)
    (hands_foldl _ (fun t f => hands_removeReason t f (m := .hunt) trivial) _ _))

theorem hands_endAbort (s : State) (o : Option PointOutcome) : Hands s (s.endAbort o) := hands_finishHunt s _ o

theorem hands_abortCloseDone (s : State) (k : Completion) : Hands s (s.abortCloseDone k) := by
  cases k <;> exact .after (hands_endAbort _ _) (hands_mapCtx _ _)

theorem hands_decideRestoration (s : State) : Hands s s.decideRestoration := by
  unfold State.decideRestoration
  split
  · exact hands_endAbort s _
  · refine hands_ite ?_ (hands_endAbort s _)
    dsimp only
    have hhand := fun i => Hands.after (hands_handCmd _ i (huntCmd .close) (by decide))
      (hands_mapCtx s fun x => { x with outstanding := some .close, restoring := true })
    split
    · exact hhand _
    · exact .after (hands_abortCloseDone _ _) (hhand _)

theorem hands_settlePoint (s : State) : Hands s s.settlePoint := by
  unfold State.settlePoint
  split
  · exact hands_endAbort s _
  · exact hands_endAbort s _
  · exact hands_endAbort s _
  · exact hands_decideRestoration s
  · exact hands_decideRestoration s
  · exact .rfl

theorem hands_abortHunt (s : State) (c : AbortCause) : Hands s (s.abortHunt c) := by
  have houtcome := hands_ite (c := (s.ctx.state == .restoring) = true) .rfl (hands_appendOutcome s .interrupted)
  unfold State.abortHunt
  dsimp only
  split
  · exact .after (hands_mapCtx _ _) houtcome
  · exact .after (hands_settlePoint _) (.after (hands_mapCtx _ _) houtcome)

theorem hands_huntCause (s : State) (c : AbortCause) : Hands s (s.huntCause c) := by
  unfold State.huntCause
  exact hands_ite (hands_abortHunt s c) (hands_ite (hands_mapCtx s _) .rfl)

theorem hands_escalateHunt (s : State) (f : Feeder) : Hands s (s.escalateHunt f) := hands_ite (hands_huntCause s _) .rfl

theorem hands_presentHunt (s : State) (f : Feeder) (p : Profile) : Hands s (s.presentHunt f p) :=
  hands_ite (hands_huntCause s _) .rfl

theorem hands_huntAbortingDone (s : State) (kd : CmdKind) (k : Completion) : Hands s (s.huntAbortingDone kd k) := by
  unfold State.huntAbortingDone
  split
  · exact hands_ite (.after (hands_settlePoint _) (hands_mapCtx s _))
      (.after (hands_endAbort _ _) (.after (hands_mapCtx _ _) (hands_mapCtx s _)))
  · exact hands_abortCloseDone s k

theorem hands_huntSuperseded (s : State) (kd : CmdKind) : Hands s (s.huntSuperseded kd) := by
  unfold State.huntSuperseded
  split
  · exact .after (hands_abortHunt _ _) (hands_mapCtx s _)
  · exact .after (hands_abortHunt _ _) (hands_mapCtx s _)
  · exact hands_huntAbortingDone s kd _
  · exact .rfl

/-! ### Trips -/

theorem hands_supersededSwitch (s : State) (d : Delivery) : Hands s (s.supersededSwitch d) := by
  unfold State.supersededSwitch
  split
  · exact .aside (moves_closeCompleted (by decide) s _ _)
  · exact hands_huntSuperseded s _
  · exact .aside (moves_operateCompleted (by decide) (by decide) s _ _ _ _)
  · exact .rfl
  · exact .rfl

theorem hands_handTrip (s : State) (f : Feeder) : Hands s (s.handTrip f).1 :=
  .after (hands_foldl _ hands_supersededSwitch _ _) (hands_handCmd s _ tripCmd (by decide))

theorem hands_tripDecision (s : State) (f : Feeder) (c : Causes) : Hands s (s.tripDecision f c) := by
  have hdecided : Hands s ((((s.setLatch f c).handTrip f).1.tellDecision f).escalateHunt f) :=
    .after (hands_escalateHunt _ f) (.asideAfter (moves_tellDecision (by decide) _ f)
      (.after (hands_handTrip _ f) (.aside (moves_setLatch (by decide) s f c))))
  unfold State.tripDecision
  dsimp only
  split
  · exact hdecided
  · exact .asideAfter (moves_tripCompleted (by decide) (by decide) _ f _) hdecided

theorem hands_operation (s : State) (f : Feeder) (c : Causes) : Hands s (s.operation f c) := by
  have hdecide : Hands s (match (s.element f).latch with
      | none => s.tripDecision f c
      | some l => s.addCauses f l c) := by
    split
    · exact hands_tripDecision s f c
    · exact .aside (moves_addCauses (by decide) s f _ c)
  unfold State.operation
  split
  · exact .rfl
  · exact hdecide
  · exact hdecide

theorem hands_operateIf (s : State) (f : Feeder) (c : Causes) : Hands s (s.operateIf f c) := hands_ite .rfl (hands_operation s f c)

/-! ### Hunts -/

theorem hands_conclude (s : State) (r : HuntResult) : Hands s (s.conclude r) := by
  unfold State.conclude
  dsimp only
  split
  · exact .after (hands_finishHunt _ _ _) (.after (hands_operation _ _ _) (hands_mapCtx s _))
  · exact .after (hands_finishHunt _ _ _) (hands_mapCtx s _)

theorem hands_openPointAt (s : State) (i : SlotId) : Hands s (s.openPointAt i).1 :=
  .after (hands_handCmd _ i (huntCmd .opn) (by decide)) (hands_mapCtx s _)

theorem hands_openDone (s : State) : Hands s s.openDone := .aside (moves_openDone (by decide) s)

theorem hands_openFailed (s : State) : Hands s s.openFailed := .aside (moves_openFailed (by decide) s)

theorem hands_feederSteps (f : Feeder) (l : List PlanStep) (k : Nat) (s : State) : Hands s (State.feederSteps f l k s) := by
  induction l generalizing k s with
  | nil => exact hands_conclude s _
  | cons x rest ih =>
    have hindex := hands_mapCtx s fun c => { c with planIndex := some k }
    unfold State.feederSteps
    dsimp only
    refine hands_ite (.after (ih _ _) (.after (hands_appendOutcome _ _) hindex))
      (hands_ite (.after (ih _ _) (.after (hands_appendOutcome _ _) hindex)) ?_)
    have hopen := fun i => Hands.after (hands_openPointAt _ i) hindex
    split
    · exact hopen _
    · exact .after (hands_openDone _) (hopen _)
    · exact .after (ih _ _) (.after (hands_openFailed _) (hopen _))

theorem hands_busSteps (l : List Feeder) (k : Nat) (s : State) : Hands s (State.busSteps l k s) := by
  induction l generalizing k s with
  | nil => exact hands_conclude s _
  | cons f rest ih =>
    have hindex := hands_mapCtx s fun c => { c with busIndex := some k }
    unfold State.busSteps
    dsimp only
    refine hands_ite (.after (ih _ _) (.after (hands_appendOutcome _ _) hindex)) ?_
    have hopen := Hands.after (hands_openPointAt _ (Feeder.head f)) hindex
    split
    · exact hopen
    · exact .after (hands_openDone _) hopen
    · exact .after (ih _ _) (.after (hands_openFailed _) hopen)

theorem hands_nextStep (s : State) : Hands s s.nextStep := by
  unfold State.nextStep
  split
  · exact hands_feederSteps _ _ _ s
  · exact hands_busSteps _ _ s
  · exact .rfl

theorem hands_chain (s : State) (f : Feeder) : Hands s (s.chain f) := by
  unfold State.chain
  split
  · exact hands_conclude s _
  · exact .after (hands_feederSteps _ _ _ _) (hands_mapCtx s _)

theorem hands_restored (s : State) : Hands s s.restored := by
  unfold State.restored
  dsimp only
  split
  · split
    · exact .after (hands_chain _ _) (hands_mapCtx s _)
    · exact .after (hands_nextStep _) (hands_mapCtx s _)
  · exact .after (hands_nextStep _) (hands_mapCtx s _)

theorem hands_closeInRestoring (s : State) (k : Completion) : Hands s (s.closeInRestoring k) := by
  cases k with
  | done => exact hands_restored s
  | superseded => exact hands_huntSuperseded s _
  | _ => exact .after (hands_abortHunt _ _) (hands_mapCtx s _)

theorem hands_huntCompleted (s : State) (kd : CmdKind) (k : Completion) : Hands s (s.huntCompleted kd k) := by
  unfold State.huntCompleted
  split
  · cases k with
    | done => exact hands_openDone s
    | superseded => exact hands_huntSuperseded s _
    | _ => exact .after (hands_nextStep _) (hands_openFailed s)
  · exact hands_closeInRestoring s k
  · exact hands_huntAbortingDone s kd k
  all_goals exact .rfl

theorem hands_startHunt (s : State) (e : EntryId) (o : HuntOrigin) : Hands s (s.startHunt e o) := by
  have hlist : Hands s ((s.setCtx (s.startContext e o)).setHuntList ((s.setCtx (s.startContext e o)).hunt.pendingList.filter
      fun x => !(s.setCtx (s.startContext e o)).involvesSource x)) :=
    .asideAfter (Moves.one (.huntList _ _ (by decide) fun h => h.filter _)) (.aside (Moves.one (.ctx s _ (by decide))))
  have hmember := fun (l : List Feeder) => Hands.after (hands_foldl _ (fun t f => hands_addReason t f (m := .hunt) trivial) l _) hlist
  unfold State.startHunt
  dsimp only
  split
  · exact .after (hands_feederSteps _ _ _ _) (hmember _)
  · exact .after (hands_busSteps _ _ _) (hmember _)

/-- Serving the list leaves what stands after the entry served, or nothing. -/
theorem hands_serveFrom (l : List EntryId) (s : State) (hl : s.hunt.pendingList.Nodup → l.Nodup) :
    Hands s (State.serveFrom l s) := by
  induction l generalizing s with
  | nil => exact .aside (.one (.huntList s [] (by decide) fun _ => List.nodup_nil))
  | cons e rest ih =>
    have hrest : Hands s (s.setHuntList rest) :=
      .aside (.one (.huntList s rest (by decide) fun h => (List.nodup_cons.1 (hl h)).2))
    unfold State.serveFrom
    exact hands_ite (.after (hands_startHunt _ _ _) hrest) (.after (ih _ id) hrest)

theorem hands_servePendingHunts (s : State) : Hands s s.servePendingHunts := hands_ite (hands_serveFrom _ s id) .rfl

theorem hands_triggerArrives (s : State) (e : EntryId) : Hands s (s.triggerArrives e) :=
  hands_ite .rfl (.after (hands_servePendingHunts _) (.aside (moves_offerTrigger (by decide) s e)))

/-! ### Takeovers and the settling of an event -/

theorem hands_sefOperate (s : State) (f : Feeder) (p : Profile) : Hands s (s.sefOperate f p) := by
  have hnotice : Hands s (s.notifySef f p) := .aside (moves_notifySef s f p)
  unfold State.sefOperate
  dsimp only
  split
  · exact hnotice
  · exact .after (hands_triggerArrives _ _) hnotice
  · exact .after (hands_ite (hands_addReason _ _ trivial) .rfl) hnotice

theorem hands_presentElements (s : State) (f : Feeder) (p : Profile) : Hands s (s.presentElements f p) := by
  have hrecord : Hands s (s.setElement f (takeoverSef p (takeoverHighSet p ((s.element f).keepInverse p)).1).1) :=
    .aside (.one (.element s f _ (by decide) fun h => ok_takeoverSef p (ok_takeoverHighSet p (ok_keepInverse p h))))
  unfold State.presentElements
  split
  · exact .rfl
  all_goals
    exact .asideAfter (moves_setElement (by decide) _ _ _ rfl rfl rfl) (.after (hands_operateIf _ _ _)
      (.after (hands_ite (hands_sefOperate _ _ _) .rfl) hrecord))

theorem hands_agreeFire (s : State) (f : Feeder) (p : Profile) : Hands s (s.agreeFire f p) :=
  hands_ite (hands_addReason s f trivial) (hands_removeReason s f trivial)

theorem hands_activate (s : State) (e : EntryId) (k : BankSlot) {p : Profile} (hp : s.profile k = some p) :
    Hands s (s.activate e k p) := by
  have hentry : Hands s (s.setEntry e ⟨some k, none⟩) :=
    .aside (.one (.entry s e _ (by decide) fun _ => ⟨fun a ha => by cases ha; simp [hp], by simp⟩))
  unfold State.activate
  dsimp only
  split
  · exact .after (hands_agreeFire _ _ _) hentry
  · exact hentry

theorem hands_present (s : State) (e : EntryId) (p : Profile) : Hands s (s.present e p) := by
  unfold State.present
  split
  · exact .after (hands_presentHunt _ _ _) (.asideAfter (moves_presentReclose (by decide) _ _ _) (hands_presentElements s _ _))
  · exact .aside (moves_formThreshold (by decide) s)

theorem hands_takeover (s : State) (e : EntryId) (k : BankSlot) (o : TakeoverOrigin) : Hands s (s.takeover e k o) := by
  unfold State.takeover
  split
  · exact .rfl
  · rename_i hp
    exact .after (hands_present _ _ _) (.asideAfter (moves_notify _ _ _) (hands_activate s e k hp))

theorem hands_settleRounds (n : Nat) (s : State) : Hands s (State.settleRounds n s) := by
  induction n generalizing s with
  | zero => exact .rfl
  | succ n ih =>
    have hpending (e : EntryId) : Hands s (s.takeoverPending e) := by
      unfold State.takeoverPending
      split
      · exact .rfl
      · exact hands_takeover s _ _ _
    unfold State.settleRounds
    split
    · exact .after (ih _) (hpending _)
    · exact hands_ite (.after (ih _) (hands_servePendingHunts s)) .rfl

/-- What the end of an event settles hands commands, and beside that leaves the slots alone. -/
theorem hands_settle (s : State) : Hands s s.settle := hands_settleRounds _ s

/-! ### Deliveries -/

/-- A completion is delivered; that of an ENROL finds its slot no longer ENROLLING (R104, R118). -/
theorem hands_deliver {s : State} {d : Delivery} (hstate : (s.slot d.slot).state ≠ .enrolling) : Hands s (s.deliver d) := by
  unfold State.deliver
  split
  · exact .aside (moves_tripCompleted (by decide) (by decide) s _ _)
  · split
    · exact .aside (moves_closeCompleted (by decide) s _ _)
    · exact .aside (moves_blockingCompleted (by decide) s d)
  · exact hands_huntCompleted s _ _
  · exact .aside (moves_operateCompleted (by decide) (by decide) s _ _ _ _)
  · have hsame : s.enrolCompleted d = s := by simp [State.enrolCompleted, hstate]
    rw [hsame]

theorem hands_deliverAll {i : SlotId} {ds : List Delivery} (hds : ∀ d ∈ ds, d.slot = i) {s : State}
    (hstate : (s.slot i).state ≠ .enrolling) : Hands s (s.deliverAll ds) := by
  refine (List.foldlRecOn ds State.deliver (motive := fun t => Hands s t ∧ (t.slot i).state ≠ .enrolling) ⟨.rfl, hstate⟩
    fun t ht d hd => ?_).1
  have hslot := hds d hd
  subst hslot
  exact ⟨.after (hands_deliver ht.2) ht.1, by rw [(deliver_state t d d.slot ht.2).1]; exact ht.2⟩

end Sys2Proof.Machine
end

section
/-! The command in flight of a slot, from the moment it is over to the end of the event (R111, R113 to R115): what the working of the
event leaves of the slot, and the command that is sent next. -/

namespace Sys2Proof.Machine

/-! ### What a handed command leaves of its slot -/

/-- Admission never sends, and a slot with nothing in flight stays so. -/
theorem flight_admitCmd (test : Bool) (i : SlotId) (o : Outstation) (c : Cmd) :
    (admitCmd test i o c).1.tagCounter = o.tagCounter
      ∧ (o.inFlight = none → (admitCmd test i o c).1.inFlight = none) := by
  have htrip : (admitTrip i o c).1.tagCounter = o.tagCounter ∧ (o.inFlight = none → (admitTrip i o c).1.inFlight = none) := by
    unfold admitTrip
    dsimp only
    split
    · exact ⟨rfl, id⟩
    · split
      · exact ⟨rfl, fun h => by simp [h]⟩
      · exact ⟨rfl, id⟩
  have hswitch : (admitSwitch i o c).1.tagCounter = o.tagCounter ∧ (o.inFlight = none → (admitSwitch i o c).1.inFlight = none) := by
    unfold admitSwitch
    split <;> exact ⟨rfl, id⟩
  have hblocking : (admitBlocking i o c).1.tagCounter = o.tagCounter
      ∧ (o.inFlight = none → (admitBlocking i o c).1.inFlight = none) := by
    unfold admitBlocking
    dsimp only
    split
    · exact ⟨rfl, id⟩
    · split <;> exact ⟨rfl, id⟩
  unfold admitCmd
  split
  · exact ⟨rfl, id⟩
  · split
    · exact htrip
    · exact hswitch
    · exact hswitch
    · exact hblocking
    · exact hblocking
    · exact ⟨rfl, id⟩

/-- A slot that is OUT_OF_SERVICE admits nothing (R106 check 1). -/
theorem admitCmd_outOfService {o : Outstation} (h : o.state = .outOfService) (test : Bool) (i : SlotId) (c : Cmd) :
    (admitCmd test i o c).1 = o := by
  simp [admitCmd, Outstation.turnsAway, Outstation.admits, h]

theorem slot_handCmd (s : State) (i j : SlotId) (c : Cmd) :
    (s.handCmd i c).1.slot j = if j = i then (admitCmd (s.testMark (SlotId.feeder i)) i (s.slot i) c).1 else s.slot j := by
  have hset := State.slot_setSlot s i j (admitCmd (s.testMark (SlotId.feeder i)) i (s.slot i) c).1
  unfold State.handCmd
  dsimp only
  split <;> exact hset

/-! ### What a chain of such steps leaves -/

section

variable {s t : State}

theorem fixed_hands (h : Hands s t) : t.fixed = s.fixed := by
  induction h with
  | refl => rfl
  | tail _ hstep ih =>
    refine Eq.trans ?_ ih
    cases hstep with
    | aside hmoves => exact fixed_moves hmoves
    | hand i c hk => exact fixed_moves (moves_handCmd (μ := fun _ => True) trivial _ i c hk)

/-- What a handed command keeps of its slot, the working of an event keeps of every slot. -/
theorem slot_hands_keeps {P : Outstation → Prop} (hP : ∀ test i o c, P o → P (admitCmd test i o c).1) {i : SlotId}
    (h : Hands s t) (hs : P (s.slot i)) : P (t.slot i) := by
  induction h with
  | refl => exact hs
  | tail _ hstep ih =>
    cases hstep with
    | aside hmoves =>
      rw [State.slot, (parted_moves hmoves).exchange (by simp)]
      exact ih
    | hand j c _ =>
      rw [slot_handCmd]
      split
      · rename_i hj
        subst hj
        exact hP _ _ _ _ ih
      · exact ih

/-- Nothing is sent before the end of an event (R111). -/
theorem flight_hands (h : Hands s t) {i : SlotId} (hfly : (s.slot i).inFlight = none) :
    (t.slot i).inFlight = none ∧ (t.slot i).tagCounter = (s.slot i).tagCounter :=
  slot_hands_keeps (P := fun o => o.inFlight = none ∧ o.tagCounter = (s.slot i).tagCounter)
    (fun test j o c ho => ⟨(flight_admitCmd test j o c).2 ho.1, (flight_admitCmd test j o c).1.trans ho.2⟩) h ⟨hfly, rfl⟩

/-- The working of an event does not touch a slot that is OUT_OF_SERVICE. -/
theorem slot_hands_outOfService (h : Hands s t) {i : SlotId} (hstate : (s.slot i).state = .outOfService) :
    t.slot i = s.slot i :=
  slot_hands_keeps (P := fun o => o = s.slot i) (fun test j o c ho => by
    subst ho
    exact admitCmd_outOfService hstate test j c) h rfl

end

/-! ### One slot at the end of an event (R111) -/

/-- The slot once the test of R111 has been made for it. -/
def Outstation.sent (o : Outstation) (now : Nat) : Outstation :=
  if o.canSend now then
    match o.queue, o.loaded with
    | c :: rest, some l =>
      { o with queue := rest, tagCounter := o.tagCounter + 1#8, inFlight := some ⟨c, o.tagCounter + 1#8, now + l.wait, 0⟩ }
    | _, _ => o
  else o

theorem slot_trySend (s : State) (i : SlotId) : (s.trySend i).slot i = (s.slot i).sent s.time := by
  unfold State.trySend Outstation.sent
  dsimp only
  split
  · cases (s.slot i).queue with
    | nil => rfl
    | cons c rest =>
      cases (s.slot i).loaded with
      | none => rfl
      | some l =>
        rw [State.slot, exchange_handFrame]
        exact look_put_self _ _ _
  · rfl

theorem canSend_of_flying {o : Outstation} (h : o.inFlight ≠ none) (now : Nat) : o.canSend now = false := by
  unfold Outstation.canSend
  split
  · rfl
  · simp [h]

theorem canSend_cons {o : Outstation} {c : Cmd} {rest : List Cmd} {l : Loaded} (hq : o.queue = c :: rest) (hfly : o.inFlight = none)
    (hl : o.loaded = some l) (now : Nat) :
    o.canSend now = true ↔ o.sends = true ∧ (c.kind = .trip ∨ ∀ d, o.lastDone = some d → d + l.gap ≤ now) := by
  have hgap : o.gapPassed now = true ↔ ∀ d, o.lastDone = some d → d + l.gap ≤ now := by
    unfold Outstation.gapPassed
    rw [hl]
    cases o.lastDone <;> simp
  simp [Outstation.canSend, hq, hfly, hl, hgap]

/-- What is sent takes the next tag and a deadline of its own. -/
theorem sent_flight {o : Outstation} (hfly : o.inFlight = none) (now : Nat) :
    ((o.sent now).inFlight = none ∧ (o.sent now).tagCounter = o.tagCounter)
      ∨ ∃ l c, o.loaded = some l ∧ (o.sent now).inFlight = some ⟨c, o.tagCounter + 1#8, now + l.wait, 0⟩
        ∧ (o.sent now).tagCounter = o.tagCounter + 1#8 := by
  unfold Outstation.sent
  split
  · split
    · rename_i c rest l _ hl
      exact .inr ⟨l, c, hl, rfl, rfl⟩
    · exact .inl ⟨hfly, rfl⟩
  · exact .inl ⟨hfly, rfl⟩

/-- A slot whose turnaround gap has just begun. -/
theorem sent_of_done {o : Outstation} {l : Loaded} {now : Nat} (hfly : o.inFlight = none) (hdone : o.lastDone = some now)
    (hl : o.loaded = some l) : o.sent now = o.nextSent l now := by
  unfold Outstation.sent Outstation.nextSent
  cases hq : o.queue with
  | nil => simp
  | cons c rest =>
    have hiff : o.canSend now = true ↔ o.sends = true ∧ (c.kind = .trip ∨ l.gap = 0) := by
      rw [canSend_cons hq hfly hl, hdone]
      simp
    simp only [hl, hiff]

theorem follower_trySend (s : State) (i j : SlotId) : (s.trySend i).follower j = s.follower j :=
  look_congr (congrArg RecloseController.followers
    ((parted_moves (moves_trySend (μ := fun p => p = .exchange) rfl s i)).reclose (by simp))) j

theorem time_trySend (s : State) (i : SlotId) : (s.trySend i).time = s.time :=
  (parted_moves (moves_trySend (μ := fun p => p = .exchange) rfl s i)).time

theorem mem_allSlots (i : SlotId) : i ∈ allSlots := by
  rw [allSlots, List.mem_flatMap]
  exact ⟨SlotId.feeder i, (by decide : ∀ f : Feeder, f ∈ feeders) _, mem_slots.2 rfl⟩

theorem nodup_allSlots : allSlots.Nodup := by
  have hfeeders : feeders.Nodup := by decide
  refine List.nodup_flatMap.2 ⟨fun f _ => nodup_slots f, hfeeders.imp fun hne i hi hj => hne ?_⟩
  exact (mem_slots.1 hi).symm.trans (mem_slots.1 hj)

/-- A slot for which the test of R111 is due is as that test leaves it. -/
theorem slot_finish_of_due {s0 s : State} {i : SlotId} (hdue : State.sendTestDue s0 s i = true) :
    (State.finish s0 s).slot i = (s.slot i).sent s.time := by
  have hstep : ∀ u j, j ≠ i → State.Spares u (if State.sendTestDue s0 u j then u.trySend j else u) i := by
    intro u j hj
    split
    · exact ⟨slot_trySend_ne u (Ne.symm hj), follower_trySend u j i, admissions_trySend u j i, time_trySend u j⟩
    · exact .refl u i
  obtain ⟨u, hu, ht⟩ := spares_foldl_of_mem hstep nodup_allSlots (mem_allSlots i) s
  have hdue' : State.sendTestDue s0 u i = true := by
    rw [State.sendTestDue, hu.admissions, hu.slot]
    exact hdue
  rw [if_pos hdue'] at ht
  have houtputs (v : State) : v.refreshOutputs.slot i = v.slot i := rfl
  rw [State.finish, houtputs, State.sendChanged, ht.slot, slot_trySend, hu.slot, hu.time]

theorem sendTestDue_of_landed {s0 s : State} {i : SlotId} (h0 : (s0.slot i).inFlight ≠ none) (h : (s.slot i).inFlight = none) :
    State.sendTestDue s0 s i = true := by
  simp [State.sendTestDue, h, Option.isSome_iff_ne_none, h0]

/-! ### A command in flight that is over -/

/-- The command in flight of a slot is over and the slot is as `o` but for its queue, while the event goes on. -/
structure State.Landing (s t : State) (i : SlotId) (o : Outstation) : Prop where
  kept : (t.slot i).still = o.still
  gone : (t.slot i).inFlight = none
  tag : (t.slot i).tagCounter = o.tagCounter
  others : ∀ j, j ≠ i → (t.slot j).still = (s.slot j).still
  aside : s.StillAside t

section

variable {s t u : State} {i : SlotId} {o : Outstation}

theorem stillAside_of_fixed (h : t.fixed = s.fixed) : s.StillAside t := by rw [State.StillAside, h]

theorem State.Records.landing (h : s.Records t i o) (hfly : o.inFlight = none) : s.Landing t i o where
  kept := congrArg Outstation.still h.slot
  gone := (congrArg Outstation.inFlight h.slot).trans hfly
  tag := congrArg Outstation.tagCounter h.slot
  others _ hj := congrArg Outstation.still (h.others hj)
  aside := h.aside

theorem State.Landing.hands (h : s.Landing t i o) (hu : Hands t u) : s.Landing u i o := by
  obtain ⟨hfly, htag⟩ := flight_hands hu h.gone
  have hfixed := fixed_hands hu
  exact ⟨(still_of_fixed hfixed i).trans h.kept, hfly, htag.trans h.tag,
    fun j hj => (still_of_fixed hfixed j).trans (h.others j hj), h.aside.trans (stillAside_of_fixed hfixed)⟩

/-- The slot takes a further record. -/
theorem State.Landing.records {o' p : Outstation} (h : s.Landing t i o) (hu : t.Records u i p) (hstill : p.still = o'.still)
    (hfly : p.inFlight = none) (htag : p.tagCounter = o'.tagCounter) : s.Landing u i o' where
  kept := (congrArg Outstation.still hu.slot).trans hstill
  gone := (congrArg Outstation.inFlight hu.slot).trans hfly
  tag := (congrArg Outstation.tagCounter hu.slot).trans htag
  others j hj := (congrArg Outstation.still (hu.others hj)).trans (h.others j hj)
  aside := h.aside.trans hu.aside

theorem time_of_stillAside (h : s.StillAside t) : t.time = s.time := congrArg Fixed.time h

/-- At the end of the event the slot has sent its next command, or nothing (R111). -/
theorem State.Landing.over (h : s.Landing t i o) (hflew : (s.slot i).inFlight ≠ none) : s.Over (State.conclude72 s t) i o := by
  have hsettled := h.hands (hands_settle t)
  have hfixed := fixed_moves (moves_finish_sending s t.settle)
  have hslot : ((State.conclude72 s t).slot i) = (t.settle.slot i).sent s.time := by
    rw [State.conclude72, slot_finish_of_due (sendTestDue_of_landed hflew hsettled.gone), time_of_stillAside hsettled.aside]
  have hloaded : (t.settle.slot i).loaded = o.loaded := (still_state hsettled.kept).2
  refine ⟨(still_of_fixed hfixed i).trans hsettled.kept, ?_, fun j hj => (still_of_fixed hfixed j).trans (hsettled.others j hj),
    hsettled.aside.trans (stillAside_of_fixed hfixed)⟩
  rw [hslot, ← hsettled.tag, ← hloaded]
  exact sent_flight hsettled.gone s.time

end

/-! ### Deliveries while no hunt is in progress -/

/-- While no hunt is in progress a delivery concerns reclose records, the Element Bank and the requests alone. -/
theorem parted_deliver_idle {s : State} {d : Delivery} (hidle : s.ctx.state = .idle) (hstate : (s.slot d.slot).state ≠ .enrolling) :
    Parted Failing s (s.deliver d) := by
  have hreclose : Failing .reclose := .inl rfl
  have hrequests : Failing .requests := .inr (.inr rfl)
  unfold State.deliver
  split
  · exact parted_moves (moves_tripCompleted hreclose (.inr (.inl rfl)) s _ _)
  · split
    · exact parted_moves (moves_closeCompleted hreclose s _ _)
    · exact parted_moves (moves_blockingCompleted hreclose s d)
  · rw [huntCompleted_idle hidle]
    exact .refl s
  · exact parted_moves (moves_operateCompleted hreclose hrequests s _ _ _ _)
  · have hsame : s.enrolCompleted d = s := by simp [State.enrolCompleted, hstate]
    rw [hsame]
    exact .refl s

theorem parted_deliverAll_idle {i : SlotId} {ds : List Delivery} (hds : ∀ d ∈ ds, d.slot = i) {s : State}
    (hidle : s.ctx.state = .idle) (hstate : (s.slot i).state ≠ .enrolling) : Parted Failing s (s.deliverAll ds) := by
  refine List.foldlRecOn ds State.deliver (motive := fun t => Parted Failing s t) (.refl s) fun t ht d hd => ht.trans ?_
  obtain rfl := hds d hd
  refine parted_deliver_idle ?_ ?_
  · rw [State.ctx, ht.hunt (by simp [Failing])]; exact hidle
  · rw [State.slot, ht.exchange (by simp [Failing])]; exact hstate

/-- What the end of a command in flight may change while no hunt is in progress. -/
def Landed (p : Part) : Prop := p = .exchange ∨ Failing p

/-- In a calm state the slot whose command is over sends what R111 sends next, and nothing else. -/
theorem slot_conclude72_calm {s t : State} {i : SlotId} {o : Outstation} {l : Loaded} (hs : s.Calm) (hparted : Parted Landed s t)
    (hslot : t.slot i = o) (hflew : (s.slot i).inFlight ≠ none) (hfly : o.inFlight = none) (hdone : o.lastDone = some s.time)
    (hloaded : o.loaded = some l) : (State.conclude72 s t).slot i = o.nextSent l s.time := by
  subst hslot
  rw [conclude72_of_parted hs.toStill hparted (by simp [Landed, Failing]) (by simp [Landed, Failing]),
    slot_finish_of_due (sendTestDue_of_landed hflew hfly), hparted.time, sent_of_done hfly hdone hloaded]

end Sys2Proof.Machine
end

section
/-! Commands in flight that end (R104, R113 to R115): by an answer, by the fifth WAIT or at the deadline. -/

namespace Sys2Proof.Machine

/-! ### Records of a slot -/

section

variable {s t : State} {i : SlotId} {o : Outstation}

theorem State.Records.notify (h : s.Records t i o) (n : Notice) (b : Bool) : s.Records (t.notify n b) i o := by
  obtain ⟨⟨m, hputs⟩, haside⟩ := h
  exact ⟨⟨m + 1, hputs.notify n b⟩, haside.trans (stillAside_moves (tells_notify t n b))⟩

theorem State.Records.ctx (h : s.Records t i o) : t.ctx = s.ctx := h.puts.choose_spec.ctx

theorem State.Records.follower (h : s.Records t i o) (j : SlotId) : t.follower j = s.follower j :=
  look_congr (congrArg RecloseController.followers (h.parted.reclose (by simp))) j

/-- A DONE sets the known position (R113 step 3). -/
theorem State.Records.switched (h : s.Records t i o) (k : CmdKind) : s.Records (t.switched i k) i (o.switched k) := by
  unfold State.switched Outstation.switched
  cases k.sets with
  | none => exact h
  | some p =>
    simp only [h.slot]
    split
    · exact h.set _
    · exact (h.set _).notify _ _

theorem State.Records.endEnrol (h : s.Records t i o) (o' : Outstation) (r : OutReason) (v : Option U16) (k : Option Completion) :
    s.Records (t.endEnrol i o' r v k) i o' := (h.set o').notify _ _

end

/-! ### The slot of a command that is over -/

/-- The slot after a matching answer (R113 steps 1 and 2, R117). -/
theorem answeredSlot_eq (s : State) (i : SlotId) : s.answeredSlot i = { s.slot i with
    state := if (s.slot i).state = .unreachable then .inService else (s.slot i).state
    failures := 0, inFlight := none, lastDone := some s.time } := by
  unfold State.answeredSlot Outstation.reached Outstation.landed
  dsimp only
  split <;> rfl

/-- What a DONE of a switching command sets (R113 step 3). -/
theorem Outstation.switched_eq (o : Outstation) (k : CmdKind) : o.switched k = { o with
    known := match k with
      | .trip | .opn => .opened
      | .close => .closed
      | _ => o.known
    history := if k.isSwitching then [] else o.history } := by
  cases k <;> rfl

/-- One more failure of a slot (R115). -/
def Outstation.failed (o : Outstation) : Outstation :=
  if o.failures + 1 < 3 then { o with failures := o.failures + 1 }
  else { o with state := .unreachable, failures := 3, queue := o.queue.filter fun c => c.kind.isBlocking }

theorem Outstation.still_failed (o : Outstation) : o.failed.still = o.still.failed := by
  unfold Outstation.failed Outstation.still
  dsimp only
  split <;> rfl

theorem Outstation.failed_flight (o : Outstation) : o.failed.inFlight = o.inFlight ∧ o.failed.tagCounter = o.tagCounter := by
  unfold Outstation.failed
  split <;> exact ⟨rfl, rfl⟩

theorem Outstation.failed_state {o : Outstation} (h : o.state ≠ .enrolling) : o.failed.state ≠ .enrolling := by
  unfold Outstation.failed
  split
  · exact h
  · simp

/-- The slot whose command has reached its deadline, before the failure is counted (R115). -/
def Outstation.expired (o : Outstation) (tag : Byte) (now : Nat) : Outstation := { o.landed now with expiredTag := some tag }

/-- The slot whose command has timed out (R115). -/
def Outstation.afterTimeout (o : Outstation) (tag : Byte) (now : Nat) : Outstation :=
  if o.state = .inService then (o.expired tag now).failed else o.expired tag now

theorem Outstation.afterTimeout_eq (o : Outstation) (tag : Byte) (now : Nat) : o.afterTimeout tag now = { o with
    state := if o.state = .inService ∧ 3 ≤ o.failures + 1 then .unreachable else o.state
    failures := if o.state = .inService then min 3 (o.failures + 1) else o.failures
    queue := if o.state = .inService ∧ 3 ≤ o.failures + 1 then o.queue.filter fun c => c.kind.isBlocking else o.queue
    inFlight := none, lastDone := some now, expiredTag := some tag } := by
  unfold Outstation.afterTimeout Outstation.failed Outstation.expired Outstation.landed
  by_cases hin : o.state = .inService
  · by_cases hlimit : o.failures + 1 < 3
    · have hmin : min 3 (o.failures + 1) = o.failures + 1 := by omega
      simp [hin, hlimit, hmin, Nat.not_le.2 hlimit]
    · simp [hin, hlimit, Nat.not_lt.1 hlimit]
  · simp [hin]

/-! ### The end of its event -/

/-- An event ends the command in flight of a slot: the slot is left as `o`, and in a calm state sends next what R111 says. -/
structure State.Ends (s t : State) (i : SlotId) (o : Outstation) : Prop where
  landed : s.Over t i o
  next : ∀ l, o.loaded = some l → s.Calm → t.slot i = o.nextSent l s.time

section

variable {s t : State} {i : SlotId} {o : Outstation}

/-- A slot has taken its last record, and its completions are delivered. -/
theorem ends_deliverAll (hlanding : s.Landing t i o) (hcalm : s.Calm → Parted Landed s t ∧ t.slot i = o)
    (hflew : (s.slot i).inFlight ≠ none) (hfly : o.inFlight = none) (hdone : o.lastDone = some s.time) (hstate : o.state ≠ .enrolling)
    {ds : List Delivery} (hds : ∀ d ∈ ds, d.slot = i) : s.Ends (State.conclude72 s (t.deliverAll ds)) i o := by
  have hstate' : (t.slot i).state ≠ .enrolling := by
    rw [(still_state hlanding.kept).1]; exact hstate
  refine ⟨(hlanding.hands (hands_deliverAll hds hstate')).over hflew, fun l hloaded hs => ?_⟩
  obtain ⟨hparted, hslot⟩ := hcalm hs
  have hdeliver := parted_deliverAll_idle hds (s := t)
    (by rw [State.ctx, hparted.hunt (by simp [Landed, Failing])]; exact hs.noHunt) hstate'
  refine slot_conclude72_calm hs (hparted.trans (hdeliver.mono fun _ => .inr)) ?_ hflew hfly hdone hloaded
  rw [State.slot, hdeliver.exchange (by simp [Failing])]
  exact hslot

theorem State.Records.ends (h : s.Records t i o) (hflew : (s.slot i).inFlight ≠ none) (hfly : o.inFlight = none)
    (hdone : o.lastDone = some s.time) (hstate : o.state ≠ .enrolling) {ds : List Delivery} (hds : ∀ d ∈ ds, d.slot = i) :
    s.Ends (State.conclude72 s (t.deliverAll ds)) i o :=
  ends_deliverAll (h.landing hfly) (fun _ => ⟨h.parted.mono fun _ => .inl, h.slot⟩) hflew hfly hdone hstate hds

end

/-! ### Answers that end a command (R113, R114) -/

section

variable {s : State} {i : SlotId} {fl : InFlight}

/-- A matching DONE: the slot, then the deliveries (R113). -/
theorem records_answered_done (x : Option U16) (b : Bool) : ∃ u, s.Records u i ((s.answeredSlot i).switched fl.cmd.kind)
    ∧ s.answered i fl (.done x b) = u.deliverAll (deliveries i fl.cmd (.done x b)) :=
  ⟨_, ((State.Records.refl s i).set _).reach.switched fl.cmd.kind, rfl⟩

/-- A matching REFUSED: the slot, then the deliveries (R113). -/
theorem records_answered_refused (v : U16) : ∃ u, s.Records u i (s.answeredSlot i)
    ∧ s.answered i fl (.refused v) = u.deliverAll (deliveries i fl.cmd (.refused v)) :=
  ⟨_, ((State.Records.refl s i).set _).reach, rfl⟩

/-- The fifth WAIT: the slot, then the deliveries (R114). -/
theorem records_waited_fifth (v : U16) (h : 5 ≤ fl.waits + 1) :
    ∃ u, s.Records u i { s.answeredSlot i with expiredTag := some fl.tag }
      ∧ s.waited i fl v = u.deliverAll (deliveries i fl.cmd .waitLimit) := by
  have hlimit : ¬ fl.waits + 1 < Config.waitLimit := Nat.not_lt.2 h
  have hslot : ({ (s.slot i).landed s.time with failures := 0, expiredTag := some fl.tag } : Outstation).reached
      = { s.answeredSlot i with expiredTag := some fl.tag } := by
    unfold State.answeredSlot Outstation.reached Outstation.landed
    dsimp only
    split <;> rfl
  rw [State.waited, if_neg hlimit, ← hslot]
  exact ⟨_, ((State.Records.refl s i).set _).reach, rfl⟩

variable {source : U16} {l : Loaded}

/-- An answer that ends a command of a slot that is not ENROLLING. -/
theorem response_ends {tag : Byte} {a : AnswerKind} {v : U16} {u : State} {o : Outstation} {ds : List Delivery}
    (hheld : s.held = false) (hfly : (s.slot i).inFlight = some fl) (hloaded : (s.slot i).loaded = some l)
    (hstate : (s.slot i).state ≠ .enrolling) (hu : s.Records u i o)
    (ho : o.state = (s.answeredSlot i).state ∧ o.loaded = (s.answeredSlot i).loaded ∧ o.inFlight = none ∧ o.lastDone = some s.time)
    (hds : ∀ d ∈ ds, d.slot = i) (htake : s.takeResponse source tag a v = u.deliverAll ds) :
    ∃ t, exec (.response source tag a v) s = .next t ∧ s.Over t i o ∧ (s.Calm → t.slot i = o.nextSent l s.time) := by
  obtain ⟨hst, hl, hnone, hdone⟩ := ho
  have hends : s.Ends _ i o := hu.ends (by simp [hfly]) hnone hdone (by
    rw [hst]
    exact Outstation.reached_not_enrolling hstate) hds
  rw [exec_response hheld, htake]
  exact ⟨_, rfl, hends.landed, hends.next l (by rw [hl, answeredSlot_eq]; exact hloaded)⟩

end

/-! ### ENROL (R104) -/

/-- The completion of an ENROL that brings its slot into service (R104). -/
def Delivery.enrols (d : Delivery) : Bool :=
  match d.completion with
  | .done v _ => v.any fun w => d.cmd.expected.any fun k => w == BitVec.ofNat 16 k.code
  | _ => false

section

variable {s u : State} {i : SlotId} {o : Outstation}

theorem records_enrolCompleted (h : s.Records u i o) {d : Delivery} (hd : d.slot = i) (hstate : o.state = .enrolling)
    (hout : d.enrols = false) : s.Records (u.enrolCompleted d) i { o with state := .outOfService } := by
  subst hd
  have hslot := h.slot
  subst hslot
  have hends : ∀ r v k, s.Records (u.endEnrol d.slot { u.slot d.slot with state := .outOfService } r v k) d.slot
      { u.slot d.slot with state := .outOfService } := h.endEnrol _
  unfold State.enrolCompleted
  simp only [hstate, beq_self_eq_true, if_true]
  unfold Delivery.enrols at hout
  split
  · rename_i hk
    rw [hk] at hout
    rw [if_neg (Bool.eq_false_iff.1 hout)]
    exact hends _ _ _
  · exact hends _ _ _

/-- A slot enters service; a follower is blocked where its set is not empty (R96, R104). -/
theorem enrolCompleted_enters (h : s.Records u i o) {d : Delivery} (hd : d.slot = i) (hstate : o.state = .enrolling)
    (hin : d.enrols = true) : ∃ w, s.Records w i { o with state := .inService, failures := 0 }
      ∧ u.enrolCompleted d = if (o.loaded.any fun l => l.follower) = true then w.followerEntered i else w := by
  subst hd
  have hslot := h.slot
  subst hslot
  refine ⟨_, h.endEnrol { u.slot d.slot with state := .inService, failures := 0 } .enrolled none none, ?_⟩
  unfold State.enrolCompleted
  simp only [hstate, beq_self_eq_true, if_true]
  unfold Delivery.enrols at hin
  split
  · rename_i hk
    rw [hk] at hin
    rw [if_pos hin]
  · rename_i hk
    split at hin
    · rename_i hdone
      exact absurd hdone (hk _ _)
    · cases hin

/-- An ENROL is over, whoever else waited for it: its slot is IN_SERVICE or OUT_OF_SERVICE (R104). -/
theorem landing_enrol (h : s.Records u i o) (hstate : o.state = .enrolling) (hfly : o.inFlight = none) {c : Cmd}
    (horigin : c.origin = .exchange) (k : Completion) :
    s.Landing (u.deliverAll (deliveries i c k)) i { o with
      state := if (⟨i, .exchange, c, k⟩ : Delivery).enrols then .inService else .outOfService
      failures := if (⟨i, .exchange, c, k⟩ : Delivery).enrols then 0 else o.failures } := by
  have hfirst : u.deliverAll (deliveries i c k)
      = (u.enrolCompleted ⟨i, .exchange, c, k⟩).deliverAll (c.merged.map fun x => ⟨i, x, c, k⟩) := by
    simp only [deliveries, State.deliverAll, List.map_cons, List.foldl_cons, horigin]
    rfl
  have hrest : ∀ d ∈ c.merged.map (fun x => (⟨i, x, c, k⟩ : Delivery)), d.slot = i := by
    intro d hd
    obtain ⟨x, _, rfl⟩ := List.mem_map.1 hd
    rfl
  rw [hfirst]
  cases hin : (⟨i, .exchange, c, k⟩ : Delivery).enrols with
  | false =>
    have hout := (records_enrolCompleted h rfl hstate hin).landing hfly
    exact hout.hands (hands_deliverAll hrest (by rw [(still_state hout.kept).1]; simp))
  | true =>
    obtain ⟨w, hw, heq⟩ := enrolCompleted_enters h rfl hstate hin
    have hentered := (hw.landing hfly).hands (hands_ite (c := (o.loaded.any fun l => l.follower) = true)
      (hands_followerEntered w i) .rfl)
    rw [heq]
    exact hentered.hands (hands_deliverAll hrest (by rw [(still_state hentered.kept).1]; simp))

end

/-! ### The deadline (R115) -/

section

variable {s : State} {i : SlotId} {fl : InFlight}

/-- One more failure: the slot, then the end of what is queued where it becomes UNREACHABLE (R115). -/
theorem records_countFailure (s : State) (i : SlotId) : ∃ u ds, s.Records u i (s.slot i).failed ∧ (∀ d ∈ ds, d.slot = i)
    ∧ s.countFailure i = u.deliverAll ds := by
  unfold State.countFailure Outstation.failed
  dsimp only
  by_cases hlimit : (s.slot i).failures + 1 < 3
  · have hlimit' : (s.slot i).failures + 1 < Config.failureLimit := hlimit
    rw [if_pos hlimit, if_pos hlimit']
    exact ⟨_, [], (State.Records.refl s i).set _, by simp, rfl⟩
  · have hlimit' : ¬ (s.slot i).failures + 1 < Config.failureLimit := hlimit
    rw [if_neg hlimit, if_neg hlimit']
    exact ⟨_, (s.slot i).unreached i, ((State.Records.refl s i).set _).notifySlot _ _,
      fun d hd => (slot_of_mem_unreached d hd).1, rfl⟩

/-- The timed-out command of a slot that is not ENROLLING (R115). -/
theorem ends_timedOut (hfly : (s.slot i).inFlight = some fl) (hstate : (s.slot i).state ≠ .enrolling) :
    s.Ends (State.conclude72 s (s.timedOut i fl)) i ((s.slot i).afterTimeout fl.tag s.time) := by
  have hflew : (s.slot i).inFlight ≠ none := by simp [hfly]
  have hds := slot_deliveries i fl.cmd .timeout
  have hset := (State.Records.refl s i).set ((s.slot i).expired fl.tag s.time)
  have hstate' : ((s.setSlot i ((s.slot i).expired fl.tag s.time)).slot i).state ≠ .enrolling := by
    rw [hset.slot]; exact hstate
  unfold State.timedOut Outstation.afterTimeout
  simp only [beq_iff_eq]
  split
  · rename_i hin
    set v := (s.setSlot i ((s.slot i).expired fl.tag s.time)).deliverAll (deliveries i fl.cmd .timeout)
    have hlanding : s.Landing v i ((s.slot i).expired fl.tag s.time) :=
      (hset.landing rfl).hands (hands_deliverAll hds hstate')
    obtain ⟨w, ds', hw, hds', heq⟩ := records_countFailure v i
    have hfailed : (v.slot i).failed.still = ((s.slot i).expired fl.tag s.time).failed.still := by
      rw [Outstation.still_failed, hlanding.kept, ← Outstation.still_failed]
    have hflight := (v.slot i).failed_flight
    have hflight' := ((s.slot i).expired fl.tag s.time).failed_flight
    have hdone : ((s.slot i).expired fl.tag s.time).failed.lastDone = some s.time := by
      unfold Outstation.failed
      split <;> rfl
    change s.Ends (State.conclude72 s (v.countFailure i)) i _
    rw [heq]
    refine ends_deliverAll (hlanding.records hw hfailed (hflight.1.trans hlanding.gone)
      (hflight.2.trans (hlanding.tag.trans hflight'.2.symm))) (fun hs => ?_) hflew hflight'.1 hdone
      (Outstation.failed_state hstate) hds'
    have hdelivered : Parted Failing _ v := parted_deliverAll_idle hds (by rw [hset.ctx]; exact hs.noHunt) hstate'
    refine ⟨((hset.parted.mono fun _ => .inl).trans (hdelivered.mono fun _ => .inr)).trans (hw.parted.mono fun _ => .inl), ?_⟩
    rw [hw.slot, State.slot, hdelivered.exchange (by simp [Failing]), ← State.slot, hset.slot]
  · exact hset.ends hflew rfl rfl hstate hds

end

end Sys2Proof.Machine
end

section
/-! The end of a command in flight and the sending of the next (R104, R111, R113 to R117). -/

namespace Sys2Proof.Machine

/-! ### Answers to a slot that is not ENROLLING (R113, R114) -/

section

variable {s : State} {i : SlotId} {source : U16} {fl : InFlight} {l : Loaded} (hheld : s.held = false)
  (hslot : s.knownSlot source = some i) (hfly : (s.slot i).inFlight = some fl) (hloaded : (s.slot i).loaded = some l)
  (hstate : (s.slot i).state ≠ .enrolling) (v : U16)
include hheld hslot hfly hloaded hstate

theorem response_done_ends : ∃ t, exec (.response source fl.tag .done v) s = .next t
    ∧ s.Over t i ((s.answeredSlot i).switched fl.cmd.kind)
    ∧ (s.Calm → t.slot i = ((s.answeredSlot i).switched fl.cmd.kind).nextSent l s.time) := by
  obtain ⟨u, hu, heq⟩ := records_answered_done (s := s) (i := i) (fl := fl) (some v) false
  refine response_ends hheld hfly hloaded hstate hu ?_ (slot_deliveries i _ _) ((takeResponse_done hslot hfly v).trans heq)
  rw [Outstation.switched_eq, answeredSlot_eq]
  exact ⟨rfl, rfl, rfl, rfl⟩

theorem response_refused_ends : ∃ t, exec (.response source fl.tag .refused v) s = .next t ∧ s.Over t i (s.answeredSlot i)
    ∧ (s.Calm → t.slot i = (s.answeredSlot i).nextSent l s.time) := by
  obtain ⟨u, hu, heq⟩ := records_answered_refused (s := s) (i := i) (fl := fl) v
  refine response_ends hheld hfly hloaded hstate hu ?_ (slot_deliveries i _ _) ((takeResponse_refused hslot hfly v).trans heq)
  rw [answeredSlot_eq]
  exact ⟨rfl, rfl, rfl, rfl⟩

theorem response_waitLimit_ends (hlimit : 5 ≤ fl.waits + 1) : ∃ t, exec (.response source fl.tag .wait v) s = .next t
    ∧ s.Over t i { s.answeredSlot i with expiredTag := some fl.tag }
    ∧ (s.Calm → t.slot i = ({ s.answeredSlot i with expiredTag := some fl.tag } : Outstation).nextSent l s.time) := by
  obtain ⟨u, hu, heq⟩ := records_waited_fifth (s := s) (i := i) v hlimit
  refine response_ends hheld hfly hloaded hstate hu ?_ (slot_deliveries i _ _) ((takeResponse_wait hslot hfly v).trans heq)
  rw [answeredSlot_eq]
  exact ⟨rfl, rfl, rfl, rfl⟩

end

/-! ### Answers to an ENROL (R104) -/

/-- Only a DONE with the code of the expected kind enrols. -/
theorem enrols_done (i : SlotId) (o : Originator) {c : Cmd} {k : OutKind} (hk : c.expected = some k) (v : U16) (b : Bool) :
    (⟨i, o, c, .done (some v) b⟩ : Delivery).enrols = true ↔ v = BitVec.ofNat 16 k.code := by
  simp [Delivery.enrols, hk]

/-- The slot of an ENROL that is answered. -/
theorem answeredSlot_enrolling {s : State} {i : SlotId} (h : (s.slot i).state = .enrolling) :
    s.answeredSlot i = { s.slot i with failures := 0, inFlight := none, lastDone := some s.time } := by
  rw [answeredSlot_eq, if_neg (by simp [h])]

section

variable {s u w : State} {i : SlotId} {o : Outstation} {l : Loaded}

/-- A follower that enters service under a set that is not empty is blocked (R96, R104). -/
theorem conclude72_followerEntered (hs : s.Calm) (h : s.Records w i o) (hfollows : o.Follows l) (hqueue : o.queue = [])
    (hfly : o.inFlight = none) (hfollower : (s.follower i).state = .none)
    (hset : (s.recl (SlotId.feeder i)).reasons.isEmpty = false) :
    ((State.conclude72 s (w.followerEntered i)).follower i).state = .blockPending
      ∧ ((State.conclude72 s (w.followerEntered i)).slot i).Has { kind := .block, origin := .reclose } := by
  have hnone : (w.follower i).state = .none := by rw [h.follower]; exact hfollower
  have hblock : w.followerEntered i = w.blockFollower i := by
    simp [State.followerEntered, hnone, h.recl, hset]
  have hslot := h.slot
  subst hslot
  obtain ⟨hrecord, hhas⟩ := (handedTo_blockFollower hfollows (.inl hnone)).1 (by simp [Outstation.queued, hqueue])
    (by simp [Outstation.flying, hfly])
  have hparted : Parted Closing s (w.followerEntered i) := (h.parted.mono fun _ => .inl).trans
    (parted_moves (moves_followerEntered (.inl rfl) (.inr rfl) w i))
  rw [conclude72_of_parted hs.toStill hparted (by simp [Closing]) (by simp [Closing]), hblock]
  refine ⟨?_, has_finish s hhas⟩
  rw [State.follower, finish_reclose, ← State.follower, hrecord]

end

/-- An ENROL ends: its slot is in service where the completion enrols, and out of service otherwise (R104). -/
theorem over_enrol {s u : State} {i : SlotId} {o : Outstation} (hu : s.Records u i o) (hstate : o.state = .enrolling)
    (hfly : o.inFlight = none) (hflew : (s.slot i).inFlight ≠ none) {c : Cmd} (horigin : c.origin = .exchange) (k : Completion) :
    s.Over (State.conclude72 s (u.deliverAll (deliveries i c k))) i { o with
      state := if (⟨i, .exchange, c, k⟩ : Delivery).enrols then .inService else .outOfService
      failures := if (⟨i, .exchange, c, k⟩ : Delivery).enrols then 0 else o.failures } :=
  (landing_enrol hu hstate hfly horigin k).over hflew

section

variable {s : State} {i : SlotId} {source : U16} {fl : InFlight} (hheld : s.held = false)
  (hslot : s.knownSlot source = some i) (hfly : (s.slot i).inFlight = some fl) (hstate : (s.slot i).state = .enrolling)
  (horigin : fl.cmd.origin = .exchange) (v : U16)
include hheld hslot hfly hstate horigin

/-- A DONE of an ENROL; where it enrols a follower, the slot of the follower is handed to the Reclose Controller (R104). -/
theorem response_done_enrols {k : OutKind} (hkind : fl.cmd.kind = .enrol) (hexpected : fl.cmd.expected = some k) :
    ∃ t, exec (.response source fl.tag .done v) s = .next t
      ∧ s.Over t i { s.slot i with
          failures := 0, inFlight := none, lastDone := some s.time
          state := if v = BitVec.ofNat 16 k.code then .inService else .outOfService }
      ∧ (fl.cmd.merged = [] → v = BitVec.ofNat 16 k.code → (∃ l, (s.slot i).loaded = some l ∧ l.follower = true) →
        ∃ w, s.Records w i { s.slot i with failures := 0, inFlight := none, lastDone := some s.time, state := .inService }
          ∧ t = State.conclude72 s (w.followerEntered i)) := by
  obtain ⟨u, hu, heq⟩ := records_answered_done (s := s) (i := i) (fl := fl) (some v) false
  have hset : (s.answeredSlot i).switched fl.cmd.kind
      = { s.slot i with failures := 0, inFlight := none, lastDone := some s.time } := by
    rw [answeredSlot_enrolling hstate, hkind]
    rfl
  rw [hset] at hu
  have hover := over_enrol hu hstate rfl (by simp [hfly]) horigin (.done (some v) false)
  refine ⟨_, exec_response hheld source fl.tag .done v, ?_, fun hmerged hv ⟨l, hloaded, hfollower⟩ => ?_⟩
  · simp only [enrols_done i .exchange hexpected, ite_self] at hover
    rw [takeResponse_done hslot hfly, heq]
    exact hover
  · obtain ⟨w, hw, hentered⟩ := enrolCompleted_enters hu rfl hstate ((enrols_done i .exchange hexpected v false).2 hv)
    have honly : u.deliverAll (deliveries i fl.cmd (.done (some v) false))
        = u.enrolCompleted ⟨i, .exchange, fl.cmd, .done (some v) false⟩ := by
      simp [deliveries, State.deliverAll, State.deliver, horigin, hmerged]
    refine ⟨w, hw, ?_⟩
    rw [takeResponse_done hslot hfly, heq, honly, hentered, if_pos (by simp [hloaded, hfollower])]

theorem response_refused_enrol : ∃ t, exec (.response source fl.tag .refused v) s = .next t
    ∧ s.Over t i { s.slot i with failures := 0, inFlight := none, lastDone := some s.time, state := .outOfService } := by
  obtain ⟨u, hu, heq⟩ := records_answered_refused (s := s) (i := i) (fl := fl) v
  rw [answeredSlot_enrolling hstate] at hu
  refine ⟨_, exec_response hheld source fl.tag .refused v, ?_⟩
  rw [takeResponse_refused hslot hfly, heq]
  exact over_enrol hu hstate rfl (by simp [hfly]) horigin (.refused v)

theorem response_waitLimit_enrol (hlimit : 5 ≤ fl.waits + 1) : ∃ t, exec (.response source fl.tag .wait v) s = .next t
    ∧ s.Over t i { s.slot i with failures := 0, inFlight := none, lastDone := some s.time, state := .outOfService,
                                 expiredTag := some fl.tag } := by
  obtain ⟨u, hu, heq⟩ := records_waited_fifth (s := s) (i := i) v hlimit
  rw [answeredSlot_enrolling hstate] at hu
  refine ⟨_, exec_response hheld source fl.tag .wait v, ?_⟩
  rw [takeResponse_wait hslot hfly, heq]
  exact over_enrol hu hstate rfl (by simp [hfly]) horigin .waitLimit

end

/-! ### The deadline (R115) -/

/-- Before the deadline there is no TIMEOUT (log entry 4). -/
theorem exec_timeout_early {s : State} {i : SlotId} (hheld : s.held = false)
    (hearly : ∀ fl, (s.slot i).inFlight = some fl → s.time < fl.deadline) : exec (.timeout i) s = .next s := by
  have hnone : s.deadlineDue i = none := by
    unfold State.deadlineDue
    split
    · rfl
    · rename_i fl hfly
      rw [if_neg (Nat.not_le.2 (hearly fl hfly))]
  simp only [exec, execTimeout, State.unlessHeld, hheld, hnone]
  rfl

/-- An ENROL that has timed out (R104, R115). -/
theorem over_timedOut_enrol {s : State} {i : SlotId} {fl : InFlight} (hfly : (s.slot i).inFlight = some fl)
    (hstate : (s.slot i).state = .enrolling) (horigin : fl.cmd.origin = .exchange) :
    s.Over (State.conclude72 s (s.timedOut i fl)) i
      { s.slot i with state := .outOfService, inFlight := none, lastDone := some s.time, expiredTag := some fl.tag } := by
  have hend : s.timedOut i fl
      = (s.setSlot i ((s.slot i).expired fl.tag s.time)).deliverAll (deliveries i fl.cmd .timeout) := by
    unfold State.timedOut
    dsimp only
    rw [if_neg (by simp [hstate])]
    rfl
  have hset := (State.Records.refl s i).set ((s.slot i).expired fl.tag s.time)
  rw [hend]
  exact over_enrol hset hstate rfl (by simp [hfly]) horigin .timeout

/-! ### TURNAROUND_GAP_END (R111) -/

theorem exec_turnaroundGapEnd {s : State} (hheld : s.held = false) (i : SlotId) :
    exec (.turnaroundGapEnd i) s = .next (s.trySend i) := by
  change execTurnaroundGapEnd i s = _
  simp [execTurnaroundGapEnd, State.unlessHeld, hheld]

theorem sent_of_canSend {o : Outstation} {c : Cmd} {rest : List Cmd} {l : Loaded} {now : Nat} (hq : o.queue = c :: rest)
    (hloaded : o.loaded = some l) (h : o.canSend now = true) :
    o.sent now = { o with queue := rest, tagCounter := o.tagCounter + 1#8
                          inFlight := some ⟨c, o.tagCounter + 1#8, now + l.wait, 0⟩ } := by
  unfold Outstation.sent
  rw [if_pos h]
  split
  · rename_i hq' hl'
    rw [hq, List.cons.injEq] at hq'
    rw [hloaded, Option.some.injEq] at hl'
    rw [hq'.1, hq'.2, hl']
  · rename_i hno
    exact absurd hloaded (hno c rest l hq)

theorem trySend_of_not_canSend {s : State} {i : SlotId} (h : (s.slot i).canSend s.time = false) : s.trySend i = s := by
  simp [State.trySend, h]

/-- The head of the queue is sent. -/
theorem trySend_of_canSend {s : State} {i : SlotId} {c : Cmd} {rest : List Cmd} {l : Loaded} (hq : (s.slot i).queue = c :: rest)
    (hloaded : (s.slot i).loaded = some l) (h : (s.slot i).canSend s.time = true) :
    s.trySend i = (s.setSlot i { s.slot i with
        queue := rest, tagCounter := (s.slot i).tagCounter + 1#8
        inFlight := some ⟨c, (s.slot i).tagCounter + 1#8, s.time + l.wait, 0⟩ }).handFrame
      (.command l.address s.link.table.address c.kind ((s.slot i).tagCounter + 1#8) c.huntMark c.enrolFields) := by
  simp only [State.trySend, h, hq, hloaded]
  rfl

/-- Sending changes the Exchange and the port alone. -/
theorem rest_trySend (s : State) (i : SlotId) :
    s.trySend i = { s with exchange := (s.trySend i).exchange, link := (s.trySend i).link } := by
  obtain h | ⟨c, rest, tag, d, f, _, h⟩ := trySend_cases s i
  · rw [h]
  · rw [h]
    obtain ⟨l, hl, _⟩ := handFrame_link (s.setSlot i _) f
    rw [hl]
    rfl

theorem sends_iff (o : Outstation) : o.sends = true ↔ o.state = .enrolling ∨ o.state = .inService ∨ o.state = .unreachable := by
  cases hst : o.state <;> simp [Outstation.sends, hst]

/-! ### A response that matches nothing (R116) -/

theorem takeResponse_unmatched {s : State} {source : U16} {i : SlotId} (hslot : s.knownSlot source = some i) {tag : Byte}
    (hfly : ∀ fl, (s.slot i).inFlight = some fl → fl.tag ≠ tag) (a : AnswerKind) (v : U16) :
    s.takeResponse source tag a v = s.unmatched i tag := by
  unfold State.takeResponse
  rw [hslot]
  dsimp only
  split
  · rfl
  · rename_i fl hfl
    rw [if_neg (by simpa using hfly fl hfl)]

/-- An occurrence of an error concerns the error log, the port and the notices alone. -/
theorem rest_occur (s : State) (c : ErrorClass) : s.occur c = { s with link := (s.occur c).link, mgmt := (s.occur c).mgmt } := by
  unfold State.occur
  dsimp only
  split
  · exact Eq.trans (tells_rest (tells_notify _ _ _)) rfl
  · rfl

/-- In a still state nothing follows an occurrence but the outputs. -/
theorem conclude72_occur {s : State} (hs : s.Still) (c : ErrorClass) :
    State.conclude72 s (s.occur c) = (s.occur c).refreshOutputs := by
  have hrest := rest_occur s c
  have hpending : ∀ e, ((s.occur c).entry e).pend = none := fun e => by rw [hrest]; exact hs.noPending e
  have htrigger : (s.occur c).hunt.pendingList = [] := by rw [hrest]; exact hs.noTrigger
  rw [conclude72_still hpending (.inr htrigger), finish_same]
  rw [hrest]

/-- Settles O30: each way a command in flight ends, the sending of the next, and a response that matches nothing. -/
theorem commandsInFlightEnd : Obligations.CommandsInFlightEnd := by
  unfold Obligations.CommandsInFlightEnd
  refine ⟨fun s i source fl l v ended hheld hslot hfly hloaded hended => ?_, fun s i hheld => ⟨exec_timeout_early hheld, ?_⟩,
    fun s i hheld => ⟨?_, ?_, ?_⟩, ?_⟩
  · subst hended
    refine ⟨fun hstate st hst => ?_, fun k hstate hkind horigin hmerged hexpected => ?_⟩
    · subst hst
      have hdone := response_done_ends hheld hslot hfly hloaded hstate v
      have hrefused := response_refused_ends hheld hslot hfly hloaded hstate v
      have hlimit := response_waitLimit_ends hheld hslot hfly hloaded hstate v
      rw [Outstation.switched_eq] at hdone
      rw [answeredSlot_eq] at hdone hrefused hlimit
      obtain ⟨t, ht⟩ := hdone
      obtain ⟨t', ht'⟩ := hrefused
      refine ⟨⟨t, _, ht.1, rfl, ht.2⟩, ⟨t', _, ht'.1, rfl, ht'.2⟩, fun hwaits => ?_⟩
      obtain ⟨t'', ht''⟩ := hlimit hwaits
      exact ⟨t'', _, ht''.1, rfl, ht''.2⟩
    · obtain ⟨t, ht, hover, henters⟩ := response_done_enrols hheld hslot hfly hstate horigin v hkind hexpected
      refine ⟨⟨t, ht, hover, fun hv hs hfollower hrecloser hqueue hnone hset => ?_⟩,
        response_refused_enrol hheld hslot hfly hstate horigin v, response_waitLimit_enrol hheld hslot hfly hstate horigin v⟩
      obtain ⟨w, hw, rfl⟩ := henters hmerged hv ⟨l, hloaded, hfollower⟩
      exact conclude72_followerEntered hs hw ⟨hloaded, hfollower, hrecloser, .inl rfl⟩ hqueue rfl hnone hset
  · intro fl hfly hdue
    have hrun := exec_timeout hheld hfly hdue rfl
    refine ⟨fun hstate => ?_, fun hstate horigin => ⟨_, hrun, over_timedOut_enrol hfly hstate horigin⟩⟩
    have hends := ends_timedOut hfly hstate
    exact ⟨_, _, hrun, ((s.slot i).afterTimeout_eq fl.tag s.time), hends.landed, fun l hloaded => hends.next l (by
      rw [Outstation.afterTimeout_eq]; exact hloaded)⟩
  · intro c rest l hq hfly hloaded hsends hgap
    have hcan := (canSend_cons hq hfly hloaded s.time).2 ⟨(sends_iff _).2 hsends, hgap⟩
    refine ⟨_, exec_turnaroundGapEnd hheld i, ?_, ?_, fun j hj => slot_trySend_ne s hj,
      portKept_moves (moves_trySend (μ := fun _ => True) trivial s i), rest_trySend s i⟩
    · rw [slot_trySend, sent_of_canSend hq hloaded hcan]
    · rw [trySend_of_canSend hq hloaded hcan]
      exact (handFrame_holds _ _ _).2 (.inr rfl)
  · intro h
    rw [exec_turnaroundGapEnd hheld, trySend_of_not_canSend]
    obtain h | h | h | h := h
    · simp [Outstation.canSend, h]
    · exact canSend_of_flying h _
    all_goals
      unfold Outstation.canSend
      split <;> simp [Outstation.sends, h]
  · intro c rest l d hq hkind hloaded hdone hgap
    rw [exec_turnaroundGapEnd hheld, trySend_of_not_canSend]
    rw [Bool.eq_false_iff]
    intro hcan
    by_cases hfly : (s.slot i).inFlight = none
    · have hpassed := ((canSend_cons hq hfly hloaded s.time).1 hcan).2.resolve_left hkind d hdone
      omega
    · rw [canSend_of_flying hfly] at hcan
      cases hcan
  · intro s i source tag a v hs hslot hfly
    refine ⟨_, exec_response hs.released source tag a v, ?_⟩
    rw [takeResponse_unmatched hslot hfly, State.unmatched, conclude72_occur hs]
    generalize (if (s.slot i).expiredTag == some tag then ErrorClass.lateResponse else .tagMismatch) = c
    have hrest := rest_occur s c
    refine ⟨fun j => ?_, congrArg (fun u : State => { u with outputs := (s.occur c).refreshOutputs.outputs }) hrest⟩
    change (s.occur c).slot j = s.slot j
    rw [hrest]
    rfl

end Sys2Proof.Machine
end

section
/-! RESPONSE otherwise: one of the first four WAITs (R114), and a response that matches nothing (R116, R151). -/

namespace Sys2Proof.Machine

/-! ### Events that serve and send -/

/-- What serving a request and sending commands may change. -/
def Serving (p : Part) : Prop := p = .requests ∨ Sending p

theorem rest_of_serving {s t : State} (h : Parted Serving s t) :
    t = { s with exchange := t.exchange, link := t.link, mgmt := t.mgmt, outputs := t.outputs } := by
  have hrest := h.rest
  rw [h.reclose (by simp [Serving, Sending]), h.hunt (by simp [Serving, Sending]), h.bank (by simp [Serving, Sending]),
    h.threshold (by simp [Serving, Sending]), h.map (by simp [Serving, Sending])] at hrest
  exact hrest

/-! ### One of the first four WAITs (R114) -/

/-- The slot whose command in flight waits on. -/
def Outstation.waiting (o : Outstation) (fl : InFlight) (now : Nat) (w : U16) : Outstation :=
  ({ o with inFlight := some { fl with waits := fl.waits + 1, deadline := max fl.deadline (now + waitTime w) }
            failures := 0 } : Outstation).reached

theorem Outstation.waiting_eq (o : Outstation) (fl : InFlight) (now : Nat) (w : U16) : o.waiting fl now w = { o with
    state := if o.state = .unreachable then .inService else o.state
    failures := 0
    inFlight := some { fl with waits := fl.waits + 1, deadline := max fl.deadline (now + max 1 (min 10000 w.toNat)) } } := by
  unfold Outstation.waiting Outstation.reached waitTime
  dsimp only
  split <;> rfl

theorem admissions_reach (s : State) (i j : SlotId) : (s.reach i).admissions j = s.admissions j := by
  unfold State.reach
  dsimp only
  split
  · exact (spares_tells (tells_notify _ _ _) j).admissions
  · rfl

theorem records_waited_early {s : State} {i : SlotId} {fl : InFlight} (w : U16) (h : fl.waits + 1 < 5) :
    s.Records (s.waited i fl w) i ((s.slot i).waiting fl s.time w)
      ∧ ∀ j, (s.waited i fl w).admissions j = s.admissions j := by
  have hlimit : fl.waits + 1 < Config.waitLimit := h
  rw [State.waited, if_pos hlimit]
  exact ⟨((State.Records.refl s i).set _).reach, fun j => admissions_reach _ i j⟩

/-- No slot is tested for sending where one slot waits on and nothing was admitted. -/
theorem sendTestDue_of_records {s t : State} {i : SlotId} {o : Outstation} (h : s.Records t i o) (hfly : o.inFlight ≠ none)
    (hadmitted : ∀ j, t.admissions j = s.admissions j) (j : SlotId) : State.sendTestDue s t j = false := by
  have hlanded : ((s.slot j).inFlight.isSome && (t.slot j).inFlight.isNone) = false := by
    by_cases hj : j = i
    · subst hj
      rw [h.slot, Option.isNone_eq_false_iff.2 (Option.isSome_iff_ne_none.2 hfly), Bool.and_false]
    · rw [h.others hj]
      cases (s.slot j).inFlight <;> rfl
  simp [State.sendTestDue, hadmitted, hlanded]

/-! ### A response that matches nothing (R116, R151) -/

theorem fixed_occur (s : State) (c : ErrorClass) : (s.occur c).fixed
    = { s.fixed with log := put s.link.log c.index ⟨bump (look s.link.log c.index).count, true⟩ } := by
  unfold State.occur
  dsimp only
  split
  · exact (fixed_moves (tells_notify _ _ _)).trans rfl
  · rfl

theorem fixed_conclude72 (s0 s : State) : (State.conclude72 s0 s).fixed = s.fixed := fixed_moves (moves_conclude72 s0 s)

/-- Settles O31: a WAIT that is not the fifth, a response that matches nothing, and a response from nowhere. -/
theorem responseWaitsOrMismatches : Obligations.ResponseWaitsOrMismatches := by
  intro s source tag a v hheld
  refine ⟨fun i fl hs hslot hfly hwaits => ?_, fun i hslot hfly => ⟨_, exec_response hheld source tag a v, ?_⟩,
    fun hslot => ⟨_, exec_response hheld source tag a v, ?_⟩⟩
  · obtain ⟨hrecords, hadmitted⟩ := records_waited_early (s := s) (i := i) v hwaits
    have hnone := sendTestDue_of_records hrecords (by rw [Outstation.waiting_eq]; simp) hadmitted
    have hend : State.conclude72 s (s.takeResponse source fl.tag .wait v) = State.finish s (s.waited i fl v) := by
      rw [takeResponse_wait hslot hfly, conclude72_of_parted hs.toStill hrecords.parted (by simp) (by simp)]
    have hserving : Parted Serving s (State.finish s (s.waited i fl v)) :=
      (hrecords.parted.mono fun _ hp => .inr (.inl hp)).trans ((parted_finish _ _).mono fun _ => .inr)
    rw [exec_response hheld, hend]
    refine ⟨_, rfl, ?_, fun j hj => ?_, rest_of_serving hserving⟩
    · rw [slot_finish_of_not_due (hnone i), hrecords.slot, Outstation.waiting_eq]
    · rw [slot_finish_of_not_due (hnone j), hrecords.others hj]
  · rw [fixed_conclude72, takeResponse_unmatched hslot hfly, State.unmatched, fixed_occur]
    by_cases htag : (s.slot i).expiredTag = some tag
    · simp only [htag, beq_self_eq_true, if_true]
      rfl
    · simp only [beq_iff_eq, htag, if_false]
      rfl
  · have hnone : s.takeResponse source tag a v = s.occur .unknownSource := by rw [State.takeResponse, hslot]
    rw [fixed_conclude72, hnone, fixed_occur]
    rfl

end Sys2Proof.Machine
end

section
/-! A request that is served as it arrives by an owner that changes one slot (R160, R161): what is left at the end of the event. -/

namespace Sys2Proof.Machine

/-! ### An owner that changes one slot -/

/-- One slot has been replaced or has been handed a command; the notices, the frames at the port and that slot's count of admissions
may have changed beside it. -/
structure State.Alters (s t : State) (i : SlotId) (o : Outstation) : Prop where
  parted : Parted (fun p => p = .exchange) s t
  slot : t.slot i = o
  others : ∀ j, j ≠ i → t.slot j = s.slot j ∧ t.admissions j = s.admissions j
  ticket : t.mgmt.nextTicket = s.mgmt.nextTicket
  port : s.PortKept t

theorem alters_setSlot (s : State) (i : SlotId) (o : Outstation) : s.Alters (s.setSlot i o) i o where
  parted := parted_setSlot (μ := fun p => p = .exchange) rfl s i o
  slot := State.slot_setSlot_self s i o
  others _ hj := ⟨look_put_ne _ _ hj, rfl⟩
  ticket := rfl
  port := ⟨rfl, rfl, fun _ h => h, rfl⟩

namespace State.Alters

variable {s t : State} {i : SlotId} {o : Outstation}

theorem set (h : s.Alters t i o) (o' : Outstation) : s.Alters (t.setSlot i o') i o' where
  parted := h.parted.trans (parted_setSlot (μ := fun p => p = .exchange) rfl t i o')
  slot := State.slot_setSlot_self t i o'
  others j hj := ⟨(look_put_ne _ _ hj).trans (h.others j hj).1, (h.others j hj).2⟩
  ticket := h.ticket
  port := h.port.trans ⟨rfl, rfl, fun _ h => h, rfl⟩

theorem notifySlot (h : s.Alters t i o) (st : SlotState) (x : OutReason) : s.Alters (t.notifySlot i st x) i o where
  parted := h.parted.trans (parted_moves (moves_notify t _ _))
  slot := (slot_notify t _ _ i).trans h.slot
  others j hj := ⟨(slot_notify t _ _ j).trans (h.others j hj).1,
    (spares_tells (tells_notify t _ _) j).admissions.trans (h.others j hj).2⟩
  ticket := (congrArg Fixed.tickets (fixed_moves (tells_notify t _ _))).trans h.ticket
  port := h.port.trans (portKept_moves (tells_notify t _ _))

theorem countAdmission (h : s.Alters t i o) : s.Alters (t.countAdmission i) i o where
  parted := h.parted.trans (parted_prim (.admission t i rfl))
  slot := h.slot
  others j hj := ⟨(h.others j hj).1, (look_put_ne _ _ hj).trans (h.others j hj).2⟩
  ticket := h.ticket
  port := h.port.trans ⟨rfl, rfl, fun _ h => h, rfl⟩

end State.Alters

/-! ### The reply and the end of the event -/

/-- The only entry is answered at the end of the event (R161). -/
theorem answered_finish {s u : State} {req : RequestId} {kind : Byte} {params : List Byte}
    (hentry : u.mgmt.requests.map ReqEntry.request = [s.newEntry req kind params])
    (hticket : u.mgmt.nextTicket = s.mgmt.nextTicket + 1) (r : Result) (payload : List Byte) :
    s.Answered (State.finish s (u.replyTo s.mgmt.nextTicket r payload)) req kind params r payload := by
  obtain ⟨hreplying, hreply, _, _, hnext⟩ := replyTo_only u (s.newEntry req kind params) r payload hentry
  set v := u.replyTo s.mgmt.nextTicket r payload
  have hreplied : u.PortKept v := portKept_moves (moves_replyTo (μ := fun _ => True) trivial u s.mgmt.nextTicket r payload)
  have hend : v.PortKept (State.finish s v) := portKept_moves (moves_finish_sending s v)
  refine ⟨⟨?_, ?_⟩, ?_⟩
  · rw [mgmt_finish]; exact hreplying
  · rw [mgmt_finish]; exact hnext.trans hticket
  · rw [hend.table, hreplied.table]
    exact hend.frames _ hreply

/-- A request that is served as it arrives and answered at once. -/
theorem requestEvent_answers {s u : State} {req : RequestId} {kind : Byte} {params : List Byte} (settles : Bool)
    {owner : Nat → State → Served} {r : Result} {payload : List Byte} (hr : s.Ready req)
    (ho : owner s.mgmt.nextTicket (s.arrived req kind params) = (u, some (r, payload))) :
    s.requestEvent req kind params settles owner
      = State.finish s ((if settles then u.settle else u).replyTo s.mgmt.nextTicket r payload) := by
  rw [requestEvent_ready s req kind params settles owner hr]
  unfold State.serveEntry
  rw [ho]
  rfl

/-- A slot that does not send is as it was at the end of the event (R111). -/
theorem slot_finish_of_not_sends {s0 s : State} {i : SlotId} (h : (s.slot i).sends = false) :
    (State.finish s0 s).slot i = s.slot i := by
  cases hdue : State.sendTestDue s0 s i with
  | false => exact slot_finish_of_not_due hdue
  | true =>
    have hcan : (s.slot i).canSend s.time = false := by
      unfold Outstation.canSend
      split <;> simp [h]
    rw [slot_finish_of_due hdue, Outstation.sent, if_neg (by simp [hcan])]

/-- What an event leaves whose owner has changed one slot, to `o`. -/
structure State.LeavesSlot (s t : State) (i : SlotId) (o : Outstation) : Prop where
  kept : (t.slot i).still = o.still
  has : ∀ c, o.Has c → (t.slot i).Has c
  quiet : o.sends = false → t.slot i = o
  others : ∀ j, j ≠ i → t.slot j = s.slot j
  port : s.PortKept t
  rest : t = { s with exchange := t.exchange, link := t.link, mgmt := t.mgmt, outputs := t.outputs }

/-- The end of the event of a request whose owner has changed one slot; the entry is then answered or marked. -/
theorem leavesSlot_finish {s u v : State} {req : RequestId} {kind : Byte} {params : List Byte} {i : SlotId} {o : Outstation}
    (hu : (s.arrived req kind params).Alters u i o) (hv : Moves (fun p => p = .requests) u v) :
    s.LeavesSlot (State.finish s v) i o := by
  have hmarked := parted_moves hv
  have hexchange : v.exchange = u.exchange := hmarked.exchange (by simp)
  have hslot (j : SlotId) : v.slot j = u.slot j := congrArg (fun x : OutstationExchange => look x.slots j) hexchange
  have hslot_i : v.slot i = o := (hslot i).trans hu.slot
  refine ⟨?_, fun c hc => has_finish s (by rw [hslot_i]; exact hc), fun hsends => ?_, fun j hj => ?_, ?_, ?_⟩
  · rw [still_finish, hslot_i]
  · rw [slot_finish_of_not_sends (by rw [hslot_i]; exact hsends), hslot_i]
  · obtain ⟨hother, hadmitted⟩ := hu.others j hj
    have hsame : v.slot j = s.slot j := (hslot j).trans hother
    have hcount : v.admissions j = s.admissions j :=
      (congrArg (fun x : OutstationExchange => look x.admitted j) hexchange).trans hadmitted
    rw [slot_finish_of_not_due, hsame]
    rw [State.sendTestDue, hcount, hsame]
    cases (s.slot j).inFlight <;> simp
  · exact (portKept_arrived s req kind params).trans
      (hu.port.trans ((portKept_moves hv).trans (portKept_moves (moves_finish_sending s v))))
  · exact rest_of_serving (s := s.arrived req kind params) (((hu.parted.mono fun _ hp => .inr (.inl hp)).trans
      (hmarked.mono fun _ hp => .inl hp)).trans ((parted_finish s v).mono fun _ hp => .inr hp))

/-- A request answered at once by an owner that has changed one slot. -/
theorem requestEvent_leavesSlot {s u : State} {req : RequestId} {kind : Byte} {params : List Byte} {owner : Nat → State → Served}
    {r : Result} {payload : List Byte} {i : SlotId} {o : Outstation} (hr : s.Ready req)
    (ho : owner s.mgmt.nextTicket (s.arrived req kind params) = (u, some (r, payload)))
    (hu : (s.arrived req kind params).Alters u i o) :
    s.Answered (s.requestEvent req kind params false owner) req kind params r payload
      ∧ s.LeavesSlot (s.requestEvent req kind params false owner) i o := by
  have hrequests : u.mgmt.requests = [s.newEntry req kind params] := hu.parted.requests (by simp)
  rw [requestEvent_answers false hr ho, if_neg Bool.false_ne_true]
  exact ⟨answered_finish (by rw [hrequests]; rfl) hu.ticket r payload, leavesSlot_finish hu
    (moves_replyTo (μ := fun p => p = .requests) rfl u _ r payload)⟩

/-! ### LOAD_OUTSTATION (R101, R102) -/

/-- The ten bytes of an OUTSTATION record. -/
structure OutstationBytes (r : List Byte) (l : Loaded) : Prop where
  present : byteAt r 0 = 1
  address : u16At r 1 = l.address
  kind : byteAt r 3 = l.kind.code
  wait : wordAt r 4 = l.wait
  gap : wordAt r 6 = l.gap
  flags : byteAt r 8 = l.follower.toNat + 2 * l.huntCapable.toNat
  refresh : byteAt r 9 = l.refresh

theorem outstationBytes_encode {position : Nat} {l : Loaded} (hl : l.Valid position) :
    OutstationBytes (encodeOutstation l) l := by
  obtain ⟨_, _, _, hwait, hgap, _, hrefresh, _⟩ := hl
  have hcode : l.kind.code ≤ 255 := by cases l.kind <;> decide
  have haddress : wordAt (encodeOutstation l) 1 = l.address.toNat := toNat_word (Nat.le_of_lt_succ l.address.isLt)
  have hflags : byteAt (encodeOutstation l) 8 = l.follower.toNat + 2 * l.huntCapable.toNat := by
    change (BitVec.ofNat 8 _).toNat = _
    cases l.follower <;> cases l.huntCapable <;> rfl
  refine ⟨rfl, ?_, toNat_byte hcode, toNat_word (by omega), toNat_word (by omega), hflags, toNat_byte (by omega)⟩
  rw [u16At, haddress, BitVec.ofNat_toNat, BitVec.setWidth_eq]

theorem outKindOf_code (k : OutKind) : outKindOf k.code = some k := by cases k <;> rfl

/-- R101 step 4 of a valid entry. -/
theorem kindAgrees_of_valid {position : Nat} {l : Loaded} (hl : l.Valid position) :
    kindAgrees position l.kind l.follower l.huntCapable = true := by
  obtain ⟨_, _, _, _, _, _, _, hhead, hhunt, hfollow⟩ := hl
  have hplace : ((position == 0) == (l.kind == .breaker)) = true := by
    rw [beq_iff_eq, Bool.eq_iff_iff]
    simpa using hhead
  have hcapable : (!l.huntCapable || l.kind == .recloser || l.kind == .sectionaliser) = true := by
    cases h : l.huntCapable with
    | false => rfl
    | true => simpa using hhunt h
  have hfollower : (!l.follower || l.kind == .recloser) = true := by
    cases h : l.follower with
    | false => rfl
    | true => simpa using hfollow h
  rw [kindAgrees, hplace, hcapable, hfollower]
  rfl

/-- An OUTSTATION record reads back. -/
theorem decodeOutstation_encode {position : Nat} {l : Loaded} (hl : l.Valid position) :
    decodeOutstation position (encodeOutstation l) = some l := by
  have h := outstationBytes_encode hl
  have hfollower : (byteAt (encodeOutstation l) 8 % 2 == 1) = l.follower := by
    rw [h.flags]
    cases l.follower <;> cases l.huntCapable <;> rfl
  have hcapable : (byteAt (encodeOutstation l) 8 / 2 % 2 == 1) = l.huntCapable := by
    rw [h.flags]
    cases l.follower <;> cases l.huntCapable <;> rfl
  have hflags : byteAt (encodeOutstation l) 8 ≤ 3 := by
    rw [h.flags]
    cases l.follower <;> cases l.huntCapable <;> decide
  have hagrees := kindAgrees_of_valid hl
  obtain ⟨hzero, hones, hwait, hwait', hgap, hrefresh, hrefresh', _⟩ := hl
  rw [decodeOutstation, h.kind, outKindOf_code]
  simp [hfollower, hcapable, hflags, hagrees, h.address, h.wait, h.gap, h.refresh, flagOk, h.present, addressOk, hzero, hones,
    within, hwait, hwait', hgap, hrefresh, hrefresh']

theorem lengthOk_encodeOutstation (l : Loaded) : lengthOk 3 (encodeOutstation l) = true := rfl

/-- A slot that is replaced, with its notice. -/
theorem alters_placeSlot (s : State) (i : SlotId) (o : Outstation) : s.Alters (s.placeSlot i o) i o := by
  unfold State.placeSlot
  dsimp only
  split
  · exact alters_setSlot s i o
  · exact (alters_setSlot s i o).notifySlot _ _

theorem loadSlotAt_encode {s : State} {i : SlotId} {l : Loaded} (hl : l.Valid (SlotId.position i))
    (hstate : (s.slot i).state = .empty ∨ (s.slot i).state = .outOfService)
    (hmode : SlotId.position i = 0 → s.mode (SlotId.feeder i) = .outOfService) (hslots : s.slotHas (some i) l.address = false)
    (hstreams : s.streamHas none l.address = false) (hengine : l.address ≠ s.link.table.address) :
    s.loadSlotAt i (encodeOutstation l) = (s.placeSlot i ((s.slot i).reloaded l), .ok) := by
  have hsends : (s.slot i).sends = false := by
    rcases hstate with hst | hst <;> simp [Outstation.sends, hst]
  have hfree : (SlotId.position i == 0 && s.mode (SlotId.feeder i) != .outOfService) = false := by
    by_cases hpos : SlotId.position i = 0
    · simp [hmode hpos]
    · simp [hpos]
  have hpresent : presentClear (encodeOutstation l) = false := by simp [presentClear, (outstationBytes_encode hl).present]
  simp [State.loadSlotAt, hsends, hfree, hpresent, decodeOutstation_encode hl, hslots, hstreams, hengine]

/-- A loaded slot is in no state that sends (R102, R111). -/
theorem sends_reloaded {o : Outstation} (l : Loaded) (h : o.state = .empty ∨ o.state = .outOfService) :
    (o.reloaded l).sends = false := by
  have hstate : (o.reloaded l).state = .empty ∨ (o.reloaded l).state = .outOfService := by
    unfold Outstation.reloaded
    split
    · exact .inr rfl
    · split <;> exact h
  rcases hstate with hst | hst <;> simp [Outstation.sends, hst]

/-- Settles O42: the record reads back, and the slot is replaced by what R102 makes of it. -/
theorem loadOutstationStores : Obligations.LoadOutstationStores := by
  intro s req i l hr hl hstate hmode hslots hstreams hengine
  set s1 := s.arrived req 0x01#8 (0x03#8 :: BitVec.ofNat 8 i.val :: encodeOutstation l)
  have hload : s1.ownerLoad 3 (BitVec.ofNat 8 i.val) (encodeOutstation l)
      = (s1.placeSlot i ((s.slot i).reloaded l), .ok) :=
    (loadWithin_ofNat (by decide) s1 i _).trans (loadSlotAt_encode (s := s1) hl hstate hmode hslots hstreams hengine)
  obtain ⟨hanswered, hleaves⟩ := requestEvent_leavesSlot hr
    (serveLoad_of_applyLoad s.mgmt.nextTicket hr.idle (lengthOk_encodeOutstation l) hload) (alters_placeSlot s1 i _)
  have hslot := hleaves.quiet (sends_reloaded l hstate)
  refine ⟨_, rfl, hanswered, fun hnone => hslot.trans ?_, fun l0 hl0 hsame => hslot.trans ?_,
    fun l0 hl0 hother => hslot.trans ?_, hleaves.others, hleaves.port, hleaves.rest⟩
  · rw [Outstation.reloaded, hnone]
  · simp only [Outstation.reloaded, hl0, if_pos hsame]
  · simp only [Outstation.reloaded, hl0, if_neg hother]

end Sys2Proof.Machine
end

section
/-! SET_SERVICE (R103, R105) and OPERATE (R106, R108, R164, R182). -/

namespace Sys2Proof.Machine

/-! ### SET_SERVICE on (R103) -/

theorem withSlot_ofNat (s : State) (i : SlotId) (g : SlotId → Served) : withSlot s (BitVec.ofNat 8 i.val) g = g i := by
  rw [withSlot, indexOf_ofNat (by decide) i]

/-- The ENROL of a slot that is ENROLLING is admitted behind what waits (R106). -/
theorem handCmd_enrol {s : State} {i : SlotId} {l : Loaded} (hstate : (s.slot i).state = .enrolling)
    (hloaded : (s.slot i).loaded = some l) : (s.handCmd i (enrolCmd l)).1
      = (s.setSlot i { s.slot i with queue := (s.slot i).queue ++ [enrolCmd l] }).countAdmission i := by
  have hturn : (s.slot i).turnsAway (s.testMark (SlotId.feeder i)) (enrolCmd l) = none := by
    simp [Outstation.turnsAway, Outstation.admits, hstate, hloaded, enrolCmd, CmdKind.permittedFor, CmdKind.isSwitching,
      CmdKind.isSwitch]
  have hkind : (enrolCmd l).kind = .enrol := rfl
  simp [State.handCmd, admitCmd, hturn, hkind]

theorem alters_beginEnrol {s : State} {i : SlotId} {l : Loaded} (hloaded : (s.slot i).loaded = some l) :
    s.Alters (s.beginEnrol i l) i { (s.slot i).enrolling with queue := (s.slot i).queue ++ [enrolCmd l] } := by
  have hbegun := (alters_setSlot s i (s.slot i).enrolling).notifySlot .outOfService .enrolling
  have hstate : (((s.setSlot i (s.slot i).enrolling).notifySlot i .outOfService .enrolling).slot i).state = .enrolling := by
    rw [hbegun.slot]; rfl
  rw [State.beginEnrol, handCmd_enrol hstate (by rw [hbegun.slot]; exact hloaded), hbegun.slot]
  exact (hbegun.set _).countAdmission

/-! ### SET_SERVICE off (R105) -/

theorem serviceOff_leaves {s : State} {i : SlotId}
    (hstate : (s.slot i).state = .enrolling ∨ (s.slot i).state = .inService ∨ (s.slot i).state = .unreachable)
    (hfly : (s.slot i).inFlight = none) (hmode : SlotId.position i = 0 → s.mode (SlotId.feeder i) = .outOfService)
    (hpoint : s.isOpenPoint i = false) : s.serviceOff i = (s.leaveService i, .ok) := by
  have hfree : (SlotId.position i == 0 && s.mode (SlotId.feeder i) != .outOfService) = false := by
    by_cases hpos : SlotId.position i = 0
    · simp [hmode hpos]
    · simp [hpos]
  rcases hstate with hst | hst | hst <;> simp [State.serviceOff, hst, hfly, hfree, hpoint]

/-- A slot leaves service: its record, then the working of what is cancelled (R99, R105). -/
theorem leaveService_hands (s : State) (i : SlotId) :
    ∃ u, s.Records u i (s.slot i).leftService ∧ Hands u (s.leaveService i) := by
  have hrecords := ((State.Records.refl s i).set (s.slot i).leftService).notifySlot (s.slot i).state .serviceOff
  have hdropped : Hands _ _ := Hands.aside (moves_dropFollower (μ := Outside) (by decide)
    ((s.setSlot i (s.slot i).leftService).notifySlot i (s.slot i).state .serviceOff) i)
  have hstate := slot_hands_outOfService hdropped (i := i) (by rw [hrecords.slot]; rfl)
  refine ⟨_, hrecords, .after (hands_deliverAll ?_ (by rw [hstate, hrecords.slot]; simp [Outstation.leftService])) hdropped⟩
  intro d hd
  obtain ⟨c, _, hc⟩ := List.mem_flatMap.1 hd
  exact slot_deliveries i c _ d hc

/-- Settles O50: the slot enrols, or leaves service with nothing queued. -/
theorem setServiceChanges : Obligations.SetServiceChanges := by
  intro s req i hr
  refine ⟨fun l hstate hloaded => ?_, fun hstate hfly hmode hpoint => ?_⟩
  · set s1 := s.arrived req 0x07#8 [BitVec.ofNat 8 i.val, 0x01#8]
    have hstate1 : (s1.slot i).state = .outOfService := hstate
    have hloaded1 : (s1.slot i).loaded = some l := hloaded
    have howner : serveServiceOn (BitVec.ofNat 8 i.val) s.mgmt.nextTicket s1 = (s1.beginEnrol i l, some (.ok, [])) := by
      rw [serveServiceOn, withSlot_ofNat]
      simp [State.serviceOn, hstate1, hloaded1, answer]
    obtain ⟨hanswered, hleaves⟩ := requestEvent_leavesSlot hr howner (alters_beginEnrol hloaded1)
    exact ⟨_, rfl, hanswered, hleaves.kept,
      hleaves.has (enrolCmd l) (.inl (List.mem_append_right _ List.mem_cons_self)), hleaves.others, hleaves.port, hleaves.rest⟩
  · set s1 := s.arrived req 0x07#8 [BitVec.ofNat 8 i.val, 0x00#8]
    have howner : serveServiceOff (BitVec.ofNat 8 i.val) s.mgmt.nextTicket s1 = (s1.leaveService i, some (.ok, [])) := by
      rw [serveServiceOff, withSlot_ofNat, serviceOff_leaves (s := s1) hstate hfly hmode hpoint]
      rfl
    obtain ⟨u, hrecords, hhands⟩ := leaveService_hands s1 i
    have hsettled : Hands u (s1.leaveService i).settle := .after (hands_settle _) hhands
    have haside : s1.StillAside (s1.leaveService i).settle := hrecords.aside.trans (stillAside_of_fixed (fixed_hands hsettled))
    have hentry : (s1.leaveService i).settle.mgmt.requests.map ReqEntry.request = [s.newEntry req 0x07#8 [BitVec.ofNat 8 i.val, 0x00#8]] :=
      congrArg Fixed.requests haside
    have hticket : (s1.leaveService i).settle.mgmt.nextTicket = s.mgmt.nextTicket + 1 := congrArg Fixed.tickets haside
    set v := (s1.leaveService i).settle.replyTo s.mgmt.nextTicket .ok []
    have hreplied : Moves (fun p => p = .requests) (s1.leaveService i).settle v :=
      moves_replyTo (μ := fun p => p = .requests) rfl _ _ _ _
    have hslot : v.slot i = (s.slot i).leftService := by
      have hleft : (u.slot i).state = .outOfService := by rw [hrecords.slot]; rfl
      rw [State.slot, (parted_moves hreplied).exchange (by simp), ← State.slot, slot_hands_outOfService hsettled hleft,
        hrecords.slot]
      rfl
    refine ⟨State.finish s v, ?_, answered_finish hentry hticket .ok [], ?_, fun j hj => ?_⟩
    · change Host.Outcome.next (s.requestEvent req _ _ true (serveServiceOff (BitVec.ofNat 8 i.val))) = _
      rw [requestEvent_answers true hr howner, if_pos rfl]
    · rw [slot_finish_of_not_sends (by rw [hslot]; rfl), hslot]
      rfl
    · rw [still_finish, still_of_fixed (fixed_moves hreplied), still_of_fixed (fixed_hands hsettled), hrecords.others hj]
      rfl

/-! ### OPERATE (R164, R182) -/

/-- OPERATE of a point that is not the open point, of a feeder not in TEST, where nothing is deferred. -/
theorem operateRefusal_none {s : State} {i : SlotId} {k : CmdKind} (hpoint : s.isOpenPoint i = false)
    (hmode : s.mode (SlotId.feeder i) ≠ .test) (hcheck : SlotId.position i = 0 → s.operateCheck (SlotId.feeder i) k = none)
    (hdeferred : s.deferredCount = 0) : s.operateRefusal i k = none := by
  have hchecked : (if SlotId.position i = 0 then s.operateCheck (SlotId.feeder i) k else none) = none := by
    split
    · rename_i hpos; exact hcheck hpos
    · rfl
  simp [State.operateRefusal, hpoint, hmode, hchecked, hdeferred, Config.deferredLimit]

section

variable {s : State} {req : RequestId} {i : SlotId} {k : CmdKind} (hr : s.Ready req) (hpoint : s.isOpenPoint i = false)
  (hmode : s.mode (SlotId.feeder i) ≠ .test) (hcheck : SlotId.position i = 0 → s.operateCheck (SlotId.feeder i) k = none)
  (hstate : (s.slot i).state = .inService)
  (hkind : ((s.slot i).loaded.any fun l => l.kind == .breaker || l.kind == .recloser || l.kind == .sectionaliser) = true)
  (hfree : ∀ c ∈ (s.slot i).queue, c.kind.isSwitch = false)
include hr hpoint hmode hcheck hstate hkind hfree

/-- An OPERATE that is deferred, whatever its parameters are. -/
theorem operate_defers (hk : k = .opn ∨ k = .close) (params : List Byte) :
    ∃ t, s.requestEvent req 0x08#8 params false (serveOperate k (BitVec.ofNat 8 i.val)) = t
      ∧ s.Served t req 0x08#8 params .deferred
      ∧ (t.slot i).Has { kind := k, origin := .management s.mgmt.nextTicket } ∧ (t.slot i).still = (s.slot i).still
      ∧ (∀ j, j ≠ i → t.slot j = s.slot j) ∧ s.NoNotice t ∧ s.PortKept t
      ∧ t = { s with exchange := t.exchange, link := t.link, mgmt := t.mgmt, outputs := t.outputs } := by
  set s1 := s.arrived req 0x08#8 params
  set c := operateCmd k s.mgmt.nextTicket with hc
  set o : Outstation := { s.slot i with queue := (s.slot i).queue ++ [c] }
  set u := (s1.setSlot i o).countAdmission i
  set v := u.markEntry s.mgmt.nextTicket .deferred
  have hswitch : c.kind.isSwitch = true := by rcases hk with rfl | rfl <;> rfl
  have hpermitted : ((s1.slot i).loaded.any fun l => c.kind.permittedFor l.kind) = true := by
    rcases hk with rfl | rfl <;> exact hkind
  have hhanded : s1.handCmd i c = (u, []) := handCmd_switch (s := s1) hswitch hstate hpermitted hmode hfree
  have hdeferred : s1.deferredCount = 0 := rfl
  have howner : serveOperate k (BitVec.ofNat 8 i.val) s.mgmt.nextTicket s1 = (v, none) := by
    rw [serveOperate, withSlot_ofNat, operateRefusal_none (s := s1) hpoint hmode hcheck hdeferred]
    simp only [← hc, hhanded, ownCompletion, List.getLast?_nil]
    rfl
  have hrun : s.requestEvent req 0x08#8 params false (serveOperate k (BitVec.ofNat 8 i.val)) = State.finish s v := by
    rw [requestEvent_ready s req 0x08#8 params false _ hr, State.serveEntry, howner]
    rfl
  have hleaves : s.LeavesSlot (State.finish s v) i o :=
    leavesSlot_finish ((alters_setSlot s1 i o).countAdmission) (.one (.mark u _ _ rfl))
  have hhas := hleaves.has c (.inl (List.mem_append_right _ List.mem_cons_self))
  refine ⟨_, hrun, ⟨?_, ?_⟩, hhas, hleaves.kept, hleaves.others, ⟨?_, ?_⟩, hleaves.port, hleaves.rest⟩
  all_goals rw [mgmt_finish]
  · change [s.newEntry req 0x08#8 params].map _ = _
    simp [State.newEntry]
  all_goals rfl

end

/-- Settles O51: opening and closing are deferred alike. -/
theorem operateIsDeferred : Obligations.OperateIsDeferred := by
  intro s req i k hr hpoint hmode hcheck hstate hkind hfree
  have hdefers := operate_defers hr hpoint hmode hcheck hstate hkind hfree
  refine ⟨fun hk => ?_, fun hk => ?_⟩
  · subst hk
    obtain ⟨t, hrun, h⟩ := hdefers (.inl rfl) [BitVec.ofNat 8 i.val, 0x01#8]
    exact ⟨t, congrArg Host.Outcome.next hrun, h⟩
  · subst hk
    obtain ⟨t, hrun, h⟩ := hdefers (.inr rfl) [BitVec.ofNat 8 i.val, 0x02#8]
    exact ⟨t, congrArg Host.Outcome.next hrun, h⟩

end Sys2Proof.Machine
end

section
/-! HUNT is a member exactly while a hunt in progress involves the feeder (R127): what concerns no hunt leaves the member and the
hunt context as they were. -/

namespace Sys2Proof.Machine

/-! ### What the member HUNT hangs on -/

/-- The member HUNT of every set, and the hunt context. -/
def State.huntView (s : State) : Vector Bool 8 × HuntContext := (s.reclose.records.map fun r => r.reasons.hunt, s.ctx)

theorem huntView_of_reasons {s t : State} (hr : ∀ f, (t.recl f).reasons.hunt = (s.recl f).reasons.hunt) (hc : t.ctx = s.ctx) :
    t.huntView = s.huntView :=
  Prod.ext (look_ext fun f => by simp only [State.huntView, look_map]; exact hr f) hc

theorem huntView_of_records {s t : State} (hr : t.reclose.records = s.reclose.records) (hh : t.hunt = s.hunt) :
    t.huntView = s.huntView := huntView_of_reasons (fun f => by rw [recl_of_records hr]) (congrArg HuntController.ctx hh)

theorem hunt_of_huntView {s t : State} (h : t.huntView = s.huntView) (f : Feeder) :
    (t.recl f).reasons.hunt = (s.recl f).reasons.hunt := by
  have hmember := look_congr (congrArg Prod.fst h) f
  simp only [State.huntView, look_map] at hmember
  exact hmember

theorem ctx_of_huntView {s t : State} (h : t.huntView = s.huntView) : t.ctx = s.ctx := congrArg Prod.snd h

/-- The parts the member HUNT does not hang on. -/
def Unhunted (p : Part) : Prop := p ≠ .reclose ∧ p ≠ .hunt

theorem huntView_moves {s t : State} (h : Moves Unhunted s t) : t.huntView = s.huntView :=
  huntView_of_records (congrArg _ ((parted_moves h).reclose fun hp => hp.1 rfl)) ((parted_moves h).hunt fun hp => hp.2 rfl)

theorem huntView_notify (s : State) (n : Notice) (b : Bool) : (s.notify n b).huntView = s.huntView :=
  huntView_moves (moves_notify s n b)

theorem huntView_handCmd (s : State) (i : SlotId) (c : Cmd) : (s.handCmd i c).1.huntView = s.huntView := by
  unfold State.handCmd
  dsimp only
  split <;> rfl

theorem huntView_replyTo (s : State) (k : Nat) (r : Result) (p : List Byte) : (s.replyTo k r p).huntView = s.huntView :=
  huntView_moves (moves_replyTo (by simp [Unhunted]) s k r p)

/-- The end of an event but for what it settles. -/
theorem huntView_finish (s0 s : State) : (State.finish s0 s).huntView = s.huntView :=
  huntView_moves (moves_finish (by simp [Unhunted]) (by simp [Unhunted]) s0 s)

/-! ### Followers -/

/-- What changes followers and slots alone. -/
theorem huntView_closing {s t : State} (hr : t.reclose.records = s.reclose.records) (h : Moves Closing s t) :
    t.huntView = s.huntView := huntView_of_records hr ((parted_moves h).hunt (by simp [Closing]))

theorem huntView_moveFollower (s : State) (i : SlotId) (st : FollowerState) (r : Option Nat) (k : Option Completion) :
    (s.moveFollower i st r k).huntView = s.huntView :=
  huntView_closing (records_moveFollower s i st r k) (moves_moveFollower (.inr rfl) s i st r k)

theorem huntView_blockingCompleted (s : State) (d : Delivery) : (s.blockingCompleted d).huntView = s.huntView :=
  huntView_closing (records_blockingCompleted s d) (moves_blockingCompleted (.inr rfl) s d)

theorem huntView_refreshExpired (s : State) (i : SlotId) : (s.refreshExpired i).huntView = s.huntView :=
  huntView_closing (congrArg Prod.fst (shotView_refreshExpired s i)) (moves_refreshExpired (.inl rfl) (.inr rfl) s i)

theorem huntView_followerEntered (s : State) (i : SlotId) : (s.followerEntered i).huntView = s.huntView :=
  huntView_closing (congrArg Prod.fst (shotView_followerEntered s i)) (moves_followerEntered (.inl rfl) (.inr rfl) s i)

/-! ### The reclose state -/

theorem huntView_goReclose (s : State) (f : Feeder) (st : RecloseState) (x : PermissionFailures) :
    (s.goReclose f st x).huntView = s.huntView :=
  huntView_of_reasons (fun g => by rw [reasons_goReclose]) (congrArg HuntController.ctx (notify_hunt _ _ _))

theorem huntView_markReclose (s : State) (f : Feeder) (st : RecloseState) : (s.markReclose f st).huntView = s.huntView := by
  refine huntView_of_reasons (fun g => ?_) rfl
  rw [State.markReclose, State.recl_setRecl]
  split
  · rename_i h; rw [h]
  · rfl

theorem huntView_tellDecision (s : State) (f : Feeder) : (s.tellDecision f).huntView = s.huntView := by
  unfold State.tellDecision
  split
  · rfl
  · exact huntView_goReclose _ _ _ _

theorem huntView_tellTripDone (s : State) (f : Feeder) (c : Causes) : (s.tellTripDone f c).huntView = s.huntView := by
  unfold State.tellTripDone
  split
  · exact huntView_goReclose _ _ _ _
  · dsimp only
    split <;> exact huntView_goReclose _ _ _ _
  · rfl

theorem huntView_tellTripFailed (s : State) (f : Feeder) : (s.tellTripFailed f).huntView = s.huntView := by
  unfold State.tellTripFailed
  split
  · exact huntView_goReclose _ _ _ _
  · rfl

theorem huntView_closeCompleted (s : State) (f : Feeder) (k : Completion) : (s.closeCompleted f k).huntView = s.huntView :=
  huntView_of_reasons (fun g => by rw [reasons_closeCompleted])
    (congrArg HuntController.ctx ((parted_closeCompleted s f k).hunt (by simp)))

theorem huntView_deadExpired (s : State) (f : Feeder) (n : Nat) : (s.deadExpired f n).huntView = s.huntView := by
  have hhand := (huntView_handCmd (s.goReclose f (.closing n none)) (Feeder.head f)
    { kind := .close, origin := .reclose, shot := n }).trans (huntView_goReclose s f _ _)
  unfold State.deadExpired
  dsimp only
  split
  · exact hhand
  · exact (huntView_closeCompleted _ _ _).trans hhand

theorem huntView_presentReclose (s : State) (f : Feeder) (p : Profile) : (s.presentReclose f p).huntView = s.huntView := by
  unfold State.presentReclose
  split
  · split
    · exact huntView_goReclose _ _ _ _
    · rfl
  · split
    · exact huntView_markReclose _ _ _
    · rfl
  · split
    · exact huntView_goReclose _ _ _ _
    · rfl
  · rfl

theorem huntView_externalOpen (s : State) (f : Feeder) : (s.externalOpen f).huntView = s.huntView := by
  unfold State.externalOpen
  split
  · exact huntView_goReclose _ _ _ _
  · rfl

theorem huntView_operateTold (s : State) (f : Feeder) (kd : CmdKind) (k : Completion) : (s.operateTold f kd k).huntView = s.huntView := by
  refine huntView_of_reasons (fun g => by rw [reasons_operateTold]) ?_
  exact congrArg HuntController.ctx ((parted_moves (moves_operateTold (μ := fun p => p = .reclose) rfl s f kd k)).hunt (by simp))

theorem huntView_tripCompleted (s : State) (f : Feeder) (k : Completion) : (s.tripCompleted f k).huntView = s.huntView := by
  have hclose : ∀ l o, (s.closeLatch f l o).huntView = s.huntView := fun l o =>
    huntView_moves (moves_closeLatch (by simp [Unhunted]) s f l o)
  have htold : ∀ (t : State) l o, (t.notifyTrip f l o).huntView = t.huntView := fun t l o => huntView_moves (moves_notifyTrip t f l o)
  unfold State.tripCompleted
  split
  · rfl
  · rename_i l _
    split
    · exact (htold _ l _).trans ((huntView_tellTripDone _ _ _).trans (hclose l .opened))
    · exact (htold _ l _).trans ((huntView_tellTripFailed _ _).trans (hclose l _))

theorem huntView_operateCompleted (s : State) (n : Nat) (i : SlotId) (kd : CmdKind) (k : Completion) :
    (s.operateCompleted n i kd k).huntView = s.huntView := by
  refine (huntView_replyTo _ _ _ _).trans ?_
  split
  · exact huntView_operateTold _ _ _ _
  · rfl

/-! ### Members of other kinds -/

theorem hunt_put {r : Reasons} {x : Bool} {m : Reason} (hm : m ≠ .hunt) : (r.put x m).hunt = r.hunt := by
  cases m <;> first | rfl | exact absurd rfl hm

/-- What the change of a member's set leaves of the Hunt Controller. -/
theorem hunt_addReason (s : State) (f : Feeder) (m : Reason) : (s.addReason f m).hunt = s.hunt := by
  cases hm : (s.recl f).reasons.has m with
  | true => rw [addReason_present s f m hm]
  | false =>
    rw [(parted_moves (moves_addReason_from (μ := Closing) (.inl rfl) (.inr rfl) s f m hm)).hunt (by simp [Closing])]
    exact notify_hunt _ _ _

theorem hunt_removeReason (s : State) (f : Feeder) (m : Reason) : (s.removeReason f m).hunt = s.hunt := by
  cases hm : (s.recl f).reasons.has m with
  | false => rw [removeReason_absent s f m hm]
  | true =>
    rw [(parted_moves (moves_removeReason_from (μ := Closing) (.inl rfl) (.inr rfl) s f m hm)).hunt (by simp [Closing])]
    exact notify_hunt _ _ _

theorem huntView_addReason (s : State) (f : Feeder) {m : Reason} (hm : m ≠ .hunt) : (s.addReason f m).huntView = s.huntView := by
  refine huntView_of_reasons (fun g => ?_) (congrArg HuntController.ctx (hunt_addReason s f m))
  by_cases hg : g = f
  · rw [hg, reasons_addReason, hunt_put hm]
  · rw [recl_addReason_ne hg]

theorem huntView_removeReason (s : State) (f : Feeder) {m : Reason} (hm : m ≠ .hunt) :
    (s.removeReason f m).huntView = s.huntView := by
  refine huntView_of_reasons (fun g => ?_) (congrArg HuntController.ctx (hunt_removeReason s f m))
  rw [recl_removeReason]
  split
  · rename_i hg; rw [hg]; exact hunt_put hm
  · rfl

theorem huntView_agreeFire (s : State) (f : Feeder) (p : Profile) : (s.agreeFire f p).huntView = s.huntView := by
  unfold State.agreeFire
  split
  · exact huntView_addReason s f (by decide)
  · exact huntView_removeReason s f (by decide)

theorem huntView_resetLockout (s : State) (f : Feeder) : (s.resetLockout f).1.huntView = s.huntView := by
  have hleft := huntView_removeReason s f (m := .sefLock) (by decide)
  unfold State.resetLockout
  split
  · split
    · exact (huntView_goReclose _ _ _ _).trans hleft
    · rfl
  · exact hleft
  · exact hleft
  · exact hleft
  all_goals rfl

/-! ### Streams -/

theorem huntView_occur (s : State) (c : ErrorClass) : (s.occur c).huntView = s.huntView := by
  unfold State.occur
  dsimp only
  split
  · exact huntView_notify _ _ _
  · rfl

theorem huntView_moveStream (s : State) (e : EntryId) (r : StreamRecord) (y : StreamReason) :
    (s.moveStream e r y).huntView = s.huntView := by
  unfold State.moveStream
  dsimp only
  split
  · rfl
  · exact huntView_notify _ _ _

theorem huntView_holdElements (s : State) (e : EntryId) : (s.holdElements e).huntView = s.huntView := by
  unfold State.holdElements State.dropMeas
  dsimp only
  cases EntryId.feeder? e <;> rfl

theorem huntView_evaluateBus (s : State) (vn : Nat) : (s.evaluateBus vn).huntView = s.huntView := by
  unfold State.evaluateBus
  split <;> rfl

theorem huntView_checkFull (s : State) (e : EntryId) : (s.checkFull e).huntView = s.huntView := by
  unfold State.checkFull
  dsimp only
  split
  · have hmoved := huntView_moveStream s e { s.stream e with state := .live } .full
    split
    · exact (huntView_removeReason _ _ (by decide)).trans hmoved
    · exact hmoved
  · rfl

theorem huntView_holdRepeat (s : State) (e : EntryId) : (s.holdRepeat e).huntView = s.huntView := by
  unfold State.holdRepeat
  dsimp only
  split
  · exact huntView_checkFull _ e
  · rfl

theorem huntView_restartStream (s : State) (e : EntryId) (st : StreamState) (y : Option StreamFields) (z : StreamReason) :
    (s.restartStream e st y z).huntView = s.huntView := by
  unfold State.restartStream
  dsimp only
  split
  · exact (huntView_holdElements _ _).trans (huntView_moveStream _ _ _ _)
  · exact huntView_moveStream _ _ _ _

theorem huntView_configureStream (s : State) (e : EntryId) (y : StreamFields) :
    (s.configureStream e y).huntView = s.huntView := by
  unfold State.configureStream
  dsimp only
  split
  · rfl
  · exact huntView_restartStream _ _ _ _ _

theorem huntView_removeStream (s : State) (e : EntryId) : (s.removeStream e).huntView = s.huntView := by
  unfold State.removeStream
  split
  · rfl
  · exact huntView_restartStream _ _ _ _ _

/-! ### Outstations -/

theorem huntView_notifySlot (s : State) (i : SlotId) (prev : SlotState) (y : OutReason) (v : Option U16) (k : Option Completion) :
    (s.notifySlot i prev y v k).huntView = s.huntView := huntView_notify _ _ _

theorem huntView_placeSlot (s : State) (i : SlotId) (o : Outstation) : (s.placeSlot i o).huntView = s.huntView := by
  unfold State.placeSlot
  dsimp only
  split
  · rfl
  · exact huntView_notifySlot _ _ _ _ _ _

theorem huntView_reach (s : State) (i : SlotId) : (s.reach i).huntView = s.huntView := by
  unfold State.reach
  dsimp only
  split
  · exact huntView_notifySlot _ _ _ _ _ _
  · rfl

theorem huntView_switched (s : State) (i : SlotId) (k : CmdKind) : (s.switched i k).huntView = s.huntView := by
  unfold State.switched
  split
  · rfl
  · dsimp only
    split
    · rfl
    · exact huntView_notifySlot _ _ _ _ _ _

theorem huntView_takeFlags (s : State) (i : SlotId) (b : Byte) : (s.takeFlags i b).huntView = s.huntView := by
  unfold State.takeFlags
  dsimp only
  split
  · rfl
  · exact huntView_notifySlot _ _ _ _ _ _

theorem huntView_filterReport (s : State) (i : SlotId) (b : Bool) : (s.filterReport i b).huntView = s.huntView := by
  unfold State.filterReport
  dsimp only
  split
  · rfl
  · split
    · rfl
    · split
      · exact (huntView_externalOpen _ _).trans (huntView_notifySlot _ _ _ _ _ _)
      · exact huntView_notifySlot _ _ _ _ _ _

theorem huntView_handleReport (s : State) (i : SlotId) (p : ReportPosition) (b : Byte) :
    (s.handleReport i p b).huntView = s.huntView := by
  have hflags := huntView_takeFlags s i b
  unfold State.handleReport
  dsimp only
  split
  · exact hflags
  · split
    · exact hflags
    · exact (huntView_filterReport _ i _).trans hflags
    · exact (huntView_filterReport _ i _).trans hflags

theorem huntView_takeReport (s : State) (src : U16) (p : ReportPosition) (b : Byte) :
    (s.takeReport src p b).huntView = s.huntView := by
  unfold State.takeReport
  split
  · exact huntView_occur _ _
  · split
    · exact (huntView_handleReport _ _ p b).trans (huntView_reach s _)
    · exact (huntView_handleReport _ _ p b).trans (huntView_reach s _)
    all_goals rfl

theorem huntView_endEnrol (s : State) (i : SlotId) (o : Outstation) (y : OutReason) (v : Option U16) (k : Option Completion) :
    (s.endEnrol i o y v k).huntView = s.huntView := huntView_notifySlot _ _ _ _ _ _

theorem huntView_enrolCompleted (s : State) (d : Delivery) : (s.enrolCompleted d).huntView = s.huntView := by
  unfold State.enrolCompleted
  dsimp only
  split
  · split
    · split
      · split
        · exact (huntView_followerEntered _ _).trans (huntView_endEnrol _ _ _ _ _ _)
        · exact huntView_endEnrol _ _ _ _ _ _
      · exact huntView_endEnrol _ _ _ _ _ _
    · exact huntView_endEnrol _ _ _ _ _ _
  · rfl

theorem huntView_serviceOn (s : State) (i : SlotId) : (s.serviceOn i).1.huntView = s.huntView := by
  unfold State.serviceOn
  split
  · rfl
  · exact (huntView_handCmd _ _ _).trans (huntView_notifySlot _ _ _ _ _ _)
  · rfl

/-! ### The port, requests and the Image Loader -/

theorem huntView_feedNotice (s : State) : s.feedNotice.huntView = s.huntView := by
  obtain ⟨l, m, h, _⟩ := feedNotice_parts s
  rw [h]
  rfl

theorem huntView_placeLink (s : State) (t : LinkTable) : (s.placeLink t).huntView = s.huntView := by
  unfold State.placeLink
  dsimp only
  split
  · exact huntView_feedNotice _
  · rfl

theorem huntView_arrive (s : State) (req : RequestId) (kind : Byte) (params : List Byte) :
    (s.arrive req kind params).huntView = s.huntView := by
  unfold State.arrive
  split
  · exact huntView_occur _ _
  · split
    · rfl
    · exact huntView_occur _ _

theorem huntView_readImage (s : State) (a : Bool) : (s.readImage a).huntView = s.huntView := by
  have hnotify : ∀ p y pos k z r, ((s.setReading p).notifyImage y pos k z r).huntView = s.huntView := fun _ _ _ _ _ _ =>
    huntView_notify _ _ _
  unfold State.readImage
  split
  · split
    · unfold State.readHeader
      dsimp only
      split
      · exact hnotify _ _ _ _ _ _
      · split
        · exact hnotify _ _ _ _ _ _
        · rfl
    · unfold State.readRecord State.discard
      dsimp only
      split; · exact hnotify _ _ _ _ _ _
      split; · exact hnotify _ _ _ _ _ _
      split; · exact hnotify _ _ _ _ _ _
      split; · exact hnotify _ _ _ _ _ _
      split; · exact hnotify _ _ _ _ _ _
      rfl
    · rfl
  · rfl
  · rfl

theorem huntView_endSave (s : State) (n : Option Nat) : (s.endSave n).huntView = s.huntView := by
  unfold State.endSave
  split
  · exact huntView_replyTo _ _ _ _
  · rfl
  · rfl

theorem huntView_assertReset (s : State) (n : Nat) : (s.assertReset n).huntView = s.huntView := by
  unfold State.assertReset
  cases s.loader <;> rfl

theorem huntView_transmissionLeft (s : State) (fr : TxFrame) : ((s.frameLeft fr).beginTx).huntView = s.huntView := by
  obtain ⟨l, hl, _⟩ := beginTx_link (s.frameLeft fr)
  rw [hl]
  cases fr <;> rfl

/-! ### Modes -/

theorem huntView_changeMode (s : State) (f : Feeder) (m : Mode) : (s.changeMode f m).huntView = s.huntView := by
  have hgo : ∀ (t : State) st, t.huntView = s.huntView → (t.goReclose f st).huntView = s.huntView := fun t st ht =>
    (huntView_goReclose t f st _).trans ht
  unfold State.changeMode
  dsimp only
  split
  · unfold State.recloseOff
    split
    · rfl
    · exact hgo _ _ rfl
  · exact hgo _ _ rfl
  · rfl

theorem huntView_setModeRequest (s : State) (f : Feeder) (m : Mode) : (s.setModeRequest f m).1.huntView = s.huntView := by
  unfold State.setModeRequest
  split; · rfl
  split; · rfl
  split; · rfl
  exact huntView_changeMode s f m

/-! ### Loads -/

theorem huntView_loadFeederAt (s : State) (f : Feeder) (r : List Byte) : (s.loadFeederAt f r).1.huntView = s.huntView := by
  unfold State.loadFeederAt
  split; · rfl
  split; · exact huntView_removeStream s _
  split; · rfl
  split; · rfl
  exact huntView_configureStream s _ _

theorem huntView_loadBusAt (s : State) (r : List Byte) : (s.loadBusAt r).1.huntView = s.huntView := by
  have hremove : s.removeBus.huntView = s.huntView := by
    unfold State.removeBus
    split
    · rfl
    · exact huntView_removeStream s busEntry
  unfold State.loadBusAt
  split; · rfl
  split; · exact hremove
  split; · rfl
  split; · rfl
  exact huntView_configureStream s _ _

theorem huntView_loadSlotAt (s : State) (i : SlotId) (r : List Byte) : (s.loadSlotAt i r).1.huntView = s.huntView := by
  unfold State.loadSlotAt
  dsimp only
  split; · rfl
  split; · exact (huntView_moveFollower _ _ _ _ _).trans (huntView_placeSlot s i _)
  split; · rfl
  split; · rfl
  exact huntView_placeSlot s i _

theorem huntView_loadProfileAt (s : State) (k : BankSlot) (r : List Byte) : (s.loadProfileAt k r).1.huntView = s.huntView := by
  unfold State.loadProfileAt
  split; · rfl
  split; · rfl
  split; · rfl
  split <;> rfl

theorem huntView_loadCurveAt (s : State) (k : BankSlot) (r : List Byte) : (s.loadCurveAt k r).1.huntView = s.huntView := by
  unfold State.loadCurveAt
  split; · rfl
  split; · rfl
  split <;> rfl

theorem huntView_loadPlanAt (s : State) (f : Feeder) (r : List Byte) : (s.loadPlanAt f r).1.huntView = s.huntView := by
  unfold State.loadPlanAt
  split; · rfl
  split; · rfl
  split <;> rfl

theorem huntView_loadOrderAt (s : State) (r : List Byte) : (s.loadOrderAt r).1.huntView = s.huntView := by
  unfold State.loadOrderAt
  split; · rfl
  split <;> rfl

theorem huntView_loadLinkAt (s : State) (r : List Byte) : (s.loadLinkAt r).1.huntView = s.huntView := by
  unfold State.loadLinkAt
  split; · rfl
  split; · rfl
  exact huntView_placeLink s _

theorem huntView_loadWithin (s : State) (n : Nat) (y : Byte) (g : Fin n → State × Result)
    (hg : ∀ i, (g i).1.huntView = s.huntView) : (Machine.loadWithin n s y g).1.huntView = s.huntView := by
  unfold Machine.loadWithin
  split
  · rfl
  · exact hg _

/-- A load concerns no hunt in progress. -/
theorem huntView_applyLoad (s : State) (table : Nat) (index : Byte) (r : List Byte) :
    (s.applyLoad table index r).1.huntView = s.huntView := by
  unfold State.applyLoad State.ownerLoad
  split
  · split
    · exact huntView_loadWithin s _ _ _ fun f => huntView_loadFeederAt s f r
    · exact huntView_loadWithin s _ _ _ fun _ => huntView_loadBusAt s r
    · exact huntView_loadWithin s _ _ _ fun i => huntView_loadSlotAt s i r
    · exact huntView_loadWithin s _ _ _ fun k => huntView_loadProfileAt s k r
    · exact huntView_loadWithin s _ _ _ fun k => huntView_loadCurveAt s k r
    · exact huntView_loadWithin s _ _ _ fun f => huntView_loadPlanAt s f r
    · exact huntView_loadWithin s _ _ _ fun _ => huntView_loadOrderAt s r
    · exact huntView_loadWithin s _ _ _ fun _ => huntView_loadLinkAt s r
    · rfl
  · rfl

end Sys2Proof.Machine
end

section
/-! HUNT from the start of a hunt through its steps to its end (R127, R134, R142, R145). -/

namespace Sys2Proof.Machine

/-- A hunt is in progress, and HUNT is a member where it involves the feeder. -/
structure State.Hunting (s : State) : Prop where
  member : s.HuntReasonOk
  busy : s.ctx.state ≠ .idle

theorem involves_congr {s t : State} (h : t.ctx = s.ctx) (f : Feeder) : t.involves f = s.involves f := by
  rw [State.involves, h]
  rfl

theorem involves_of_busy {s : State} (h : s.ctx.state ≠ .idle) (f : Feeder) : s.involves f = s.ctx.involved.contains f := by
  simp [State.involves, h]

namespace State.HuntReasonOk

variable {s : State}

theorem congr {t : State} (h : s.HuntReasonOk) (ht : t.huntView = s.huntView) : t.HuntReasonOk := fun f => by
  rw [hunt_of_huntView ht, involves_congr (ctx_of_huntView ht)]
  exact h f

theorem moves {t : State} (h : s.HuntReasonOk) (ht : Moves Unhunted s t) : t.HuntReasonOk := h.congr (huntView_moves ht)

theorem ite {c : Prop} [Decidable c] {a b : State} (ha : a.HuntReasonOk) (hb : b.HuntReasonOk) :
    (if c then a else b).HuntReasonOk := by
  split <;> assumption

theorem foldl {α : Type} (h : s.HuntReasonOk) (g : State → α → State) (hg : ∀ t y, t.HuntReasonOk → (g t y).HuntReasonOk)
    (l : List α) : (l.foldl g s).HuntReasonOk :=
  List.foldlRecOn l g (motive := fun t => t.HuntReasonOk) h fun t ht y _ => hg t y ht

theorem handCmd (h : s.HuntReasonOk) (i : SlotId) (c : Cmd) : (s.handCmd i c).1.HuntReasonOk := h.congr (huntView_handCmd s i c)

theorem notify (h : s.HuntReasonOk) (n : Notice) (b : Bool) : (s.notify n b).HuntReasonOk := h.congr (huntView_notify s n b)

theorem hunting (h : s.HuntReasonOk) {st : HuntState} (hst : s.ctx.state = st) (hbusy : st ≠ .idle := by decide) : s.Hunting :=
  ⟨h, hst ▸ hbusy⟩

/-- While no hunt is in progress HUNT is a member of no set. -/
theorem absent_of_idle (h : s.HuntReasonOk) (hidle : s.ctx.state = .idle) (f : Feeder) : (s.recl f).reasons.hunt = false :=
  (h f).trans (involves_of_idle hidle f)

/-- HUNT leaves every set it is in as the context becomes IDLE (R142, R145). -/
theorem finishHunt (h : s.HuntReasonOk) (r : HuntResult) (o : Option PointOutcome) : (s.finishHunt r o).HuntReasonOk := by
  have hend := finishHunt_spec s r o
  intro f
  rw [involves_of_idle (by rw [hend.ctx]; rfl)]
  by_cases hf : f ∈ s.ctx.involved
  · exact hend.removed f hf
  · rw [hend.others f hf, h f]
    simp [State.involves, hf]

theorem endAbort (h : s.HuntReasonOk) (o : Option PointOutcome) : (s.endAbort o).HuntReasonOk := h.finishHunt _ o

end State.HuntReasonOk

/-! ### A hunt in progress -/

namespace State.Hunting

variable {s : State}

theorem congr {t : State} (h : s.Hunting) (ht : t.huntView = s.huntView) : t.Hunting :=
  ⟨h.member.congr ht, by rw [ctx_of_huntView ht]; exact h.busy⟩

theorem ite {c : Prop} [Decidable c] {a b : State} (ha : a.Hunting) (hb : b.Hunting) : (if c then a else b).Hunting := by
  split <;> assumption

/-- A change of the context that keeps the hunt in progress and what it involves. -/
theorem mapCtx (h : s.Hunting) (g : HuntContext → HuntContext) (hinvolved : (g s.ctx).involved = s.ctx.involved := by rfl)
    (hbusy : (g s.ctx).state ≠ .idle := by simp) : (s.mapCtx g).Hunting := by
  refine ⟨fun f => ?_, hbusy⟩
  have hctx : (s.mapCtx g).ctx = g s.ctx := rfl
  calc ((s.mapCtx g).recl f).reasons.hunt
      = s.ctx.involved.contains f := (h.member f).trans (involves_of_busy h.busy f)
    _ = (s.mapCtx g).involves f := by rw [involves_of_busy (by rw [hctx]; exact hbusy), hctx, hinvolved]

theorem appendOutcome (h : s.Hunting) (v : OutcomeValue) : (s.appendOutcome v).Hunting := by
  unfold State.appendOutcome
  split
  · exact h
  · exact h.mapCtx _ rfl h.busy

theorem handCmd (h : s.Hunting) (i : SlotId) (c : Cmd) : (s.handCmd i c).1.Hunting := h.congr (huntView_handCmd s i c)

/-! ### Aborts (R143 to R145) -/

theorem abortCloseDone (h : s.Hunting) (k : Completion) : (s.abortCloseDone k).HuntReasonOk := by
  cases k <;> exact (h.mapCtx _ rfl h.busy).member.endAbort _

theorem decideRestoration (h : s.Hunting) : s.decideRestoration.HuntReasonOk := by
  unfold State.decideRestoration
  split
  · exact h.member.endAbort _
  · rename_i i _
    have hclosing := (h.mapCtx (fun x => { x with outstanding := some .close, restoring := true }) rfl h.busy).handCmd i (huntCmd .close)
    split
    · dsimp only
      split
      · exact hclosing.member
      · exact hclosing.abortCloseDone _
    · exact h.member.endAbort _

theorem settlePoint (h : s.Hunting) : s.settlePoint.HuntReasonOk := by
  unfold State.settlePoint
  split
  · exact h.member.endAbort _
  · exact h.member.endAbort _
  · exact h.member.endAbort _
  · exact h.decideRestoration
  · exact h.decideRestoration
  · exact h.member

theorem abortHunt (h : s.Hunting) (c : AbortCause) : (s.abortHunt c).HuntReasonOk := by
  unfold State.abortHunt
  dsimp only
  have haborting := (Hunting.ite (c := (s.ctx.state == .restoring) = true) h (h.appendOutcome .interrupted)).mapCtx
    fun x => { x with state := .aborting, abortCause := some c, settle := none }
  split
  · exact haborting.member
  · exact haborting.settlePoint

theorem huntAbortingDone (h : s.Hunting) (kd : CmdKind) (k : Completion) : (s.huntAbortingDone kd k).HuntReasonOk := by
  unfold State.huntAbortingDone
  split
  · have hleft := h.mapCtx (fun c => { c with outstanding := none }) rfl h.busy
    exact .ite hleft.settlePoint ((hleft.mapCtx _ rfl h.busy).member.endAbort _)
  · exact h.abortCloseDone k

end State.Hunting

namespace State.HuntReasonOk

variable {s : State}

theorem huntCause (h : s.HuntReasonOk) (c : AbortCause) : (s.huntCause c).HuntReasonOk := by
  unfold State.huntCause
  split
  · rename_i hrunning
    have hbusy : s.ctx.state ≠ .idle := fun hidle => by simp [HuntContext.running, hidle] at hrunning
    exact Hunting.abortHunt ⟨h, hbusy⟩ c
  · split
    · rename_i haborting
      have hstate : s.ctx.state = .aborting := by simp at haborting; exact haborting.1.1.1
      exact ((h.hunting hstate).mapCtx _ rfl (by simp [hstate])).member
    · exact h

theorem escalateHunt (h : s.HuntReasonOk) (f : Feeder) : (s.escalateHunt f).HuntReasonOk := .ite (h.huntCause _) h

theorem huntStreamLost (h : s.HuntReasonOk) (e : EntryId) : (s.huntStreamLost e).HuntReasonOk := .ite (h.huntCause _) h

theorem presentHunt (h : s.HuntReasonOk) (f : Feeder) (p : Profile) : (s.presentHunt f p).HuntReasonOk := .ite (h.huntCause _) h

theorem huntSuperseded (h : s.HuntReasonOk) (kd : CmdKind) : (s.huntSuperseded kd).HuntReasonOk := by
  unfold State.huntSuperseded
  split
  · rename_i hst
    exact Hunting.abortHunt ((h.hunting hst).mapCtx _ rfl (by simp [hst])) _
  · rename_i hst
    exact Hunting.abortHunt ((h.hunting hst).mapCtx _ rfl (by simp [hst])) _
  · rename_i hst
    exact (h.hunting hst).huntAbortingDone kd _
  · exact h

/-! ### Trips -/

theorem tripCompleted (h : s.HuntReasonOk) (f : Feeder) (k : Completion) : (s.tripCompleted f k).HuntReasonOk :=
  h.congr (huntView_tripCompleted s f k)

theorem supersededSwitch (h : s.HuntReasonOk) (d : Delivery) : (s.supersededSwitch d).HuntReasonOk := by
  unfold State.supersededSwitch
  split
  · exact h.congr (huntView_closeCompleted _ _ _)
  · exact h.huntSuperseded _
  · exact h.congr (huntView_operateCompleted _ _ _ _ _)
  · exact h
  · exact h

theorem handTrip (h : s.HuntReasonOk) (f : Feeder) : (s.handTrip f).1.HuntReasonOk :=
  (h.handCmd _ _).foldl _ (fun _ d ht => ht.supersededSwitch d) _

theorem tripDecision (h : s.HuntReasonOk) (f : Feeder) (c : Causes) : (s.tripDecision f c).HuntReasonOk := by
  have hlatch : (s.setLatch f c).HuntReasonOk := h.moves (moves_setLatch (by simp [Unhunted]) s f c)
  have hdecided := ((hlatch.handTrip f).congr (huntView_tellDecision _ f)).escalateHunt f
  unfold State.tripDecision
  dsimp only
  split
  · exact hdecided
  · exact hdecided.tripCompleted f _

theorem operation (h : s.HuntReasonOk) (f : Feeder) (c : Causes) : (s.operation f c).HuntReasonOk := by
  unfold State.operation
  split
  · exact h
  all_goals
    split
    · exact h.tripDecision f c
    · exact h.moves (moves_addCauses (by simp [Unhunted]) _ _ _ _)

end State.HuntReasonOk

/-! ### The steps of a hunt (R135 to R142) -/

namespace State.Hunting

variable {s : State}

theorem conclude (h : s.Hunting) (r : HuntResult) : (s.conclude r).HuntReasonOk := by
  have hconcluded := (h.mapCtx fun c => { c with state := .concluded }).member
  unfold State.conclude
  dsimp only
  split
  · exact (hconcluded.operation _ _).finishHunt _ _
  · exact hconcluded.finishHunt _ _

theorem openPointAt (h : s.Hunting) (i : SlotId) : (s.openPointAt i).1.Hunting := Hunting.handCmd (h.mapCtx _) i _

theorem openDone (h : s.Hunting) : s.openDone.Hunting := by
  unfold State.openDone
  exact h.mapCtx _

theorem openFailed (h : s.Hunting) : s.openFailed.Hunting := (h.mapCtx _ rfl h.busy).appendOutcome _

theorem feederSteps (h : s.Hunting) (f : Feeder) (l : List PlanStep) (k : Nat) : (State.feederSteps f l k s).HuntReasonOk := by
  induction l generalizing k s with
  | nil => exact h.conclude _
  | cons y rest ih =>
    unfold State.feederSteps
    dsimp only
    have hstep := h.mapCtx (fun c => { c with planIndex := some k }) rfl h.busy
    split
    · exact ih (hstep.appendOutcome _) _
    · split
      · exact ih (hstep.appendOutcome _) _
      · split
        · exact (hstep.openPointAt _).member
        · exact (hstep.openPointAt _).openDone.member
        · exact ih (hstep.openPointAt _).openFailed _

theorem busSteps (h : s.Hunting) (l : List Feeder) (k : Nat) : (State.busSteps l k s).HuntReasonOk := by
  induction l generalizing k s with
  | nil => exact h.conclude _
  | cons y rest ih =>
    unfold State.busSteps
    dsimp only
    have hstep := h.mapCtx (fun c => { c with busIndex := some k }) rfl h.busy
    split
    · exact ih (hstep.appendOutcome _) _
    · split
      · exact (hstep.openPointAt _).member
      · exact (hstep.openPointAt _).openDone.member
      · exact ih (hstep.openPointAt _).openFailed _

theorem nextStep (h : s.Hunting) : s.nextStep.HuntReasonOk := by
  unfold State.nextStep
  split
  · exact h.feederSteps _ _ _
  · exact h.busSteps _ _
  · exact h.member

theorem chain (h : s.Hunting) (f : Feeder) : (s.chain f).HuntReasonOk := by
  unfold State.chain
  split
  · exact h.conclude _
  · exact (h.mapCtx _ rfl h.busy).feederSteps _ _ _

theorem restored (h : s.Hunting) : s.restored.HuntReasonOk := by
  have hleft := h.mapCtx (fun c => { c with outstanding := none, openPoint := none }) rfl h.busy
  unfold State.restored
  dsimp only
  split
  · split
    · exact hleft.chain _
    · exact hleft.nextStep
  · exact hleft.nextStep

theorem closeInRestoring (h : s.Hunting) (k : Completion) : (s.closeInRestoring k).HuntReasonOk := by
  cases k
  case done => exact h.restored
  case superseded => exact h.member.huntSuperseded _
  all_goals exact Hunting.abortHunt (h.mapCtx _ rfl h.busy) _

theorem restore (h : s.Hunting) : s.restore.HuntReasonOk := by
  unfold State.restore
  split
  · exact h.member
  · rename_i i _
    have hrestoring := (h.mapCtx fun x => { x with state := .restoring, outstanding := some .close }).handCmd i (huntCmd .close)
    dsimp only
    split
    · exact hrestoring.member
    · exact hrestoring.closeInRestoring _

theorem settleExpired (h : s.Hunting) (d : Nat) : (s.settleExpired d).HuntReasonOk := by
  have hdecided : ∀ v, ((s.mapCtx fun c => { c with settle := none }).appendOutcome v).Hunting := fun v =>
    (h.mapCtx _ rfl h.busy).appendOutcome v
  unfold State.settleExpired
  dsimp only
  split
  · split
    · exact (hdecided _).conclude _
    · exact (hdecided _).restore
  · exact (hdecided _).restore

end State.Hunting

/-- HUNT joins the set of each feeder in turn (R134). -/
theorem hunt_addHunt (l : List Feeder) (s : State) (g : Feeder) :
    ((l.foldl (fun s f => s.addReason f .hunt) s).recl g).reasons.hunt = ((s.recl g).reasons.hunt || l.contains g) := by
  induction l generalizing s with
  | nil => simp
  | cons f rest ih =>
    rw [List.foldl_cons, ih]
    by_cases hg : g = f
    · subst hg
      rw [reasons_addReason]
      simp [Reasons.put]
    · rw [recl_addReason_ne hg]
      simp [hg]

theorem ctx_addHunt (l : List Feeder) (s : State) : (l.foldl (fun s f => s.addReason f .hunt) s).ctx = s.ctx :=
  foldl_leaves State.ctx _ (fun t f => congrArg HuntController.ctx (hunt_addReason t f .hunt)) l s

namespace State.HuntReasonOk

variable {s : State}

theorem huntCompleted (h : s.HuntReasonOk) (kd : CmdKind) (k : Completion) : (s.huntCompleted kd k).HuntReasonOk := by
  unfold State.huntCompleted
  split
  · rename_i hst
    cases k
    case done => exact (h.hunting hst).openDone.member
    case superseded => exact h.huntSuperseded kd
    all_goals exact (h.hunting hst).openFailed.nextStep
  · rename_i hst; exact (h.hunting hst).closeInRestoring k
  · rename_i hst; exact (h.hunting hst).huntAbortingDone kd k
  all_goals exact h

/-! ### Starts and triggers (R129, R130, R134) -/

/-- From IDLE, where HUNT is a member of no set, it joins the sets of the feeders the new hunt involves. -/
theorem addHunt (h : s.HuntReasonOk) (hidle : s.ctx.state = .idle) (c : HuntContext) (l : List EntryId) (hbusy : c.state ≠ .idle) :
    (c.involved.foldl (fun s f => s.addReason f .hunt) ((s.setCtx c).setHuntList l)).Hunting := by
  have hctx := ctx_addHunt c.involved ((s.setCtx c).setHuntList l)
  refine ⟨fun f => ?_, by rw [hctx]; exact hbusy⟩
  have habsent : (((s.setCtx c).setHuntList l).recl f).reasons.hunt = false := h.absent_of_idle hidle f
  rw [hunt_addHunt, involves_congr hctx, involves_of_busy (s := (s.setCtx c).setHuntList l) hbusy, habsent, Bool.false_or]
  rfl

theorem startHunt (h : s.HuntReasonOk) (hidle : s.ctx.state = .idle) (e : EntryId) (o : HuntOrigin) :
    (s.startHunt e o).HuntReasonOk := by
  have hstart : (s.startContext e o).state ≠ .idle := by
    unfold State.startContext
    dsimp only
    split <;> simp
  unfold State.startHunt
  dsimp only
  split
  · exact Hunting.feederSteps (h.addHunt hidle _ _ hstart) _ _ _
  · exact Hunting.busSteps (h.addHunt hidle _ _ hstart) _ _

theorem setHuntList (h : s.HuntReasonOk) (l : List EntryId) : (s.setHuntList l).HuntReasonOk := h

theorem serveFrom (h : s.HuntReasonOk) (hidle : s.ctx.state = .idle) (l : List EntryId) : (State.serveFrom l s).HuntReasonOk := by
  induction l generalizing s with
  | nil => exact h.setHuntList _
  | cons e rest ih => exact .ite ((h.setHuntList rest).startHunt hidle e _) (ih (h.setHuntList rest) hidle)

theorem servePendingHunts (h : s.HuntReasonOk) : s.servePendingHunts.HuntReasonOk := by
  unfold State.servePendingHunts
  split
  · rename_i hidle
    exact h.serveFrom (by simpa using hidle) _
  · exact h

theorem offerTrigger (h : s.HuntReasonOk) (e : EntryId) : (s.offerTrigger e).HuntReasonOk := .ite h (h.setHuntList _)

theorem triggerArrives (h : s.HuntReasonOk) (e : EntryId) : (s.triggerArrives e).HuntReasonOk :=
  .ite h (h.offerTrigger e).servePendingHunts

/-- The observed magnitude changes the time it was last above the level alone (R137). -/
theorem lastAbove (h : s.HuntReasonOk) (n : Option Nat) : (s.mapCtx fun c => { c with lastAbove := n }).HuntReasonOk := h

theorem settleOnSet (h : s.HuntReasonOk) (e : EntryId) : (s.settleOnSet e).HuntReasonOk := by
  unfold State.settleOnSet
  split
  · split
    · exact .ite (h.lastAbove _) h
    · exact h
  · exact h

theorem settleOnGap (h : s.HuntReasonOk) (e : EntryId) : (s.settleOnGap e).HuntReasonOk := .ite (h.lastAbove _) h

end State.HuntReasonOk

end Sys2Proof.Machine
end

section
/-! HUNT through decisions, takeovers, streams, answers and the Image Loader (R127). -/

namespace Sys2Proof.Machine

namespace State.HuntReasonOk

variable {s : State}

/-! ### Elements -/

theorem sefOperate (h : s.HuntReasonOk) (f : Feeder) (p : Profile) : (s.sefOperate f p).HuntReasonOk := by
  have hsef : (s.notifySef f p).HuntReasonOk := h.moves (moves_notifySef s f p)
  unfold State.sefOperate
  dsimp only
  split
  · exact hsef
  · exact hsef.triggerArrives _
  · exact .ite (hsef.congr (huntView_addReason _ f (by decide))) hsef

theorem operateIf (h : s.HuntReasonOk) (f : Feeder) (c : Causes) : (s.operateIf f c).HuntReasonOk := .ite h (h.operation f c)

theorem setElement (h : s.HuntReasonOk) (f : Feeder) (r : ElementRecord) : (s.setElement f r).HuntReasonOk := h

theorem evaluate (h : s.HuntReasonOk) (f : Feeder) (m : FeederMeasurement) : (s.evaluate f m).HuntReasonOk := by
  unfold State.evaluate
  split
  · exact h
  · exact h
  · rename_i p _ _
    have hset := h.setElement f (stepElements s f p m (s.element f)).1
    exact ((HuntReasonOk.ite (hset.sefOperate f p) hset).operateIf f _).moves (moves_sefReport (by simp [Unhunted]) _ f)

theorem presentElements (h : s.HuntReasonOk) (f : Feeder) (p : Profile) : (s.presentElements f p).HuntReasonOk := by
  unfold State.presentElements
  split
  · exact h
  all_goals exact (HuntReasonOk.ite ((h.setElement f _).sefOperate f p) (h.setElement f _)).operateIf f _

/-! ### Takeovers -/

theorem setEntry (h : s.HuntReasonOk) (e : EntryId) (m : MapEntry) : (s.setEntry e m).HuntReasonOk := h

theorem takeover (h : s.HuntReasonOk) (e : EntryId) (k : BankSlot) (o : TakeoverOrigin) : (s.takeover e k o).HuntReasonOk := by
  unfold State.takeover
  split
  · exact h
  · rename_i p _
    have hset := h.setEntry e ⟨some k, none⟩
    unfold State.activate State.present
    cases hf : EntryId.feeder? e with
    | none => exact (hset.notify _ _).moves (moves_formThreshold (by simp [Unhunted]) _)
    | some f =>
      exact presentHunt ((((hset.congr (huntView_agreeFire _ f p)).notify _ _).presentElements f p).congr
        (huntView_presentReclose _ f p)) f p

theorem takeoverPending (h : s.HuntReasonOk) (e : EntryId) : (s.takeoverPending e).HuntReasonOk := by
  unfold State.takeoverPending
  split
  · exact h
  · exact h.takeover _ _ _

theorem settleRounds (h : s.HuntReasonOk) (n : Nat) : (State.settleRounds n s).HuntReasonOk := by
  induction n generalizing s with
  | zero => exact h
  | succ n ih =>
    unfold State.settleRounds
    split
    · exact ih (h.takeoverPending _)
    · exact .ite (ih h.servePendingHunts) h

theorem settle (h : s.HuntReasonOk) : s.settle.HuntReasonOk := h.settleRounds 28

theorem finish (h : s.HuntReasonOk) (s0 : State) : (State.finish s0 s).HuntReasonOk := h.congr (huntView_finish s0 s)

theorem conclude72 (h : s.HuntReasonOk) (s0 : State) : (State.conclude72 s0 s).HuntReasonOk := h.settle.finish s0

theorem selectEntry (h : s.HuntReasonOk) (k : BankSlot) (e : EntryId) : (s.selectEntry k e).1.HuntReasonOk := by
  unfold State.selectEntry
  split
  · exact h.takeover _ _ _
  · split
    · exact h.setEntry e _
    · split
      · exact h.takeover _ _ _
      · exact h.setEntry e _

theorem selectAll (h : s.HuntReasonOk) (k : BankSlot) (es : List EntryId) : (State.selectAll k es s).1.HuntReasonOk := by
  induction es generalizing s with
  | nil => exact h
  | cons e rest ih => exact ih (h.selectEntry k e)

theorem imageTakeover (h : s.HuntReasonOk) (e : EntryId) (r : Option BankSlot) : (s.imageTakeover e r).HuntReasonOk := by
  unfold State.imageTakeover
  split
  · exact h
  · split
    · exact h
    · exact .ite h (h.takeover _ _ _)

/-! ### Streams -/

theorem evaluateSet (h : s.HuntReasonOk) (e : EntryId) (q : U16) : (s.evaluateSet e q).HuntReasonOk := by
  unfold State.evaluateSet
  dsimp only
  split
  · refine settleOnSet (evaluate ?_ _ _) e
    exact h
  · refine settleOnSet (congr ?_ (huntView_evaluateBus _ _)) e
    exact h

theorem takeSet (h : s.HuntReasonOk) (e : EntryId) (y : SampleSet) : (s.takeSet e y).HuntReasonOk := by
  unfold State.takeSet
  dsimp only
  have hfull := h.congr ((huntView_checkFull _ e).trans (huntView_moveStream s e { s.stream e with
    state := (if (s.stream e).state == .lost then .filling else (s.stream e).state), window := pushSet (s.stream e).window y
    lastSeq := some y.seq, expiry := (s.stream e).restarted s.time } .resumed))
  exact .ite (hfull.evaluateSet e _) hfull

theorem refill (h : s.HuntReasonOk) (e : EntryId) (y : SampleSet) : (s.refill e y).HuntReasonOk := by
  unfold State.refill
  dsimp only
  have hheld := h.congr ((huntView_holdElements _ e).trans (huntView_moveStream s e
    { s.stream e with state := .filling, window := [y], lastSeq := some y.seq, expiry := (s.stream e).restarted s.time } .gap))
  exact .ite (hheld.settleOnGap e) hheld

theorem takeFrame (h : s.HuntReasonOk) (e : EntryId) (y : SampleFrame) : (s.takeFrame e y).HuntReasonOk := by
  unfold State.takeFrame
  split
  · exact h.congr (huntView_occur _ _)
  · exact h
  · exact h.takeSet e _
  · exact h.takeSet e _
  · exact (h.congr (huntView_holdRepeat s e)).takeSet e _
  · exact h.refill e _

theorem takeSample (h : s.HuntReasonOk) (y : SampleFrame) : (s.takeSample y).HuntReasonOk := by
  unfold State.takeSample
  split
  · exact h.congr (huntView_occur _ _)
  · exact h.takeFrame _ y

theorem lossAction (h : s.HuntReasonOk) (f : Feeder) : (s.lossAction f).HuntReasonOk := by
  have hlost : (s.addReason f .streamLost).HuntReasonOk := h.congr (huntView_addReason s f (by decide))
  exact .ite (hlost.operation f _) hlost

theorem loseStream (h : s.HuntReasonOk) (e : EntryId) : (s.loseStream e).HuntReasonOk := by
  unfold State.loseStream
  dsimp only
  have hlost := (h.congr ((huntView_holdElements _ e).trans (huntView_moveStream s e
    { s.stream e with state := .lost, window := [], lastSeq := none, expiry := none } .silence))).huntStreamLost e
  split
  · exact hlost.lossAction _
  · exact hlost

theorem ndExpired (h : s.HuntReasonOk) : s.ndExpired.HuntReasonOk := by
  unfold State.ndExpired
  dsimp only
  have hset : (s.setNd { s.bank.nd with timer := .stopped, operated := true }).HuntReasonOk := h
  have htold := fun n b => (HuntReasonOk.ite (c := ((s.setNd { s.bank.nd with timer := .stopped, operated := true }).ndResult
    == .huntPlaced) = true) (hset.offerTrigger busEntry) hset).notify n b
  exact .ite (htold _ _).servePendingHunts (htold _ _)

/-! ### Answers -/

theorem deliver (h : s.HuntReasonOk) (d : Delivery) : (s.deliver d).HuntReasonOk := by
  unfold State.deliver
  split
  · exact h.tripCompleted _ _
  · split
    · exact h.congr (huntView_closeCompleted _ _ _)
    · exact h.congr (huntView_blockingCompleted _ _)
  · exact h.huntCompleted _ _
  · exact h.congr (huntView_operateCompleted _ _ _ _ _)
  · exact h.congr (huntView_enrolCompleted _ _)

theorem deliverAll (h : s.HuntReasonOk) (ds : List Delivery) : (s.deliverAll ds).HuntReasonOk :=
  h.foldl _ (fun _ d ht => ht.deliver d) ds

theorem setSlot (h : s.HuntReasonOk) (i : SlotId) (o : Outstation) : (s.setSlot i o).HuntReasonOk := h

theorem reach (h : s.HuntReasonOk) (i : SlotId) : (s.reach i).HuntReasonOk := h.congr (huntView_reach s i)

theorem notifySlot (h : s.HuntReasonOk) (i : SlotId) (prev : SlotState) (y : OutReason) : (s.notifySlot i prev y).HuntReasonOk :=
  h.congr (huntView_notifySlot _ _ _ _ _ _)

theorem answered (h : s.HuntReasonOk) (i : SlotId) (fl : InFlight) (k : Completion) : (s.answered i fl k).HuntReasonOk := by
  have hreach := (h.setSlot i { (s.slot i).landed s.time with failures := 0 }).reach i
  exact (HuntReasonOk.ite (hreach.congr (huntView_switched _ i fl.cmd.kind)) hreach).deliverAll _

theorem waited (h : s.HuntReasonOk) (i : SlotId) (fl : InFlight) (w : U16) : (s.waited i fl w).HuntReasonOk :=
  .ite ((h.setSlot i _).reach i) (((h.setSlot i _).reach i).deliverAll _)

theorem takeResponse (h : s.HuntReasonOk) (src : U16) (tag : Byte) (a : AnswerKind) (v : U16) :
    (s.takeResponse src tag a v).HuntReasonOk := by
  unfold State.takeResponse
  split
  · exact h.congr (huntView_occur _ _)
  · split
    · exact h.congr (huntView_occur _ _)
    · split
      · split
        · exact h.answered _ _ _
        · exact h.answered _ _ _
        · exact h.waited _ _ _
      · exact h.congr (huntView_occur _ _)

theorem becomeUnreachable (h : s.HuntReasonOk) (i : SlotId) : (s.becomeUnreachable i).HuntReasonOk :=
  ((h.setSlot i _).notifySlot i _ _).deliverAll _

theorem timedOut (h : s.HuntReasonOk) (i : SlotId) (fl : InFlight) : (s.timedOut i fl).HuntReasonOk := by
  have hover := (h.setSlot i { (s.slot i).landed s.time with expiredTag := some fl.tag }).deliverAll (deliveries i fl.cmd .timeout)
  exact .ite (.ite (hover.setSlot i _) (hover.becomeUnreachable i)) hover

/-! ### Service, modes and the Image Loader -/

theorem serviceOff (h : s.HuntReasonOk) (i : SlotId) : (s.serviceOff i).1.HuntReasonOk := by
  have hleft : (s.leaveService i).HuntReasonOk :=
    (((h.setSlot i _).notifySlot i _ _).congr (huntView_moveFollower _ i _ _ _)).deliverAll _
  unfold State.serviceOff
  dsimp only
  split
  · exact h
  · exact h
  all_goals
    split; · exact h
    split; · exact h
    split; · exact h
    exact hleft

theorem applyKept (h : s.HuntReasonOk) (kept : List KeptRecord) : (s.applyKept kept).1.1.HuntReasonOk := by
  have htables : ∀ l : List KeptRecord, (l.foldl applyRecord (s, 0)).1.HuntReasonOk := fun l => by
    refine List.foldlRecOn l applyRecord (motive := fun a : Applied => a.1.HuntReasonOk) h fun a ha y _ => ?_
    have hload := ha.congr (huntView_applyLoad a.1 y.kind.toNat y.index y.contents)
    unfold applyRecord
    dsimp only
    split
    · exact hload
    · exact hload.notify _ _
  refine List.foldlRecOn (recordsOf 9 kept) takeStateRecord (motive := fun a : Applied × Wishes => a.1.1.HuntReasonOk)
    (htables _) fun a ha y _ => ?_
  unfold takeStateRecord
  split
  · exact ha
  · exact ha.notify _ _

theorem restoreWishes (h : s.HuntReasonOk) (w : Wishes) : (s.restoreWishes w).HuntReasonOk := by
  have hslots := h.foldl (State.wishSlot w) (fun t i ht => .ite (ht.congr (huntView_serviceOn t i)) ht) allSlots
  have hentries := hslots.foldl (fun s e => s.imageTakeover e (w.entry e)) (fun _ e ht => ht.imageTakeover e _) entries
  exact hentries.foldl (State.wishMode w) (fun t f ht => .ite (ht.congr (huntView_changeMode t f _)) ht) feeders

theorem startUp (h : s.HuntReasonOk) (p : Reading) : (s.startUp p).HuntReasonOk := by
  have hwished := (h.applyKept p.kept).restoreWishes (s.applyKept p.kept).2
  unfold State.startUp
  dsimp only
  generalize (s.applyKept p.kept).1.1.restoreWishes (s.applyKept p.kept).2 = u at hwished ⊢
  have hready : ((u.setOutputs { u.outputs with engineOk := true }).refreshOutputs).HuntReasonOk := hwished
  have htold := fun n b => hready.notify n b
  exact (htold _ _).congr rfl

/-- A reset machine holds no hunt and no member (R79, R123, R173). -/
theorem of_reset {t : State} (hrecl : t.reclose = State.reset.reclose) (hhunt : t.hunt = State.reset.hunt) : t.HuntReasonOk := by
  intro f
  have hreset : t.recl f = RecloseRecord.reset := by rw [State.recl, hrecl]; exact look_replicate _ _
  have hidle : t.ctx.state = .idle := by rw [State.ctx, hhunt]; rfl
  rw [hreset, involves_of_idle hidle]
  rfl

theorem endTransmission (h : s.HuntReasonOk) : s.endTransmission.HuntReasonOk := by
  unfold State.endTransmission
  split
  · exact h
  · rename_i fr _
    have hleft := huntView_transmissionLeft s fr
    exact .ite (of_reset rfl rfl) (.ite (h.congr ((huntView_feedNotice _).trans hleft)) (h.congr hleft))

theorem receive (h : s.HuntReasonOk) (y : RawFrame) : (s.receive y).HuntReasonOk := by
  unfold State.receive
  split
  · exact h.congr (huntView_occur _ _)
  · exact h
  · unfold State.dispatch
    split
    · exact h.takeSample _
    · exact h.congr (huntView_takeReport _ _ _ _)
    · exact h.takeResponse _ _ _ _
    · exact h.congr (huntView_arrive _ _ _ _)

end State.HuntReasonOk

end Sys2Proof.Machine
end

section
/-! HUNT through requests, commands and steps (R127, R131, R143). -/

namespace Sys2Proof.Machine

/-! ### Requests -/

/-- An owner keeps HUNT a member exactly while a hunt involves the feeder. -/
def KeepsHuntReason (owner : Nat → State → Served) : Prop := ∀ k t, State.HuntReasonOk t → (owner k t).1.HuntReasonOk

/-- An owner leaves HUNT and the hunt context alone. -/
def LeavesHunt (owner : Nat → State → Served) : Prop := ∀ k t, (owner k t).1.huntView = t.huntView

theorem LeavesHunt.keeps {owner : Nat → State → Served} (h : LeavesHunt owner) : KeepsHuntReason owner := fun k t ht => ht.congr (h k t)

variable {s : State}

theorem huntReasonOk_requestEvent (h : s.HuntReasonOk) (req : RequestId) (k : Byte) (p : List Byte) (b : Bool)
    {owner : Nat → State → Served} (ho : KeepsHuntReason owner) : (s.requestEvent req k p b owner).HuntReasonOk := by
  have hentry : ∀ (t : State) n, t.HuntReasonOk → (State.serveEntry s t n b owner).HuntReasonOk := by
    intro t n ht
    unfold State.serveEntry State.giveReply
    dsimp only
    have hsettled := State.HuntReasonOk.ite (c := b = true) (ho n t ht).settle (ho n t ht)
    split
    · exact (hsettled.congr (huntView_replyTo _ _ _ _)).finish s
    · exact hsettled.finish s
  have hserve : ∀ t : State, t.HuntReasonOk → (State.serveIfOldest s t req k p b owner).HuntReasonOk := by
    intro t ht
    unfold State.serveIfOldest
    split
    · exact ht
    · exact .ite (hentry t _ ht) ht
  have harrived := h.congr (huntView_arrive s req k p)
  exact .ite h (.ite (hserve s h) (.ite harrived (hserve _ harrived)))

theorem leavesHunt_withFeeder (b : Byte) {g : State → Feeder → Served} (hg : ∀ t f, (g t f).1.huntView = t.huntView) :
    LeavesHunt fun _ t => withFeeder t b (g t) := by
  intro _ t
  dsimp only
  unfold withFeeder
  split
  · rfl
  · exact hg t _

theorem leavesHunt_load (table : Nat) (index : Byte) (r : List Byte) : LeavesHunt (serveLoad table index r) := by
  intro _ t
  unfold serveLoad
  split
  · rfl
  · exact huntView_applyLoad t _ _ _

theorem leavesHunt_read (a b : Byte) : LeavesHunt (serveRead a b) := by
  intro _ t
  unfold serveRead
  split <;> rfl

/-- The members the operator sets and clears leave HUNT out (R81, R164). -/
theorem leavesHunt_block (add : Bool) (a b : Byte) : LeavesHunt (serveBlock add a b) := by
  refine leavesHunt_withFeeder a fun t f => ?_
  split
  · rfl
  · rename_i m _
    split
    · rename_i hoperator
      have hm : m ≠ .hunt := by rintro rfl; cases hoperator
      cases add
      · exact huntView_removeReason t f hm
      · exact huntView_addReason t f hm
    · rfl

theorem leavesHunt_mode (a b : Byte) : LeavesHunt (serveMode a b) := by
  refine leavesHunt_withFeeder a fun t f => ?_
  split
  · rfl
  · exact huntView_setModeRequest t f _

theorem leavesHunt_operate (k : CmdKind) (a : Byte) : LeavesHunt (serveOperate k a) := by
  intro n t
  unfold serveOperate withSlot
  split
  · rfl
  · dsimp only
    split
    · rfl
    · split
      · exact huntView_handCmd t _ _
      · exact huntView_handCmd t _ _

theorem leavesHunt_save : LeavesHunt serveSave := by
  intro _ t
  unfold serveSave
  split <;> rfl

theorem leavesHunt_restart : LeavesHunt serveRestart := by
  intro _ t
  unfold serveRestart
  split <;> rfl

theorem leavesHunt_unknown (a : Byte) (p : List Byte) : LeavesHunt (serveUnknown a p) := by
  intro _ t
  unfold serveUnknown
  split
  · rfl
  · split <;> rfl

theorem keepsHuntReason_service {g : State → SlotId → Served} (a : Byte)
    (hg : ∀ t i, State.HuntReasonOk t → (g t i).1.HuntReasonOk) : KeepsHuntReason fun _ t => withSlot t a (g t) := by
  intro _ t ht
  dsimp only
  unfold withSlot
  split
  · exact ht
  · exact hg t _ ht

theorem keepsHuntReason_select (a : Byte) (w : U16) : KeepsHuntReason (serveSelect a w) := by
  intro _ t ht
  unfold serveSelect
  dsimp only
  split
  · exact ht
  · exact ht.selectAll _ _

/-- START_HUNT starts a hunt while none is in progress (R131). -/
theorem keepsHuntReason_startHunt (a : Byte) : KeepsHuntReason (serveStartHunt a) := by
  intro _ t ht
  unfold serveStartHunt
  split
  · exact ht
  · split
    · exact ht
    · rename_i hcheck
      refine ht.startHunt ?_ _ _
      by_contra hbusy
      simp [State.startCheck, hbusy] at hcheck

theorem keepsHuntReason_abortHunt : KeepsHuntReason serveAbortHunt := by
  intro _ t ht
  unfold serveAbortHunt State.abortRequest
  split
  · exact ht
  · exact ht.huntCause _

/-! ### Commands and steps -/

/-- Every command keeps HUNT a member exactly while a hunt involves the feeder. -/
theorem huntReasonOk_exec (h : s.HuntReasonOk) (c : Instr) : ∃ t, exec c s = .next t ∧ t.HuntReasonOk := by
  have hr : ∀ {req k p b} {owner : Nat → State → Served}, KeepsHuntReason owner →
      ∃ t, (Host.Outcome.next (s.requestEvent req k p b owner) : Host.Outcome State Fault Refusal) = .next t ∧ t.HuntReasonOk :=
    fun ho => ⟨_, rfl, huntReasonOk_requestEvent h _ _ _ _ ho⟩
  have hl : ∀ {req k p b} {owner : Nat → State → Served}, LeavesHunt owner →
      ∃ t, (Host.Outcome.next (s.requestEvent req k p b owner) : Host.Outcome State Fault Refusal) = .next t ∧ t.HuntReasonOk :=
    fun ho => hr ho.keeps
  have hu : ∀ t : State, t.HuntReasonOk →
      ∃ u, (Host.Outcome.next (s.unlessHeld t) : Host.Outcome State Fault Refusal) = .next u ∧ u.HuntReasonOk :=
    fun t ht => ⟨_, rfl, .ite h ht⟩
  have hc : ∀ t : State, t.HuntReasonOk → ∃ u, (Host.Outcome.next (s.unlessHeld (State.conclude72 s t)) :
      Host.Outcome State Fault Refusal) = .next u ∧ u.HuntReasonOk := fun t ht => hu _ (ht.conclude72 s)
  cases c with
  | powerUpReset n => exact ⟨_, rfl, h.congr (huntView_assertReset s n)⟩
  | resetRelease => exact ⟨_, rfl, .ite (.of_reset rfl rfl) h⟩
  | imageRecordRead a => exact hu _ (h.congr (huntView_readImage s a))
  | startUp =>
    refine hu _ ?_
    split
    · exact h
    · exact (h.startUp _).finish s
  | saveEnd n => exact hu _ (h.congr (huntView_endSave s n))
  | sample y => exact hc _ (h.takeSample y)
  | highSetDelayExpiry y => exact hc _ (h.takeSample y)
  | sefDelayExpiry y => exact hc _ (h.takeSample y)
  | statusReport a p b => exact hc _ (h.congr (huntView_takeReport s a p b))
  | response a g k v => exact hc _ (h.takeResponse a g k v)
  | managementRequest req k p => exact hu _ (h.congr (huntView_arrive s req k p))
  | frameRejected y => exact hc _ (h.receive y)
  | transmissionEnd => exact hu _ h.endTransmission
  | silenceExpiry e => exact hu _ (.ite ((h.loseStream e).conclude72 s) h)
  | busDelayExpiry => exact hu _ (.ite (h.ndExpired.conclude72 s) h)
  | deadTimerExpiry f =>
    refine hu _ ?_
    split
    · exact h
    · exact (h.congr (huntView_deadExpired s f _)).conclude72 s
  | reclaimExpiry f => exact hu _ (.ite ((h.congr (huntView_goReclose s f _ _)).conclude72 s) h)
  | refreshExpiry i => exact hu _ (.ite ((h.congr (huntView_refreshExpired s i)).finish s) h)
  | timeout i =>
    refine hu _ ?_
    split
    · exact h
    · exact (h.timedOut i _).conclude72 s
  | turnaroundGapEnd i => exact hu _ (h.moves (moves_trySend (by simp [Unhunted]) s i))
  | settleExpiry =>
    refine hu _ ?_
    split
    · exact h
    · rename_i d hdue
      have hsettling : s.ctx.state = .settling := by
        by_contra hst
        simp [State.settleDue, hst] at hdue
      exact ((h.hunting hsettling).settleExpired d).conclude72 s
  | loadFeeder req y r => exact hl (leavesHunt_load _ _ _)
  | loadBus req y r => exact hl (leavesHunt_load _ _ _)
  | loadOutstation req y r => exact hl (leavesHunt_load _ _ _)
  | loadProfile req y r => exact hl (leavesHunt_load _ _ _)
  | loadCurve req y r => exact hl (leavesHunt_load _ _ _)
  | loadHuntPlan req y r => exact hl (leavesHunt_load _ _ _)
  | loadBusOrder req y r => exact hl (leavesHunt_load _ _ _)
  | loadLink req y r => exact hl (leavesHunt_load _ _ _)
  | readTable req a b => exact hl (leavesHunt_read _ _)
  | selectProfile req a w => exact hr (keepsHuntReason_select _ _)
  | setBlock req a b => exact hl (leavesHunt_block _ _ _)
  | clearBlock req a b => exact hl (leavesHunt_block _ _ _)
  | setMode req a b => exact hl (leavesHunt_mode _ _)
  | setServiceOn req a => exact hr (keepsHuntReason_service a fun t i ht => ht.congr (huntView_serviceOn t i))
  | setServiceOff req a => exact hr (keepsHuntReason_service a fun _ i ht => ht.serviceOff i)
  | operateOpen req a => exact hl (leavesHunt_operate _ _)
  | operateClose req a => exact hl (leavesHunt_operate _ _)
  | resetLockout req a => exact hl (leavesHunt_withFeeder a huntView_resetLockout)
  | startHunt req a => exact hr (keepsHuntReason_startHunt _)
  | abortHunt req => exact hr keepsHuntReason_abortHunt
  | ackSef req a => exact hl (leavesHunt_withFeeder a fun t f => huntView_moves (moves_ackSef (by simp [Unhunted]) t f))
  | readStateFeeder req a => exact hl (leavesHunt_withFeeder a fun _ _ => rfl)
  | readStateBus req => exact hl fun _ _ => rfl
  | readTrips req => exact hl fun _ _ => rfl
  | clearCounters req => exact hl fun _ _ => rfl
  | saveImage req => exact hl leavesHunt_save
  | restart req => exact hl leavesHunt_restart
  | unknownRequest req k p => exact hl (leavesHunt_unknown _ _)

/-- Settles O11: each command keeps the member with the hunt, and an idle step changes neither. -/
theorem huntMemberWhileInvolved : Obligations.HuntMemberWhileInvolved := by
  intro s t hs hstep
  unfold step at hstep
  split at hstep
  · cases hstep
    refine .ite hs ?_
    split <;> exact hs
  · rename_i c rest _
    have hrest : (s.setPending rest).HuntReasonOk := hs
    obtain ⟨u, hu, hkept⟩ := huntReasonOk_exec hrest c
    rw [hu] at hstep
    cases hstep
    exact hkept

end Sys2Proof.Machine
end

section
/-! The settle expiry of a step (R125, R138, R142), and the CLOSE a hunt hands for its open point (R138, R144). -/

namespace Sys2Proof.Machine

variable {s : State}

/-! ### The step in progress -/

theorem currentStep_setCtx {c : HuntContext} (hphase : c.phase = s.ctx.phase) (hfeeder : c.feeder = s.ctx.feeder)
    (hbus : c.busIndex = s.ctx.busIndex) (hplan : c.planIndex = s.ctx.planIndex) : (s.setCtx c).currentStep = s.currentStep := by
  have hctx : (s.setCtx c).ctx = c := rfl
  have hhunt : (s.setCtx c).hunt.busOrder = s.hunt.busOrder := rfl
  have hplans : ∀ f, (s.setCtx c).plan f = s.plan f := fun _ => rfl
  simp only [State.currentStep, hctx, hhunt, hplans, hphase, hfeeder, hbus, hplan]

/-- The step in progress has its outcome at the end of the results (R125). -/
theorem appendOutcome_setCtx {c : HuntContext} {ph : HuntPhase} {f : Feeder} {pos : Nat} {last : Bool}
    (hstep : (s.setCtx c).currentStep = some (ph, f, pos, last)) (v : OutcomeValue) :
    (s.setCtx c).appendOutcome v = s.setCtx { c with results := c.results ++ [⟨ph, f, pos, v, last⟩] } := by
  rw [State.appendOutcome, hstep]
  rfl

/-! ### A CLOSE for the open point -/

/-- A slot can take a CLOSE: in service, of a kind that has one, its feeder not in TEST, and no OPEN or CLOSE queued (R106, R108). -/
structure State.TakesClose (s : State) (i : SlotId) : Prop where
  inService : (s.slot i).state = .inService
  kind : ((s.slot i).loaded.any fun l => l.kind == .breaker || l.kind == .recloser || l.kind == .sectionaliser) = true
  mode : s.mode (SlotId.feeder i) ≠ .test
  free : ∀ c ∈ (s.slot i).queue, c.kind.isSwitch = false

/-- The CLOSE of a hunt waits with a slot that can take it. -/
theorem handCmd_close {i : SlotId} (h : s.TakesClose i) :
    s.Handed (s.handCmd i (huntCmd .close)).1 i (huntCmd .close) ∧ (s.handCmd i (huntCmd .close)).2 = [] := by
  rw [handCmd_switch (c := huntCmd .close) rfl h.inService h.kind h.mode h.free]
  exact ⟨handed_switch s i (huntCmd .close), rfl⟩

/-- A step that is decided has its point closed again (R138). -/
theorem restore_closes {i : SlotId} {c : HuntContext} (h : s.TakesClose i) (hopen : c.openPoint = some i) :
    (s.setCtx { c with state := .restoring, outstanding := some .close }).Handed (s.setCtx c).restore i (huntCmd .close) := by
  set v := s.setCtx { c with state := .restoring, outstanding := some .close }
  have hopen : (s.setCtx c).ctx.openPoint = some i := hopen
  have hmap : (s.setCtx c).mapCtx (fun x => { x with state := .restoring, outstanding := some .close }) = v := rfl
  have hv : v.TakesClose i := ⟨h.inService, h.kind, h.mode, h.free⟩
  obtain ⟨hhanded, hnone⟩ := handCmd_close hv
  have hrestore : (s.setCtx c).restore = (v.handCmd i (huntCmd .close)).1 := by
    rw [State.restore, hopen]
    simp only [hmap, hnone]
    rfl
  rw [hrestore]
  exact hhanded

/-! ### What a handed command leaves of the state before the context was set -/

theorem handed_ctx {c : HuntContext} {u : State} {i : SlotId} {x : Cmd} (h : (s.setCtx c).Handed u i x) : u.ctx = c :=
  congrArg HuntController.ctx (h.parted.hunt (by simp))

theorem handed_restoring {c : HuntContext} {u : State} {i : SlotId} {x : Cmd} (h : (s.setCtx c).Handed u i x) :
    Parted Restoring s u :=
  (parted_setCtx (.inl rfl) s c).trans (h.parted.mono fun _ => .inr)

/-- A hunt in progress leaves nothing to settle. -/
theorem settle_handed {c : HuntContext} {u : State} {i : SlotId} {x : Cmd} (hs : s.Still) (h : (s.setCtx c).Handed u i x)
    (hbusy : c.state ≠ .idle) : u.settle = u := by
  refine settle_still u (fun e => ?_) (.inl ?_)
  · rw [State.entry, (handed_restoring h).map (by simp [Restoring])]
    exact hs.noPending e
  · rw [handed_ctx h]
    exact hbusy

/-- A hunt that ends while no trigger waits leaves nothing to settle. -/
theorem settle_finishHunt (hs : s.Still) (c : HuntContext) (r : HuntResult) (x : Option PointOutcome) :
    ((s.setCtx c).finishHunt r x).settle = (s.setCtx c).finishHunt r x := by
  have hend := finishHunt_spec (s.setCtx c) r x
  refine settle_still _ (fun e => ?_) (.inr ?_)
  · rw [State.entry, (parted_moves hend.moves).map (by simp [Ending])]
    exact hs.noPending e
  · rw [hend.list]
    exact hs.noTrigger

/-! ### The settle expiry -/

theorem exec_settleExpiry {d : Nat} (hs : s.Still) (hsettling : s.ctx.state = .settling) (hsettle : s.ctx.settle = some d)
    (hdue : d ≤ s.time) : exec .settleExpiry s = .next (State.finish s (s.settleExpired d).settle) := by
  have hsettleDue : s.settleDue = some d := by simp [State.settleDue, hsettling, hsettle, hdue]
  simp only [exec, execSettleExpiry, State.unlessHeld, hs.released, hsettleDue]
  rfl

/-- A step that has not CLEARED: its outcome, then its point (R138). -/
theorem settleExpired_notCleared {d : Nat} {ph : HuntPhase} {f : Feeder} {pos : Nat} {last : Bool} (hclear : s.isCleared d = false)
    (hstep : s.currentStep = some (ph, f, pos, last)) :
    s.settleExpired d
      = (s.setCtx { s.ctx with settle := none, results := s.ctx.results ++ [⟨ph, f, pos, .notCleared, last⟩] }).restore := by
  have hcurrent : (s.setCtx { s.ctx with settle := none }).currentStep = some (ph, f, pos, last) :=
    (currentStep_setCtx rfl rfl rfl rfl).trans hstep
  have hfirst : s.mapCtx (fun c => { c with settle := none }) = s.setCtx { s.ctx with settle := none } := rfl
  simp only [State.settleExpired, hclear, Bool.false_eq_true, if_false, hfirst, appendOutcome_setCtx hcurrent]

/-- A feeder step that has CLEARED ends the hunt: the fault is beyond its point (R138, R142). -/
theorem settleExpired_feederCleared {d : Nat} {f : Feeder} {pos : Nat} {last : Bool} (hclear : s.isCleared d = true)
    (hstep : s.currentStep = some (.feederStep, f, pos, last)) :
    s.settleExpired d
      = (s.setCtx { s.ctx with
          state := .concluded, settle := none, results := s.ctx.results ++ [⟨.feederStep, f, pos, .cleared, last⟩] }).finishHunt
          (.foundBeyond f pos) (some .leftOpen) := by
  have hcurrent : (s.setCtx { s.ctx with settle := none }).currentStep = some (.feederStep, f, pos, last) :=
    (currentStep_setCtx rfl rfl rfl rfl).trans hstep
  have hafter : (s.setCtx { s.ctx with settle := none, results := s.ctx.results ++ [⟨.feederStep, f, pos, .cleared, last⟩] }).currentStep
      = some (.feederStep, f, pos, last) := (currentStep_setCtx rfl rfl rfl rfl).trans hstep
  have hfirst : s.mapCtx (fun c => { c with settle := none }) = s.setCtx { s.ctx with settle := none } := rfl
  simp only [State.settleExpired, hclear, if_true, hfirst, appendOutcome_setCtx hcurrent, hafter]
  rfl

/-- The first clause of O34. -/
theorem settleExpiry_ends {d k a : Nat} {f : Feeder} {x : PlanStep} (hs : s.Still) (hsettling : s.ctx.state = .settling)
    (hsettle : s.ctx.settle = some d) (hdue : d ≤ s.time) (hphase : s.ctx.phase = some .feederStep) (hfeeder : s.ctx.feeder = some f)
    (hindex : s.ctx.planIndex = some k) (hplan : (s.plan f)[k]? = some x) (hmag : s.observedMag.isSome = true)
    (habove : s.ctx.lastAbove = some a) (hclear : a + 100 ≤ d) :
    ∃ t, exec .settleExpiry s = .next t ∧ t.ctx = HuntContext.reset
      ∧ (∀ g ∈ s.ctx.involved, (t.recl g).reasons.hunt = false) ∧ (∀ g, g ∉ s.ctx.involved → t.recl g = s.recl g) := by
  have hcleared : s.isCleared d = true := by
    have hlong : a + Config.clearTime ≤ d := hclear
    simp [State.isCleared, hmag, habove, hlong]
  have hstep : s.currentStep = some (.feederStep, f, x.position.val, k + 1 == (s.plan f).length) := by
    simp only [State.currentStep, hphase, hfeeder, hindex, hplan, Option.map_some]
  refine ⟨_, exec_settleExpiry hs hsettling hsettle hdue, ?_⟩
  rw [settleExpired_feederCleared hcleared hstep, settle_finishHunt hs]
  set c : HuntContext := { s.ctx with
    state := .concluded, settle := none
    results := s.ctx.results ++ [⟨.feederStep, f, x.position.val, .cleared, k + 1 == (s.plan f).length⟩] }
  have hend := finishHunt_spec (s.setCtx c) (.foundBeyond f x.position.val) (some .leftOpen)
  refine ⟨by rw [ctx_finish, hend.ctx], fun g hg => ?_, fun g hg => ?_⟩
  · rw [recl_finish]; exact hend.removed g hg
  · rw [recl_finish]; exact hend.others g hg

/-- The second clause of O34. -/
theorem settleExpiry_restores {d : Nat} {i : SlotId} {ph : HuntPhase} {f : Feeder} {pos : Nat} {last : Bool} (hs : s.Still)
    (hsettling : s.ctx.state = .settling) (hsettle : s.ctx.settle = some d) (hdue : d ≤ s.time)
    (hclear : s.observedMag = none ∨ ∀ a, s.ctx.lastAbove = some a → d < a + 100)
    (hstep : s.currentStep = some (ph, f, pos, last)) (hpoint : s.ctx.openPoint = some i) (hclose : s.TakesClose i) :
    ∃ t, exec .settleExpiry s = .next t
      ∧ t.ctx = { s.ctx with
          state := .restoring, settle := none, outstanding := some .close
          results := s.ctx.results ++ [⟨ph, f, pos, .notCleared, last⟩] }
      ∧ (t.slot i).Has (huntCmd .close)
      ∧ t = { s with hunt := t.hunt, exchange := t.exchange, link := t.link, mgmt := t.mgmt, outputs := t.outputs } := by
  have hnot : s.isCleared d = false := by
    rcases hclear with hmag | hlate
    · simp [State.isCleared, hmag]
    · cases habove : s.ctx.lastAbove with
      | none => simp [State.isCleared, habove]
      | some a =>
        have hshort : d < a + Config.clearTime := hlate a habove
        simp [State.isCleared, habove, hshort]
  set c : HuntContext := { s.ctx with settle := none, results := s.ctx.results ++ [⟨ph, f, pos, .notCleared, last⟩] }
  have hhanded := restore_closes (c := c) hclose hpoint
  refine ⟨_, exec_settleExpiry hs hsettling hsettle hdue, ?_⟩
  rw [settleExpired_notCleared hnot hstep, settle_handed hs hhanded (by simp)]
  refine ⟨by rw [ctx_finish, handed_ctx hhanded], hhanded.has s, ?_⟩
  exact rest_of_restoringSending (((handed_restoring hhanded).mono fun _ => .inl).trans ((parted_finish s _).mono fun _ => .inr))

/-- Settles O34: a cleared feeder step ends the hunt, a step not cleared has its point closed again. -/
theorem settleDecides : Obligations.SettleDecides := by
  intro s d hs hsettling hsettle hdue
  refine ⟨fun f k x hphase hfeeder hindex hplan hmag habove => ?_,
    fun i ph f pos last hclear hstep hpoint hstate hkind hmode hfree => ?_⟩
  · obtain ⟨a, ha, hlong⟩ := habove
    obtain ⟨t, hexec, hctx, hremoved, hothers⟩ :=
      settleExpiry_ends hs hsettling hsettle hdue hphase hfeeder hindex hplan hmag ha hlong
    exact ⟨t, hexec, by rw [hctx]; rfl, by rw [hctx]; rfl, by rw [hctx]; rfl, hremoved, hothers⟩
  · obtain ⟨t, hexec, hctx, hhas, hrest⟩ :=
      settleExpiry_restores hs hsettling hsettle hdue hclear hstep hpoint ⟨hstate, hkind, hmode, hfree⟩
    exact ⟨t, hexec, by rw [hctx], by rw [hctx]; exact hpoint, by rw [hctx], by rw [hctx], hhas, hrest⟩

end Sys2Proof.Machine
end

section
/-! ABORT_HUNT, arriving and served at once (R143 to R145, R160, R161). -/

namespace Sys2Proof.Machine

variable {s : State}

/-! ### A request whose owner works on a hunt -/

/-- What working on a hunt, the reply and the end of the event may change. -/
def HuntServing (p : Part) : Prop := Ending p ∨ Serving p

theorem rest_of_huntServing {t : State} (h : Parted HuntServing s t) :
    t = { s with
      hunt := t.hunt, reclose := t.reclose, exchange := t.exchange, link := t.link, mgmt := t.mgmt, outputs := t.outputs } := by
  have hrest := h.rest
  rw [h.bank (by simp [HuntServing, Ending, Serving, Sending]), h.threshold (by simp [HuntServing, Ending, Serving, Sending]),
    h.map (by simp [HuntServing, Ending, Serving, Sending])] at hrest
  exact hrest

/-- What the reply and the end of the event leave of what the owner has done. -/
structure State.RepliedOn (s u t : State) (req : RequestId) (kind : Byte) (params : List Byte) (r : Result)
    (payload : List Byte) : Prop where
  answered : s.Answered t req kind params r payload
  after : Parted Serving u t
  noNotice : u.NoNotice t
  slot : ∀ i, State.sendTestDue s u i = false → t.slot i = u.slot i
  has : ∀ i c, (u.slot i).Has c → (t.slot i).Has c

section

variable {u t : State} {req : RequestId} {kind : Byte} {params : List Byte} {r : Result} {payload : List Byte}

/-- A request that is served as it arrives and answered at once by an owner that leaves nothing to settle. -/
theorem requestEvent_repliedOn {owner : Nat → State → Served} (hr : s.Ready req)
    (ho : owner s.mgmt.nextTicket (s.arrived req kind params) = (u, some (r, payload)))
    (hrequests : u.mgmt.requests = [s.newEntry req kind params]) (hticket : u.mgmt.nextTicket = s.mgmt.nextTicket + 1)
    (hsettled : u.settle = u) : s.RepliedOn u (s.requestEvent req kind params true owner) req kind params r payload := by
  have hentry : u.mgmt.requests.map ReqEntry.request = [s.newEntry req kind params] := by rw [hrequests]; rfl
  obtain ⟨_, _, _, hnotice, _⟩ := replyTo_only u (s.newEntry req kind params) r payload hentry
  have hnotice : u.NoNotice (u.replyTo s.mgmt.nextTicket r payload) := hnotice
  have hreplied : Parted (fun p => p = .requests) u (u.replyTo s.mgmt.nextTicket r payload) :=
    parted_moves (moves_replyTo (μ := fun p => p = .requests) rfl u s.mgmt.nextTicket r payload)
  have hanswered := answered_finish hentry hticket r payload
  rw [requestEvent_answers true hr ho, if_pos rfl, hsettled]
  generalize u.replyTo s.mgmt.nextTicket r payload = v at hnotice hreplied hanswered
  have hexchange : v.exchange = u.exchange := hreplied.exchange (by simp)
  have hslot : ∀ i, v.slot i = u.slot i := fun i => congrArg (fun x : OutstationExchange => look x.slots i) hexchange
  refine ⟨hanswered, (hreplied.mono fun _ => .inl).trans ((parted_finish s v).mono fun _ => .inr), ?_, fun i hi => ?_,
    fun i c hc => has_finish s (by rw [hslot]; exact hc)⟩
  · rw [State.NoNotice, mgmt_finish]
    exact hnotice
  · refine (slot_finish_of_not_due ?_).trans (hslot i)
    rw [State.sendTestDue, State.admissions, hexchange, hslot]
    exact hi

theorem State.RepliedOn.ctx (h : s.RepliedOn u t req kind params r payload) : t.ctx = u.ctx :=
  congrArg HuntController.ctx (h.after.hunt (by simp [Serving, Sending]))

theorem State.RepliedOn.recl (h : s.RepliedOn u t req kind params r payload) (g : Feeder) : t.recl g = u.recl g :=
  look_congr (congrArg RecloseController.records (h.after.reclose (by simp [Serving, Sending]))) g

theorem State.RepliedOn.rest (h : s.RepliedOn u t req kind params r payload) (hu : Parted Ending (s.arrived req kind params) u) :
    t = { s with
      hunt := t.hunt, reclose := t.reclose, exchange := t.exchange, link := t.link, mgmt := t.mgmt, outputs := t.outputs } :=
  rest_of_huntServing (s := s.arrived req kind params) ((hu.mono fun _ => .inl).trans (h.after.mono fun _ => .inr))

end

/-! ### Aborts (R143, R144) -/

/-- An outcome changes the results alone. -/
theorem appendOutcome_results (s : State) (v : OutcomeValue) :
    ∃ l, s.appendOutcome v = s.setCtx { s.ctx with results := l } := by
  unfold State.appendOutcome
  split
  · exact ⟨s.ctx.results, rfl⟩
  · exact ⟨_, rfl⟩

/-- The context of a hunt that is aborted by hand, with its results. -/
def HuntContext.aborted (c : HuntContext) (l : List StepOutcome) : HuntContext :=
  { c with state := .aborting, abortCause := some .manual, settle := none, results := l }

/-- While a command of the hunt is outstanding an abort waits for it (R144). -/
theorem abortHunt_waits (h : s.ctx.outstanding ≠ none) : ∃ l, s.abortHunt .manual = s.setCtx (s.ctx.aborted l) := by
  obtain ⟨l, hl⟩ : ∃ l, (if s.ctx.state == .restoring then s else s.appendOutcome .interrupted)
      = s.setCtx { s.ctx with results := l } := by
    split
    · exact ⟨s.ctx.results, rfl⟩
    · exact appendOutcome_results s _
  obtain ⟨x, hx⟩ := Option.ne_none_iff_exists'.1 h
  have hmap : (s.setCtx { s.ctx with results := l }).mapCtx
      (fun c => { c with state := .aborting, abortCause := some .manual, settle := none }) = s.setCtx (s.ctx.aborted l) := rfl
  have houtstanding : (s.setCtx (s.ctx.aborted l)).ctx.outstanding = some x := hx
  exact ⟨l, by simp only [State.abortHunt, hl, hmap, houtstanding]⟩

/-- An abort by hand in SETTLING interrupts the step and comes to the open point (R143, R144). -/
theorem abortHunt_settling {ph : HuntPhase} {f : Feeder} {pos : Nat} {last : Bool} (hsettling : s.ctx.state = .settling)
    (hnone : s.ctx.outstanding = none) (hstep : s.currentStep = some (ph, f, pos, last)) :
    s.abortHunt .manual = (s.setCtx (s.ctx.aborted (s.ctx.results ++ [⟨ph, f, pos, .interrupted, last⟩]))).decideRestoration := by
  set c := s.ctx.aborted (s.ctx.results ++ [⟨ph, f, pos, .interrupted, last⟩]) with hc
  have happend : s.appendOutcome .interrupted
      = s.setCtx { s.ctx with results := s.ctx.results ++ [⟨ph, f, pos, .interrupted, last⟩] } := by
    rw [State.appendOutcome, hstep]
    rfl
  have hmap : (s.appendOutcome .interrupted).mapCtx
      (fun c => { c with state := .aborting, abortCause := some .manual, settle := none }) = s.setCtx c := by
    rw [happend]; rfl
  have houtstanding : (s.setCtx c).ctx.outstanding = none := hnone
  have hcause : (s.setCtx c).ctx.abortCause = some .manual := rfl
  have hstate : (s.ctx.state == HuntState.restoring) = false := by rw [hsettling]; rfl
  have habort : s.abortHunt .manual = (s.setCtx c).settlePoint := by
    simp only [State.abortHunt, hstate, Bool.false_eq_true, if_false, hmap, houtstanding]
  rw [habort, State.settlePoint, hcause]

section

variable {c : HuntContext} {i : SlotId} {p : Profile} (hopen : c.openPoint = some i)
  (hprofile : s.feederProfile (SlotId.feeder i) = some p)
include hopen hprofile

/-- Where the profile does not permit it nothing is restored (R144). -/
theorem decideRestoration_leaves (hpermitted : p.restorePermitted = false) :
    (s.setCtx c).decideRestoration = (s.setCtx c).endAbort (some .leftOpen) := by
  have hopen : (s.setCtx c).ctx.openPoint = some i := hopen
  have hprofile : (s.setCtx c).feederProfile (SlotId.feeder i) = some p := hprofile
  simp [State.decideRestoration, hopen, hprofile, hpermitted]

/-- Where the profile permits it the open point is closed (R144). -/
theorem decideRestoration_closes (hpermitted : p.restorePermitted = true) (h : s.TakesClose i) :
    (s.setCtx c).decideRestoration
      = ((s.setCtx { c with outstanding := some .close, restoring := true }).handCmd i (huntCmd .close)).1 := by
  set v := s.setCtx { c with outstanding := some .close, restoring := true }
  have hopen : (s.setCtx c).ctx.openPoint = some i := hopen
  have hprofile : (s.setCtx c).feederProfile (SlotId.feeder i) = some p := hprofile
  have hmap : (s.setCtx c).mapCtx (fun x => { x with outstanding := some .close, restoring := true }) = v := rfl
  have hv : v.TakesClose i := ⟨h.inService, h.kind, h.mode, h.free⟩
  have hnone : ownCompletion (huntCmd .close) (v.handCmd i (huntCmd .close)).2 = none := by rw [(handCmd_close hv).2]; rfl
  simp only [State.decideRestoration, hopen, hprofile, Option.any_some, hpermitted, if_true, hmap, hnone]

end

/-! ### ABORT_HUNT -/

section

variable {req : RequestId} (hr : s.Ready req) (hs : s.Still)
include hr hs

/-- An abort that changes nothing is answered alone. -/
theorem abortRequest_alone {r : Result} (ho : (s.arrived req 0x0B#8 []).abortRequest = (s.arrived req 0x0B#8 [], r)) :
    ∃ t, exec (.abortHunt req) s = .next t ∧ s.Answered t req 0x0B#8 [] r [] ∧ s.NoNotice t ∧ s.PortKept t ∧ s.SameBut t := by
  have howner : serveAbortHunt s.mgmt.nextTicket (s.arrived req 0x0B#8 []) = (s.arrived req 0x0B#8 [], some (r, [])) :=
    congrArg answer ho
  have hleaves : s.OwnerLeaves (s.arrived req 0x0B#8 []) req 0x0B#8 [] true :=
    { ownerLeaves_arrived s req _ _ with settled := fun _ => settle_still _ hs.noPending (.inr hs.noTrigger) }
  have h := requestEvent_replies hr howner hleaves
  exact ⟨_, rfl, h.answered, h.noNotice, h.port, h.rest⟩

theorem abortRequest_idle (hidle : s.ctx.state = .idle) :
    ∃ t, exec (.abortHunt req) s = .next t ∧ s.Answered t req 0x0B#8 [] .state [] ∧ s.NoNotice t ∧ s.PortKept t ∧ s.SameBut t := by
  have hidle : (s.arrived req 0x0B#8 []).ctx.state = .idle := hidle
  exact abortRequest_alone hr hs (by simp [State.abortRequest, hidle])

theorem abortRequest_aborting (haborting : s.ctx.state = .aborting) :
    ∃ t, exec (.abortHunt req) s = .next t ∧ s.Answered t req 0x0B#8 [] .ok [] ∧ s.NoNotice t ∧ s.PortKept t ∧ s.SameBut t := by
  have haborting : (s.arrived req 0x0B#8 []).ctx.state = .aborting := haborting
  exact abortRequest_alone hr hs (by simp [State.abortRequest, State.huntCause, HuntContext.running, haborting])

omit hr hs in
/-- In OPENING, SETTLING and RESTORING a hunt is aborted (R143). -/
theorem serveAbortHunt_running (hrunning : s.ctx.running = true) (n : Nat) :
    serveAbortHunt n s = (s.abortHunt .manual, some (.ok, [])) := by
  have hbusy : s.ctx.state ≠ .idle := fun hidle => by simp [HuntContext.running, hidle] at hrunning
  simp [serveAbortHunt, answer, State.abortRequest, State.huntCause, hbusy, hrunning]

theorem abortRequest_outstanding (hstate : s.ctx.state = .opening ∨ s.ctx.state = .restoring) (houtstanding : s.ctx.outstanding ≠ none) :
    ∃ t, exec (.abortHunt req) s = .next t ∧ s.Answered t req 0x0B#8 [] .ok [] ∧ t.ctx.state = .aborting
      ∧ t.ctx.abortCause = some .manual ∧ t.ctx.openPoint = s.ctx.openPoint ∧ s.NoNotice t
      ∧ t = { s with hunt := t.hunt, link := t.link, mgmt := t.mgmt, outputs := t.outputs } := by
  set s1 := s.arrived req 0x0B#8 []
  have hstate : s1.ctx.state = .opening ∨ s1.ctx.state = .restoring := hstate
  have hrunning : s1.ctx.running = true := by
    rcases hstate with h | h <;> simp [HuntContext.running, h]
  obtain ⟨l, hl⟩ := abortHunt_waits (s := s1) houtstanding
  have hbusy : (s1.setCtx (s1.ctx.aborted l)).ctx.state ≠ .idle := by
    change HuntState.aborting ≠ .idle
    decide
  have howner := serveAbortHunt_running hrunning s.mgmt.nextTicket
  rw [hl] at howner
  have hleaves : s.OwnerLeaves (s1.setCtx (s1.ctx.aborted l)) req 0x0B#8 [] true :=
    ⟨rfl, rfl, rfl, ⟨rfl, rfl, fun _ h => h, rfl⟩, fun _ => settle_still _ hs.noPending (.inl hbusy)⟩
  have h := requestEvent_replies hr howner hleaves
  have hexec : exec (.abortHunt req) s = .next (s.requestEvent req 0x0B#8 [] true serveAbortHunt) := rfl
  generalize s.requestEvent req 0x0B#8 [] true serveAbortHunt = t at h hexec
  have hrest := h.rest
  have hctx : t.ctx = s.ctx.aborted l := by rw [hrest]; rfl
  refine ⟨t, hexec, h.answered, by rw [hctx]; rfl, by rw [hctx]; rfl, by rw [hctx]; rfl, h.noNotice, ?_⟩
  rw [hrest]
  rfl

section

variable {i : SlotId} {p : Profile} {ph : HuntPhase} {f : Feeder} {pos : Nat} {last : Bool} (hsettling : s.ctx.state = .settling)
  (hnone : s.ctx.outstanding = none) (hopen : s.ctx.openPoint = some i) (hstep : s.currentStep = some (ph, f, pos, last))
  (hprofile : s.feederProfile (SlotId.feeder i) = some p)
include hsettling hnone hopen hstep hprofile

omit hr hs hopen hprofile in
/-- ABORT_HUNT in SETTLING comes to the open point. -/
theorem serveAbortHunt_settling (n : Nat) :
    serveAbortHunt n (s.arrived req 0x0B#8 [])
      = (((s.arrived req 0x0B#8 []).setCtx (s.ctx.aborted (s.ctx.results ++ [⟨ph, f, pos, .interrupted, last⟩]))).decideRestoration,
        some (.ok, [])) := by
  have hsettling : (s.arrived req 0x0B#8 []).ctx.state = .settling := hsettling
  rw [serveAbortHunt_running (by simp [HuntContext.running, hsettling]), abortHunt_settling hsettling hnone hstep]
  rfl

theorem abortRequest_leavesOpen (hpermitted : p.restorePermitted = false) :
    ∃ t, exec (.abortHunt req) s = .next t ∧ s.Answered t req 0x0B#8 [] .ok []
      ∧ t.ctx = HuntContext.reset ∧ (∀ g ∈ s.ctx.involved, (t.recl g).reasons.hunt = false)
      ∧ (∀ g, g ∉ s.ctx.involved → t.recl g = s.recl g)
      ∧ (s.link.table.dest = none → s.mgmt.notices.length + 17 * s.ctx.involved.length < 32 →
        t.mgmt.notices.getLast? = some ⟨.huntResult s.ctx.kind s.ctx.origin s.ctx.involved (.aborted .manual)
          (some (i, .leftOpen)) s.ctx.observed s.ctx.clearLevel
          (s.ctx.results ++ [⟨ph, f, pos, .interrupted, last⟩]), false⟩) := by
  set s1 := s.arrived req 0x0B#8 [] with hs1
  set c := s.ctx.aborted (s.ctx.results ++ [⟨ph, f, pos, .interrupted, last⟩])
  have hs1still : s1.Still := ⟨hs.released, hs.noPending, hs.noTrigger⟩
  have howner := serveAbortHunt_settling (req := req) hsettling hnone hstep s.mgmt.nextTicket
  rw [decideRestoration_leaves (s := s1) (c := c) hopen hprofile hpermitted] at howner
  have hend := finishHunt_spec (s1.setCtx c) (.aborted .manual) (some .leftOpen)
  have hrequests := (parted_moves hend.moves).requests (by simp [Ending])
  have hticket := congrArg Fixed.tickets (fixed_moves hend.moves)
  have h := requestEvent_repliedOn hr howner hrequests hticket (settle_finishHunt hs1still c _ _)
  have hresult : c.resultNotice (.aborted .manual) (some .leftOpen)
      = .huntResult s.ctx.kind s.ctx.origin s.ctx.involved (.aborted .manual) (some (i, .leftOpen)) s.ctx.observed s.ctx.clearLevel
        (s.ctx.results ++ [⟨ph, f, pos, .interrupted, last⟩]) := by
    have hpoint : c.openPoint = some i := hopen
    have houtcome : c.pointOutcome (some .leftOpen) = some (i, .leftOpen) := by
      unfold HuntContext.pointOutcome
      rw [hpoint]
    rw [HuntContext.resultNotice, houtcome]
    rfl
  refine ⟨_, rfl, h.answered, h.ctx.trans hend.ctx, fun g hg => ?_, fun g hg => ?_, fun hdest hroom => ?_⟩
  · rw [h.recl]; exact hend.removed g hg
  · rw [h.recl]; exact hend.others g hg
  · rw [h.noNotice.1, ← hresult]
    exact hend.newest hdest hroom

theorem abortRequest_closes (hpermitted : p.restorePermitted = true) (hclose : s.TakesClose i) :
    ∃ t, exec (.abortHunt req) s = .next t ∧ s.Answered t req 0x0B#8 [] .ok []
      ∧ t.ctx = { s.ctx.aborted (s.ctx.results ++ [⟨ph, f, pos, .interrupted, last⟩]) with outstanding := some .close, restoring := true }
      ∧ (t.slot i).Has (huntCmd .close) ∧ (∀ j, j ≠ i → t.slot j = s.slot j) ∧ s.NoNotice t
      ∧ t = { s with hunt := t.hunt, exchange := t.exchange, link := t.link, mgmt := t.mgmt, outputs := t.outputs } := by
  set s1 := s.arrived req 0x0B#8 [] with hs1
  set c0 := s.ctx.aborted (s.ctx.results ++ [⟨ph, f, pos, .interrupted, last⟩]) with hc0
  set c : HuntContext := { c0 with outstanding := some .close, restoring := true }
  have hs1still : s1.Still := ⟨hs.released, hs.noPending, hs.noTrigger⟩
  have hclose1 : (s1.setCtx c).TakesClose i := ⟨hclose.inService, hclose.kind, hclose.mode, hclose.free⟩
  have howner := serveAbortHunt_settling (req := req) hsettling hnone hstep s.mgmt.nextTicket
  rw [← hs1, ← hc0, decideRestoration_closes (s := s1) (c := c0) hopen hprofile hpermitted
    ⟨hclose.inService, hclose.kind, hclose.mode, hclose.free⟩] at howner
  have hhanded := (handCmd_close hclose1).1
  have hmgmt := mgmt_handCmd (s1.setCtx c) i (huntCmd .close)
  generalize ((s1.setCtx c).handCmd i (huntCmd .close)).1 = u at howner hhanded hmgmt
  have h := requestEvent_repliedOn hr howner (congrArg Responder.requests hmgmt) (congrArg Responder.nextTicket hmgmt)
    (settle_handed hs1still hhanded (by simp [c, hc0, HuntContext.aborted]))
  have hexec : exec (.abortHunt req) s = .next (s.requestEvent req 0x0B#8 [] true serveAbortHunt) := rfl
  generalize s.requestEvent req 0x0B#8 [] true serveAbortHunt = t at h hexec
  have hparts := handed_restoring hhanded
  refine ⟨t, hexec, h.answered, h.ctx.trans (handed_ctx hhanded), h.has i _ ?_, fun j hj => ?_, ?_, ?_⟩
  · rw [hhanded.slot]
    exact .inl (List.mem_append_right _ List.mem_cons_self)
  · have hslot : u.slot j = s.slot j := hhanded.others j hj
    have hadmitted : u.admissions j = s.admissions j := hhanded.admissions j hj
    rw [h.slot j (by simp [State.sendTestDue, hslot, hadmitted]), hslot]
  · have hsame : s.NoNotice u := by rw [State.NoNotice, hmgmt]; exact ⟨rfl, rfl⟩
    exact ⟨h.noNotice.1.trans hsame.1, h.noNotice.2.trans hsame.2⟩
  · have hrest := h.rest (hparts.mono fun p hp => hp.elim (fun e => .inr (.inr e)) .inl)
    have hreclose : t.reclose = s.reclose :=
      (h.after.reclose (by simp [Serving, Sending])).trans (hparts.reclose (by simp [Restoring]))
    rw [hreclose] at hrest
    exact hrest

end

end

end Sys2Proof.Machine
end

section
/-! START_HUNT for a feeder (R126, R131, R134, R135), and the clauses of O35 together. -/

namespace Sys2Proof.Machine

variable {s : State}

/-! ### What a BLOCK leaves of the OPENs and CLOSEs of a slot (R109) -/

/-- No OPEN or CLOSE waits in a slot's queue. -/
def Outstation.SwitchFree (o : Outstation) : Prop := ∀ c ∈ o.queue, c.kind.isSwitch = false

theorem switchFree_iff (o : Outstation) : o.SwitchFree ↔ ∀ k ∈ o.queue.map Cmd.kind, k.isSwitch = false := by
  simp [Outstation.SwitchFree]

theorem switchFree_admitBlocking {o : Outstation} {k : CmdKind} (hk : k.isBlocking = true) (h : o.SwitchFree) (i : SlotId) :
    (admitBlocking i o (blockingCmd k)).1.SwitchFree := by
  have hkind : (blockingCmd k).kind.isSwitch = false := by cases k <;> first | rfl | cases hk
  have hleft : ∀ c ∈ withoutGroup CmdKind.isBlocking o.queue, c.kind.isSwitch = false := fun c hc => h c (List.mem_filter.1 hc).1
  unfold admitBlocking
  split
  · rw [switchFree_iff] at h ⊢
    rw [kinds_mergeQueued]
    exact h
  · dsimp only
    split
    · exact hleft
    · intro c hc
      rcases List.mem_append.1 hc with hc | hc
      · exact hleft c hc
      · rw [List.mem_singleton.1 hc]
        exact hkind

theorem switchFree_handBlocking {i : SlotId} {k : CmdKind} (hk : k.isBlocking = true) (h : (s.slot i).SwitchFree) :
    ((s.handBlocking i k).slot i).SwitchFree := by
  have hexchange : (s.handBlocking i k).exchange = (s.handCmd i (blockingCmd k)).1.exchange :=
    foldl_leaves State.exchange _
      (fun t d => (parted_moves (moves_blockingCompleted (μ := fun p => p = .reclose) rfl t d)).exchange (by simp)) _ _
  have hslot : (s.handCmd i (blockingCmd k)).1.slot i
      = (admitCmd (s.testMark (SlotId.feeder i)) i (s.slot i) (blockingCmd k)).1 := by
    unfold State.handCmd
    dsimp only
    split <;> exact State.slot_setSlot_self s i _
  rw [State.slot, hexchange, ← State.slot, hslot, admitCmd_of_blocking hk]
  split
  · exact h
  · exact switchFree_admitBlocking hk h i

theorem switchFree_blockFollower (i j : SlotId) (h : (s.slot i).SwitchFree) : ((s.blockFollower j).slot i).SwitchFree := by
  by_cases hj : j = i
  · subst hj
    have hblocked : (((s.moveFollower j .blockPending none).handBlocking j .block).slot j).SwitchFree :=
      switchFree_handBlocking rfl (by rw [slot_moveFollower]; exact h)
    unfold State.blockFollower
    cases (s.follower j).state with
    | none | releasePending =>
      dsimp only
      split
      · exact hblocked
      · exact h
    | _ => exact h
  · rw [(spares_blockFollower s i j hj).slot]
    exact h

/-- A member that joins a set hands no OPEN and no CLOSE. -/
theorem switchFree_addReason (f : Feeder) (m : Reason) (i : SlotId) (h : (s.slot i).SwitchFree) :
    ((s.addReason f m).slot i).SwitchFree := by
  cases hm : (s.recl f).reasons.has m with
  | true => rw [addReason_present s f m hm]; exact h
  | false =>
    have hjoined : ((s.joined f m).slot i).SwitchFree := by rw [(spares_joined s f m i).slot]; exact h
    rw [addReason_absent hm]
    split
    · exact List.foldlRecOn _ State.blockFollower (motive := fun t => (t.slot i).SwitchFree) hjoined
        fun t ht j _ => switchFree_blockFollower i j ht
    · exact hjoined

/-! ### A start is a chain from the head of the plan -/

/-- The context a hunt of one feeder starts with (R134). -/
def State.feederContext (s : State) (f : Feeder) (o : HuntOrigin) : HuntContext :=
  { HuntContext.reset with
    state := .opening, kind := some .feeder, phase := some .feederStep, involved := [f], feeder := some f, planIndex := some 0
    observed := some .residual, clearLevel := s.clearLevelFor (Feeder.entry f), origin := some o }

theorem startContext_feeder (f : Feeder) (o : HuntOrigin) : s.startContext (Feeder.entry f) o = s.feederContext f o := by
  simp [State.startContext, State.involvedFor, State.feederContext]

/-- The context is set, and HUNT has joined the feeder's set (R134). -/
def State.starting (s : State) (f : Feeder) (o : HuntOrigin) : State :=
  ((s.setCtx (s.feederContext f o)).setHuntList []).addReason f .hunt

theorem ctx_starting (f : Feeder) (o : HuntOrigin) : (s.starting f o).ctx = s.feederContext f o :=
  congrArg HuntController.ctx (hunt_addReason _ f .hunt)

theorem plan_starting (f : Feeder) (o : HuntOrigin) : (s.starting f o).plan f = s.plan f := by
  rw [State.plan, State.starting, hunt_addReason]
  rfl

theorem moves_starting (f : Feeder) (o : HuntOrigin) : Moves Ending s (s.starting f o) :=
  .peel (moves_addReason (.inl rfl) (.inr (.inl rfl)) _ f .hunt trivial)
    (.pone (.huntList _ [] (.inr (.inr rfl)) fun _ => List.nodup_nil) (.one (.ctx s _ (.inr (.inr rfl)))))

theorem startHunt_feeder {f : Feeder} {y : PlanStep} {rest : List PlanStep} (hlist : s.hunt.pendingList = [])
    (hplan : s.plan f = y :: rest) (o : HuntOrigin) :
    s.startHunt (Feeder.entry f) o = (s.starting f o).chain f := by
  have hfilter : ∀ p : EntryId → Bool, (s.setCtx (s.feederContext f o)).hunt.pendingList.filter p = [] := fun p => by
    rw [show (s.setCtx (s.feederContext f o)).hunt.pendingList = [] from hlist]
    rfl
  have hinvolved : ((s.setCtx (s.feederContext f o)).setHuntList []).ctx.involved = [f] := rfl
  have hstarting : ((s.setCtx (s.feederContext f o)).setHuntList []).addReason f .hunt = s.starting f o := rfl
  have hplan : (s.starting f o).plan f = y :: rest := (plan_starting f o).trans hplan
  have hcontext : (s.starting f o).mapCtx
      (fun c => { c with phase := some .feederStep, feeder := some f, busIndex := none, planIndex := some 0 }) = s.starting f o := by
    have hsame : ({ (s.starting f o).ctx with
        phase := some .feederStep, feeder := some f, busIndex := none, planIndex := some 0 } : HuntContext)
        = (s.starting f o).ctx := by
      rw [ctx_starting]; rfl
    rw [State.mapCtx, hsame]
    rfl
  simp only [State.startHunt, startContext_feeder, hfilter, hinvolved, List.foldl_cons, List.foldl_nil, hstarting, feeder?_entry,
    State.chain, hplan, hcontext]

/-- The first step of a start hands its OPEN (R135). -/
theorem startHunt_opens {f : Feeder} {y : PlanStep} {rest : List PlanStep} (hlist : s.hunt.pendingList = [])
    (hplan : s.plan f = y :: rest) (hmode : s.mode f = .inService) (hclear : s.indicatorClear f y = false)
    (hpoint : (s.slot (Feeder.slot f y.position)).huntPoint = true)
    (hkind : ((s.slot (Feeder.slot f y.position)).loaded.any fun l => l.kind == .recloser || l.kind == .sectionaliser) = true)
    (hfree : (s.slot (Feeder.slot f y.position)).SwitchFree) (o : HuntOrigin) :
    ((s.starting f o).setCtx ((s.feederContext f o).openingFirst f (Feeder.slot f y.position))).Handed
      (s.startHunt (Feeder.entry f) o) (Feeder.slot f y.position) (huntCmd .opn) := by
  have hmoves := moves_starting (s := s) f o
  have hstill := still_of_fixed (fixed_moves hmoves)
  have hloaded : ∀ i, ((s.starting f o).slot i).loaded = (s.slot i).loaded := fun i => (still_state (hstill i)).2
  have hpassage : ∀ i, ((s.starting f o).slot i).passage = (s.slot i).passage := fun i => by
    simpa only [Outstation.still] using congrArg Outstation.passage (hstill i)
  have hstate : ∀ i, ((s.starting f o).slot i).state = (s.slot i).state := fun i => (still_state (hstill i)).1
  have hclear : (s.starting f o).indicatorClear f y = false := by
    simpa only [State.indicatorClear, hloaded, hpassage, (parted_moves hmoves).time] using hclear
  have hpoint : ((s.starting f o).slot (Feeder.slot f y.position)).huntPoint = true := by
    simpa only [Outstation.huntPoint, hstate, hloaded, known_moves hmoves] using hpoint
  have hmode : (s.starting f o).mode f ≠ .test := by
    rw [State.mode, (parted_moves hmoves).modes, ← State.mode, hmode]
    decide
  rw [startHunt_feeder hlist hplan, ← ctx_starting]
  exact chain_opens (s := s.starting f o) (c := (s.starting f o).ctx) ((plan_starting f o).trans hplan) hclear hmode hpoint
    (by rw [hloaded]; exact hkind) (switchFree_addReason f .hunt _ hfree)

/-! ### START_HUNT -/

/-- No check of START_HUNT stands in the way (R131). -/
theorem serveStartHunt_passes {f : Feeder} (hidle : s.ctx.state = .idle) (heligible : s.eligible f = true)
    (hlive : s.live (Feeder.entry f) = true) (n : Nat) :
    serveStartHunt (BitVec.ofNat 8 f.val) n s = (s.startHunt (Feeder.entry f) .manual, some (.ok, [])) := by
  have hentry : indexOf 9 (BitVec.ofNat 8 f.val) = some (Feeder.entry f) := indexOf_ofNat (by decide) (Feeder.entry f)
  have hcheck : s.startCheck (Feeder.entry f) = none := by simp [State.startCheck, hidle, heligible, hlive]
  simp [serveStartHunt, hentry, hcheck, answer]

/-- The first clause of O35. -/
theorem startHunt_starts {req : RequestId} {f : Feeder} {y : PlanStep} {rest : List PlanStep} (hs : s.Calm) (hr : s.Ready req)
    (heligible : s.eligible f = true) (hlive : s.live (Feeder.entry f) = true) (hplan : s.plan f = y :: rest)
    (hclear : s.indicatorClear f y = false) (hpoint : (s.slot (Feeder.slot f y.position)).huntPoint = true)
    (hkind : ((s.slot (Feeder.slot f y.position)).loaded.any fun l => l.kind == .recloser || l.kind == .sectionaliser) = true)
    (hfree : (s.slot (Feeder.slot f y.position)).SwitchFree) :
    ∃ t, exec (.startHunt req (BitVec.ofNat 8 f.val)) s = .next t
      ∧ s.Answered t req 0x0A#8 [BitVec.ofNat 8 f.val] .ok []
      ∧ t.ctx = (s.feederContext f .manual).openingFirst f (Feeder.slot f y.position)
      ∧ (t.recl f).reasons.hunt = true ∧ (∀ g, g ≠ f → t.recl g = s.recl g)
      ∧ (t.slot (Feeder.slot f y.position)).Has (huntCmd .opn)
      ∧ t = { s with
          hunt := t.hunt, reclose := t.reclose, exchange := t.exchange, link := t.link, mgmt := t.mgmt, outputs := t.outputs } := by
  set s1 := s.arrived req 0x0A#8 [BitVec.ofNat 8 f.val] with hs1
  set i := Feeder.slot f y.position
  have hmode : s.mode f = .inService := by
    simp only [State.eligible, Bool.and_eq_true, beq_iff_eq] at heligible
    exact heligible.1.1.1.1
  have howner := serveStartHunt_passes (s := s1) hs.noHunt heligible hlive s.mgmt.nextTicket
  have hmoves := moves_starting (s := s1) f .manual
  have hhanded := startHunt_opens (s := s1) (o := .manual) hs.noTrigger hplan hmode hclear hpoint hkind hfree
  have hticket : (s1.startHunt (Feeder.entry f) .manual).mgmt.nextTicket = s.mgmt.nextTicket + 1 :=
    congrArg Fixed.tickets (fixed_moves (moves_startHunt working_all s1 (Feeder.entry f) .manual))
  generalize s1.startHunt (Feeder.entry f) .manual = u at howner hhanded hticket
  have hstarted := parted_moves hmoves
  have hstarting : (s1.starting f .manual).Still := by
    refine ⟨?_, fun e => ?_, ?_⟩
    · rw [hstarted.rest]; exact hs.released
    · rw [State.entry, hstarted.map (by simp [Ending])]; exact hs.noPending e
    · rw [State.starting, hunt_addReason]; rfl
  have hrequests : u.mgmt.requests = [s.newEntry req 0x0A#8 [BitVec.ofNat 8 f.val]] :=
    (hhanded.parted.requests (by simp)).trans (hstarted.requests (by simp [Ending]))
  have h := requestEvent_repliedOn hr howner hrequests hticket
    (settle_handed hstarting hhanded (by simp [HuntContext.openingFirst]))
  have hrecl : ∀ g, u.recl g = (s1.starting f .manual).recl g :=
    fun g => look_congr (congrArg RecloseController.records (hhanded.parted.reclose (by simp))) g
  refine ⟨_, rfl, h.answered, h.ctx.trans (handed_ctx hhanded), ?_, fun g hg => ?_, h.has i _ ?_, h.rest ?_⟩
  · rw [h.recl, hrecl, State.starting, reasons_addReason]
    rfl
  · rw [h.recl, hrecl, State.starting, recl_addReason_ne hg]
    rfl
  · rw [hhanded.slot]
    exact .inl (List.mem_append_right _ List.mem_cons_self)
  · exact hstarted.trans ((handed_restoring hhanded).mono fun p hp => hp.elim (fun e => .inr (.inr e)) .inl)

/-- Settles O35: what START_HUNT starts, and what ABORT_HUNT comes to in each state of the context. -/
theorem huntRequests : Obligations.HuntRequests := by
  refine ⟨fun s req f x rest hs hr heligible hlive hplan hclear hpoint hkind hfree => ?_, fun s req hr hs => ⟨abortRequest_idle hr hs,
    abortRequest_aborting hr hs, abortRequest_outstanding hr hs, fun i p ph f pos last hsettling hnone hopen hstep hprofile =>
      ⟨abortRequest_leavesOpen hr hs hsettling hnone hopen hstep hprofile, fun hpermitted hstate hmode hkind hfree => ?_⟩⟩⟩
  · obtain ⟨t, hexec, hanswered, hctx, hrest⟩ := startHunt_starts hs hr heligible hlive hplan hclear hpoint hkind hfree
    exact ⟨t, hexec, hanswered, by rw [hctx]; rfl, by rw [hctx]; rfl, by rw [hctx]; rfl, by rw [hctx]; rfl, by rw [hctx]; rfl,
      by rw [hctx]; rfl, by rw [hctx]; rfl, by rw [hctx]; rfl, hrest⟩
  · obtain ⟨t, hexec, hanswered, hctx, hrest⟩ :=
      abortRequest_closes hr hs hsettling hnone hopen hstep hprofile hpermitted ⟨hstate, hkind, hmode, hfree⟩
    exact ⟨t, hexec, hanswered, by rw [hctx]; rfl, by rw [hctx]; rfl, by rw [hctx]; exact hopen, by rw [hctx]; rfl,
      by rw [hctx]; rfl, hrest⟩

end Sys2Proof.Machine
end

section
/-! The Link Port through every step (R154, R155, R171), the reset input (R173, R180), and the end of a transmission (R155, R159,
R166, R174). -/

namespace Sys2Proof.Machine

/-! ### The port -/

/-- Settles O13: a step is a chain of acts, and every act keeps the port sound. -/
theorem portStaysSound : Obligations.PortStaysSound := fun s t hs hstep =>
  acts_keep State.PortOk portOk_act (acts_step s t hstep) hs

/-! ### The reset input (R173) -/

/-- A save in flight is cut short after a number of byte writes, and reading will begin anew (R180). -/
theorem assertReset_saving {s : State} {job : SaveJob} (h : s.loader = .saving job) (n : Nat) :
    s.assertReset n = { s with
      held := true, outputs := Outputs.reset, link := { s.link with tx := TxQueue.reset, wire := none }
      serial := SerialMemory.writeAll s.serial ((saveWrites job.records).take n), loader := .reading Reading.start } := by
  rw [State.assertReset, h]; rfl

/-- Without a save in flight the memory and the Image Loader are left alone. -/
theorem assertReset_of_not_saving {s : State} (h : ∀ job, s.loader ≠ .saving job) (n : Nat) :
    s.assertReset n = { s with
      held := true, outputs := Outputs.reset, link := { s.link with tx := TxQueue.reset, wire := none } } := by
  unfold State.assertReset
  split
  · rename_i job hjob
    exact absurd hjob (h job)
  · rfl
  · rfl

/-- Settles O17: the input asserted, with a save in flight or without one, and the input released. -/
theorem resetInputHoldsAndReleases : Obligations.ResetInputHoldsAndReleases := by
  refine ⟨fun s n => ⟨s.assertReset n, rfl, ?_⟩, fun s => ⟨fun hheld => ?_, fun hheld => ?_⟩⟩
  · by_cases hsave : ∃ job, s.loader = .saving job
    · obtain ⟨job, hjob⟩ := hsave
      rw [assertReset_saving hjob]
      refine ⟨rfl, rfl, rfl, rfl, fun job' h => ?_, fun h => absurd hjob (h job)⟩
      obtain rfl : job = job' := LoaderState.saving.inj (hjob.symm.trans h)
      rfl
    · have hnone : ∀ job, s.loader ≠ .saving job := fun job h => hsave ⟨job, h⟩
      rw [assertReset_of_not_saving hnone]
      exact ⟨rfl, rfl, rfl, rfl, fun job h => absurd h (hnone job), fun _ => ⟨rfl, rfl⟩⟩
  · exact congrArg Host.Outcome.next (if_pos hheld)
  · exact congrArg Host.Outcome.next (if_neg (by simp [hheld]))

/-! ### The next transmission (R155) -/

/-- Every waiting frame, in the order in which the arbiter takes them. -/
def TxQueue.frames (q : TxQueue) : List TxFrame := q.c1 ++ q.c2 ++ q.c3 ++ q.c4 ++ q.c5

/-- The arbiter takes the first frame in that order and leaves the rest. -/
theorem next_of_frames {q : TxQueue} {g : TxFrame} {rest : List TxFrame} (h : q.frames = g :: rest) :
    ∃ r, q.next = some (g, r) ∧ r.frames = rest := by
  obtain ⟨c1, c2, c3, c4, c5⟩ := q
  unfold TxQueue.next
  match c1, c2, c3, c4, c5, h with
  | f :: l, _, _, _, _, h => obtain ⟨rfl, rfl⟩ := List.cons.inj h; exact ⟨_, rfl, rfl⟩
  | [], f :: l, _, _, _, h => obtain ⟨rfl, rfl⟩ := List.cons.inj h; exact ⟨_, rfl, rfl⟩
  | [], [], f :: l, _, _, h => obtain ⟨rfl, rfl⟩ := List.cons.inj h; exact ⟨_, rfl, rfl⟩
  | [], [], [], f :: l, _, h => obtain ⟨rfl, rfl⟩ := List.cons.inj h; exact ⟨_, rfl, rfl⟩
  | [], [], [], [], f :: l, h => obtain ⟨rfl, rfl⟩ := List.cons.inj h; exact ⟨_, rfl, rfl⟩

theorem holds_of_frames {l : LinkPort} {f : TxFrame} (h : f ∈ l.tx.frames) : l.Holds f := by
  simp only [TxQueue.frames, List.mem_append] at h
  simp only [LinkPort.Holds]
  tauto

/-- On an idle path the first waiting frame takes the wire and the others still wait. -/
theorem beginTx_of_frames {s : State} (hidle : s.link.wire = none) {g : TxFrame} {rest : List TxFrame}
    (h : s.link.tx.frames = g :: rest) : s.beginTx.link.wire = some g ∧ ∀ f ∈ rest, s.beginTx.link.Holds f := by
  obtain ⟨r, hnext, rfl⟩ := next_of_frames h
  have hbegin : s.beginTx = s.setLink { s.link with tx := r, wire := some g } := by rw [State.beginTx, hidle, hnext]
  rw [hbegin]
  exact ⟨rfl, fun f hf => holds_of_frames hf⟩

/-- A frame handed while another is on the wire waits. -/
theorem wire_handFrame_of_busy {s : State} {g : TxFrame} (h : s.link.wire = some g) (f : TxFrame) :
    (s.handFrame f).link.wire = some g := by
  simp [State.handFrame, State.beginTx, h]

theorem wire_feedNotice_of_busy {s : State} {g : TxFrame} (h : s.link.wire = some g) : s.feedNotice.link.wire = some g := by
  unfold State.feedNotice
  split
  · split
    · exact wire_handFrame_of_busy (by exact h) _
    · exact h
  · exact h

/-! ### The end of a transmission -/

/-- The entries of the request queue once a frame has left: those but the one of a reply (R159). -/
def State.entriesAfter (s : State) (f : TxFrame) : List ReqEntry :=
  match f with
  | .reply ticket _ _ _ _ _ _ => s.mgmt.requests.filter fun e => e.ticket != ticket
  | .command _ _ _ _ _ _ | .notice _ _ _ _ => s.mgmt.requests

theorem frameLeft_eq (s : State) (f : TxFrame) : s.frameLeft f
    = { s with link := { s.link with wire := none }, mgmt := { s.mgmt with requests := s.entriesAfter f } } := by
  cases f <;> rfl

/-- The end of a transmission that restarts nothing: the next frame, and the test of R171 behind a NOTICE. -/
theorem endTransmission_of_not_restart {s : State} {f : TxFrame} (hwire : s.link.wire = some f)
    (hrestart : ∀ k d a g b r q, f = .reply k d a g b r q → s.isRestart k = false) :
    s.endTransmission = if f.isNotice then (s.frameLeft f).beginTx.feedNotice else (s.frameLeft f).beginTx := by
  unfold State.endTransmission
  rw [hwire]
  cases f with
  | reply k d a g b r q => simp [hrestart k d a g b r q rfl]
  | command _ _ _ _ _ _ => rfl
  | notice _ _ _ _ => rfl

theorem endTransmission_of_restart {s : State} {k : Nat} {d a g : U16} {b : Byte} {r : Result} {q : List Byte}
    (hwire : s.link.wire = some (.reply k d a g b r q)) (hrestart : s.isRestart k = true) : s.endTransmission = s.restarted := by
  simp [State.endTransmission, hwire, hrestart]

/-- What follows the frame `f` on the wire: the first waiting frame where there is one, and the requests without the entry of a
reply; beside the port and the Management Responder nothing changes. -/
structure State.TransmitsNext (s t : State) (f : TxFrame) : Prop where
  wire : ∀ g rest, s.link.tx.frames = g :: rest → t.link.wire = some g ∧ ∀ h ∈ rest, t.link.Holds h
  requests : t.mgmt.requests = s.entriesAfter f
  table : t.link.table = s.link.table
  log : t.link.log = s.link.log
  rest : t = { s with link := t.link, mgmt := t.mgmt }

theorem transmitsNext_beginTx (s : State) (f : TxFrame) : s.TransmitsNext (s.frameLeft f).beginTx f := by
  obtain ⟨l, hbegin, htable, hlog⟩ := beginTx_link (s.frameLeft f)
  rw [frameLeft_eq] at hbegin htable hlog ⊢
  refine ⟨fun g rest h => beginTx_of_frames rfl h, ?_, ?_, ?_, ?_⟩
  · rw [hbegin]; rfl
  · rw [hbegin]; exact htable
  · rw [hbegin]; exact hlog
  · rw [hbegin]; rfl

theorem State.TransmitsNext.feedNotice {s t : State} {f : TxFrame} (h : s.TransmitsNext t f) :
    s.TransmitsNext t.feedNotice f := by
  obtain ⟨l, m, hfeed, htable, hlog, hrequests, _, _⟩ := feedNotice_parts t
  refine ⟨fun g rest hg => ?_, ?_, ?_, ?_, ?_⟩
  · obtain ⟨hwire, hrest⟩ := h.wire g rest hg
    exact ⟨wire_feedNotice_of_busy hwire, fun x hx => feedNotice_holds t x (hrest x hx)⟩
  · rw [hfeed]; exact hrequests.trans h.requests
  · rw [hfeed]; exact htable.trans h.table
  · rw [hfeed]; exact hlog.trans h.log
  · rw [hfeed, h.rest]; rfl

theorem exec_transmissionEnd {s : State} (hheld : s.held = false) : exec .transmissionEnd s = .next s.endTransmission := by
  simp [exec, execTransmissionEnd, State.unlessHeld, hheld]

/-- Settles O38: an idle path, a frame that restarts nothing, and the reply to a RESTART. -/
theorem transmissionEnds : Obligations.TransmissionEnds := by
  refine ⟨fun s hheld => ⟨fun hidle => ?_, fun f hwire hrestart => ⟨_, exec_transmissionEnd hheld, ?_⟩⟩,
    fun s k d a g b r q hheld hwire hrestart => ?_⟩
  · rw [exec_transmissionEnd hheld, State.endTransmission, hidle]
  · have h : s.TransmitsNext s.endTransmission f := by
      rw [endTransmission_of_not_restart hwire hrestart]
      split
      · exact (transmitsNext_beginTx s f).feedNotice
      · exact transmitsNext_beginTx s f
    exact ⟨h.wire, h.requests.trans (by cases f <;> rfl), h.table, h.log, h.rest⟩
  · rw [exec_transmissionEnd hheld, endTransmission_of_restart hwire hrestart]
    rfl

end Sys2Proof.Machine
end

section
/-! Frames that arrive (R150, R151, R152, R156, R159): what each check of R150 makes of a frame, and what a frame that passes
is taken as. -/

namespace Sys2Proof.Machine

/-! ### Events that concern the port and the Management Responder alone -/

/-- In a still state nothing follows a change of the port and the Management Responder but the outputs. -/
theorem conclude72_of_port {s t : State} (hs : s.Still) (ht : t = { s with link := t.link, mgmt := t.mgmt }) :
    State.conclude72 s t = t.refreshOutputs := by
  have hpending : ∀ e, (t.entry e).pend = none := fun e => by rw [ht]; exact hs.noPending e
  have htrigger : t.hunt.pendingList = [] := by rw [ht]; exact hs.noTrigger
  rw [conclude72_still hpending (.inr htrigger), finish_same]
  rw [ht]

theorem requests_occur (s : State) (c : ErrorClass) : (s.occur c).mgmt.requests = s.mgmt.requests := by
  unfold State.occur
  dsimp only
  split
  · exact (parted_moves (tells_notify _ _ _)).requests id
  · rfl

/-! ### The arrival of a request (R151, R159) -/

theorem arrive_of_unknown {s : State} {req : RequestId} (h : s.managementKnown req.source = false) (kind : Byte)
    (params : List Byte) : s.arrive req kind params = s.occur .unknownSource := by
  simp [State.arrive, h]

theorem arrive_of_room {s : State} {req : RequestId} (h : s.managementKnown req.source = true)
    (hroom : s.mgmt.requests.length < 8) (kind : Byte) (params : List Byte) :
    s.arrive req kind params = { s with mgmt := { s.mgmt with
      requests := s.mgmt.requests ++ [⟨s.mgmt.nextTicket, req, kind, params, .waiting⟩]
      nextTicket := s.mgmt.nextTicket + 1 } } := by
  have hroom : s.mgmt.requests.length < Config.requestEntries := hroom
  simp only [State.arrive, h, Bool.not_true, Bool.false_eq_true, if_false, if_pos hroom]
  rfl

theorem arrive_of_full {s : State} {req : RequestId} (h : s.managementKnown req.source = true)
    (hfull : 8 ≤ s.mgmt.requests.length) (kind : Byte) (params : List Byte) :
    s.arrive req kind params = s.occur .requestOverflow := by
  have hfull : ¬ s.mgmt.requests.length < Config.requestEntries := Nat.not_lt.2 hfull
  simp [State.arrive, h, hfull]

theorem rest_arrive (s : State) (req : RequestId) (kind : Byte) (params : List Byte) :
    s.arrive req kind params
      = { s with link := (s.arrive req kind params).link, mgmt := (s.arrive req kind params).mgmt } := by
  unfold State.arrive
  split
  · exact rest_occur s _
  · split
    · rfl
    · exact rest_occur s _

theorem exec_managementRequest {s : State} (hheld : s.held = false) (req : RequestId) (kind : Byte) (params : List Byte) :
    exec (.managementRequest req kind params) s = .next (s.arrive req kind params) := by
  simp [exec, execManagementRequest, State.unlessHeld, hheld]

/-! ### The checks of R150 -/

/-- A frame that passes steps 1 to 4 of R150: its check sequence is correct, it is long enough, and it is one of the engine's frames
addressed to it. -/
structure State.Addresses (s : State) (x : RawFrame) : Prop where
  check : x.checkOk = true
  size : 64 ≤ x.payload.length + 18
  type : x.etherType = 0x9A50#16
  dest : u16At x.payload 0 = s.link.table.address

variable {s : State} {x : RawFrame}

theorem check150_of_damaged (h : x.checkOk = false ∨ x.payload.length + 18 < 64) : s.check150 x = .dropped .badCheck := by
  have hbad : (!x.checkOk || decide (x.payload.length + 18 < 64)) = true := by simpa using h
  simp [State.check150, hbad]

theorem check150_of_type (hcheck : x.checkOk = true) (hsize : 64 ≤ x.payload.length + 18) (h : x.etherType ≠ 0x9A50#16) :
    s.check150 x = .ignored := by
  have hsize' : ¬ x.payload.length + 18 < 64 := by omega
  simp [State.check150, hcheck, hsize', Config.frameType, h]

theorem check150_of_dest (hcheck : x.checkOk = true) (hsize : 64 ≤ x.payload.length + 18) (htype : x.etherType = 0x9A50#16)
    (h : u16At x.payload 0 ≠ s.link.table.address) : s.check150 x = .ignored := by
  have hsize' : ¬ x.payload.length + 18 < 64 := by omega
  have hheader : ¬ x.payload.length < 7 := by omega
  simp [State.check150, hcheck, hsize', htype, Config.frameType, hheader, h]

/-- Steps 5 to 7 of R150, on a frame that passes the steps before. -/
theorem check150_of_addresses (h : s.Addresses x) : s.check150 x =
    if !receivedKind (byteAt x.payload 4) then .dropped .unknownKind
    else if wordAt x.payload 5 > x.payload.length - 7 || !bodyLengthOk (byteAt x.payload 4) (wordAt x.payload 5) then
      .dropped .badLength
    else if !bodyCodesOk (byteAt x.payload 4) (bodyOf x.payload) then .dropped .badLength
    else .passed (byteAt x.payload 4) (u16At x.payload 2) (bodyOf x.payload) := by
  have hsize := h.size
  have hsize' : ¬ x.payload.length + 18 < 64 := by omega
  have hheader : ¬ x.payload.length < 7 := by omega
  simp [State.check150, h.check, hsize', h.type, Config.frameType, hheader, h.dest]

theorem receivedKind_iff (k : Nat) : receivedKind k = true ↔ k ∈ [1, 2, 3, 5] := by simp [receivedKind, or_assoc]

theorem check150_of_unknownKind (h : s.Addresses x) (hkind : byteAt x.payload 4 ∉ [1, 2, 3, 5]) :
    s.check150 x = .dropped .unknownKind := by
  have hbad : receivedKind (byteAt x.payload 4) = false := by rwa [← Bool.not_eq_true, receivedKind_iff]
  rw [check150_of_addresses h, hbad]
  rfl

/-- The body length that a received kind asks for (R156). -/
theorem bodyLengthOk_eq_false {k n : Nat} (h : (k = 1 ∧ n ≠ 11) ∨ (k = 2 ∧ n ≠ 2) ∨ (k = 3 ∧ n ≠ 4) ∨ (k = 5 ∧ n < 3)) :
    bodyLengthOk k n = false := by
  obtain ⟨rfl, hn⟩ | ⟨rfl, hn⟩ | ⟨rfl, hn⟩ | ⟨rfl, hn⟩ := h
  · simp [bodyLengthOk, hn]
  · simp [bodyLengthOk, hn]
  · simp [bodyLengthOk, hn]
  · simp [bodyLengthOk, hn]

theorem check150_of_length (h : s.Addresses x) (hkind : byteAt x.payload 4 ∈ [1, 2, 3, 5])
    (hbad : x.payload.length < 7 + wordAt x.payload 5 ∨ bodyLengthOk (byteAt x.payload 4) (wordAt x.payload 5) = false) :
    s.check150 x = .dropped .badLength := by
  have hlength : (decide (wordAt x.payload 5 > x.payload.length - 7)
      || !bodyLengthOk (byteAt x.payload 4) (wordAt x.payload 5)) = true := by
    have hsize := h.size
    rw [Bool.or_eq_true, decide_eq_true_eq, Bool.not_eq_true']
    exact hbad.imp_left fun hlen => by omega
  rw [check150_of_addresses h, (receivedKind_iff _).2 hkind, hlength]
  rfl

/-- What step 7 of R150 makes of a frame whose body has the length its kind asks for. -/
theorem check150_of_body (h : s.Addresses x) (hkind : byteAt x.payload 4 ∈ [1, 2, 3, 5])
    (hfits : 7 + wordAt x.payload 5 ≤ x.payload.length) (hlength : bodyLengthOk (byteAt x.payload 4) (wordAt x.payload 5) = true) :
    s.check150 x = if bodyCodesOk (byteAt x.payload 4) (bodyOf x.payload) then
      .passed (byteAt x.payload 4) (u16At x.payload 2) (bodyOf x.payload) else .dropped .badLength := by
  have hsize : ¬ wordAt x.payload 5 > x.payload.length - 7 := by omega
  rw [check150_of_addresses h, (receivedKind_iff _).2 hkind, hlength]
  cases bodyCodesOk (byteAt x.payload 4) (bodyOf x.payload) <;> simp [hsize]

/-! ### What becomes of the frame -/

/-- What FRAME_REJECTED leaves while the reset input is released. -/
def State.judged (s : State) (x : RawFrame) : State := State.conclude72 s (s.receive x)

theorem exec_frameRejected (hheld : s.held = false) (x : RawFrame) : exec (.frameRejected x) s = .next (s.judged x) := by
  simp [exec, execFrameRejected, State.unlessHeld, hheld, State.judged]

/-- One more occurrence of a class of the error log, at its place there, and nothing else of the fixed parts (R152). -/
def State.Counts (s : State) (c : Fin 8) (t : State) : Prop :=
  t.fixed = { s.fixed with log := put s.link.log c ⟨bump (look s.link.log c).count, true⟩ }

theorem counts_conclude72_occur (s0 s : State) (c : ErrorClass) : s.Counts c.index (State.conclude72 s0 (s.occur c)) :=
  (fixed_conclude72 s0 _).trans (fixed_occur s c)

theorem counts_of_dropped {c : ErrorClass} (h : s.check150 x = .dropped c) : s.Counts c.index (s.judged x) := by
  rw [State.judged, State.receive, h]
  exact counts_conclude72_occur s s c

theorem fixed_of_ignored (h : s.check150 x = .ignored) : (s.judged x).fixed = s.fixed := by
  rw [State.judged, State.receive, h]
  exact fixed_conclude72 s s

theorem judged_of_passed {k : Nat} {a : U16} {b : List Byte} (h : s.check150 x = .passed k a b) :
    s.judged x = State.conclude72 s (s.dispatch k a b) := by
  rw [State.judged, State.receive, h]

/-! ### A frame by its kind (R151, R156) -/

theorem dispatch_sample (s : State) (a : U16) (b : List Byte) : s.dispatch 1 a b = s.takeSample (sampleOf a b) := rfl

theorem dispatch_report (s : State) (a : U16) (b : List Byte) :
    s.dispatch 2 a b = s.takeReport a (positionOf (byteAt b 0)) (b.getD 1 0#8) := rfl

theorem dispatch_response (s : State) (a : U16) (b : List Byte) :
    s.dispatch 3 a b = s.takeResponse a (b.getD 0 0#8) (answerOf (byteAt b 1)) (u16At b 2) := rfl

theorem dispatch_request (s : State) (a : U16) (b : List Byte) :
    s.dispatch 5 a b = s.arrive ⟨a, u16At b 0⟩ (b.getD 2 0#8) (b.drop 3) := rfl

/-- SAMPLE. -/
theorem judged_sample (h : s.Addresses x) (hkind : byteAt x.payload 4 = 1) (hlen : wordAt x.payload 5 = 11)
    (hfits : 7 + wordAt x.payload 5 ≤ x.payload.length) :
    s.judged x = State.conclude72 s (s.takeSample (sampleOf (u16At x.payload 2) (bodyOf x.payload))) := by
  have hcheck := check150_of_body h (by simp [hkind]) hfits (by simp [hkind, hlen, bodyLengthOk])
  rw [hkind] at hcheck
  rw [judged_of_passed hcheck, dispatch_sample]

/-- A SAMPLE from a source that no stream has. -/
theorem takeSample_of_unknown {a : U16} (h : s.streamAt a = none) (b : List Byte) :
    s.takeSample (sampleOf a b) = s.occur .unknownSource := by
  have h : s.streamAt (sampleOf a b).source = none := h
  rw [State.takeSample, h]

/-- STATUS_REPORT. -/
theorem check150_report (h : s.Addresses x) (hkind : byteAt x.payload 4 = 2) (hlen : wordAt x.payload 5 = 2)
    (hfits : 7 + wordAt x.payload 5 ≤ x.payload.length) :
    s.check150 x = if byteAt (bodyOf x.payload) 0 ≤ 2 then .passed 2 (u16At x.payload 2) (bodyOf x.payload)
      else .dropped .badLength := by
  have hcheck := check150_of_body h (by simp [hkind]) hfits (by simp [hkind, hlen, bodyLengthOk])
  rw [hkind] at hcheck
  simpa [bodyCodesOk] using hcheck

theorem judged_report (h : s.Addresses x) (hkind : byteAt x.payload 4 = 2) (hlen : wordAt x.payload 5 = 2)
    (hfits : 7 + wordAt x.payload 5 ≤ x.payload.length) (hcode : byteAt (bodyOf x.payload) 0 ≤ 2) :
    s.judged x = State.conclude72 s (s.takeReport (u16At x.payload 2) (positionOf (byteAt (bodyOf x.payload) 0))
      ((bodyOf x.payload).getD 1 0#8)) := by
  rw [judged_of_passed ((check150_report h hkind hlen hfits).trans (if_pos hcode)), dispatch_report]

/-- RESPONSE. -/
theorem check150_response (h : s.Addresses x) (hkind : byteAt x.payload 4 = 3) (hlen : wordAt x.payload 5 = 4)
    (hfits : 7 + wordAt x.payload 5 ≤ x.payload.length) :
    s.check150 x = if 1 ≤ byteAt (bodyOf x.payload) 1 ∧ byteAt (bodyOf x.payload) 1 ≤ 3 then
      .passed 3 (u16At x.payload 2) (bodyOf x.payload) else .dropped .badLength := by
  have hcheck := check150_of_body h (by simp [hkind]) hfits (by simp [hkind, hlen, bodyLengthOk])
  rw [hkind] at hcheck
  simpa [bodyCodesOk, within_iff] using hcheck

theorem judged_response (h : s.Addresses x) (hkind : byteAt x.payload 4 = 3) (hlen : wordAt x.payload 5 = 4)
    (hfits : 7 + wordAt x.payload 5 ≤ x.payload.length)
    (hcode : 1 ≤ byteAt (bodyOf x.payload) 1 ∧ byteAt (bodyOf x.payload) 1 ≤ 3) :
    s.judged x = State.conclude72 s (s.takeResponse (u16At x.payload 2) ((bodyOf x.payload).getD 0 0#8)
      (answerOf (byteAt (bodyOf x.payload) 1)) (u16At (bodyOf x.payload) 2)) := by
  rw [judged_of_passed ((check150_response h hkind hlen hfits).trans (if_pos hcode)), dispatch_response]

/-- MANAGEMENT_REQUEST. -/
theorem judged_request (h : s.Addresses x) (hkind : byteAt x.payload 4 = 5) (hlen : 3 ≤ wordAt x.payload 5)
    (hfits : 7 + wordAt x.payload 5 ≤ x.payload.length) :
    s.judged x = State.conclude72 s (s.arrive ⟨u16At x.payload 2, u16At (bodyOf x.payload) 0⟩ ((bodyOf x.payload).getD 2 0#8)
      ((bodyOf x.payload).drop 3)) := by
  have hcheck := check150_of_body h (by simp [hkind]) hfits (by simp [hkind, hlen, bodyLengthOk])
  rw [hkind] at hcheck
  rw [judged_of_passed hcheck, dispatch_request]

/-! ### The clauses of O37 -/

theorem exec_sample (hheld : s.held = false) (frame : SampleFrame) :
    exec (.sample frame) s = .next (State.conclude72 s (s.takeSample frame)) := by
  simp [exec, execSample, State.unlessHeld, hheld]

theorem positionOf_of_code {n : Nat} {p : ReportPosition} (h : n = 0 ∧ p = .none ∨ n = 1 ∧ p = .opened ∨ n = 2 ∧ p = .closed) :
    positionOf n = p ∧ n ≤ 2 := by
  obtain ⟨rfl, rfl⟩ | ⟨rfl, rfl⟩ | ⟨rfl, rfl⟩ := h
  · exact ⟨rfl, by decide⟩
  · exact ⟨rfl, by decide⟩
  · exact ⟨rfl, by decide⟩

theorem answerOf_of_code {n : Nat} {a : AnswerKind} (h : n = 1 ∧ a = .done ∨ n = 2 ∧ a = .refused ∨ n = 3 ∧ a = .wait) :
    answerOf n = a ∧ 1 ≤ n ∧ n ≤ 3 := by
  obtain ⟨rfl, rfl⟩ | ⟨rfl, rfl⟩ | ⟨rfl, rfl⟩ := h
  · exact ⟨rfl, by decide, by decide⟩
  · exact ⟨rfl, by decide, by decide⟩
  · exact ⟨rfl, by decide, by decide⟩

/-- In a still state a request that arrives as a raw frame differs from one that arrives checked by the outputs alone. -/
theorem arrive_of_judged {t : State} (hs : s.Still) {req : RequestId} {kind : Byte} {params : List Byte}
    (h : t = State.conclude72 s (s.arrive req kind params)) : s.arrive req kind params = { t with outputs := s.outputs } := by
  have hrest := rest_arrive s req kind params
  have houtputs : (s.arrive req kind params).outputs = s.outputs := by rw [hrest]
  rw [h, conclude72_of_port hs hrest, ← houtputs]
  rfl

/-- Settles O37: a request that is queued or counted, and the checks of R150 in their order. -/
theorem arrivalsAreJudged : Obligations.ArrivalsAreJudged := by
  refine ⟨fun s req kind params hheld => ?_, fun s x counted hheld hcounted => ?_⟩
  · rw [exec_managementRequest hheld]
    refine ⟨fun hknown hroom => by rw [arrive_of_room hknown hroom], fun hknown hfull => ⟨_, rfl, ?_, ?_⟩,
      fun hunknown => ⟨_, rfl, ?_, ?_⟩⟩
    · rw [arrive_of_full hknown hfull, requests_occur]
    · rw [arrive_of_full hknown hfull, fixed_occur]; rfl
    · rw [arrive_of_unknown hunknown, requests_occur]
    · rw [arrive_of_unknown hunknown, fixed_occur]; rfl
  · have hcount : ∀ {c}, s.Counts c (s.judged x) → counted c (s.judged x) := (hcounted _ _).2
    refine ⟨s.judged x, exec_frameRejected hheld x, fun hbad => hcount (counts_of_dropped (check150_of_damaged hbad)),
      fun hcheck hsize => ⟨fun htype => fixed_of_ignored (check150_of_type hcheck hsize htype), fun htype =>
        ⟨fun hdest => fixed_of_ignored (check150_of_dest hcheck hsize htype hdest), ?_⟩⟩⟩
    rintro hdest kind n source body rfl rfl rfl rfl
    have h : s.Addresses x := ⟨hcheck, hsize, htype, hdest⟩
    refine ⟨fun hkind => hcount (counts_of_dropped (check150_of_unknownKind h hkind)), fun hkind =>
      ⟨fun hlen => hcount (counts_of_dropped (check150_of_length h hkind (hlen.imp_right bodyLengthOk_eq_false))), fun hfits =>
        ⟨fun h1 hlen => ?_, fun h2 hlen => ?_, fun h3 hlen => ?_, fun h5 hlen => ?_⟩⟩⟩
    · have hjudged := judged_sample h h1 hlen hfits
      refine ⟨?_, fun hnone => hcount ?_⟩
      · rw [hjudged]
        exact exec_sample hheld (sampleOf (u16At x.payload 2) (bodyOf x.payload))
      · rw [hjudged, takeSample_of_unknown hnone]
        exact counts_conclude72_occur s s .unknownSource
    · refine ⟨fun hcode => hcount (counts_of_dropped ((check150_report h h2 hlen hfits).trans (if_neg (Nat.not_le.2 hcode)))),
        fun hcode hnone => hcount ?_, fun p hp => ?_⟩
      · rw [judged_report h h2 hlen hfits hcode, State.takeReport, hnone]
        exact counts_conclude72_occur s s .unknownSource
      · obtain ⟨hposition, hcode⟩ := positionOf_of_code hp
        rw [judged_report h h2 hlen hfits hcode, ← hposition]
        exact exec_statusReport hheld _ _ _
    · refine ⟨fun hcode => hcount (counts_of_dropped ((check150_response h h3 hlen hfits).trans (if_neg ?_))),
        fun hlow hhigh hnone => hcount ?_, fun a ha => ?_⟩
      · rintro ⟨hlow, hhigh⟩
        obtain hzero | hbeyond := hcode
        · exact absurd (hzero.symm.trans_ge hlow) (by decide)
        · exact absurd hhigh (Nat.not_le.2 hbeyond)
      · rw [judged_response h h3 hlen hfits ⟨hlow, hhigh⟩, State.takeResponse, hnone]
        exact counts_conclude72_occur s s .unknownSource
      · obtain ⟨hanswer, hcode⟩ := answerOf_of_code ha
        rw [judged_response h h3 hlen hfits hcode, ← hanswer]
        exact exec_response hheld _ _ _ _
    · have hjudged := judged_request h h5 hlen hfits
      refine ⟨fun hunknown => hcount ?_, fun hs => ?_⟩
      · rw [hjudged, arrive_of_unknown (req := ⟨u16At x.payload 2, u16At (bodyOf x.payload) 0⟩) hunknown]
        exact counts_conclude72_occur s s .unknownSource
      · rw [← arrive_of_judged hs hjudged]
        exact exec_managementRequest hheld _ _ _

end Sys2Proof.Machine
end

section
/-! The records of FEEDER, BUS and LINK read back (R149, R158), and what an accepted LINK load stores. -/

namespace Sys2Proof.Machine

/-! ### FEEDER and BUS -/

/-- The word of a 16-bit value, most significant byte first. -/
theorem u16At_of_wordAt {r : List Byte} {i : Nat} {a : U16} (h : wordAt r i = a.toNat) : u16At r i = a := by
  rw [u16At, h, BitVec.ofNat_toNat, BitVec.setWidth_eq]

theorem toNat_address (a : U16) : (BitVec.ofNat 8 (a.toNat / 256)).toNat * 256 + (BitVec.ofNat 8 a.toNat).toNat = a.toNat :=
  toNat_word (Nat.le_of_lt_succ a.isLt)

theorem addressOk_iff (a : U16) : addressOk a = true ↔ a ≠ 0x0000#16 ∧ a ≠ 0xFFFF#16 := by simp [addressOk]

/-- The bytes that a FEEDER and a BUS record have in common: the present flag, the stream fields, and a word of plant data. -/
structure StreamBytes (r : List Byte) (x : StreamFields) (w : Nat) : Prop where
  present : byteAt r 0 = 1
  source : u16At r 1 = x.source
  silence : byteAt r 3 = x.silence
  plant : wordAt r 4 = w

theorem streamBytes_encodeFeeder {f : Feeder} {x : StreamFields} {p : FeederPlant} (hx : x.Valid) (hp : p.Valid f) :
    StreamBytes (encodeFeeder (x, p)) x p.sefBase := by
  obtain ⟨_, _, _, hsilence⟩ := hx
  obtain ⟨_, hbase, _⟩ := hp
  have hsilence : x.silence ≤ 255 := by omega
  have hbase : p.sefBase ≤ 65535 := by omega
  exact ⟨rfl, u16At_of_wordAt (toNat_address x.source), toNat_byte hsilence, toNat_word hbase⟩

theorem streamBytes_encodeBus {x : StreamFields} {p : BusPlant} (hx : x.Valid) (hp : p.Valid) :
    StreamBytes (encodeBus (x, p)) x p.vnom := by
  obtain ⟨_, _, _, hsilence⟩ := hx
  obtain ⟨_, hvnom, _, _⟩ := hp
  have hsilence : x.silence ≤ 255 := by omega
  have hvnom : p.vnom ≤ 65535 := by omega
  exact ⟨rfl, u16At_of_wordAt (toNat_address x.source), toNat_byte hsilence, toNat_word hvnom⟩

theorem flagOk_of_streamBytes {r : List Byte} {x : StreamFields} {w : Nat} (h : StreamBytes r x w) : flagOk r 0 = true := by
  simp [flagOk, h.present]

theorem streamFields_of_streamBytes {r : List Byte} {x : StreamFields} {w : Nat} (h : StreamBytes r x w) :
    streamFields r = x := by
  rw [streamFields, h.source, h.silence]

theorem streamFieldsOk_of_streamBytes {r : List Byte} {x : StreamFields} {w : Nat} (h : StreamBytes r x w) (hx : x.Valid) :
    streamFieldsOk r = true := by
  obtain ⟨hzero, hones, hlow, hhigh⟩ := hx
  simp [streamFieldsOk, h.source, h.silence, addressOk_iff, within_iff, hzero, hones, hlow, hhigh]

/-- The partner byte of a FEEDER record: FFh or another feeder. -/
theorem partner_encodeFeeder {f : Feeder} (x : StreamFields) {p : FeederPlant} (hp : p.partner ≠ some f) :
    partnerAt (encodeFeeder (x, p)) = p.partner
      ∧ (byteAt (encodeFeeder (x, p)) 6 = 255 ∨ byteAt (encodeFeeder (x, p)) 6 < 8 ∧ byteAt (encodeFeeder (x, p)) 6 ≠ f.val) := by
  obtain ⟨base, partner⟩ := p
  cases partner with
  | none => exact ⟨rfl, .inl rfl⟩
  | some g =>
    have hbyte : byteAt (encodeFeeder (x, ⟨base, some g⟩)) 6 = g.val := toNat_byte (by omega)
    have hne : g.val ≠ f.val := fun h => hp (congrArg some (Fin.ext h))
    refine ⟨?_, .inr ⟨by rw [hbyte]; exact g.isLt, by rw [hbyte]; exact hne⟩⟩
    rw [partnerAt, dif_pos (by rw [hbyte]; exact g.isLt)]
    exact congrArg some (Fin.ext hbyte)

/-- A FEEDER record reads back. -/
theorem decodeFeeder_encode {f : Feeder} {x : StreamFields} {p : FeederPlant} (hx : x.Valid) (hp : p.Valid f) :
    decodeFeeder f (encodeFeeder (x, p)) = some (x, p) := by
  have h := streamBytes_encodeFeeder hx hp
  obtain ⟨hlow, hhigh, hpartner⟩ := hp
  obtain ⟨hat, hbyte⟩ := partner_encodeFeeder x hpartner
  simp [decodeFeeder, flagOk_of_streamBytes h, streamFieldsOk_of_streamBytes h hx, streamFields_of_streamBytes h, h.plant,
    within_iff, hlow, hhigh, hat, hbyte]

/-- A BUS record reads back. -/
theorem decodeBus_encode {x : StreamFields} {p : BusPlant} (hx : x.Valid) (hp : p.Valid) :
    decodeBus (encodeBus (x, p)) = some (x, p) := by
  have h := streamBytes_encodeBus hx hp
  obtain ⟨hlow, hhigh, hshort, hlong⟩ := hp
  have hdelay : byteAt (encodeBus (x, p)) 6 = p.delay := toNat_byte (n := p.delay) (by omega)
  simp [decodeBus, flagOk_of_streamBytes h, streamFieldsOk_of_streamBytes h hx, streamFields_of_streamBytes h, h.plant,
    hdelay, within_iff, hlow, hhigh, hshort, hlong]

/-! ### LINK -/

/-- The four source places of a LINK record. -/
theorem u16At_encodeLink_source (t : LinkTable) (k : Fin 4) :
    u16At (encodeLink t) (5 + 2 * k.val) = t.sources.getD k.val 0x0000#16 := by
  refine u16At_of_wordAt ?_
  match k with
  | 0 => exact toNat_address _
  | 1 => exact toNat_address _
  | 2 => exact toNat_address _
  | 3 => exact toNat_address _

theorem sourcesAt_encodeLink {t : LinkTable} (h : t.sources.length ≤ 4) : sourcesAt (encodeLink t) = t.sources := by
  have hcount : byteAt (encodeLink t) 4 = t.sources.length := toNat_byte (by omega)
  refine List.ext_getElem (by simp [sourcesAt, hcount, h]) fun k h1 h2 => ?_
  have hsource := u16At_encodeLink_source t ⟨k, by omega⟩
  simpa [sourcesAt, h2] using hsource

/-- The byte of a class setting: bit 0 masked, bit 1 MAJOR. -/
theorem byteAt_encodeLink_class (t : LinkTable) (k : Fin 8) :
    byteAt (encodeLink t) (13 + k.val) = (look t.classes k).masked.toNat + 2 * (look t.classes k).major.toNat := by
  have hplaces : (encodeLink t).drop 13 = t.classes.toList.flatMap fun c => bSet [c.masked, c.major] := rfl
  have hbyte (c : ClassSetting) :
      bSet [c.masked, c.major] = [BitVec.ofNat 8 (c.masked.toNat + 2 * c.major.toNat)] := by
    obtain ⟨masked, major⟩ := c
    cases masked <;> cases major <;> rfl
  have hone (c : ClassSetting) : (BitVec.ofNat 8 (c.masked.toNat + 2 * c.major.toNat)).toNat
      = c.masked.toNat + 2 * c.major.toNat := toNat_byte (by have := c.masked.toNat_le; have := c.major.toNat_le; omega)
  simp only [hbyte, ← List.map_eq_flatMap] at hplaces
  rw [← byteAt_drop, hplaces, byteAt, ← hone]
  simp [look]

theorem classesAt_encodeLink (t : LinkTable) : classesAt (encodeLink t) = t.classes := by
  have hclass (k : Fin 8) : (⟨byteAt (encodeLink t) (13 + k.val) % 2 == 1, byteAt (encodeLink t) (13 + k.val) / 2 == 1⟩ :
      ClassSetting) = look t.classes k := by
    rw [byteAt_encodeLink_class]
    obtain ⟨masked, major⟩ := look t.classes k
    cases masked <;> cases major <;> rfl
  refine look_ext fun k => ?_
  match k with
  | 0 => exact hclass 0
  | 1 => exact hclass 1
  | 2 => exact hclass 2
  | 3 => exact hclass 3
  | 4 => exact hclass 4
  | 5 => exact hclass 5
  | 6 => exact hclass 6
  | 7 => exact hclass 7

/-- A LINK record reads back. -/
theorem decodeLink_encode {t : LinkTable} (ht : t.Valid) : decodeLink (encodeLink t) = some t := by
  obtain ⟨haddress, hdest, hlen, hnodup, hsources⟩ := ht
  have haddressAt : u16At (encodeLink t) 0 = t.address := u16At_of_wordAt (toNat_address _)
  have hdestAt : u16At (encodeLink t) 2 = t.dest.getD 0x0000#16 := u16At_of_wordAt (toNat_address _)
  have hcount : byteAt (encodeLink t) 4 ≤ 4 := (toNat_byte (n := t.sources.length) (by omega)).trans_le hlen
  have hknown : t.sources.all addressOk = true := List.all_eq_true.2 fun a ha => (addressOk_iff a).2 (hsources a ha)
  have hclasses : ((List.range 8).all fun k => decide (byteAt (encodeLink t) (13 + k) ≤ 3)) = true := by
    refine List.all_eq_true.2 fun k hk => decide_eq_true ?_
    rw [byteAt_encodeLink_class t ⟨k, List.mem_range.1 hk⟩]
    have := (look t.classes ⟨k, List.mem_range.1 hk⟩).masked.toNat_le
    have := (look t.classes ⟨k, List.mem_range.1 hk⟩).major.toNat_le
    omega
  have hbroadcast : t.dest.getD 0x0000#16 ≠ 0xFFFF#16 := by
    cases hd : t.dest with
    | none => decide
    | some d => exact (hdest d hd).2
  have hpresent : (if t.dest.getD 0x0000#16 = 0x0000#16 then none else some (t.dest.getD 0x0000#16)) = t.dest := by
    cases hd : t.dest with
    | none => rfl
    | some d => exact if_neg (hdest d hd).1
  simp only [decodeLink, haddressAt, hdestAt, sourcesAt_encodeLink hlen, classesAt_encodeLink, (addressOk_iff _).2 haddress,
    bne_iff_ne.2 hbroadcast, decide_eq_true hcount, hknown, (distinct_iff_nodup _).2 hnodup, hclasses, hpresent, Bool.and_self,
    if_true]

/-! ### LOAD_LINK (R149) -/

theorem lengthOk_encodeLink (t : LinkTable) : lengthOk 8 (encodeLink t) = true := by
  have hlen : (encodeLink t).length = 21 := by
    have hclasses : (t.classes.toList.flatMap fun c => bSet [c.masked, c.major]).length = 8 := by
      simp [bSet, b8, List.length_flatMap]
    rw [encodeLink, List.length_append, hclasses]
    rfl
  rw [lengthOk, hlen]
  rfl

/-- What the replacement of the link table leaves: a notice may have been handed on, and no frame has left the port. -/
structure State.Relinked (s u : State) (t : LinkTable) : Prop where
  table : u.link.table = t
  log : u.link.log = s.link.log
  frames : ∀ f, s.link.Holds f → u.link.Holds f
  requests : u.mgmt.requests = s.mgmt.requests
  ticket : u.mgmt.nextTicket = s.mgmt.nextTicket
  rest : u = { s with link := u.link, mgmt := u.mgmt }

theorem relinked_placeLink (s : State) (t : LinkTable) : s.Relinked (s.placeLink t) t := by
  unfold State.placeLink
  dsimp only
  split
  · have hframes (f : TxFrame) (hf : s.link.Holds f) := feedNotice_holds (s.setLink { s.link with table := t }) f hf
    obtain ⟨l, m, hfeed, htable, hlog, hrequests, hticket, _⟩ := feedNotice_parts (s.setLink { s.link with table := t })
    rw [hfeed] at hframes ⊢
    exact ⟨htable, hlog, hframes, hrequests, hticket, rfl⟩
  · exact ⟨rfl, rfl, fun _ hf => hf, rfl, rfl, rfl⟩

theorem loadLinkAt_encode {s : State} {t : LinkTable} (ht : t.Valid) (hstreams : s.streamHas none t.address = false)
    (hslots : s.slotHas none t.address = false) : s.loadLinkAt (encodeLink t) = (s.placeLink t, .ok) := by
  simp [State.loadLinkAt, decodeLink_encode ht, hstreams, hslots]

/-- Settles O44: the record reads back, the table is replaced, and the reply leaves from the new address. -/
theorem loadLinkStores : Obligations.LoadLinkStores := by
  intro s req l hr hl hstreams hslots
  set s1 := s.arrived req 0x01#8 (0x08#8 :: 0x00#8 :: encodeLink l) with hs1
  set u := s1.placeLink l
  have howner : serveLoad 8 0x00#8 (encodeLink l) s.mgmt.nextTicket s1 = (u, some (.ok, [])) :=
    serveLoad_of_applyLoad _ hr.idle (lengthOk_encodeLink l)
      ((loadWithin_ofNat (by decide) s1 (0 : Fin 1) fun _ => s1.loadLinkAt _).trans (loadLinkAt_encode hl hstreams hslots))
  have hplaced : s1.Relinked u l := relinked_placeLink s1 l
  have hrequests : u.mgmt.requests = [s.newEntry req 0x01#8 (0x08#8 :: 0x00#8 :: encodeLink l)] := hplaced.requests
  set v := u.replyTo s.mgmt.nextTicket .ok []
  obtain ⟨_, _, hreplied, _, _⟩ := replyTo_only u (s.newEntry req 0x01#8 (0x08#8 :: 0x00#8 :: encodeLink l)) .ok []
    (by rw [hrequests]; rfl)
  have hrest : v = { s1 with link := v.link, mgmt := v.mgmt } :=
    Eq.trans hreplied (congrArg (fun w : State => { w with link := v.link, mgmt := v.mgmt }) hplaced.rest)
  have hexchange : v.exchange = s.exchange := by rw [hrest]; rfl
  have hengine : u.outputs.engineOk = s.outputs.engineOk := by rw [hplaced.rest]; rfl
  have hkept : u.PortKept (State.finish s v) :=
    (portKept_moves (moves_replyTo (μ := fun _ => True) trivial u s.mgmt.nextTicket .ok [])).trans
      (portKept_moves (moves_finish_sending s v))
  have hrun : exec (.loadLink req 0x00#8 (encodeLink l)) s = .next (State.finish s v) :=
    congrArg Host.Outcome.next (requestEvent_answers false hr howner)
  refine ⟨_, hrun, answered_finish (by rw [hrequests]; rfl) hplaced.ticket .ok [], hkept.table.trans hplaced.table,
    hkept.log.trans hplaced.log, fun f hf => hkept.frames f (hplaced.frames f hf),
    hkept.engineOk.trans hengine, ?_⟩
  rw [finish_same s v hexchange]
  exact congrArg (fun w : State => { w with outputs := v.refreshOutputs.outputs }) hrest

end Sys2Proof.Machine
end

section
/-! A record that a load accepts is written back byte for byte (R158, R162): each field that an encoder writes is the slice of the
record that the decoder has read it from, and slices that follow one another join. -/

namespace Sys2Proof.Machine

/-! ### Slices of a record -/

/-- The bytes of a record from an offset on, `n` of them. -/
def slice (r : List Byte) (o n : Nat) : List Byte := (r.drop o).take n

/-- Slices that follow one another join. -/
theorem slice_append (r : List Byte) {o o' a b : Nat} (h : o' = o + a) : slice r o a ++ slice r o' b = slice r o (a + b) := by
  rw [h, slice, slice, slice, List.take_add, List.drop_drop]

theorem slice_whole {r : List Byte} {n : Nat} (h : r.length = n) : slice r 0 n = r := by
  rw [slice, List.drop_zero, ← h, List.take_length]

theorem slice_one {r : List Byte} {i : Nat} (h : i < r.length) : slice r i 1 = [r.getD i 0#8] := by
  rw [slice, List.drop_eq_getElem_cons h, List.take_succ_cons, List.take_zero, List.getD_eq_getElem r 0#8 h]

theorem b8_byteAt {r : List Byte} {i : Nat} (h : i < r.length) : b8 (byteAt r i) = slice r i 1 := by
  rw [slice_one h, b8, byteAt, BitVec.ofNat_toNat, BitVec.setWidth_eq]

theorem b8_of_byteAt {r : List Byte} {i n : Nat} (h : i < r.length) (hn : n = byteAt r i) : b8 n = slice r i 1 := by
  rw [hn, b8_byteAt h]

theorem b16_wordAt {r : List Byte} {i : Nat} (h : i + 1 < r.length) : b16 (wordAt r i) = slice r i 2 := by
  have hlow : (r.getD (i + 1) 0#8).toNat < 256 := (r.getD (i + 1) 0#8).isLt
  have hhigh : (byteAt r i * 256 + byteAt r (i + 1)) / 256 = byteAt r i := by unfold byteAt; omega
  have hrest : BitVec.ofNat 8 (byteAt r i * 256 + byteAt r (i + 1)) = BitVec.ofNat 8 (byteAt r (i + 1)) :=
    BitVec.eq_of_toNat_eq (by simp only [BitVec.toNat_ofNat]; omega)
  have hsplit : b16 (wordAt r i) = b8 (byteAt r i) ++ b8 (byteAt r (i + 1)) := by rw [wordAt, b16, hhigh, hrest]; rfl
  rw [hsplit, b8_byteAt (by omega), b8_byteAt h, slice_append r rfl]

theorem bWord_u16At {r : List Byte} {i : Nat} (h : i + 1 < r.length) : bWord (u16At r i) = slice r i 2 := by
  have hword : wordAt r i < 65536 := by
    have hhigh : (r.getD i 0#8).toNat < 256 := (r.getD i 0#8).isLt
    have hlow : (r.getD (i + 1) 0#8).toNat < 256 := (r.getD (i + 1) 0#8).isLt
    unfold wordAt byteAt
    omega
  rw [bWord, u16At, BitVec.toNat_ofNat, Nat.mod_eq_of_lt hword, b16_wordAt h]

theorem bFlag_flagAt {r : List Byte} {i : Nat} (h : i < r.length) (hflag : flagOk r i = true) : bFlag (flagAt r i) = slice r i 1 := by
  refine b8_of_byteAt h ?_
  have hle : byteAt r i ≤ 1 := by simpa [flagOk] using hflag
  by_cases hone : byteAt r i = 1
  · simp [flagAt, hone]
  · have hzero : byteAt r i = 0 := by omega
    simp [flagAt, hzero]

/-- The present field of a record that is present. -/
theorem b8_present {r : List Byte} (hlen : 0 < r.length) (hpresent : byteAt r 0 ≠ 0) (hflag : flagOk r 0 = true) :
    b8 1 = slice r 0 1 := by
  have hle : byteAt r 0 ≤ 1 := by simpa [flagOk] using hflag
  exact b8_of_byteAt hlen (by omega)

/-! ### FEEDER, BUS and OUTSTATION -/

/-- The partner byte, FFh where there is none. -/
theorem encodeFeeder_eq (x : StreamFields) (p : FeederPlant) : encodeFeeder (x, p)
    = b8 1 ++ bWord x.source ++ b8 x.silence ++ b16 p.sefBase ++ bOpt 1 (fun g : Feeder => b8 g.val) p.partner := by
  obtain ⟨base, partner⟩ := p
  cases partner <;> rfl

theorem bOpt_partnerAt {r : List Byte} (hlen : 6 < r.length) (hbyte : byteAt r 6 = 255 ∨ byteAt r 6 < 8) :
    bOpt 1 (fun g : Feeder => b8 g.val) (partnerAt r) = slice r 6 1 := by
  unfold partnerAt
  split
  · exact b8_byteAt hlen
  · rename_i hnone
    rw [← b8_byteAt hlen, hbyte.resolve_right hnone]
    rfl

/-- A FEEDER record that is accepted is written back. -/
theorem encodeFeeder_decode {f : Feeder} {r : List Byte} {x : StreamFields × FeederPlant} (hlen : r.length = 7)
    (hpresent : byteAt r 0 ≠ 0) (h : decodeFeeder f r = some x) : encodeFeeder x = r := by
  unfold decodeFeeder at h
  split at h
  · rename_i hok
    obtain rfl := Option.some.inj h
    simp only [Bool.and_eq_true, Bool.or_eq_true, beq_iff_eq, decide_eq_true_eq] at hok
    obtain ⟨⟨⟨hflag, _⟩, _⟩, hbyte⟩ := hok
    rw [encodeFeeder_eq, bOpt_partnerAt (by omega) (hbyte.imp_right And.left), b8_present (by omega) hpresent hflag, streamFields,
      bWord_u16At (by omega), b8_byteAt (by omega), b16_wordAt (by omega), slice_append r rfl, slice_append r rfl,
      slice_append r rfl, slice_append r rfl]
    exact slice_whole hlen
  · cases h

/-- A BUS record that is accepted is written back. -/
theorem encodeBus_decode {r : List Byte} {x : StreamFields × BusPlant} (hlen : r.length = 7) (hpresent : byteAt r 0 ≠ 0)
    (h : decodeBus r = some x) : encodeBus x = r := by
  unfold decodeBus at h
  split at h
  · rename_i hok
    obtain rfl := Option.some.inj h
    simp only [Bool.and_eq_true] at hok
    obtain ⟨⟨⟨hflag, _⟩, _⟩, _⟩ := hok
    simp only [encodeBus, streamFields, b8_present (by omega) hpresent hflag]
    rw [bWord_u16At (by omega), b8_byteAt (by omega), b16_wordAt (by omega), b8_byteAt (by omega), slice_append r rfl,
      slice_append r rfl, slice_append r rfl, slice_append r rfl]
    exact slice_whole hlen
  · cases h

theorem code_of_outKindOf {n : Nat} {k : OutKind} (h : outKindOf n = some k) : k.code = n := by
  unfold outKindOf at h
  split at h
  · cases h; rfl
  · cases h; rfl
  · cases h; rfl
  · cases h; rfl
  · cases h

/-- The two flags of an OUTSTATION record, where no further bit is set (log entry 12). -/
theorem bSet_flags {r : List Byte} {i : Nat} (h : i < r.length) (hle : byteAt r i ≤ 3) :
    bSet [byteAt r i % 2 == 1, byteAt r i / 2 % 2 == 1] = slice r i 1 := by
  refine b8_of_byteAt h ?_
  generalize byteAt r i = n at hle
  match n, hle with
  | 0, _ => rfl
  | 1, _ => rfl
  | 2, _ => rfl
  | 3, _ => rfl

/-- An OUTSTATION record that is accepted is written back. -/
theorem encodeOutstation_decode {n : Nat} {r : List Byte} {l : Loaded} (hlen : r.length = 10) (hpresent : byteAt r 0 ≠ 0)
    (h : decodeOutstation n r = some l) : encodeOutstation l = r := by
  unfold decodeOutstation at h
  split at h
  · cases h
  · rename_i k hkind
    dsimp only at h
    split at h
    · rename_i hok
      obtain rfl := Option.some.inj h
      simp only [Bool.and_eq_true, decide_eq_true_eq] at hok
      obtain ⟨⟨⟨⟨⟨⟨hflag, _⟩, _⟩, _⟩, hbits⟩, _⟩, _⟩ := hok
      have hcode : b8 k.code = slice r 3 1 := b8_of_byteAt (by omega) (code_of_outKindOf hkind)
      simp only [encodeOutstation, b8_present (by omega) hpresent hflag, hcode, bSet_flags (by omega : 8 < r.length) hbits]
      rw [bWord_u16At (by omega), b16_wordAt (by omega), b16_wordAt (by omega), b8_byteAt (by omega), slice_append r rfl,
        slice_append r rfl, slice_append r rfl, slice_append r rfl, slice_append r rfl, slice_append r rfl]
      exact slice_whole hlen
    · cases h

/-! ### PROFILE and CURVE -/

/-- The seven bytes of PH_IT or EF_IT within their ranges. -/
theorem encodeIt_itAt {r : List Byte} {o low top : Nat} (hlen : o + 6 < r.length) (h : itOk r o low top = true) :
    encodeIt (itAt r o) = slice r o 7 := by
  simp only [itOk, Bool.and_eq_true, decide_eq_true_eq] at h
  obtain ⟨⟨⟨⟨⟨henable, _⟩, hcurve⟩, _⟩, htimed⟩, _⟩ := h
  have hbank : b8 (bankAt r (o + 3)).val = slice r (o + 3) 1 :=
    b8_of_byteAt (by omega) (Nat.mod_eq_of_lt (by omega))
  simp only [encodeIt, itAt, hbank]
  rw [bFlag_flagAt (by omega) henable, b16_wordAt (by omega), b8_byteAt (by omega), bFlag_flagAt (by omega) htimed,
    b8_byteAt (by omega), slice_append r rfl, slice_append r rfl, slice_append r rfl, slice_append r rfl, slice_append r rfl]

theorem code_sefActionOf {n : Nat} (h : n ≤ 2) : (sefActionOf n).code = n := by
  match n, h with
  | 0, _ => rfl
  | 1, _ => rfl
  | 2, _ => rfl

/-- The fields of a PROFILE record within their ranges. -/
theorem encodeProfile_profileAt {r : List Byte} (hlen : r.length = 50) (hpresent : byteAt r 0 ≠ 0) (hok : profileOk r = true) :
    encodeProfile (profileAt r) = r := by
  simp only [profileOk, Bool.and_eq_true, decide_eq_true_eq] at hok
  obtain ⟨⟨⟨⟨⟨⟨⟨⟨⟨⟨⟨⟨⟨⟨⟨⟨⟨⟨⟨⟨⟨⟨⟨⟨⟨⟨⟨⟨⟨hflag, _⟩, hph⟩, hef⟩, hhs⟩, _⟩, _⟩, hrst⟩, _⟩, hsef⟩, hpair⟩, _⟩, _⟩, _⟩, haction⟩, hlock⟩, _⟩,
      _⟩, _⟩, _⟩, _⟩, _⟩, hfire⟩, hloss⟩, hhunt⟩, hrestore⟩, _⟩, hexhausted⟩, hstep⟩, hbus⟩ := hok
  have hcode : b8 (sefActionOf (byteAt r 29)).code = slice r 29 1 := b8_of_byteAt (by omega) (code_sefActionOf haction)
  have hnd : b8 (byteAt r 48 % 8) = slice r 48 1 := b8_of_byteAt (by omega) (Nat.mod_eq_of_lt (by omega))
  have hflags {i : Nat} (hi : flagOk r i = true) (h : i < 50) : bFlag (flagAt r i) = slice r i 1 := bFlag_flagAt (by omega) hi
  unfold encodeProfile profileAt
  simp only [b8_present (by omega) hpresent hflag, encodeIt_itAt (by omega) hph,
    encodeIt_itAt (by omega) hef, hflags hhs (by decide), hflags hrst (by decide), hflags hsef (by decide),
    hflags hpair (by decide), hcode, hflags hlock (by decide), hflags hfire (by decide), hflags hloss (by decide),
    hflags hhunt (by decide), hflags hrestore (by decide), hflags hexhausted (by decide), hnd, hflags hbus (by decide)]
  simp (disch := omega) only [b8_byteAt, b16_wordAt, slice_append, Nat.reduceAdd]
  exact slice_whole hlen

/-- A PROFILE record that is accepted is written back. -/
theorem encodeProfile_decode {r : List Byte} {p : Profile} (hlen : r.length = 50) (hpresent : byteAt r 0 ≠ 0)
    (h : decodeProfile r = some p) : encodeProfile p = r := by
  unfold decodeProfile at h
  split at h
  · rename_i hok
    rw [← Option.some.inj h]
    exact encodeProfile_profileAt hlen hpresent hok
  · cases h

/-- The words from an offset on are the bytes they were read from. -/
theorem flatMap_wordAt {r : List Byte} {o n : Nat} (h : o + 2 * n ≤ r.length) :
    ((List.range n).flatMap fun k => b16 (wordAt r (o + 2 * k))) = slice r o (2 * n) := by
  induction n with
  | zero => rfl
  | succ n ih =>
    rw [List.range_succ, List.flatMap_append, ih (by omega), List.flatMap_singleton, b16_wordAt (by omega), slice_append r rfl]
    rfl

/-- A CURVE record that is accepted is written back. -/
theorem encodeCurve_decode {r : List Byte} {c : List Nat} (hlen : r.length = 611) (hpresent : byteAt r 0 ≠ 0)
    (h : decodeCurve r = some c) : encodeCurve c = r := by
  unfold decodeCurve at h
  split at h
  · rename_i hok
    obtain rfl := Option.some.inj h
    obtain ⟨hflag, _⟩ := Bool.and_eq_true_iff.1 hok
    have hrates : (ratesFrom r).flatMap b16 = slice r 1 610 := by
      rw [ratesFrom, List.flatMap_map]
      exact flatMap_wordAt (by omega)
    rw [encodeCurve, hrates, b8_present (by omega) hpresent hflag, slice_append r rfl]
    exact slice_whole hlen
  · cases h

/-! ### HUNT_PLAN and BUS_ORDER -/

/-- A list of results that is complete begins with a result and goes on with a complete list. -/
theorem collect_cons_eq_some {α : Type} {x : Option α} {xs : List (Option α)} {l : List α} (h : collect (x :: xs) = some l) :
    ∃ y ys, x = some y ∧ collect xs = some ys ∧ l = y :: ys := by
  cases x with
  | none => cases h
  | some y =>
    cases hxs : collect xs with
    | none => rw [collect, hxs] at h; cases h
    | some ys => rw [collect, hxs] at h; exact ⟨y, ys, rfl, rfl, (Option.some.inj h).symm⟩

theorem b8_toNat (b : Byte) : b8 b.toNat = [b] := by rw [b8, BitVec.ofNat_toNat, BitVec.setWidth_eq]

theorem encodePlanStep_eq (x : PlanStep) :
    encodePlanStep x = b8 x.position.val ++ b8 ((x.indicator.map Fin.val).getD 0) := by
  obtain ⟨position, indicator⟩ := x
  cases indicator <;> rfl

/-- A step that is accepted is written back as the two bytes it was read from. -/
theorem encodePlanStep_of_bytes {a b : Byte} {x : PlanStep} (h : planStepOf (a.toNat, b.toNat) = some x) :
    encodePlanStep x = [a, b] := by
  unfold planStepOf at h
  split at h
  · rw [← Option.some.inj h, encodePlanStep_eq]
    dsimp only
    by_cases hb : b.toNat = 0
    · have hzero : b8 0 = [b] := by rw [← hb, b8_toNat]
      rw [if_pos hb, b8_toNat]
      exact congrArg ([a] ++ ·) hzero
    · rw [if_neg hb, b8_toNat]
      exact congrArg ([a] ++ ·) (b8_toNat b)
  · cases h

/-- The steps of a plan are written back as the bytes they were read from. -/
theorem flatMap_encodePlanStep {n : Nat} {body : List Byte} {p : List PlanStep} (hlen : body.length = 2 * n)
    (h : collect ((pairsOf body).map planStepOf) = some p) : p.flatMap encodePlanStep = body ∧ p.length = n := by
  induction n generalizing body p with
  | zero =>
    obtain rfl := List.length_eq_zero_iff.1 hlen
    obtain rfl := Option.some.inj h
    exact ⟨rfl, rfl⟩
  | succ n ih =>
    match body, hlen with
    | a :: b :: rest, hlen =>
      obtain ⟨x, p', hx, hrest, rfl⟩ := collect_cons_eq_some h
      obtain ⟨hbytes, hcount⟩ := ih (by simp only [List.length_cons] at hlen; omega) hrest
      rw [List.flatMap_cons, encodePlanStep_of_bytes hx, hbytes, List.length_cons, hcount]
      exact ⟨rfl, rfl⟩

/-- A HUNT_PLAN record that is accepted is written back. -/
theorem encodePlan_decode {r : List Byte} {p : List PlanStep} (hlen : r.length = 1 + 2 * byteAt r 0) (h : decodePlan r = some p) :
    encodePlan p = r := by
  match r, hlen with
  | count :: body, hlen =>
    have hbody : body.length = 2 * count.toNat := by
      have : byteAt (count :: body) 0 = count.toNat := rfl
      rw [this, List.length_cons] at hlen
      omega
    unfold decodePlan at h
    split at h
    · split at h
      · cases h
      · rename_i steps hsteps
        split at h
        · obtain rfl := Option.some.inj h
          obtain ⟨hbytes, hcount⟩ := flatMap_encodePlanStep hbody hsteps
          rw [encodePlan, bList, hbytes, hcount, b8_toNat]
          rfl
        · cases h
    · cases h

theorem b8_of_indexOf {n : Nat} {b : Byte} {i : Fin n} (h : indexOf n b = some i) : b8 i.val = [b] := by
  unfold indexOf at h
  split at h
  · obtain rfl := Option.some.inj h
    exact b8_toNat b
  · cases h

/-- The feeders of a bus order are written back as the bytes they were read from. -/
theorem flatMap_feeders {body : List Byte} {fs : List Feeder} (h : collect (body.map (indexOf 8)) = some fs) :
    (fs.flatMap fun f => b8 f.val) = body ∧ fs.length = body.length := by
  induction body generalizing fs with
  | nil =>
    obtain rfl := Option.some.inj h
    exact ⟨rfl, rfl⟩
  | cons b rest ih =>
    obtain ⟨f, fs', hf, hrest, rfl⟩ := collect_cons_eq_some h
    obtain ⟨hbytes, hcount⟩ := ih hrest
    rw [List.flatMap_cons, b8_of_indexOf hf, hbytes, List.length_cons, List.length_cons, hcount]
    exact ⟨rfl, rfl⟩

/-- A BUS_ORDER record that is accepted is written back. -/
theorem encodeBusOrder_decode {r : List Byte} {fs : List Feeder} (hlen : r.length = 1 + byteAt r 0)
    (h : decodeBusOrder r = some fs) : encodeBusOrder fs = r := by
  match r, hlen with
  | count :: body, hlen =>
    have hbody : body.length = count.toNat := by
      have : byteAt (count :: body) 0 = count.toNat := rfl
      rw [this, List.length_cons] at hlen
      omega
    unfold decodeBusOrder at h
    split at h
    · split at h
      · cases h
      · rename_i gs hgs
        split at h
        · obtain rfl := Option.some.inj h
          obtain ⟨hbytes, hcount⟩ := flatMap_feeders (body := body) hgs
          rw [encodeBusOrder, bList, hbytes, hcount, hbody, b8_toNat]
          rfl
        · cases h
    · cases h

/-- Settles O45: every record reads back, and every accepted record but LINK is written back. -/
theorem tableRecordsRoundTrip : Obligations.TableRecordsRoundTrip :=
  ⟨⟨fun _ _ _ => decodeFeeder_encode, fun _ _ => decodeBus_encode, fun _ _ => decodeOutstation_encode, fun _ => decodeProfile_encode,
      fun _ => decodeCurve_encode, fun _ => decodePlan_encode, fun _ => decodeBusOrder_encode, fun _ => decodeLink_encode⟩,
    fun _ _ _ => encodeFeeder_decode, fun _ _ => encodeBus_decode, fun _ _ _ => encodeOutstation_decode,
    fun _ _ => encodeProfile_decode, fun _ _ => encodeCurve_decode, fun _ _ => encodePlan_decode, fun _ _ => encodeBusOrder_decode⟩

end Sys2Proof.Machine
end
